-- ==== Sys2Proof/Word.lean ====
section
/-! DEFINITION. The bit-vector types of the EMI-MBX block (00_scope.md R10, R11).
A byte is 8 bits, a port address or half-word 16 bits, a control register or host address 32 bits. -/

namespace Sys2Proof

/-- A byte (R11). -/
abbrev Byte := BitVec 8

/-- A 16-bit value: a port address, an EC address, a data half, a completion code (R10). -/
abbrev Half := BitVec 16

/-- A 32-bit value: a control register, a host address, a command word, an event descriptor (R10). -/
abbrev Word := BitVec 32

/-- A channel or client index.  At most 16 exist (R9); those below `NCH` are present. -/
abbrev ChanId := Fin 16

end Sys2Proof
end

