-- ==== Sys2Proof/Syntax.lean ====
section
/-! DEFINITION. The instructions of the block: one constructor for each row of
spec/opcode_table.json.  The first four are the client commands (Format C, 30_encoding.md R130, R131).
The other nine are the port-bus events the block issues (Format B, R141, R142). -/

namespace Sys2Proof

/-- One row of the opcode table each. -/
inductive Instr where
  /-- CONFIGURE (R184). -/
  | configure
  /-- XFER_WR, host to EC (R195). -/
  | xferWr
  /-- XFER_RD, EC to host (R196). -/
  | xferRd
  /-- MBOX_EXEC; `noResp` is the `N` bit, "no response expected" (R240). -/
  | mboxExec (noResp : Bool)
  /-- SEL_LO: `out8 EMI+2, v` (R201). -/
  | selLo (v : Byte)
  /-- SEL_HI: `out8 EMI+3, v` (R201). -/
  | selHi (v : Byte)
  /-- DB_WR: `out8 EMI+(4+j), v` (R206). -/
  | dbWr (j : Nat) (v : Byte)
  /-- DB_RD: `in8 EMI+(4+j) -> v`; `v` is the value the EC answered (R207). -/
  | dbRd (j : Nat) (v : Byte)
  /-- DH_WR: `out16 EMI+(4+2h), v` (R208). -/
  | dhWr (h : Nat) (v : Half)
  /-- DH_RD: `in16 EMI+(4+2h) -> v`; `v` is the value the EC answered (R208). -/
  | dhRd (h : Nat) (v : Half)
  /-- STROBE: `out8 CMD, v` (R257). -/
  | strobe (v : Byte)
  /-- STAT_RD: `in8 CMD -> v`; `v` is the command-status byte the EC answered (R261). -/
  | statRd (v : Byte)
  /-- FLAG_RD: `in8 DATA -> v`; `v` is the result flag the EC answered (R266). -/
  | flagRd (v : Byte)
  deriving DecidableEq, Repr

/-- The client commands, the instructions of Format C (R131). -/
def Instr.isCommand : Instr → Bool
  | .configure | .xferWr | .xferRd | .mboxExec _ => true
  | .selLo _ | .selHi _ | .dbWr _ _ | .dbRd _ _ | .dhWr _ _ | .dhRd _ _ => false
  | .strobe _ | .statRd _ | .flagRd _ => false

end Sys2Proof
end

