-- ==== Sys2Proof/WellFormed.lean ====
section
/-! DEFINITION. Which instruction terms the encodings can hold.  A slot index is one of the four data
bytes at window offsets 4 to 7, a half index one of the two 16-bit halves (00_scope.md R22). -/

namespace Sys2Proof

/-- `j` is a slot, 0 to 3, and `h` a half, 0 or 1 (R22, R142); every other field is bounded by its type. -/
def Instr.wellFormed : Instr → Bool
  | .dbWr j _ | .dbRd j _ => decide (j < 4)
  | .dhWr h _ | .dhRd h _ => decide (h < 2)
  | .configure | .xferWr | .xferRd | .mboxExec _ => true
  | .selLo _ | .selHi _ | .strobe _ | .statRd _ | .flagRd _ => true

/-- The instruction has an encoding. -/
abbrev Instr.WellFormed (i : Instr) : Prop := i.wellFormed = true

end Sys2Proof
end

