-- ==== Sys2Proof/Decode.lean ====
section
/-! DEFINITION. The decoder, total on any word and on any bytes, rejecting by name; and the encoder.
Format C is the `CH_CMD` word (30_encoding.md R130 to R132), Format B the bus-event descriptor (R141, R142).
A word is laid out as four bytes, the least significant first (10_state.md R33). -/

namespace Sys2Proof

/-- Why a word or a byte string is no instruction. -/
inductive Reject where
  /-- Fewer than four bytes. -/
  | truncated
  /-- A bit that must be 0 is 1 (R130: bits 7:4 and 31:9; R141: bits 27:19 and, for an 8-bit value, 15:8). -/
  | reservedBits
  /-- `OP` is 0x0 or 0x5 to 0xF (R132). -/
  | badOpcode
  /-- `N = 1` with an opcode other than MBOX_EXEC (R132). -/
  | noRespNotAllowed
  /-- `T = 3` (R141). -/
  | reservedTarget
  /-- A descriptor of a shape the block never issues (R142). -/
  | notIssued
  deriving DecidableEq, Repr

/-- `v[hi:lo]`: the bits `hi` down to `lo` of a word, as a number (00_scope.md R11). -/
def field (w : Word) (hi lo : Nat) : Nat := w.toNat / 2 ^ lo % 2 ^ (hi - lo + 1)

/-- Format C (R130): decode a `CH_CMD` word.  An error is an illegal command word (R132). -/
def decodeCommand (w : Word) : Except Reject Instr :=
  if field w 7 4 ≠ 0 ∨ field w 31 9 ≠ 0 then .error .reservedBits
  else
    let n := decide (field w 8 8 = 1)
    match field w 3 0 with
    | 1 => if n then .error .noRespNotAllowed else .ok .configure
    | 2 => if n then .error .noRespNotAllowed else .ok .xferWr
    | 3 => if n then .error .noRespNotAllowed else .ok .xferRd
    | 4 => .ok (.mboxExec n)
    | _ => .error .badOpcode

/-- An 8-bit event at window offset `off` (R142): `out` is the `D` bit. -/
def decodeWindowByte (out : Bool) (off : Nat) (v : Byte) : Except Reject Instr :=
  if 4 ≤ off then .ok (if out then .dbWr (off - 4) v else .dbRd (off - 4) v)
  else if out ∧ off = 2 then .ok (.selLo v)
  else if out ∧ off = 3 then .ok (.selHi v)
  else .error .notIssued

/-- A 16-bit event at window offset `off` (R142). -/
def decodeWindowHalf (out : Bool) (off : Nat) (v : Half) : Except Reject Instr :=
  if off = 4 then .ok (if out then .dhWr 0 v else .dhRd 0 v)
  else if off = 6 then .ok (if out then .dhWr 1 v else .dhRd 1 v)
  else .error .notIssued

/-- Format B (R141): decode a bus-event descriptor into one of the nine kinds of R142. -/
def decodeEvent (w : Word) : Except Reject Instr :=
  let out := decide (field w 31 31 = 1)
  let wide := decide (field w 30 30 = 1)
  let off := field w 18 16
  let v16 : Half := BitVec.ofNat 16 (field w 15 0)
  let v8 : Byte := BitVec.ofNat 8 (field w 7 0)
  if field w 27 19 ≠ 0 ∨ (¬ wide ∧ field w 15 8 ≠ 0) then .error .reservedBits
  else
    match field w 29 28 with
    | 0 => if wide then decodeWindowHalf out off v16 else decodeWindowByte out off v8
    | 1 => if wide ∨ off ≠ 0 then .error .notIssued else .ok (if out then .strobe v8 else .statRd v8)
    | 2 => if wide ∨ off ≠ 0 ∨ out then .error .notIssued else .ok (.flagRd v8)
    | _ => .error .reservedTarget

/-- Decode a word of either format.  Every Format C word has bits 31:18 clear (R130); every event of R142 has
one of them set. -/
def decodeWord (w : Word) : Except Reject Instr :=
  if field w 31 18 = 0 then decodeCommand w else decodeEvent w

/-- Four bytes, the least significant first, as one word (R33). -/
def wordOfBytes (b0 b1 b2 b3 : Byte) : Word :=
  BitVec.ofNat 32 (b0.toNat + 2 ^ 8 * b1.toNat + 2 ^ 16 * b2.toNat + 2 ^ 24 * b3.toNat)

/-- The four bytes of a word, the least significant first (R33). -/
def bytesOfWord (w : Word) : List Byte :=
  [BitVec.ofNat 8 (field w 7 0), BitVec.ofNat 8 (field w 15 8), BitVec.ofNat 8 (field w 23 16),
    BitVec.ofNat 8 (field w 31 24)]

/-- Decode the instruction at the front of a byte string, and give the bytes after it. -/
def decode : List Byte → Except Reject (Instr × List Byte)
  | b0 :: b1 :: b2 :: b3 :: rest =>
    match decodeWord (wordOfBytes b0 b1 b2 b3) with
    | .ok i => .ok (i, rest)
    | .error r => .error r
  | _ => .error .truncated

/-- The instruction the decoder reads from a table word of `nbits` bits (bit 0 least significant). -/
def decodeTableWord (nbits w : Nat) : Option Instr :=
  if nbits ≤ 32 ∧ w < 2 ^ 32 then
    match decode (bytesOfWord (BitVec.ofNat 32 w)) with
    | .ok (i, _) => some i
    | .error _ => none
  else none

/-! ### The encoder -/

/-- A Format B descriptor (R141) from its fields `D`, `W`, `T`, `OFF`, `V`. -/
def descriptor (d w : Bool) (t off v : Nat) : Word :=
  BitVec.ofNat 32 (2 ^ 31 * d.toNat + 2 ^ 30 * w.toNat + 2 ^ 28 * t + 2 ^ 16 * off + v)

/-- The word of an instruction: the command words of R131 and the descriptors of R142.  An 8-bit value stands in
bits 7:0 with 15:8 zero (R141). -/
def encodeWord : Instr → Word
  | .configure => 0x00000001
  | .xferWr => 0x00000002
  | .xferRd => 0x00000003
  | .mboxExec n => if n then 0x00000104 else 0x00000004
  | .selLo v => descriptor true false 0 2 v.toNat
  | .selHi v => descriptor true false 0 3 v.toNat
  | .dbWr j v => descriptor true false 0 (4 + j) v.toNat
  | .dbRd j v => descriptor false false 0 (4 + j) v.toNat
  | .dhWr h v => descriptor true true 0 (4 + 2 * h) v.toNat
  | .dhRd h v => descriptor false true 0 (4 + 2 * h) v.toNat
  | .strobe v => descriptor true false 1 0 v.toNat
  | .statRd v => descriptor false false 1 0 v.toNat
  | .flagRd v => descriptor false false 2 0 v.toNat

/-- The bytes of an instruction, the least significant first (R33). -/
def encode (i : Instr) : List Byte := bytesOfWord (encodeWord i)

end Sys2Proof
end

