-- ==== Sys2Proof/Machine/Input.lean ====
section
/-! DEFINITION. What the agents around the block can do (00_scope.md R20, 20_memory.md R108): the lines of a
client's program, the EC's own state changes, and the moves of the schedule. -/

namespace Sys2Proof.Machine

/-- The width of a client's host access (10_state.md R33 speaks of accesses of other widths than 32 bits). -/
inductive Width where
  | w8
  | w16
  | w32
  deriving DecidableEq, Repr

/-- One line of a client's program (30_encoding.md R149). -/
inductive ClientOp where
  /-- A write at a host address: `csrw` where the address is a control register's; otherwise host software
  writing its own memory (70_reset_and_hazards.md R337). -/
  | write (addr : Word) (width : Width) (value : Word)
  /-- A read at a host address: `csrr` where the address is a control register's. -/
  | read (addr : Word) (width : Width)
  /-- `wait c`: read `CH_STATUS(c)` until `BUSY` is 0. -/
  | wait (c : Nat)
  deriving DecidableEq, Repr

/-- A change the EC makes to its own state, at any time (20_memory.md R82). -/
inductive EcMove where
  /-- The EC address register becomes `a`. -/
  | setAddr (a : Half)
  /-- One byte of EC memory. -/
  | setMem (a : Half) (b : Byte)
  /-- The host-to-EC flag, window offset 0. -/
  | setHostToEc (b : Byte)
  /-- The EC-to-host flag, window offset 1. -/
  | setEcToHost (b : Byte)
  /-- The command-status register. -/
  | setStatus (b : Byte)
  /-- The data register that holds the result flag. -/
  | setFlag (b : Byte)
  deriving DecidableEq, Repr

/-- What the EC answers if the step reads a port (20_memory.md R82). -/
inductive Answer where
  /-- Any value at all; an 8-bit read takes its low byte. -/
  | draw (v : Half)
  /-- What the EC-side state of State holds: the reference window of R115 to R121 for the EMI window, the
  command-status register at `CMD_PORT`, the result flag at `DATA_PORT`. -/
  | fromEc
  deriving DecidableEq, Repr

/-- One move of the schedule: which agent takes the next step, and the choice that is its environment's
(20_memory.md R108). -/
inductive Input where
  /-- Client `k` executes the next line of its program. -/
  | client (k : ChanId)
  /-- Channel `c` takes a step; a port read in it is answered by `ans`. -/
  | channel (c : ChanId) (ans : Answer)
  /-- The EC changes its own state. -/
  | ec (m : EcMove)
  /-- The clock advances by `d` ticks. -/
  | clock (d : Nat)
  /-- The block is reset (70_reset_and_hazards.md R330). -/
  | reset
  deriving DecidableEq, Repr, Inhabited

end Sys2Proof.Machine
end

