-- ==== Sys2Proof/Config.lean ====
section
/-! DEFINITION. What an implementation fixes: the source's constants (00_scope.md R8), the parameters (R9) as
plain data, and the one free choice of the model, the schedule that no rule fixes. -/

namespace Sys2Proof

/-- Window offsets (R8, `WIN_SIZE`). -/
def winSize : Nat := 8
/-- Bytes of a request or response header (R8, `HDR_SIZE`). -/
def hdrSize : Nat := 8
/-- Bytes of a response payload (R8, `DATA_SIZE`). -/
def dataSize : Nat := 32
/-- The largest request payload (R8, `REQ_MAX`). -/
def reqMax : Nat := 32
/-- Bytes of a whole response (R8, `RESP_TOTAL`). -/
def respTotal : Nat := 40
/-- The busy bits of the command-status register (R8, `BUSY_MASK`). -/
def busyMask : Byte := 0x06
/-- Bytes of control-register space (10_state.md R33). -/
def csrSize : Nat := 0x500

/-- A range of host addresses the platform does not admit (20_memory.md R83), for reads, for writes or both. -/
structure HostRegion where
  base : Nat
  size : Nat
  noRead : Bool
  noWrite : Bool
  deriving DecidableEq, Repr

/-- The parameters of 00_scope.md R9, and the host addresses the platform does not admit (20_memory.md R83).
No step changes them (10_state.md R39, R40). -/
structure Params where
  /-- `NCH`. -/
  nch : Nat
  /-- `PROTO_VERSION`. -/
  protoVersion : Byte
  /-- `MBX_VERSION`. -/
  mbxVersion : Byte
  /-- `START_CMD`. -/
  startCmd : Byte
  /-- `TIMEOUT_TICKS`. -/
  timeoutTicks : Word
  /-- `POLL_DELAY_TICKS`. -/
  pollDelayTicks : Word
  /-- `VALIDATE_RESP_CSUM`. -/
  validateRespCsum : Bool
  /-- `PORT16_ODD_OK`. -/
  port16OddOk : Bool
  /-- `CSR_BASE`. -/
  csrBase : Word
  /-- Host ranges the platform does not admit. -/
  denied : List HostRegion
  deriving DecidableEq, Repr

/-- The ranges of R9: `NCH` is 1 to 16 and `TIMEOUT_TICKS` at least 1.  The control registers are at aligned
addresses that exist (10_state.md R33; notes/assumptions/1.md). -/
def Params.wf (p : Params) : Bool :=
  decide (1 ≤ p.nch ∧ p.nch ≤ 16 ∧ p.timeoutTicks ≠ 0 ∧ p.csrBase.toNat % 4 = 0 ∧
    p.csrBase.toNat + csrSize ≤ 2 ^ 32)

namespace Config

/-- The parameters of State.reset.  PRESUMED: 3, 0 and 0xDA are the suggested defaults of R9, from general
knowledge.  `VALIDATE_RESP_CSUM` false is R9's default.  DESIGN CHOICE: the others, which R9 leaves open
(notes/assumptions/1.md, unsafe for a claim about State.reset alone). -/
def resetParams : Params where
  nch := 2
  protoVersion := 3
  mbxVersion := 0
  startCmd := 0xDA
  timeoutTicks := 1000000
  pollDelayTicks := 10
  validateRespCsum := false
  port16OddOk := false
  csrBase := 0xF0000000
  denied := []

/-- The move the environment makes when the schedule in State is empty: a free value (notes/assumptions/3.md,
safe).  Nothing about it can be proved. -/
opaque freeInput : Nat → Machine.Input

end Config

end Sys2Proof
end

