-- ==== Sys2Proof/Machine/State.lean ====
section
/-! DEFINITION. The state of the block (10_state.md R30) and of what it drives (section 7), as plain data; the
reasons a step can stop; and the state after reset (R69). -/

namespace Sys2Proof.Machine

/-- A byte memory: address and byte pairs, addresses strictly rising, no entry equal to what an unlisted address
reads as. -/
abbrev Memory := List Host.Cell

/-- `CH_STATUS.STATE` (30_encoding.md R137); the codes are in Flags.lean. -/
inductive SeqState where
  | idle
  | xWait
  | xHead
  | xBulk
  | xTail
  | mWait
  | headerBuilt
  | transmitted
  | commandStarted
  | noResponseExpected
  | awaitingResponse
  | responseReading
  | responseRead
  | done
  | timedOut
  | resultFlagBad
  | sizeMismatch
  | insufficientData
  | resultCodeBad
  | checksumBad
  | rejected
  deriving DecidableEq, Repr

/-- `CH_RESULT.KIND` (R138); the codes are in Flags.lean. -/
inductive Kind where
  | ok
  | timeout
  | deviceFlag
  | deviceResult
  | sizeMismatch
  | insufficientData
  | badChecksum
  | badCommand
  | badArgument
  | alreadyConfigured
  | unconfigured
  deriving DecidableEq, Repr

/-- The direction of a transfer (10_state.md R53). -/
inductive Dir where
  /-- Host to EC. -/
  | wr
  /-- EC to host. -/
  | rd
  deriving DecidableEq, Repr

/-- The phases of a transfer (41_transfer.md R205). -/
inductive Phase where
  | head
  | bulk
  | tail
  deriving DecidableEq, Repr

/-- The EC's access modes (30_encoding.md R143). -/
inductive AccessMode where
  | byte
  | word
  | long
  | longAutoincrement
  deriving DecidableEq, Repr

/-- One operation of a transfer's list (41_transfer.md R201, R205). -/
inductive BusOp where
  /-- SEL_LO of the value `v`. -/
  | selLo (v : Byte) (ph : Phase)
  /-- SEL_HI of the value `v`. -/
  | selHi (v : Byte) (ph : Phase)
  /-- BYTE: buffer index `idx` through data slot `slot`. -/
  | byte (slot idx : Nat) (ph : Phase)
  /-- HALF: buffer indices `idx` and `idx + 1` through data half `half`. -/
  | half (half idx : Nat) (ph : Phase)
  deriving DecidableEq, Repr

/-- The buffer bound to a transfer (10_state.md R53). -/
inductive Buf where
  /-- Host memory at a base address: a direct transfer. -/
  | host (base : Word)
  /-- `TXBUF` at an offset: a mailbox sub-transfer. -/
  | txbuf (off : Nat)
  /-- `RXBUF` at an offset: a mailbox sub-transfer. -/
  | rxbuf (off : Nat)
  deriving DecidableEq, Repr

/-- What happens after a transfer's last operation (10_state.md R53; 42_mailbox.md R246, R252, R266). -/
inductive Ret where
  | complete
  | sendPayload
  | sent
  | validate
  deriving DecidableEq, Repr

/-- The transfer context `XC[c]` (10_state.md R53). -/
structure XferCtx where
  dir : Dir
  /-- The start EC address. -/
  ec : Half
  /-- The length in bytes. -/
  n : Nat
  buf : Buf
  ops : List BusOp
  pos : Nat
  sum : Byte
  ret : Ret
  deriving DecidableEq, Repr

/-- The mailbox step `MC[c].step` (42_mailbox.md). -/
inductive MboxStep where
  | lock
  | build
  | sendHdr
  | sendPayload
  | strobe
  | poll
  | flag
  | read
  | validate
  deriving DecidableEq, Repr

/-- The mailbox context `MC[c]` (10_state.md R57). -/
structure MboxCtx where
  step : MboxStep
  /-- The time of the start strobe. -/
  t0 : Nat
  /-- The earliest time of the next status poll. -/
  tnext : Nat
  /-- The request length `L`. -/
  len : Nat
  deriving DecidableEq, Repr

/-- A channel: its registers (10_state.md R42 to R48) and its hidden contexts (R53, R57). -/
structure Channel where
  op : BitVec 4
  noresp : Bool
  busy : Bool
  done : Bool
  wdrop : Bool
  noop : Bool
  state : SeqState
  kind : Kind
  code : Half
  arg0 : Word
  arg1 : Word
  arg2 : Word
  arg3 : Word
  arg4 : Word
  sum : Byte
  xc : Option XferCtx
  mc : Option MboxCtx
  /-- The command in flight has issued a port event: what completion asks for `NOOP` (60_exceptions.md R300;
  notes/assumptions/17.md). -/
  evented : Bool
  deriving DecidableEq, Repr

/-- The transfer-engine lock (10_state.md R51). -/
inductive XLock where
  | free
  | held (owner : ChanId) (viaMbx : Bool)
  deriving DecidableEq, Repr

/-- The mailbox-transaction lock (10_state.md R51). -/
inductive MLock where
  | free
  | held (owner : ChanId)
  deriving DecidableEq, Repr

/-- EC-side state (10_state.md section 7).  The window's part is the reference window of 20_memory.md R115 to
R121; no rule of the block depends on it (notes/assumptions/5.md). -/
structure EcSide where
  /-- The EC address register `A`: unit base in bits 15:2, mode in bits 1:0 (R63, R116). -/
  addr : Half
  /-- EC memory `M` (R65, R115). -/
  mem : Memory
  /-- Window offset 0 (R62). -/
  hostToEc : Byte
  /-- Window offset 1 (R62). -/
  ecToHost : Byte
  /-- The command-status register (R67). -/
  status : Byte
  /-- The data register that supplies the result flag (R68). -/
  flag : Byte
  deriving DecidableEq, Repr

/-- A client: the lines of its program still to run, and the word its last read returned. -/
structure Client where
  prog : List ClientOp
  rdata : Word
  deriving DecidableEq, Repr

/-- One port event as it happened (20_memory.md R95, R96): the channel that issued it, its Format B descriptor
(30_encoding.md R141) and the port address it went to (20_memory.md R84). -/
structure PortEvent where
  chan : ChanId
  word : Word
  port : Half
  deriving DecidableEq, Repr

/-- The whole machine: the block, what it drives, its agents, and the schedule. -/
structure State where
  /-- The parameters, as `PARAM`, `TIMEOUT` and `POLL_DELAY` report them (10_state.md R39, R40). -/
  params : Params
  emiBase : Half
  emiEnd : Half
  cmdPort : Half
  dataPort : Half
  cfgLocked : Bool
  xlock : XLock
  mlock : MLock
  chans : Vector Channel 16
  txbuf : Vector Byte 40
  rxbuf : Vector Byte 40
  /-- The time input (60_exceptions.md R314). -/
  now : Nat
  /-- Host memory (20_memory.md R83). -/
  hostMem : Memory
  ec : EcSide
  clients : Vector Client 16
  /-- Every port event so far, oldest first (20_memory.md R96). -/
  trace : List PortEvent
  /-- The moves that come next (notes/assumptions/3.md). -/
  sched : List Input
  /-- How many moves the free schedule has given. -/
  drawn : Nat
  /-- The channel the current step acts on. -/
  sel : ChanId
  deriving DecidableEq, Repr

/-- Why exec stops.  Both say that the event asked for is not a step of the block in this state; the machine's
step never asks for one (notes/assumptions/13.md). -/
inductive Fault where
  /-- Raised by the meaning of a port event when the selected channel's next step does not issue that event
  (20_memory.md R94, 30_encoding.md R142).  Safe: nothing is claimed of a step the block does not take. -/
  | eventNotIssued
  /-- Raised by the meaning of a data event when the platform does not admit the host access that belongs to it:
  the channel has no step (20_memory.md R83).  Safe, as above. -/
  | hostAccessNotAdmitted
  deriving DecidableEq, Repr

/-- Why exec refuses. -/
inductive Refusal where
  /-- Raised by exec's arm of an instruction that has no meaning yet; none is left.  Safe. -/
  | notModelled (mnemonic : String)
  deriving DecidableEq, Repr

/-- A channel after reset (R69). -/
def Channel.reset : Channel where
  op := 0
  noresp := false
  busy := false
  done := false
  wdrop := false
  noop := false
  state := .idle
  kind := .ok
  code := 0
  arg0 := 0
  arg1 := 0
  arg2 := 0
  arg3 := 0
  arg4 := 0
  sum := 0
  xc := none
  mc := none
  evented := false

/-- EC-side state when the machine starts.  DESIGN CHOICE: the spec gives none (notes/assumptions/2.md, unsafe). -/
def EcSide.start : EcSide where
  addr := 0
  mem := []
  hostToEc := 0
  ecToHost := 0
  status := 0
  flag := 0

/-- The machine after reset with the parameters `p`: the block's state as R69 gives it.  DESIGN CHOICE: the state
outside the block, which reset does not touch (R70), starts at zero and empty (notes/assumptions/2.md). -/
def State.resetWith (p : Params) : State where
  params := p
  emiBase := 0
  emiEnd := 0
  cmdPort := 0
  dataPort := 0
  cfgLocked := false
  xlock := .free
  mlock := .free
  chans := Vector.replicate 16 Channel.reset
  txbuf := Vector.replicate 40 0
  rxbuf := Vector.replicate 40 0
  now := 0
  hostMem := []
  ec := EcSide.start
  clients := Vector.replicate 16 ⟨[], 0⟩
  trace := []
  sched := []
  drawn := 0
  sel := 0

/-- The machine right after reset (R69, R331), with the parameters of Config (notes/assumptions/1.md). -/
def State.reset : State := State.resetWith Config.resetParams

end Sys2Proof.Machine
end

