-- ==== Sys2Proof/Machine/Flags.lean ====
section
/-! DEFINITION. Status codes and the words software reads: the flags of 10_state.md R49, the codes of
30_encoding.md R137 and R138, and the register words of 10_state.md R36 to R48. -/

namespace Sys2Proof.Machine

/-- The code of a sequencer state (30_encoding.md R137). -/
def SeqState.toCode : SeqState → Byte
  | .idle => 0x00
  | .xWait => 0x02
  | .xHead => 0x03
  | .xBulk => 0x04
  | .xTail => 0x05
  | .mWait => 0x10
  | .headerBuilt => 0x11
  | .transmitted => 0x12
  | .commandStarted => 0x13
  | .noResponseExpected => 0x14
  | .awaitingResponse => 0x15
  | .responseReading => 0x16
  | .responseRead => 0x17
  | .done => 0x20
  | .timedOut => 0x21
  | .resultFlagBad => 0x22
  | .sizeMismatch => 0x23
  | .insufficientData => 0x24
  | .resultCodeBad => 0x25
  | .checksumBad => 0x26
  | .rejected => 0x27

/-- The state is one a completion leaves (R137). -/
def SeqState.isTerminal : SeqState → Bool
  | .done | .timedOut | .resultFlagBad | .sizeMismatch => true
  | .insufficientData | .resultCodeBad | .checksumBad | .rejected => true
  | .idle | .xWait | .xHead | .xBulk | .xTail | .mWait | .headerBuilt | .transmitted => false
  | .commandStarted | .noResponseExpected | .awaitingResponse | .responseReading | .responseRead => false

/-- The code of an error kind (30_encoding.md R138). -/
def Kind.toCode : Kind → Byte
  | .ok => 0x00
  | .timeout => 0x01
  | .deviceFlag => 0x02
  | .deviceResult => 0x03
  | .sizeMismatch => 0x04
  | .insufficientData => 0x05
  | .badChecksum => 0x06
  | .badCommand => 0x10
  | .badArgument => 0x11
  | .alreadyConfigured => 0x12
  | .unconfigured => 0x13

/-- The sequencer state of a direct transfer whose next operation is in phase `ph` (30_encoding.md R137). -/
def Phase.seqState : Phase → SeqState
  | .head => .xHead
  | .bulk => .xBulk
  | .tail => .xTail

/-- `NOOP` at completion (R139): the kind is OK and the command issued no port event. -/
def noopAtCompletion (kind : Kind) (evented : Bool) : Bool := decide (kind = .ok) && !evented

/-- The busy test on the command-status byte (30_encoding.md R145): write-pending or EC-busy. -/
def ecBusy (status : Byte) : Bool := decide (status &&& busyMask ≠ 0)

/-- One bit as a 32-bit word with that bit at position `k`. -/
def bitAt (b : Bool) (k : Nat) : Word := if b then 1 <<< k else 0

/-- The window is configured (40_control.md R186). -/
def State.configured (s : State) : Bool := decide (s.emiBase ≠ 0) && decide (s.emiEnd ≠ 0)

/-- `CFG_STATUS` (10_state.md R36). -/
def State.cfgStatusWord (s : State) : Word := bitAt s.configured 0 ||| bitAt s.cfgLocked 1

/-- A channel index as a field at bit `k`. -/
def ownerAt (c : ChanId) (k : Nat) : Word := BitVec.ofNat 32 c.val <<< k

/-- The transfer-engine lock's part of `LOCK_STATUS` (10_state.md R38). -/
def XLock.word : XLock → Word
  | .free => 0
  | .held c via => bitAt true 0 ||| bitAt via 1 ||| ownerAt c 4

/-- The mailbox lock's part of `LOCK_STATUS` (10_state.md R38). -/
def MLock.word : MLock → Word
  | .free => 0
  | .held c => bitAt true 8 ||| ownerAt c 12

/-- `LOCK_STATUS` (10_state.md R38). -/
def State.lockStatusWord (s : State) : Word := s.xlock.word ||| s.mlock.word

/-- `PARAM` (10_state.md R39). -/
def paramWord (p : Params) : Word :=
  BitVec.ofNat 32 (p.nch % 32) ||| bitAt p.validateRespCsum 5 ||| bitAt p.port16OddOk 6 |||
    (p.protoVersion.setWidth 32 <<< 8) ||| (p.mbxVersion.setWidth 32 <<< 16) |||
    (p.startCmd.setWidth 32 <<< 24)

/-- `CH_STATUS` (10_state.md R44, 30_encoding.md R136). -/
def Channel.statusWord (ch : Channel) : Word :=
  bitAt ch.busy 0 ||| bitAt ch.done 1 ||| bitAt ch.wdrop 2 ||| bitAt ch.noop 3 |||
    (ch.state.toCode.setWidth 32 <<< 8)

/-- `CH_RESULT` (10_state.md R46, 30_encoding.md R136). -/
def Channel.resultWord (ch : Channel) : Word :=
  ch.kind.toCode.setWidth 32 ||| (ch.code.setWidth 32 <<< 16)

/-- `CH_SUM` (10_state.md R48). -/
def Channel.sumWord (ch : Channel) : Word := ch.sum.setWidth 32

/-- A write of `w` to `CH_STATUS`: `DONE` and `WDROP` are cleared by writing 1 (40_control.md R178). -/
def Channel.clearStatus (ch : Channel) (w : Word) : Channel :=
  { ch with done := ch.done && decide (field w 1 1 = 0), wdrop := ch.wdrop && decide (field w 2 2 = 0) }

end Sys2Proof.Machine
end

