-- ==== Sys2Proof/Machine/Operands.lean ====
section
/-! DEFINITION. The operands of the commands: fields of the argument registers (30_encoding.md R133, R134), and
the acceptance checks on them in the order each command's rule gives (R135, 60_exceptions.md R296). -/

namespace Sys2Proof.Machine

/-- The low half of an argument register. -/
def lowHalf (w : Word) : Half := BitVec.ofNat 16 (field w 15 0)

/-- Bits 31:16 of an argument register of the form "in 15:0" are 0 (R133). -/
def upperClear (w : Word) : Bool := decide (field w 31 16 = 0)

/-- `EC_ADDR` of a transfer (R134). -/
def Channel.ecAddr (ch : Channel) : Half := lowHalf ch.arg0
/-- `HOST_ADDR` of a transfer. -/
def Channel.hostAddr (ch : Channel) : Word := ch.arg1
/-- `LEN` of a transfer. -/
def Channel.len (ch : Channel) : Nat := ch.arg2.toNat
/-- `MAILBOX_ID` of MBOX_EXEC. -/
def Channel.mailboxId (ch : Channel) : Half := lowHalf ch.arg0
/-- `REQ_ADDR` of MBOX_EXEC. -/
def Channel.reqAddr (ch : Channel) : Word := ch.arg1
/-- `REQ_LEN` of MBOX_EXEC. -/
def Channel.reqLen (ch : Channel) : Nat := ch.arg2.toNat
/-- `RESP_ADDR` of MBOX_EXEC. -/
def Channel.respAddr (ch : Channel) : Word := ch.arg3
/-- `RESP_LEN` of MBOX_EXEC. -/
def Channel.respLen (ch : Channel) : Nat := ch.arg4.toNat

/-- The `k`-th argument register, `k` from 0 to 4. -/
def Channel.arg (ch : Channel) (k : Fin 5) : Word :=
  match k with
  | 0 => ch.arg0
  | 1 => ch.arg1
  | 2 => ch.arg2
  | 3 => ch.arg3
  | 4 => ch.arg4

/-- Store the `k`-th argument register (40_control.md R172). -/
def Channel.setArg (ch : Channel) (k : Fin 5) (v : Word) : Channel :=
  match k with
  | 0 => { ch with arg0 := v }
  | 1 => { ch with arg1 := v }
  | 2 => { ch with arg2 := v }
  | 3 => { ch with arg3 := v }
  | 4 => { ch with arg4 := v }

/-- CONFIGURE's argument checks (40_control.md R184, R185): the index of the offending register, if any. -/
def Channel.configureBadArg (ch : Channel) (port16OddOk : Bool) : Option Half :=
  if !upperClear ch.arg0 then some 0
  else if !upperClear ch.arg1 then some 1
  else if !upperClear ch.arg2 then some 2
  else if !upperClear ch.arg3 then some 3
  else if !port16OddOk && decide (lowHalf ch.arg0 ≠ 0) && decide ((lowHalf ch.arg0).toNat % 2 = 1) then some 0
  else none

/-- The argument checks of a direct transfer (41_transfer.md R197, R198). -/
def Channel.xferBadArg (ch : Channel) : Option Half :=
  if !upperClear ch.arg0 then some 0
  else if ch.hostAddr.toNat + ch.len > 2 ^ 32 then some 1
  else if ch.ecAddr.toNat + ch.len > 0x10000 then some 2
  else none

/-- MBOX_EXEC's argument checks (42_mailbox.md R240): in the order 0, 2, 1, 3, the last only when a response is
expected. -/
def Channel.mboxBadArg (ch : Channel) (noResp : Bool) : Option Half :=
  if !upperClear ch.arg0 then some 0
  else if ch.reqLen > reqMax then some 2
  else if ch.reqAddr.toNat + ch.reqLen > 2 ^ 32 then some 1
  else if !noResp && decide (ch.respAddr.toNat + min ch.respLen 32 > 2 ^ 32) then some 3
  else none

end Sys2Proof.Machine
end

