-- ==== Sys2Proof/Machine/Memory.lean ====
section
/-! DEFINITION. Byte memories in one canonical form, and the byte arithmetic of 00_scope.md R12, R13. -/

namespace Sys2Proof.Machine

/-- `LE16(b0, b1) = b0 + 256 b1` (R13). -/
def le16 (b0 b1 : Byte) : Half := BitVec.ofNat 16 (b0.toNat + 256 * b1.toNat)

/-- `lo(w) = w[7:0]` (R13). -/
def loByte (w : Half) : Byte := BitVec.ofNat 8 (w.toNat % 256)

/-- `hi(w) = w[15:8]` (R13). -/
def hiByte (w : Half) : Byte := BitVec.ofNat 8 (w.toNat / 256)

/-- `sum8` of a byte sequence: the sum of its bytes mod 256 (R12). -/
def sum8 : List Byte → Byte
  | [] => 0
  | b :: bs => b + sum8 bs

/-- `neg8(x) = (256 - x) mod 256` (R12). -/
def neg8 (x : Byte) : Byte := 0 - x

/-- What an address that no entry lists reads as.  DESIGN CHOICE: the spec gives no contents of host or EC memory
(notes/assumptions/7.md, 8.md; unsafe for a claim about State.reset alone). -/
def unlistedByte : Byte := 0

/-- Read one byte. -/
def Memory.read : Memory → Nat → Byte
  | [], _ => unlistedByte
  | (k, v) :: rest, a => if k = a then v else Memory.read rest a

/-- An entry put in front of `rest`, unless it says what an unlisted address says. -/
def Memory.entry (a : Nat) (b : Byte) (rest : Memory) : Memory :=
  if b = unlistedByte then rest else (a, b) :: rest

/-- Write one byte, keeping the canonical form. -/
def Memory.write : Memory → Nat → Byte → Memory
  | [], a, b => Memory.entry a b []
  | (k, v) :: rest, a, b =>
    if a < k then Memory.entry a b ((k, v) :: rest)
    else if a = k then Memory.entry a b rest
    else (k, v) :: Memory.write rest a b

/-- The addresses rise strictly from `lo` on, and no entry says what an unlisted address says. -/
def Memory.wfFrom (lo : Nat) : Memory → Bool
  | [] => true
  | (k, v) :: rest => decide (lo ≤ k) && decide (v ≠ unlistedByte) && Memory.wfFrom (k + 1) rest

/-- The canonical form. -/
def Memory.wf (m : Memory) : Bool := Memory.wfFrom 0 m

/-- Every listed address is below `bound`. -/
def Memory.below (bound : Nat) (m : Memory) : Bool := m.all fun kv => decide (kv.1 < bound)

end Sys2Proof.Machine
end

