-- ==== Sys2Proof/Machine/RefWindow.lean ====
section
/-! DEFINITION. The reference EC window (20_memory.md R115 to R121): one deterministic EC-side behaviour of the EMI
window.  It is not a rule of the block: State's EC side follows it between the EC's own moves, and a port read is
answered by it only where the schedule says so (notes/assumptions/5.md). -/

namespace Sys2Proof.Machine

/-- The unit base, `A & 0xFFFC` (R116). -/
def EcSide.unitBase (e : EcSide) : Nat := (e.addr &&& 0xFFFC).toNat

/-- The address of slot `j` in EC memory, `(A & 0xFFFC) + j` (R117). -/
def EcSide.slotAddr (e : EcSide) (j : Nat) : Nat := e.unitBase + j

/-- After an access that reaches slot 3 in long-autoincrement mode, `A` moves to the next unit (R119). -/
def EcSide.autoIncrement (e : EcSide) : EcSide :=
  if e.addr &&& 3 = 3 then { e with addr := ((e.addr &&& 0xFFFC) + 4) ||| 3 } else e

/-- Autoincrement if the access just made reached slot 3 (R119). -/
def EcSide.afterSlot (e : EcSide) (j : Nat) : EcSide := if j = 3 then e.autoIncrement else e

/-- The byte an 8-bit read of slot `j` returns (R117). -/
def EcSide.slotByte (e : EcSide) (j : Nat) : Byte := e.mem.read (e.slotAddr j)

/-- Store the byte of slot `j` (R117). -/
def EcSide.setSlot (e : EcSide) (j : Nat) (v : Byte) : EcSide :=
  { e with mem := e.mem.write (e.slotAddr j) v }

/-- The value a 16-bit read of half `h` returns (R118, R86). -/
def EcSide.halfValue (e : EcSide) (h : Nat) : Half := le16 (e.slotByte (2 * h)) (e.slotByte (2 * h + 1))

/-- An 8-bit write of `v` to window offset `off` (R116, R117, R119, R121). -/
def EcSide.write8 (e : EcSide) (off : Nat) (v : Byte) : EcSide :=
  match off with
  | 0 => { e with hostToEc := v }
  | 1 => { e with ecToHost := v }
  | 2 => { e with addr := le16 v (hiByte e.addr) }
  | 3 => { e with addr := le16 (loByte e.addr) v }
  | j + 4 => (e.setSlot j v).afterSlot j

/-- The byte an 8-bit read of window offset `off` returns (R116, R117, R121). -/
def EcSide.read8 (e : EcSide) (off : Nat) : Byte :=
  match off with
  | 0 => e.hostToEc
  | 1 => e.ecToHost
  | 2 => loByte e.addr
  | 3 => hiByte e.addr
  | j + 4 => e.slotByte j

/-- A 16-bit write of `v` to half `h` (R118, R119). -/
def EcSide.writeHalf (e : EcSide) (h : Nat) (v : Half) : EcSide :=
  ((e.setSlot (2 * h) (loByte v)).setSlot (2 * h + 1) (hiByte v)).afterSlot (2 * h + 1)

/-- What a port event leaves on the EC side: the window's writes, and the autoincrement of its reads.  The strobe,
the status read and the flag read change nothing that the spec gives (20_memory.md R96, items 3 and 4). -/
def EcSide.afterEvent (e : EcSide) : Instr → EcSide
  | .selLo v => e.write8 2 v
  | .selHi v => e.write8 3 v
  | .dbWr j v => e.write8 (j + 4) v
  | .dbRd j _ => e.afterSlot j
  | .dhWr h v => e.writeHalf h v
  | .dhRd h _ => e.afterSlot (2 * h + 1)
  | .strobe _ | .statRd _ | .flagRd _ => e
  | .configure | .xferWr | .xferRd | .mboxExec _ => e

/-- A change the EC makes to its own state (R82). -/
def EcSide.move (e : EcSide) : EcMove → EcSide
  | .setAddr a => { e with addr := a }
  | .setMem a b => { e with mem := e.mem.write a.toNat b }
  | .setHostToEc b => { e with hostToEc := b }
  | .setEcToHost b => { e with ecToHost := b }
  | .setStatus b => { e with status := b }
  | .setFlag b => { e with flag := b }

/-- The low or whole 16-bit value of an answer to a read of the EC side that would return `own` (R82). -/
def Answer.half (ans : Answer) (own : Half) : Half :=
  match ans with
  | .draw v => v
  | .fromEc => own

/-- The byte of an answer to an 8-bit read that would return `own` (R82). -/
def Answer.byte (ans : Answer) (own : Byte) : Byte :=
  match ans with
  | .draw v => loByte v
  | .fromEc => own

end Sys2Proof.Machine
end

