-- ==== Sys2Proof/Machine/Ops.lean ====
section
/-! DEFINITION. The shared operations: channel registers, host memory, buffers, command acceptance
(40_control.md R173, R174), port events (20_memory.md R95, R96) and completion (60_exceptions.md R300). -/

namespace Sys2Proof.Machine

/-! ### Channels -/

/-- Channel `c`. -/
def State.chan (s : State) (c : ChanId) : Channel := s.chans[c]

/-- Replace channel `c`. -/
def State.setChan (s : State) (c : ChanId) (ch : Channel) : State :=
  { s with chans := s.chans.set c.val ch c.isLt }

/-- Change channel `c` by `f`. -/
def State.modChan (s : State) (c : ChanId) (f : Channel → Channel) : State := s.setChan c (f (s.chan c))

/-- The mailbox step of channel `c` becomes `st`. -/
def Channel.setMboxStep (ch : Channel) (st : MboxStep) : Channel :=
  { ch with mc := ch.mc.map fun m => { m with step := st } }

/-- Channel `c` is one of the block's channels (10_state.md R41, R42). -/
def State.present (s : State) (c : ChanId) : Bool := decide (c.val < s.params.nch)

/-! ### One field at a time -/

/-- Channel `c` is the one the step acts on (notes/assumptions/17.md). -/
def State.select (s : State) (c : ChanId) : State := { s with sel := c }

/-- CONFIGURE takes effect (40_control.md R184): the four window registers, and `CFG_LOCKED`. -/
def State.setWindow (s : State) (base end_ cmd data : Half) : State :=
  { s with emiBase := base, emiEnd := end_, cmdPort := cmd, dataPort := data, cfgLocked := true }

/-- XLOCK becomes `l`. -/
def State.setXlock (s : State) (l : XLock) : State := { s with xlock := l }

/-- MLOCK becomes `l`. -/
def State.setMlock (s : State) (l : MLock) : State := { s with mlock := l }

/-- `TXBUF` becomes `b`. -/
def State.setTxbuf (s : State) (b : Vector Byte 40) : State := { s with txbuf := b }

/-- `RXBUF` becomes `b`. -/
def State.setRxbuf (s : State) (b : Vector Byte 40) : State := { s with rxbuf := b }

/-- Host memory becomes `m`. -/
def State.setHostMem (s : State) (m : Memory) : State := { s with hostMem := m }

/-- The EC side becomes `e`. -/
def State.setEc (s : State) (e : EcSide) : State := { s with ec := e }

/-- The time input becomes `n`. -/
def State.setNow (s : State) (n : Nat) : State := { s with now := n }

/-- The schedule becomes `l`. -/
def State.setSched (s : State) (l : List Input) : State := { s with sched := l }

/-- The free schedule has given `n` moves. -/
def State.setDrawn (s : State) (n : Nat) : State := { s with drawn := n }

/-! ### Clients -/

/-- Client `k`. -/
def State.client (s : State) (k : ChanId) : Client := s.clients[k]

/-- Replace client `k`. -/
def State.setClient (s : State) (k : ChanId) (cl : Client) : State :=
  { s with clients := s.clients.set k.val cl k.isLt }

/-! ### Host memory (20_memory.md R83, R97) -/

/-- The region holds the address. -/
def regionHolds (r : HostRegion) (a : Nat) : Bool := decide (r.base ≤ a ∧ a < r.base + r.size)

/-- The platform admits a read at `a`. -/
def admitsRead (p : Params) (a : Word) : Bool := !p.denied.any fun r => r.noRead && regionHolds r a.toNat

/-- The platform admits a write at `a`. -/
def admitsWrite (p : Params) (a : Word) : Bool := !p.denied.any fun r => r.noWrite && regionHolds r a.toNat

/-- `MemRead(a, 1)` (00_scope.md R16); none where the platform does not admit it. -/
def State.hostRead (s : State) (a : Word) : Option Byte :=
  if admitsRead s.params a then some (s.hostMem.read a.toNat) else none

/-- `MemWrite(a, 1, v)` (00_scope.md R16); none where the platform does not admit it. -/
def State.hostWrite (s : State) (a : Word) (v : Byte) : Option State :=
  if admitsWrite s.params a then some (s.setHostMem (s.hostMem.write a.toNat v)) else none

/-- The `n` single-byte reads at `a` to `a + n - 1`, ascending (00_scope.md R16). -/
def State.hostReads (s : State) (a : Word) : Nat → Option (List Byte)
  | 0 => some []
  | n + 1 =>
    match s.hostRead a, s.hostReads (a + 1) n with
    | some b, some bs => some (b :: bs)
    | _, _ => none

/-- The single-byte writes of a byte sequence at `a`, ascending (20_memory.md R97). -/
def State.hostWrites (s : State) (a : Word) : List Byte → Option State
  | [] => some s
  | b :: bs =>
    match s.hostWrite a b with
    | some s' => s'.hostWrites (a + 1) bs
    | none => none

/-! ### The buffers bound to a transfer (10_state.md R53; 41_transfer.md R206, R207) -/

/-- A byte of a 40-byte buffer. -/
def bufByte (b : Vector Byte 40) (i : Nat) : Byte := b[i]?.getD 0

/-- The host address of buffer index `i` of a buffer at `base`. -/
def hostIndex (base : Word) (i : Nat) : Word := base + BitVec.ofNat 32 i

/-- `src(i)`; none where the platform does not admit the host read. -/
def State.src (s : State) (b : Buf) (i : Nat) : Option Byte :=
  match b with
  | .host base => s.hostRead (hostIndex base i)
  | .txbuf off => some (bufByte s.txbuf (off + i))
  | .rxbuf off => some (bufByte s.rxbuf (off + i))

/-- `dst(i) <- v`; none where the platform does not admit the host write. -/
def State.dst (s : State) (b : Buf) (i : Nat) (v : Byte) : Option State :=
  match b with
  | .host base => s.hostWrite (hostIndex base i) v
  | .txbuf off => some (s.setTxbuf (s.txbuf.setIfInBounds (off + i) v))
  | .rxbuf off => some (s.setRxbuf (s.rxbuf.setIfInBounds (off + i) v))

/-- Two bytes at indices `i` and `i + 1`, ascending. -/
def State.dst2 (s : State) (b : Buf) (i : Nat) (v0 v1 : Byte) : Option State :=
  match s.dst b i v0 with
  | some s' => s'.dst b (i + 1) v1
  | none => none

/-- A transfer of the framer's buffers is a mailbox sub-transfer (20_memory.md R100). -/
def Buf.viaMbx : Buf → Bool
  | .host _ => false
  | .txbuf _ | .rxbuf _ => true

/-! ### Port events (20_memory.md R84, R94 to R96) -/

/-- The port address an event goes to (30_encoding.md R141); none for a command. -/
def State.eventPort (s : State) : Instr → Option Half
  | .selLo _ => some (s.emiBase + 2)
  | .selHi _ => some (s.emiBase + 3)
  | .dbWr j _ | .dbRd j _ => some (s.emiBase + BitVec.ofNat 16 (4 + j))
  | .dhWr h _ | .dhRd h _ => some (s.emiBase + BitVec.ofNat 16 (4 + 2 * h))
  | .strobe _ | .statRd _ => some s.cmdPort
  | .flagRd _ => some s.dataPort
  | .configure | .xferWr | .xferRd | .mboxExec _ => none

/-- Channel `c` issues the event `i`: it is recorded, the EC side sees it, and the command has issued an event. -/
def State.issueEvent (s : State) (c : ChanId) (i : Instr) : State :=
  { s.modChan c (fun ch => { ch with evented := true }) with
    trace := s.trace ++ (s.eventPort i).toList.map fun p => ⟨c, encodeWord i, p⟩
    ec := s.ec.afterEvent i }

/-! ### Completion (60_exceptions.md R300) and acceptance (40_control.md R173, R174) -/

/-- What completion leaves in the channel. -/
def Channel.completed (ch : Channel) (kind : Kind) (code : Half) (st : SeqState) (sum : Byte) : Channel :=
  { ch with
    kind := kind
    code := code
    state := st
    noop := noopAtCompletion kind ch.evented
    sum := sum
    xc := none
    mc := none
    busy := false
    done := true }

/-- MLOCK is freed if channel `c` holds it (R300). -/
def MLock.releasedBy (m : MLock) (c : ChanId) : MLock := if m = .held c then .free else m

/-- `complete(kind, code)` with the terminal state `st` and the value `sum` of `CH_SUM` (R300; R140 says which
sum): the one way a command ends. -/
def State.complete (s : State) (c : ChanId) (kind : Kind) (code : Half) (st : SeqState) (sum : Byte) : State :=
  (s.modChan c fun ch => ch.completed kind code st sum).setMlock (s.mlock.releasedBy c)

/-- `raise Error(kind, code)` at acceptance: `complete` with STATE REJECTED and SUM 0 (40_control.md R177). -/
def State.raise (s : State) (c : ChanId) (kind : Kind) (code : Half) : State :=
  s.complete c kind code .rejected 0

/-- A write to `CH_CMD` or `CH_ARGk` while `BUSY` is dropped and sets `WDROP` (40_control.md R173). -/
def Channel.dropWrite (ch : Channel) : Channel := { ch with wdrop := true }

/-- What acceptance does before the word is decoded (40_control.md R174). -/
def Channel.latch (ch : Channel) (w : Word) : Channel :=
  { ch with
    op := BitVec.ofNat 4 (field w 3 0)
    noresp := decide (field w 8 8 = 1)
    busy := true
    done := false
    wdrop := false
    noop := false
    kind := .ok
    code := 0
    sum := 0
    evented := false }

/-- A client writes the word `w` to `CH_CMD` of the selected channel: ignored where the channel is absent
(40_control.md R182), dropped while it is busy (R173), else accepted and then `body` runs, in the same step
(R174, R175). -/
def State.issueCommand (s : State) (w : Word) (body : State → State) : State :=
  if s.present s.sel then
    if (s.chan s.sel).busy then s.modChan s.sel Channel.dropWrite
    else body (s.modChan s.sel fun ch => ch.latch w)
  else s

/-! ### Reset -/

/-- The block is reset (70_reset_and_hazards.md R330, R332): every piece of block state takes its value of
10_state.md R69; the parameters, the EC side, host memory, `now` and the agents keep theirs (R70). -/
def State.resetBlock (s : State) : State :=
  { State.resetWith s.params with
    now := s.now
    hostMem := s.hostMem
    ec := s.ec
    clients := s.clients
    trace := s.trace
    sched := s.sched
    drawn := s.drawn }

end Sys2Proof.Machine
end

