-- ==== Sys2Proof/Machine/Configure.lean ====
section
/-! DEFINITION. CONFIGURE (40_control.md R184 to R188). -/

namespace Sys2Proof.Machine

/-- CONFIGURE on the selected channel, within the acceptance step (R184). -/
def State.configureWindow (s : State) : State :=
  let c := s.sel
  let ch := s.chan c
  if s.cfgLocked then s.raise c .alreadyConfigured 0
  else
    match ch.configureBadArg s.params.port16OddOk with
    | some k => s.raise c .badArgument k
    | none =>
      (s.setWindow (lowHalf ch.arg0) (lowHalf ch.arg1) (lowHalf ch.arg2) (lowHalf ch.arg3)).complete c .ok 0 .done 0

/-- CONFIGURE: its acceptance step (R174, R184). -/
def execConfigure (s : State) : Host.Outcome State Fault Refusal :=
  .next (s.issueCommand (encodeWord .configure) State.configureWindow)

end Sys2Proof.Machine
end

