-- ==== Sys2Proof/Machine/Control.lean ====
section
/-! DEFINITION. Control-register access (10_state.md R33 to R48; 40_control.md R171 to R179), less the write to
`CH_CMD`, which issues a command (Agents.lean). -/

namespace Sys2Proof.Machine

/-- The offset of channel `c`'s first register (10_state.md R42). -/
def chanOffset (c : Nat) : Nat := 0x100 + 0x40 * c

/-- The channel of a control-register offset of at least 0x100, and the register's offset within it; none for the
offset of an absent channel (10_state.md R41). -/
def State.chanOfOffset (s : State) (off : Nat) : Option (ChanId × Nat) :=
  let c := (off - 0x100) / 0x40
  if h : c < 16 then
    if off < 0x100 then none
    else if s.present ⟨c, h⟩ then some (⟨c, h⟩, (off - 0x100) % 0x40) else none
  else none

/-- A 16-bit register in bits 15:0 of a word (10_state.md R37). -/
def halfWord (v : Half) : Word := v.setWidth 32

/-- The global registers (10_state.md R35); every other offset below 0x100 is reserved and reads 0. -/
def State.globalRead (s : State) (off : Nat) : Word :=
  match off with
  | 0x000 => s.cfgStatusWord
  | 0x004 => halfWord s.emiBase
  | 0x008 => halfWord s.emiEnd
  | 0x00C => halfWord s.cmdPort
  | 0x010 => halfWord s.dataPort
  | 0x014 => s.lockStatusWord
  | 0x018 => paramWord s.params
  | 0x01C => s.params.timeoutTicks
  | 0x020 => s.params.pollDelayTicks
  | _ => 0

/-- A channel's registers by offset within the channel (10_state.md R42); `CH_CMD` and reserved offsets read 0. -/
def Channel.read (ch : Channel) (off : Nat) : Word :=
  match off with
  | 0x04 => ch.statusWord
  | 0x08 => ch.resultWord
  | 0x0C => ch.arg0
  | 0x10 => ch.arg1
  | 0x14 => ch.arg2
  | 0x18 => ch.arg3
  | 0x1C => ch.arg4
  | 0x20 => ch.sumWord
  | _ => 0

/-- What a control-register read at offset `off` returns (40_control.md R171). -/
def State.csrRead (s : State) (off : Nat) : Word :=
  if off < 0x100 then s.globalRead off
  else
    match s.chanOfOffset off with
    | some (c, r) => (s.chan c).read r
    | none => 0

/-- The argument register at an offset within a channel. -/
def argOfOffset (r : Nat) : Option (Fin 5) :=
  match r with
  | 0x0C => some 0
  | 0x10 => some 1
  | 0x14 => some 2
  | 0x18 => some 3
  | 0x1C => some 4
  | _ => none

/-- A write to `CH_ARGk`: stored while `BUSY = 0` (40_control.md R172), else dropped (R173). -/
def Channel.writeArg (ch : Channel) (k : Fin 5) (v : Word) : Channel :=
  if ch.busy then ch.dropWrite else ch.setArg k v

/-- A write within a channel, but for `CH_CMD`: `CH_STATUS` (R178), `CH_ARGk`, and no effect elsewhere (R179). -/
def Channel.write (ch : Channel) (off : Nat) (v : Word) : Channel :=
  if off = 0x04 then ch.clearStatus v
  else
    match argOfOffset off with
    | some k => ch.writeArg k v
    | none => ch

/-- The address is in control-register space (10_state.md R33). -/
def inCsr (p : Params) (a : Word) : Bool :=
  decide (p.csrBase.toNat ≤ a.toNat ∧ a.toNat < p.csrBase.toNat + csrSize)

/-- The number of bytes of an access. -/
def Width.bytes : Width → Nat
  | .w8 => 1
  | .w16 => 2
  | .w32 => 4

/-- An access of that width at that address touches control-register space: one of its bytes lies there.  The bytes of
an access wrap at 2^32, as everywhere (notes/assumptions/10.md).  DESIGN CHOICE: the spec is silent on an access that
wraps into the space; such a one touches it too (notes/assumptions/11.md). -/
def touchesCsr (p : Params) (a : Word) (w : Width) : Bool :=
  (List.range w.bytes).any fun i => inCsr p (hostIndex a i)

/-- A control-register access that is admitted (10_state.md R33): 32 bits wide, aligned, in the space.  DESIGN CHOICE:
60_exceptions.md R312 leaves to the host platform whether a client may reach the control registers at all; here every
client always may, and `denied` stops no access to them (notes/assumptions/23.md). -/
def csrAdmitted (p : Params) (a : Word) (w : Width) : Bool :=
  inCsr p a && decide (w = .w32) && decide (a.toNat % 4 = 0)

/-- The offset of a control-register address. -/
def csrOffset (p : Params) (a : Word) : Nat := a.toNat - p.csrBase.toNat

/-- The host address of a control-register offset. -/
def csrAddr (p : Params) (off : Nat) : Word := p.csrBase + BitVec.ofNat 32 off

/-- The bytes of a client's host-memory access, the least significant first (notes/assumptions/10.md). -/
def accessBytes (w : Width) (v : Word) : List Byte := (bytesOfWord v).take w.bytes

/-- The value of bytes read by a client, the least significant first. -/
def wordOfAccess : List Byte → Word
  | [] => 0
  | b :: bs => (wordOfAccess bs <<< 8) ||| b.setWidth 32

end Sys2Proof.Machine
end

