-- ==== Sys2Proof/Machine/XferOps.lean ====
section
/-! DEFINITION. The operation list of a transfer (41_transfer.md R201 to R205) and the start of a transfer
(R197, R200). -/

namespace Sys2Proof.Machine

/-- The access-mode codes (30_encoding.md R143). -/
def AccessMode.code : AccessMode → BitVec 2
  | .byte => 0
  | .word => 1
  | .long => 2
  | .longAutoincrement => 3

/-- The first byte of a select: `(a & 0xFC) | m` (30_encoding.md R144). -/
def selectLo (a : Half) (m : AccessMode) : Byte := (loByte a &&& 0xFC) ||| m.code.setWidth 8

/-- `select(a, m, ph)` (41_transfer.md R201). -/
def select (a : Half) (m : AccessMode) (ph : Phase) : List BusOp :=
  [.selLo (selectLo a m) ph, .selHi (hiByte a) ph]

/-- `count` BYTE operations from slot `slot` and buffer index `idx` on (R205, phases 1 and 3). -/
def byteOps (ph : Phase) (slot idx : Nat) : Nat → List BusOp
  | 0 => []
  | count + 1 => .byte slot idx ph :: byteOps ph (slot + 1) (idx + 1) count

/-- `units` pairs of HALF operations from buffer index `idx` on (R205, phase 2; R209). -/
def unitOps (idx : Nat) : Nat → List BusOp
  | 0 => []
  | units + 1 => .half 0 idx .bulk :: .half 1 (idx + 2) .bulk :: unitOps (idx + 4) units

/-- The head size `k` (R203): `min(n, 4 - a mod 4)` bytes, or none at an aligned address. -/
def headSize (a : Half) (n : Nat) : Nat := if a.toNat % 4 = 0 then 0 else min n (4 - a.toNat % 4)

/-- The number of bulk units, `B` (R204). -/
def bulkUnits (a : Half) (n : Nat) : Nat := (n - headSize a n) / 4

/-- The number of tail bytes, `t` (R204). -/
def tailSize (a : Half) (n : Nat) : Nat := (n - headSize a n) % 4

/-- The EC address `k` bytes after `a`. -/
def ecPlus (a : Half) (k : Nat) : Half := a + BitVec.ofNat 16 k

/-- Phase 1, the unaligned head (R205). -/
def headOps (a : Half) (n : Nat) : List BusOp :=
  if a.toNat % 4 = 0 then []
  else select a .byte .head ++ byteOps .head (a.toNat % 4) 0 (headSize a n)

/-- Phase 2, the aligned bulk (R205). -/
def bulkOps (a : Half) (n : Nat) : List BusOp :=
  if bulkUnits a n = 0 then []
  else select (ecPlus a (headSize a n)) .longAutoincrement .bulk ++ unitOps (headSize a n) (bulkUnits a n)

/-- Phase 3, the unaligned tail (R205). -/
def tailOps (a : Half) (n : Nat) : List BusOp :=
  if tailSize a n = 0 then []
  else
    let i := headSize a n + 4 * bulkUnits a n
    select (ecPlus a i) .byte .tail ++ byteOps .tail 0 i (tailSize a n)

/-- `xferOps(a, n)`, for `n ≥ 1` and `a + n ≤ 0x10000` (R205). -/
def xferOps (a : Half) (n : Nat) : List BusOp := headOps a n ++ bulkOps a n ++ tailOps a n

/-- The phase of an operation. -/
def BusOp.phase : BusOp → Phase
  | .selLo _ ph | .selHi _ ph | .byte _ _ ph | .half _ _ ph => ph

/-- The buffer indices an operation moves (R211). -/
def BusOp.indices : BusOp → List Nat
  | .selLo _ _ | .selHi _ _ => []
  | .byte _ idx _ => [idx]
  | .half _ idx _ => [idx, idx + 1]

/-- The slots an operation reaches, in the order of its indices (R206 to R208). -/
def BusOp.slots : BusOp → List Nat
  | .selLo _ _ | .selHi _ _ => []
  | .byte slot _ _ => [slot]
  | .half h _ _ => [2 * h, 2 * h + 1]

/-- A transfer with a non-empty operation list begins: its context is bound, and a direct transfer waits for
XLOCK in X_WAIT (R200). -/
def Channel.bindXfer (ch : Channel) (dir : Dir) (a : Half) (n : Nat) (buf : Buf) (ret : Ret) : Channel :=
  { ch with
    xc := some { dir := dir, ec := a, n := n, buf := buf, ops := xferOps a n, pos := 0, sum := 0, ret := ret }
    state := if buf.viaMbx then ch.state else .xWait }

/-- `transfer(c, dir, a, n, buf, …)` for `n ≥ 1` (R200). -/
def State.startTransfer (s : State) (c : ChanId) (dir : Dir) (a : Half) (n : Nat) (buf : Buf) (ret : Ret) :
    State :=
  s.modChan c fun ch => ch.bindXfer dir a n buf ret

end Sys2Proof.Machine
end

