-- ==== Sys2Proof/Machine/Framer.lean ====
section
/-! DEFINITION. The mailbox framer: the request header and its checksum (42_mailbox.md R246, R247), and what
follows each of its sub-transfers (R252, R253, R268). -/

namespace Sys2Proof.Machine

/-- The request header with the checksum byte `csum` (30_encoding.md R146). -/
def requestHeader (p : Params) (mailboxId : Half) (len : Nat) (csum : Byte) : List Byte :=
  [p.protoVersion, csum, loByte mailboxId, hiByte mailboxId, p.mbxVersion, 0, BitVec.ofNat 8 len, 0]

/-- The request checksum (42_mailbox.md R247): the negated byte-sum of the header with a zero checksum and of the
payload. -/
def requestChecksum (p : Params) (mailboxId : Half) (len : Nat) (payload : List Byte) : Byte :=
  neg8 (sum8 (requestHeader p mailboxId len 0) + sum8 payload)

/-- The bytes transmitted: header, then payload (42_mailbox.md R246). -/
def requestBytes (p : Params) (mailboxId : Half) (len : Nat) (payload : List Byte) : List Byte :=
  requestHeader p mailboxId len (requestChecksum p mailboxId len payload) ++ payload

/-- A 40-byte buffer whose front is `front`; the bytes after it keep what `old` held (R246). -/
def overlay (front : List Byte) (old : Vector Byte 40) : Vector Byte 40 :=
  Vector.ofFn fun i => if i.val < front.length then front.getD i.val 0 else old[i]

/-- The payload transfer returned, or was empty (R253). -/
def State.framerSent (s : State) (c : ChanId) : State :=
  s.modChan c fun ch => { ch.setMboxStep .strobe with state := .transmitted, xc := none }

/-- The header transfer returned: the payload transfer begins, or is skipped when `L = 0` (R252). -/
def State.framerSendPayload (s : State) (c : ChanId) : State :=
  let len := ((s.chan c).mc.map MboxCtx.len).getD 0
  let s := s.modChan c fun ch => ch.setMboxStep .sendPayload
  if len = 0 then s.framerSent c else s.startTransfer c .wr 8 len (.txbuf 8) .sent

/-- The response transfer returned (R268). -/
def State.framerResponseRead (s : State) (c : ChanId) : State :=
  s.modChan c fun ch => { ch.setMboxStep .validate with state := .responseRead, xc := none }

end Sys2Proof.Machine
end

