-- ==== Sys2Proof/Machine/Mailbox.lean ====
section
/-! DEFINITION. MBOX_EXEC (42_mailbox.md R240): its acceptance, its steps without a port event (R243, R246, R269)
and the meanings of the three mailbox events (R257, R261, R266). -/

namespace Sys2Proof.Machine

/-! ### Acceptance -/

/-- `MBOX_START(c)` on the selected channel (R240). -/
def State.mboxStart (s : State) (noResp : Bool) : State :=
  let c := s.sel
  let ch := s.chan c
  match ch.mboxBadArg noResp with
  | some k => s.raise c .badArgument k
  | none =>
    if !s.configured then s.raise c .unconfigured 0
    else
      s.modChan c fun ch =>
        { ch with mc := some { step := .lock, t0 := 0, tnext := 0, len := ch.reqLen }, state := .mWait }

/-- MBOX_EXEC: its acceptance step (R174, R240). -/
def execMboxExec (noResp : Bool) (s : State) : Host.Outcome State Fault Refusal :=
  .next (s.issueCommand (encodeWord (.mboxExec noResp)) fun s => s.mboxStart noResp)

/-! ### Steps without a port event -/

/-- The lock step (R243, 20_memory.md R102). -/
def State.acquireMlock (s : State) (c : ChanId) : State :=
  (s.modChan c fun ch => ch.setMboxStep .build).setMlock (.held c)

/-- The build step (R246): the payload snapshot, the header and its checksum, and the header transfer begins.  No
step where the platform does not admit a payload byte (20_memory.md R83). -/
def State.mboxBuild (s : State) (c : ChanId) (m : MboxCtx) : State :=
  let ch := s.chan c
  match s.hostReads ch.reqAddr m.len with
  | none => s
  | some payload =>
    let tx := overlay (requestBytes s.params ch.mailboxId m.len payload) s.txbuf
    State.startTransfer
      ((s.setTxbuf tx).modChan c fun ch => { ch.setMboxStep .sendHdr with state := .headerBuilt })
      c .wr 0 hdrSize (.txbuf 0) .sendPayload

/-- The result code of the response (30_encoding.md R147). -/
def State.responseResult (s : State) : Half := le16 (bufByte s.rxbuf 2) (bufByte s.rxbuf 3)

/-- The declared payload length of the response (30_encoding.md R147). -/
def State.responseDeclaredLen (s : State) : Half := le16 (bufByte s.rxbuf 4) (bufByte s.rxbuf 5)

/-- The byte-sum of the response (42_mailbox.md R269). -/
def State.responseSum (s : State) : Byte := sum8 s.rxbuf.toList

/-- The first `n` payload bytes of the response (R275). -/
def State.responsePayload (s : State) (n : Nat) : List Byte := (s.rxbuf.toList.drop hdrSize).take n

/-- The validate step (R269 to R276).  No step where the platform does not admit a byte of the copy-out. -/
def State.mboxValidate (s : State) (c : ChanId) : State :=
  let ch := s.chan c
  let sum := s.responseSum
  let dl := s.responseDeclaredLen
  if s.params.validateRespCsum ∧ sum ≠ 0 then s.complete c .badChecksum (sum.setWidth 16) .checksumBad sum
  else if dl ≠ 32 then s.complete c .sizeMismatch dl .sizeMismatch sum
  else if dl.toNat < ch.respLen then
    s.complete c .insufficientData (BitVec.ofNat 16 (min ch.respLen 0xFFFF)) .insufficientData sum
  else if s.responseResult ≠ 0 then s.complete c .deviceResult s.responseResult .resultCodeBad sum
  else
    match s.hostWrites ch.respAddr (s.responsePayload ch.respLen) with
    | none => s
    | some s' => s'.complete c .ok 0 .done sum

/-! ### The mailbox events -/

/-- The selected channel runs MBOX_EXEC, is at mailbox step `st` and in no sub-transfer. -/
def State.mboxAt (s : State) (st : MboxStep) : Option MboxCtx :=
  match (s.chan s.sel).xc, (s.chan s.sel).mc with
  | none, some m => if m.step = st then some m else none
  | _, _ => none

/-- The strobe step after its event (R257). -/
def State.mboxStrobe (s : State) (c : ChanId) : State :=
  let s := s.modChan c fun ch =>
    { ch with
      mc := ch.mc.map fun m => { m with t0 := s.now, tnext := s.now }
      state := .commandStarted }
  if (s.chan c).noresp then
    (s.modChan c fun ch => { ch with state := .noResponseExpected }).complete c .ok 0 .done 0
  else s.modChan c fun ch => { ch.setMboxStep .poll with state := .awaitingResponse }

/-- STROBE (R257): it always carries `START_CMD`. -/
def execStrobe (v : Byte) (s : State) : Host.Outcome State Fault Refusal :=
  match s.mboxAt .strobe with
  | some _ =>
    if v = s.params.startCmd then .next ((s.issueEvent s.sel (.strobe v)).mboxStrobe s.sel)
    else .fault .eventNotIssued
  | none => .fault .eventNotIssued

/-- The poll step after its event (R261): `v` is the command-status byte. -/
def State.mboxPoll (s : State) (c : ChanId) (m : MboxCtx) (v : Byte) : State :=
  if !ecBusy v then s.modChan c fun ch => ch.setMboxStep .flag
  else if s.now - m.t0 ≥ s.params.timeoutTicks.toNat then s.complete c .timeout 0 .timedOut 0
  else
    s.modChan c fun ch =>
      { ch with mc := ch.mc.map fun m => { m with tnext := s.now + s.params.pollDelayTicks.toNat } }

/-- STAT_RD (R261): the channel polls once `now` has reached `tnext`, and the EC answered `v`. -/
def execStatRd (v : Byte) (s : State) : Host.Outcome State Fault Refusal :=
  match s.mboxAt .poll with
  | some m =>
    if m.tnext ≤ s.now then .next ((s.issueEvent s.sel (.statRd v)).mboxPoll s.sel m v)
    else .fault .eventNotIssued
  | none => .fault .eventNotIssued

/-- The flag step after its event (R266): `v` is the result flag. -/
def State.mboxFlag (s : State) (c : ChanId) (v : Byte) : State :=
  if v ≠ 0 then s.complete c .deviceFlag (v.setWidth 16) .resultFlagBad 0
  else
    State.startTransfer
      (s.modChan c fun ch => { ch.setMboxStep .read with state := .responseReading })
      c .rd 0 respTotal (.rxbuf 0) .validate

/-- FLAG_RD (R266): the EC answered `v`. -/
def execFlagRd (v : Byte) (s : State) : Host.Outcome State Fault Refusal :=
  match s.mboxAt .flag with
  | some _ => .next ((s.issueEvent s.sel (.flagRd v)).mboxFlag s.sel v)
  | none => .fault .eventNotIssued

end Sys2Proof.Machine
end

