-- ==== Sys2Proof/Machine/Transfer.lean ====
section
/-! DEFINITION. The EMI transfer engine: the commands XFER_WR and XFER_RD (41_transfer.md R195 to R198), the
acquire step (R213), and the meanings of the six window events (R201, R206 to R208, R214). -/

namespace Sys2Proof.Machine

/-! ### The commands -/

/-- `XFER_START(c, dir)` on the selected channel (R197). -/
def State.xferStart (s : State) (dir : Dir) : State :=
  let c := s.sel
  let ch := s.chan c
  match ch.xferBadArg with
  | some k => s.raise c .badArgument k
  | none =>
    if !s.configured || decide (ch.len = 0) then s.complete c .ok 0 .done 0
    else s.startTransfer c dir ch.ecAddr ch.len (.host ch.hostAddr) .complete

/-- XFER_WR (R195): its acceptance step. -/
def execXferWr (s : State) : Host.Outcome State Fault Refusal :=
  .next (s.issueCommand (encodeWord .xferWr) fun s => s.xferStart .wr)

/-- XFER_RD (R196): its acceptance step. -/
def execXferRd (s : State) : Host.Outcome State Fault Refusal :=
  .next (s.issueCommand (encodeWord .xferRd) fun s => s.xferStart .rd)

/-! ### The acquire step and the operation step -/

/-- A transfer context is a mailbox sub-transfer's. -/
def XferCtx.viaMbx (x : XferCtx) : Bool := x.buf.viaMbx

/-- The channel's sequencer state when its next operation is `op`: a direct transfer shows its phase, a
sub-transfer leaves the state as the framer set it (R213, R214). -/
def XferCtx.stateAt (x : XferCtx) (op : Option BusOp) (old : SeqState) : SeqState :=
  if x.viaMbx then old else (op.map fun o => o.phase.seqState).getD old

/-- The step that acquires XLOCK for channel `c` (R213, 20_memory.md R100; notes/assumptions/14.md). -/
def State.acquireXlock (s : State) (c : ChanId) (x : XferCtx) : State :=
  (s.modChan c fun ch =>
    { ch with xc := some { x with pos := 0 }, state := x.stateAt x.ops.head? ch.state }).setXlock
      (.held c x.viaMbx)

/-- The transfer's context and operation list after its last operation: XLOCK is free and `ret` goes on (R214). -/
def State.endTransfer (s : State) (c : ChanId) (x : XferCtx) : State :=
  let s := s.setXlock .free
  match x.ret with
  | .complete => s.complete c .ok 0 .done x.sum
  | .sendPayload => s.framerSendPayload c
  | .sent => s.framerSent c
  | .validate => s.framerResponseRead c

/-- The operation at `pos` has been performed (R214). -/
def State.advance (s : State) (c : ChanId) (x : XferCtx) : State :=
  let x := { x with pos := x.pos + 1 }
  match x.ops[x.pos]? with
  | none => s.endTransfer c x
  | some op => s.modChan c fun ch => { ch with xc := some x, state := x.stateAt (some op) ch.state }

/-- The selected channel holds XLOCK and its transfer is at operation `op` (R214). -/
def State.currentOp (s : State) : Option (XferCtx × BusOp) :=
  match s.xlock, (s.chan s.sel).xc with
  | .held o _, some x => if o = s.sel then (x.ops[x.pos]?).map fun op => (x, op) else none
  | _, _ => none

/-- The operation step of the event `i` on the selected channel, after its data has moved (R214). -/
def State.opStep (s : State) (i : Instr) (x : XferCtx) : State := (s.issueEvent s.sel i).advance s.sel x

/-! ### The window events -/

/-- SEL_LO (R201). -/
def execSelLo (v : Byte) (s : State) : Host.Outcome State Fault Refusal :=
  match s.currentOp with
  | some (x, .selLo b _) => if b = v then .next (s.opStep (.selLo v) x) else .fault .eventNotIssued
  | _ => .fault .eventNotIssued

/-- SEL_HI (R201). -/
def execSelHi (v : Byte) (s : State) : Host.Outcome State Fault Refusal :=
  match s.currentOp with
  | some (x, .selHi b _) => if b = v then .next (s.opStep (.selHi v) x) else .fault .eventNotIssued
  | _ => .fault .eventNotIssued

/-- DB_WR (R206): the byte at the operation's index is read and goes out through slot `j`. -/
def execDbWr (j : Nat) (v : Byte) (s : State) : Host.Outcome State Fault Refusal :=
  match s.currentOp with
  | some (x, .byte slot idx _) =>
    if x.dir = .wr ∧ slot = j then
      match s.src x.buf idx with
      | some b =>
        if b = v then .next (s.opStep (.dbWr j v) { x with sum := x.sum + v }) else .fault .eventNotIssued
      | none => .fault .hostAccessNotAdmitted
    else .fault .eventNotIssued
  | _ => .fault .eventNotIssued

/-- DB_RD (R207): the EC answered `v` at slot `j`, and the byte at the operation's index becomes `v`. -/
def execDbRd (j : Nat) (v : Byte) (s : State) : Host.Outcome State Fault Refusal :=
  match s.currentOp with
  | some (x, .byte slot idx _) =>
    if x.dir = .rd ∧ slot = j then
      match s.dst x.buf idx v with
      | some s' => .next (s'.opStep (.dbRd j v) { x with sum := x.sum + v })
      | none => .fault .hostAccessNotAdmitted
    else .fault .eventNotIssued
  | _ => .fault .eventNotIssued

/-- DH_WR (R208): two bytes go out as one little-endian half. -/
def execDhWr (h : Nat) (v : Half) (s : State) : Host.Outcome State Fault Refusal :=
  match s.currentOp with
  | some (x, .half g idx _) =>
    if x.dir = .wr ∧ g = h then
      match s.src x.buf idx, s.src x.buf (idx + 1) with
      | some b0, some b1 =>
        if le16 b0 b1 = v then .next (s.opStep (.dhWr h v) { x with sum := x.sum + b0 + b1 })
        else .fault .eventNotIssued
      | _, _ => .fault .hostAccessNotAdmitted
    else .fault .eventNotIssued
  | _ => .fault .eventNotIssued

/-- DH_RD (R208): the EC answered `v` at half `h`; its low byte goes to the operation's index, its high byte to the
next. -/
def execDhRd (h : Nat) (v : Half) (s : State) : Host.Outcome State Fault Refusal :=
  match s.currentOp with
  | some (x, .half g idx _) =>
    if x.dir = .rd ∧ g = h then
      match s.dst2 x.buf idx (loByte v) (hiByte v) with
      | some s' => .next (s'.opStep (.dhRd h v) { x with sum := x.sum + loByte v + hiByte v })
      | none => .fault .hostAccessNotAdmitted
    else .fault .eventNotIssued
  | _ => .fault .eventNotIssued

end Sys2Proof.Machine
end

