-- ==== Sys2Proof/Machine/Dispatch.lean ====
section
/-! DEFINITION. The meaning of each instruction, one arm per constructor. -/

namespace Sys2Proof.Machine

def exec (i : Instr) (s : State) : Host.Outcome State Fault Refusal :=
  match i with
  -- the client commands (Format C), on the selected channel
  | .configure => Sys2Proof.Machine.execConfigure s
  | .xferWr => Sys2Proof.Machine.execXferWr s
  | .xferRd => Sys2Proof.Machine.execXferRd s
  | .mboxExec noResp => Sys2Proof.Machine.execMboxExec noResp s
  -- the EMI window events (Format B, T = 0)
  | .selLo v => Sys2Proof.Machine.execSelLo v s
  | .selHi v => Sys2Proof.Machine.execSelHi v s
  | .dbWr j v => Sys2Proof.Machine.execDbWr j v s
  | .dbRd j v => Sys2Proof.Machine.execDbRd j v s
  | .dhWr h v => Sys2Proof.Machine.execDhWr h v s
  | .dhRd h v => Sys2Proof.Machine.execDhRd h v s
  -- the command-port and data-port events (Format B, T = 1 and 2)
  | .strobe v => Sys2Proof.Machine.execStrobe v s
  | .statRd v => Sys2Proof.Machine.execStatRd v s
  | .flagRd v => Sys2Proof.Machine.execFlagRd v s

end Sys2Proof.Machine
end

