-- ==== Sys2Proof/Machine/Agents.lean ====
section
/-! DEFINITION. The agents' steps (00_scope.md R19, R20; 20_memory.md R108): a client's host access, a channel's
step, the EC's moves, the clock, reset; and the schedule that says whose step is next.  A step that is not enabled
leaves the state as it is (60_exceptions.md R306; notes/assumptions/6.md). -/

namespace Sys2Proof.Machine

/-! ### Clients -/

/-- An illegal command word, accepted: BAD_COMMAND on the selected channel (40_control.md R175, R176). -/
def State.rejectCommand (s : State) (w : Word) : State :=
  s.issueCommand w fun s => s.raise s.sel .badCommand 0

/-- A write of `w` to `CH_CMD(c)` (40_control.md R174, R175): the command word decides which instruction runs. -/
def State.writeCommand (s : State) (c : ChanId) (w : Word) : Host.Outcome State Fault Refusal :=
  match decodeCommand w with
  | .ok i => exec i (s.select c)
  | .error _ => .next ((s.select c).rejectCommand w)

/-- A control-register write at offset `off` (40_control.md R172 to R179). -/
def State.csrWrite (s : State) (off : Nat) (v : Word) : Host.Outcome State Fault Refusal :=
  match s.chanOfOffset off with
  | some (c, r) => if r = 0 then s.writeCommand c v else .next (s.modChan c fun ch => ch.write r v)
  | none => .next s

/-- Client `k` has run a line whose read returned `v`; `rest` is left of its program. -/
def State.clientReads (s : State) (k : ChanId) (v : Word) (rest : List ClientOp) : State :=
  s.setClient k { prog := rest, rdata := v }

/-- Client `k` has run a line; `rest` is left of its program. -/
def State.clientGoesOn (s : State) (k : ChanId) (rest : List ClientOp) : State :=
  s.setClient k { s.client k with prog := rest }

/-- A client's write at a host address: a control-register write where it is one (40_control.md R170), no step where
the access is not admitted (10_state.md R33, 20_memory.md R83), else host memory (70_reset_and_hazards.md R337). -/
def State.clientWrite (s : State) (k : ChanId) (a : Word) (w : Width) (v : Word) (rest : List ClientOp) :
    Host.Outcome State Fault Refusal :=
  if csrAdmitted s.params a w then (s.clientGoesOn k rest).csrWrite (csrOffset s.params a) v
  else if touchesCsr s.params a w then .next s
  else
    match s.hostWrites a (accessBytes w v) with
    | some s' => .next (s'.clientGoesOn k rest)
    | none => .next s

/-- A client's read at a host address, as above; a control-register read has no side effect (40_control.md R171). -/
def State.clientRead (s : State) (k : ChanId) (a : Word) (w : Width) (rest : List ClientOp) : State :=
  if csrAdmitted s.params a w then s.clientReads k (s.csrRead (csrOffset s.params a)) rest
  else if touchesCsr s.params a w then s
  else
    match s.hostReads a w.bytes with
    | some bs => s.clientReads k (wordOfAccess bs) rest
    | none => s

/-- `wait c` (30_encoding.md R149): `CH_STATUS(c)` is read, and the line is done once `BUSY` is 0.  DESIGN CHOICE: where
`c` is 16 or more no register has that name; the line then reads 0 and is done (notes/assumptions/22.md). -/
def State.clientWait (s : State) (k : ChanId) (c : Nat) (rest : List ClientOp) : State :=
  let v := s.csrRead (chanOffset c + 0x04)
  s.clientReads k v (if v.getLsbD 0 then .wait c :: rest else rest)

/-- Client `k` runs the next line of its program.  There are as many clients as channels (00_scope.md R20). -/
def State.clientStep (s : State) (k : ChanId) : Host.Outcome State Fault Refusal :=
  if !s.present k then .next s
  else
    match (s.client k).prog with
    | [] => .next s
    | .write a w v :: rest => s.clientWrite k a w v rest
    | .read a w :: rest => .next (s.clientRead k a w rest)
    | .wait c :: rest => .next (s.clientWait k c rest)

/-! ### Channels -/

/-- The event channel `c` issues in its operation `op` (41_transfer.md R206 to R208), where a read is answered by
`ans`; none where the platform does not admit the host access. -/
def State.opEvent (s : State) (x : XferCtx) (op : BusOp) (ans : Answer) : Option Instr :=
  match op, x.dir with
  | .selLo v _, _ => some (.selLo v)
  | .selHi v _, _ => some (.selHi v)
  | .byte j idx _, .wr => (s.src x.buf idx).map fun b => .dbWr j b
  | .byte j idx _, .rd =>
    let v := ans.byte (s.ec.slotByte j)
    (s.dst x.buf idx v).map fun _ => .dbRd j v
  | .half h idx _, .wr =>
    match s.src x.buf idx, s.src x.buf (idx + 1) with
    | some b0, some b1 => some (.dhWr h (le16 b0 b1))
    | _, _ => none
  | .half h idx _, .rd =>
    let v := ans.half (s.ec.halfValue h)
    (s.dst2 x.buf idx (loByte v) (hiByte v)).map fun _ => .dhRd h v

/-- The mailbox event of the selected channel's next step, if it is one (42_mailbox.md R257, R261, R266); none
while the poll waits for `tnext`. -/
def State.mboxEvent (s : State) (m : MboxCtx) (ans : Answer) : Option Instr :=
  match m.step with
  | .strobe => some (.strobe s.params.startCmd)
  | .poll => if m.tnext ≤ s.now then some (.statRd (ans.byte s.ec.status)) else none
  | .flag => some (.flagRd (ans.byte s.ec.flag))
  | .lock | .build | .sendHdr | .sendPayload | .read | .validate => none

/-- The port event that the selected channel's next step issues, if it issues one and is enabled. -/
def State.nextEvent (s : State) (ans : Answer) : Option Instr :=
  match s.currentOp with
  | some (x, op) => s.opEvent x op ans
  | none =>
    match (s.chan s.sel).xc, (s.chan s.sel).mc with
    | none, some m => s.mboxEvent m ans
    | _, _ => none

/-- The selected channel's step without a port event: acquire XLOCK (41_transfer.md R213), acquire MLOCK
(42_mailbox.md R243), build (R246), validate (R269).  A channel with no such step holds (00_scope.md R18). -/
def State.internalStep (s : State) : State :=
  let c := s.sel
  match (s.chan c).xc, (s.chan c).mc with
  | some x, _ => if s.xlock = .free then s.acquireXlock c x else s
  | none, some m =>
    match m.step with
    | .lock => if s.mlock = .free then s.acquireMlock c else s
    | .build => s.mboxBuild c m
    | .validate => s.mboxValidate c
    | .sendHdr | .sendPayload | .strobe | .poll | .flag | .read => s
  | none, none => s

/-- Channel `c` takes its next step; a port read in it is answered by `ans` (00_scope.md R19). -/
def State.channelStep (s : State) (c : ChanId) (ans : Answer) : Host.Outcome State Fault Refusal :=
  if !s.present c then .next s
  else
    match (s.select c).nextEvent ans with
    | some i => exec i (s.select c)
    | none => .next (s.select c).internalStep

/-! ### The schedule -/

/-- The step of one agent (20_memory.md R108). -/
def State.perform (s : State) (i : Input) : Host.Outcome State Fault Refusal :=
  match i with
  | .client k => s.clientStep k
  | .channel c ans => s.channelStep c ans
  | .ec m => .next (s.setEc (s.ec.move m))
  | .clock d => .next (s.setNow (s.now + d))
  | .reset => .next s.resetBlock

/-- The next move, and the state once the schedule has given it: the head of `sched`, or the free schedule's move
where `sched` is empty (notes/assumptions/3.md). -/
def State.nextInput (s : State) : Input × State :=
  match s.sched with
  | i :: rest => (i, s.setSched rest)
  | [] => (Config.freeInput s.drawn, s.setDrawn (s.drawn + 1))

/-- One step of the machine: the next move's agent takes its step. -/
def State.runNext (s : State) : Host.Outcome State Fault Refusal := s.nextInput.2.perform s.nextInput.1

/-! ### Placing an instruction before the next step (notes/assumptions/12.md) -/

/-- The command word `w` is the next line of client 0, a write to `CH_CMD(0)`, and client 0 moves next; channel 0 is
not busy, so that the word is accepted. -/
def State.placeCommand (s : State) (w : Word) : State :=
  { (s.modChan 0 fun ch => { ch with busy := false }).setClient 0
      { s.client 0 with prog := [.write (csrAddr s.params (chanOffset 0)) .w32 w] } with
    sched := [.client 0] }

/-- Channel 0 runs MBOX_EXEC, is at mailbox step `st` with the transfer context `xc`, and moves next; a read is
answered by `v`. -/
def State.placeMailbox (s : State) (st : MboxStep) (xc : Option XferCtx) (v : Half) : State :=
  { s.modChan 0 (fun ch =>
      { ch with busy := true, xc := xc, mc := some { step := st, t0 := s.now, tnext := s.now, len := 0 } }) with
    mlock := .held 0
    xlock := if xc.isSome then .held 0 true else .free
    sched := [.channel 0 (.draw v)] }

/-- A context of one operation, in the given direction, of the framer's buffer. -/
def placedXfer (dir : Dir) (op : BusOp) : XferCtx where
  dir := dir
  ec := 0
  n := op.indices.length
  buf := match dir with
    | .wr => .txbuf 0
    | .rd => .rxbuf 0
  ops := [op]
  pos := 0
  sum := 0
  ret := match dir with
    | .wr => .sent
    | .rd => .validate

/-- Channel 0 is at the one operation `op` of a sub-transfer that sends the bytes `v` from `TXBUF`. -/
def State.placeSend (s : State) (op : BusOp) (v : Half) : State :=
  State.placeMailbox { s with txbuf := (s.txbuf.setIfInBounds 0 (loByte v)).setIfInBounds 1 (hiByte v) }
    .sendPayload (some (placedXfer .wr op)) v

/-- Channel 0 is at the one operation `op` of a sub-transfer that reads into `RXBUF`; the EC answers `v`. -/
def State.placeReceive (s : State) (op : BusOp) (v : Half) : State :=
  s.placeMailbox .read (some (placedXfer .rd op)) v

/-- All that the very next step needs in order to run the instruction `i`. -/
def State.placeInstr (s : State) (i : Instr) : State :=
  match i with
  | .configure | .xferWr | .xferRd | .mboxExec _ => s.placeCommand (encodeWord i)
  | .selLo v => s.placeSend (.selLo v .tail) 0
  | .selHi v => s.placeSend (.selHi v .tail) 0
  | .dbWr j v => s.placeSend (.byte j 0 .tail) (v.setWidth 16)
  | .dbRd j v => s.placeReceive (.byte j 0 .tail) (v.setWidth 16)
  | .dhWr h v => s.placeSend (.half h 0 .bulk) v
  | .dhRd h v => s.placeReceive (.half h 0 .bulk) v
  | .strobe v => State.placeMailbox { s with params := { s.params with startCmd := v } } .strobe none 0
  | .statRd v => s.placeMailbox .poll none (v.setWidth 16)
  | .flagRd v => s.placeMailbox .flag none (v.setWidth 16)

/-- The table word `w` placed so that the very next step runs it; a word that is no instruction is placed as a write
to `CH_CMD(0)`. -/
def State.placeWord (s : State) (nbits w : Nat) : State :=
  match decodeTableWord nbits w with
  | some i => s.placeInstr i
  | none => s.placeCommand (BitVec.ofNat 32 w)

end Sys2Proof.Machine
end

