-- ==== Sys2Proof/Machine/Step.lean ====
section
/-! DEFINITION. The step of the machine, and the state in which its next step runs a given instruction. -/

namespace Sys2Proof.Machine

/-- One step (20_memory.md R108): the agent that moves next takes its step. -/
def step (s : State) : Host.Outcome State Fault Refusal := s.runNext

/-- `s` with the instruction whose table word is `w` placed where the next step runs it (notes/assumptions/12.md). -/
def State.withFetchWord (s : State) (nbits w : Nat) : State := s.placeWord nbits w

end Sys2Proof.Machine
end

