-- ==== Sys2Proof/Machine/ClientAsm.lean ====
section
/-! DEFINITION. Client assembly (30_encoding.md R149, R150) and the bus-trace syntax (R151).  A program is loaded
into a client as the lines its pseudo-instructions expand to. -/

namespace Sys2Proof.Machine

/-- The names of the control registers (10_state.md R35, R42). -/
inductive CsrName where
  | cfgStatus
  | emiBase
  | emiEnd
  | cmdPort
  | dataPort
  | lockStatus
  | param
  | timeout
  | pollDelay
  | chCmd (c : Nat)
  | chStatus (c : Nat)
  | chResult (c : Nat)
  | chArg (k : Fin 5) (c : Nat)
  | chSum (c : Nat)
  deriving DecidableEq, Repr

/-- The offset of a control register from `CSR_BASE` (10_state.md R35, R42). -/
def csrNameOffset : CsrName → Nat
  | .cfgStatus => 0x000
  | .emiBase => 0x004
  | .emiEnd => 0x008
  | .cmdPort => 0x00C
  | .dataPort => 0x010
  | .lockStatus => 0x014
  | .param => 0x018
  | .timeout => 0x01C
  | .pollDelay => 0x020
  | .chCmd c => chanOffset c
  | .chStatus c => chanOffset c + 0x04
  | .chResult c => chanOffset c + 0x08
  | .chArg k c => chanOffset c + 0x0C + 4 * k.val
  | .chSum c => chanOffset c + 0x20

/-- A line of client assembly (R149). -/
inductive AsmLine where
  | csrw (name : CsrName) (value : Word)
  | csrr (name : CsrName)
  | wait (c : Nat)
  deriving DecidableEq, Repr

/-- The client operation of a line, where the control registers are at `CSR_BASE`.  DESIGN CHOICE: a channel register
name with a channel of 16 or more, for which there is no register, is the host address `CSR_BASE` plus the offset that
the name would have, mod 2^32: a `csrw` then writes and a `csrr` then reads what is there, host memory for all but huge
channel numbers (notes/assumptions/22.md). -/
def asmOp (p : Params) : AsmLine → ClientOp
  | .csrw name v => .write (csrAddr p (csrNameOffset name)) .w32 v
  | .csrr name => .read (csrAddr p (csrNameOffset name)) .w32
  | .wait c => .wait c

/-- The pseudo-instructions (R150). -/
inductive Pseudo where
  | configure (c : Nat) (base end_ cmd data : Word)
  | xferWr (c : Nat) (ec host len : Word)
  | xferRd (c : Nat) (ec host len : Word)
  | mbox (c : Nat) (id req reqlen resp resplen : Word)
  | mboxNr (c : Nat) (id req reqlen : Word)
  deriving DecidableEq, Repr

/-- The channel a pseudo-instruction uses. -/
def pseudoChan : Pseudo → Nat
  | .configure c _ _ _ _ | .xferWr c _ _ _ | .xferRd c _ _ _ | .mbox c _ _ _ _ _ | .mboxNr c _ _ _ => c

/-- Writes of argument registers 0, 1, 2, … of channel `c`. -/
def argWrites (c : Nat) (vs : List Word) : List AsmLine :=
  vs.zipIdx.map fun vk => .csrw (.chArg (Fin.ofNat 5 vk.2) c) vk.1

/-- `issue.…`: the expansion of a pseudo-instruction less its final `wait c` (R150). -/
def issueExpand : Pseudo → List AsmLine
  | .configure c base end_ cmd data =>
    argWrites c [base, end_, cmd, data] ++ [.csrw (.chCmd c) (encodeWord .configure)]
  | .xferWr c ec host len => argWrites c [ec, host, len] ++ [.csrw (.chCmd c) (encodeWord .xferWr)]
  | .xferRd c ec host len => argWrites c [ec, host, len] ++ [.csrw (.chCmd c) (encodeWord .xferRd)]
  | .mbox c id req reqlen resp resplen =>
    argWrites c [id, req, reqlen, resp, resplen] ++ [.csrw (.chCmd c) (encodeWord (.mboxExec false))]
  | .mboxNr c id req reqlen =>
    argWrites c [id, req, reqlen] ++ [.csrw (.chCmd c) (encodeWord (.mboxExec true))]

/-- The expansion of a pseudo-instruction (R150). -/
def expand (q : Pseudo) : List AsmLine := issueExpand q ++ [.wait (pseudoChan q)]

/-- The program of a list of assembly lines, as a client runs it. -/
def assemble (p : Params) (lines : List AsmLine) : List ClientOp := lines.map (asmOp p)

/-! ### Bus traces (R151) -/

/-- A hexadecimal digit. -/
def hexDigit (d : BitVec 4) : Char := ("0123456789ABCDEF".toList.getD d.toNat '0')

/-- Two hexadecimal digits. -/
def hexByte (v : Byte) : List Char := [hexDigit (v.extractLsb' 4 4), hexDigit (v.extractLsb' 0 4)]

/-- Four hexadecimal digits. -/
def hexHalf (v : Half) : List Char :=
  hexByte (v.extractLsb' 8 8) ++ hexByte (v.extractLsb' 0 8)

/-- A window offset, one decimal digit. -/
def offsetDigit (k : Nat) : List Char := [("01234567".toList.getD k '0')]

/-- The trace line of a port event (R142, R151), as characters; none for a command. -/
def traceLine : Instr → Option (List Char)
  | .selLo v => some ("out8 EMI+2, 0x".toList ++ hexByte v)
  | .selHi v => some ("out8 EMI+3, 0x".toList ++ hexByte v)
  | .dbWr j v => some ("out8 EMI+".toList ++ offsetDigit (4 + j) ++ ", 0x".toList ++ hexByte v)
  | .dbRd j v => some ("in8 EMI+".toList ++ offsetDigit (4 + j) ++ " -> 0x".toList ++ hexByte v)
  | .dhWr h v => some ("out16 EMI+".toList ++ offsetDigit (4 + 2 * h) ++ ", 0x".toList ++ hexHalf v)
  | .dhRd h v => some ("in16 EMI+".toList ++ offsetDigit (4 + 2 * h) ++ " -> 0x".toList ++ hexHalf v)
  | .strobe v => some ("out8 CMD, 0x".toList ++ hexByte v)
  | .statRd v => some ("in8 CMD -> 0x".toList ++ hexByte v)
  | .flagRd v => some ("in8 DATA -> 0x".toList ++ hexByte v)
  | .configure | .xferWr | .xferRd | .mboxExec _ => none

end Sys2Proof.Machine
end

