-- ==== Sys2Proof/Safety.lean ====
section
/-! DEFINITION. What claims about the machine are stated in: the invariant of well-formed machine states, the
frames of an instruction, runs under a schedule, and the assumptions on infinite runs. -/

namespace Sys2Proof.Machine

/-! ### The invariant -/

/-- A transfer context holds the operation list of its transfer (41_transfer.md R205), within EC memory (R199), and
is not past its last operation (10_state.md R55). -/
structure XferCtx.Ok (x : XferCtx) : Prop where
  ops : x.ops = xferOps x.ec x.n
  nonempty : 1 ≤ x.n
  inEc : x.ec.toNat + x.n ≤ 0x10000
  pos : x.pos < x.ops.length

/-- The opcode of the command that moves data in a direction (30_encoding.md R131). -/
def Dir.opcode : Dir → BitVec 4
  | .wr => 2
  | .rd => 3

/-- A direct transfer is the one its channel's command and arguments describe (41_transfer.md R197). -/
structure DirectOk (ch : Channel) (x : XferCtx) : Prop where
  op : ch.op = x.dir.opcode
  ec : x.ec = ch.ecAddr
  n : x.n = ch.len
  buf : x.buf = .host ch.hostAddr
  ret : x.ret = .complete
  inHost : ch.hostAddr.toNat + x.n ≤ 2 ^ 32

/-- The sub-transfer of each mailbox step that has one (42_mailbox.md R246, R252, R266). -/
def SubOk (m : MboxCtx) (x : XferCtx) : Prop :=
  match m.step with
  | .sendHdr => x.dir = .wr ∧ x.ec = 0 ∧ x.n = 8 ∧ x.buf = .txbuf 0 ∧ x.ret = .sendPayload
  | .sendPayload => x.dir = .wr ∧ x.ec = 8 ∧ x.n = m.len ∧ x.buf = .txbuf 8 ∧ x.ret = .sent
  | .read => x.dir = .rd ∧ x.ec = 0 ∧ x.n = 40 ∧ x.buf = .rxbuf 0 ∧ x.ret = .validate
  | .lock | .build | .strobe | .poll | .flag | .validate => False

/-- The mailbox steps that run outside a sub-transfer. -/
def MboxStep.alone : MboxStep → Bool
  | .lock | .build | .strobe | .poll | .flag | .validate => true
  | .sendHdr | .sendPayload | .read => false

/-- The mailbox steps after the strobe of a command that expects a response (42_mailbox.md R257). -/
def MboxStep.afterStrobe : MboxStep → Bool
  | .poll | .flag | .read | .validate => true
  | .lock | .build | .sendHdr | .sendPayload | .strobe => false

/-- `CH_STATUS.STATE` at each mailbox step (30_encoding.md R137). -/
def MboxStep.seqState : MboxStep → SeqState
  | .lock | .build => .mWait
  | .sendHdr | .sendPayload => .headerBuilt
  | .strobe => .transmitted
  | .poll | .flag => .awaitingResponse
  | .read => .responseReading
  | .validate => .responseRead

/-- A mailbox context is the one its channel's command and arguments describe (42_mailbox.md R240). -/
structure MboxOk (s : State) (ch : Channel) (m : MboxCtx) : Prop where
  op : ch.op = 4
  state : ch.state = m.step.seqState
  len : m.len = ch.reqLen
  short : m.len ≤ 32
  reqInHost : ch.reqAddr.toNat + m.len ≤ 2 ^ 32
  respInHost : ch.noresp = false → ch.respAddr.toNat + min ch.respLen 32 ≤ 2 ^ 32
  expects : m.step.afterStrobe = true → ch.noresp = false
  evented : m.step.afterStrobe = true → ch.evented = true
  strobed : m.t0 ≤ s.now
  pollSoon : m.tnext ≤ s.now + s.params.pollDelayTicks.toNat

/-- XLOCK is held by channel `c`. -/
def State.holdsXlock (s : State) (c : ChanId) : Prop := ∃ via, s.xlock = .held c via

/-- What holds of channel `c` in every well-formed machine state. -/
structure ChanInv (s : State) (c : ChanId) : Prop where
  /-- An absent channel stays as reset left it (40_control.md R182). -/
  absent : s.params.nch ≤ c.val → s.chan c = Channel.reset
  /-- A channel with no command in flight has no context (10_state.md R53, R57) and an idle or terminal state
  (R45). -/
  atRest : (s.chan c).busy = false →
    (s.chan c).xc = none ∧ (s.chan c).mc = none ∧
      ((s.chan c).state = .idle ∨ (s.chan c).state.isTerminal = true)
  /-- A command in flight started on a configured window (40_control.md R190), shows no result yet (R174), and has a
  context. -/
  inFlight : (s.chan c).busy = true →
    s.configured = true ∧ (s.chan c).done = false ∧ (s.chan c).noop = false ∧ (s.chan c).kind = .ok ∧
      (s.chan c).code = 0 ∧ (s.chan c).sum = 0 ∧ ((s.chan c).xc.isSome = true ∨ (s.chan c).mc.isSome = true)
  /-- A transfer context is well formed, and untouched until XLOCK is taken (41_transfer.md R213). -/
  xfer : ∀ x, (s.chan c).xc = some x → x.Ok ∧ (¬ s.holdsXlock c → x.pos = 0 ∧ x.sum = 0)
  /-- A direct transfer matches its command, and STATE shows X_WAIT or the phase (R200, R213, R214). -/
  direct : ∀ x, (s.chan c).xc = some x → (s.chan c).mc = none →
    DirectOk (s.chan c) x ∧
      (s.holdsXlock c → x.ops[x.pos]?.map (fun o => o.phase.seqState) = some (s.chan c).state) ∧
      (¬ s.holdsXlock c → (s.chan c).state = .xWait)
  /-- A sub-transfer is that of its mailbox step. -/
  sub : ∀ x m, (s.chan c).xc = some x → (s.chan c).mc = some m → SubOk m x
  /-- A mailbox context matches its command. -/
  mbox : ∀ m, (s.chan c).mc = some m → MboxOk s (s.chan c) m
  /-- Outside a sub-transfer a mailbox command is at one of the steps that run there. -/
  alone : ∀ m, (s.chan c).xc = none → (s.chan c).mc = some m → m.step.alone = true
  /-- A channel holds MLOCK exactly from its lock step to its completion (42_mailbox.md R243, R300). -/
  mlock : s.mlock = .held c ↔ ∃ m, (s.chan c).mc = some m ∧ m.step ≠ .lock
  /-- XLOCK is held only for a transfer in progress, and shows whether it is a mailbox sub-transfer
  (20_memory.md R100, R101). -/
  xlock : ∀ via, s.xlock = .held c via → ∃ x, (s.chan c).xc = some x ∧ x.viaMbx = via

/-- The invariant: what every step keeps. -/
structure State.Inv (s : State) : Prop where
  params : s.params.wf = true
  /-- Host memory is in canonical form, within 2^32 bytes (20_memory.md R83). -/
  hostMem : s.hostMem.wf = true ∧ s.hostMem.below (2 ^ 32) = true
  /-- EC memory is in canonical form, within 2^16 bytes (20_memory.md R115). -/
  ecMem : s.ec.mem.wf = true ∧ s.ec.mem.below (2 ^ 16) = true
  /-- The window registers are 0 until a CONFIGURE is accepted (10_state.md R37, R69). -/
  window : s.cfgLocked = false → s.emiBase = 0 ∧ s.emiEnd = 0 ∧ s.cmdPort = 0 ∧ s.dataPort = 0
  /-- No misaligned 16-bit port access can be issued where the platform has none (20_memory.md R92). -/
  evenBase : s.params.port16OddOk = false → s.emiBase.toNat % 2 = 0
  chan : ∀ c, ChanInv s c

/-! ### Frames -/

/-- The two states have the same window configuration. -/
structure SameWindow (s t : State) : Prop where
  emiBase : t.emiBase = s.emiBase
  emiEnd : t.emiEnd = s.emiEnd
  cmdPort : t.cmdPort = s.cmdPort
  dataPort : t.dataPort = s.dataPort
  cfgLocked : t.cfgLocked = s.cfgLocked

/-- The two states have the same locks. -/
structure SameLocks (s t : State) : Prop where
  xlock : t.xlock = s.xlock
  mlock : t.mlock = s.mlock

/-- The two states have the same framer buffers. -/
structure SameBuffers (s t : State) : Prop where
  txbuf : t.txbuf = s.txbuf
  rxbuf : t.rxbuf = s.rxbuf

/-- The two states have the same parameters, time, clients and schedule. -/
structure SameAgents (s t : State) : Prop where
  params : t.params = s.params
  now : t.now = s.now
  clients : t.clients = s.clients
  sched : t.sched = s.sched
  drawn : t.drawn = s.drawn

/-- The two states have the same EC side and the same event history. -/
structure SameBus (s t : State) : Prop where
  ec : t.ec = s.ec
  trace : t.trace = s.trace

/-- Every byte of host memory reads the same. -/
def SameHost (s t : State) : Prop := ∀ a, t.hostMem.read a = s.hostMem.read a

/-- Every channel but `c` is the same. -/
def SameOthers (s t : State) (c : ChanId) : Prop := ∀ d, d ≠ c → t.chan d = s.chan d

/-- The argument registers of channel `c` are the same (10_state.md R31, R47). -/
structure SameArgs (s t : State) (c : ChanId) : Prop where
  arg0 : (t.chan c).arg0 = (s.chan c).arg0
  arg1 : (t.chan c).arg1 = (s.chan c).arg1
  arg2 : (t.chan c).arg2 = (s.chan c).arg2
  arg3 : (t.chan c).arg3 = (s.chan c).arg3
  arg4 : (t.chan c).arg4 = (s.chan c).arg4

/-- The command latch and `WDROP` of channel `c` are the same (10_state.md R43, R49). -/
structure SameLatch (s t : State) (c : ChanId) : Prop where
  op : (t.chan c).op = (s.chan c).op
  noresp : (t.chan c).noresp = (s.chan c).noresp
  wdrop : (t.chan c).wdrop = (s.chan c).wdrop

/-- The flags that completion and acceptance write, and the record of the last command, are the same in channel `c`
(10_state.md R49, 60_exceptions.md R301). -/
structure SameRecord (s t : State) (c : ChanId) : Prop where
  busy : (t.chan c).busy = (s.chan c).busy
  done : (t.chan c).done = (s.chan c).done
  noop : (t.chan c).noop = (s.chan c).noop
  kind : (t.chan c).kind = (s.chan c).kind
  code : (t.chan c).code = (s.chan c).code
  sum : (t.chan c).sum = (s.chan c).sum

/-- Channel `c`'s command ended with this record (60_exceptions.md R300, R301). -/
structure Completed (ch : Channel) (kind : Kind) (code : Half) (st : SeqState) (sum : Byte) (noop : Bool) :
    Prop where
  kind : ch.kind = kind
  code : ch.code = code
  state : ch.state = st
  sum : ch.sum = sum
  noop : ch.noop = noop
  busy : ch.busy = false
  done : ch.done = true
  xc : ch.xc = none
  mc : ch.mc = none

/-- Channel `c` is in flight with no result yet: what acceptance leaves of its status, result and sum
(40_control.md R174). -/
structure Started (ch : Channel) (st : SeqState) : Prop where
  kind : ch.kind = .ok
  code : ch.code = 0
  state : ch.state = st
  sum : ch.sum = 0
  noop : ch.noop = false
  busy : ch.busy = true
  done : ch.done = false

/-! ### Acceptance -/

/-- The selected channel takes a command: it is present and not busy (40_control.md R174, R182). -/
structure Accepts (s : State) : Prop where
  present : s.sel.val < s.params.nch
  idle : (s.chan s.sel).busy = false

/-- What no acceptance step changes, and the latch it writes (40_control.md R174; 10_state.md R43): no port event, no
host access, no other channel, no argument register. -/
structure AcceptFrame (s t : State) (op : BitVec 4) (noresp : Bool) : Prop where
  agents : SameAgents s t
  bus : SameBus s t
  host : SameHost s t
  buffers : SameBuffers s t
  xlock : t.xlock = s.xlock
  others : SameOthers s t s.sel
  args : SameArgs s t s.sel
  op : (t.chan s.sel).op = op
  noresp : (t.chan s.sel).noresp = noresp
  wdrop : (t.chan s.sel).wdrop = false

/-- MLOCK after a completion by channel `c` (60_exceptions.md R300). -/
def MlockAfter (s t : State) (c : ChanId) : Prop :=
  (s.mlock = .held c → t.mlock = .free) ∧ (s.mlock ≠ .held c → t.mlock = s.mlock)

/-- A command rejected at acceptance (40_control.md R177). -/
structure Rejection (s t : State) (op : BitVec 4) (noresp : Bool) (kind : Kind) (code : Half) : Prop where
  frame : AcceptFrame s t op noresp
  window : SameWindow s t
  mlock : MlockAfter s t s.sel
  completed : Completed (t.chan s.sel) kind code .rejected 0 false

/-! ### Steps with a port event -/

/-- The selected channel holds XLOCK and its next operation is `op` (41_transfer.md R214). -/
structure AtOp (s : State) (x : XferCtx) (op : BusOp) : Prop where
  holds : s.holdsXlock s.sel
  xc : (s.chan s.sel).xc = some x
  op : x.ops[x.pos]? = some op

/-- The selected channel runs MBOX_EXEC at step `st`, outside a sub-transfer (10_state.md R57). -/
structure AtStep (s : State) (m : MboxCtx) (st : MboxStep) : Prop where
  xc : (s.chan s.sel).xc = none
  mc : (s.chan s.sel).mc = some m
  step : m.step = st

/-- What every step with a port event leaves, and the one event it records (20_memory.md R95, R96). -/
structure EventFrame (s t : State) (i : Instr) (port : Half) : Prop where
  window : SameWindow s t
  agents : SameAgents s t
  others : SameOthers s t s.sel
  args : SameArgs s t s.sel
  latch : SameLatch s t s.sel
  trace : t.trace = s.trace ++ [⟨s.sel, encodeWord i, port⟩]

/-- Buffer index `i` of a transfer holds the byte `v`, and the platform admits reading it (41_transfer.md R206). -/
def Holds (s : State) (b : Buf) (i : Nat) (v : Byte) : Prop :=
  match b with
  | .host base =>
    admitsRead s.params (hostIndex base i) = true ∧ s.hostMem.read (hostIndex base i).toNat = v
  | .txbuf off => s.txbuf[off + i]? = some v
  | .rxbuf off => s.rxbuf[off + i]? = some v

/-- Buffer index `i` of a transfer exists, and the platform admits writing it (41_transfer.md R207). -/
def Writable (s : State) (b : Buf) (i : Nat) : Prop :=
  match b with
  | .host base => admitsWrite s.params (hostIndex base i) = true
  | .txbuf off | .rxbuf off => off + i < 40

/-- From `s` to `t` the bytes of `vs` are stored at buffer indices `i`, `i + 1`, …, and no other byte of host memory
or of a framer buffer changes (41_transfer.md R207, R208). -/
def Stored (s t : State) (b : Buf) (i : Nat) (vs : List Byte) : Prop :=
  match b with
  | .host base =>
    SameBuffers s t ∧
      (∀ k v, vs[k]? = some v → t.hostMem.read (hostIndex base (i + k)).toNat = v) ∧
      (∀ a, (∀ k, k < vs.length → a ≠ (hostIndex base (i + k)).toNat) → t.hostMem.read a = s.hostMem.read a)
  | .txbuf off =>
    SameHost s t ∧ t.rxbuf = s.rxbuf ∧
      (∀ k v, vs[k]? = some v → t.txbuf[off + i + k]? = some v) ∧
      (∀ j, (∀ k, k < vs.length → j ≠ off + i + k) → t.txbuf[j]? = s.txbuf[j]?)
  | .rxbuf off =>
    SameHost s t ∧ t.txbuf = s.txbuf ∧
      (∀ k v, vs[k]? = some v → t.rxbuf[off + i + k]? = some v) ∧
      (∀ j, (∀ k, k < vs.length → j ≠ off + i + k) → t.rxbuf[j]? = s.rxbuf[j]?)

/-- What an operation step leaves in the channel, the locks and the context `x` it was at, when the running sum becomes
`sum` (41_transfer.md R214; 42_mailbox.md R252, R253, R268). -/
structure OpDone (s t : State) (x : XferCtx) (sum : Byte) : Prop where
  /-- Not the last operation: `pos` grows by one, and a direct transfer shows the next operation's phase. -/
  more : ∀ op, x.ops[x.pos + 1]? = some op →
    SameLocks s t ∧ SameRecord s t s.sel ∧ (t.chan s.sel).mc = (s.chan s.sel).mc ∧
      (t.chan s.sel).xc = some { x with pos := x.pos + 1, sum := sum } ∧
      (t.chan s.sel).state = if x.viaMbx then (s.chan s.sel).state else op.phase.seqState
  /-- The last operation releases XLOCK. -/
  unlock : x.pos + 1 = x.ops.length → t.xlock = .free
  /-- The last operation of a direct transfer completes the command. -/
  complete : x.pos + 1 = x.ops.length → x.ret = .complete →
    MlockAfter s t s.sel ∧ Completed (t.chan s.sel) .ok 0 .done sum false
  /-- After the request header comes the payload, or the strobe where there is none. -/
  sendPayload : x.pos + 1 = x.ops.length → x.ret = .sendPayload → ∀ m, (s.chan s.sel).mc = some m →
    t.mlock = s.mlock ∧ SameRecord s t s.sel ∧
      (m.len ≠ 0 →
        (t.chan s.sel).mc = some { m with step := .sendPayload } ∧
        (t.chan s.sel).state = (s.chan s.sel).state ∧
        (t.chan s.sel).xc = some
          { dir := .wr, ec := 8, n := m.len, buf := .txbuf 8, ops := xferOps 8 m.len, pos := 0, sum := 0,
            ret := .sent }) ∧
      (m.len = 0 →
        (t.chan s.sel).mc = some { m with step := .strobe } ∧ (t.chan s.sel).state = .transmitted ∧
        (t.chan s.sel).xc = none)
  /-- After the payload comes the strobe. -/
  sent : x.pos + 1 = x.ops.length → x.ret = .sent → ∀ m, (s.chan s.sel).mc = some m →
    t.mlock = s.mlock ∧ SameRecord s t s.sel ∧ (t.chan s.sel).mc = some { m with step := .strobe } ∧
      (t.chan s.sel).state = .transmitted ∧ (t.chan s.sel).xc = none
  /-- After the response comes its validation. -/
  validate : x.pos + 1 = x.ops.length → x.ret = .validate → ∀ m, (s.chan s.sel).mc = some m →
    t.mlock = s.mlock ∧ SameRecord s t s.sel ∧ (t.chan s.sel).mc = some { m with step := .validate } ∧
      (t.chan s.sel).state = .responseRead ∧ (t.chan s.sel).xc = none

/-! ### Client steps -/

/-- Client `k` moves next, and its next line is the control-register write of `v` at offset `off`. -/
structure Writes (s : State) (k : ChanId) (off : Nat) (v : Word) (rest : List ClientOp) (sch : List Input) :
    Prop where
  moves : s.sched = .client k :: sch
  present : k.val < s.params.nch
  line : (s.client k).prog = .write (csrAddr s.params off) .w32 v :: rest

/-- `s` after client `k` has run a line, but for the line's effect: `rest` is left of its program, `sch` of the
schedule. -/
def State.lineDone (s : State) (k : ChanId) (rest : List ClientOp) (sch : List Input) : State :=
  (s.setSched sch).clientGoesOn k rest

/-- The two states differ at most in channel `c` and in the channel selected. -/
structure OnlyChan (s t : State) (c : ChanId) : Prop where
  window : SameWindow s t
  locks : SameLocks s t
  buffers : SameBuffers s t
  agents : SameAgents s t
  bus : SameBus s t
  host : SameHost s t
  others : SameOthers s t c

/-! ### Runs -/

/-- `channelRun c answers s`: channel `c` alone takes one step for each entry of `answers`; a port read in that step is
answered by the entry.  None if a step does not answer a next state. -/
def State.channelRun (s : State) (c : ChanId) : List Answer → Option State
  | [] => some s
  | a :: answers =>
    match s.channelStep c a with
    | .next t => t.channelRun c answers
    | .fault _ => none
    | .refused _ => none

/-- `windowRun c n s`: channel `c` alone takes `n` steps, every port read answered by the reference window, the EC side of
State (20_memory.md R115; notes/assumptions/5.md). -/
def State.windowRun (s : State) (c : ChanId) (n : Nat) : Option State :=
  s.channelRun c (List.replicate n .fromEc)

/-- Channel `c` waits in `X_WAIT` for the free XLOCK with a direct transfer of `n` bytes between EC address `a` and the
host buffer at `base`, and the platform admits every host access: what acceptance of XFER_WR or XFER_RD leaves of such a
command (41_transfer.md R195 to R197). -/
structure TransferReady (s : State) (c : ChanId) (dir : Dir) (a : Half) (base : Word) (n : Nat) : Prop where
  inv : s.Inv
  present : c.val < s.params.nch
  free : s.xlock = .free
  admitted : ∀ b, admitsRead s.params b = true ∧ admitsWrite s.params b = true
  direct : (s.chan c).mc = none
  xfer : (s.chan c).xc = some
    { dir := dir, ec := a, n := n, buf := .host base, ops := xferOps a n, pos := 0, sum := 0, ret := .complete }

/-- `pollRun c ws s`: channel `c` polls once for each entry of `ws`; before each poll the clock advances by the
entry's number of ticks, and the EC answers with the entry's byte. -/
def State.pollRun (s : State) (c : ChanId) : List (Nat × Byte) → Option State
  | [] => some s
  | (d, v) :: ws =>
    match (s.setNow (s.now + d)).channelStep c (.draw (v.setWidth 16)) with
    | .next t => t.pollRun c ws
    | .fault _ => none
    | .refused _ => none

/-! ### Infinite runs, and the assumptions on them -/

/-- The two locks of the block (10_state.md R51). -/
inductive Lock where
  | xlock
  | mlock
  deriving DecidableEq, Repr

/-- The lock is free. -/
def State.lockFree (s : State) : Lock → Prop
  | .xlock => s.xlock = .free
  | .mlock => s.mlock = .free

/-- Channel `c` holds the lock. -/
def State.holdsLock (s : State) (c : ChanId) : Lock → Prop
  | .xlock => s.holdsXlock c
  | .mlock => s.mlock = .held c

/-- Channel `c` has a command in flight that stands at the acquire point of the lock: a transfer that does not hold XLOCK
(20_memory.md R100), or a mailbox command at its lock step (R102). -/
def State.waitsFor (s : State) (c : ChanId) (l : Lock) : Prop :=
  c.val < s.params.nch ∧ (s.chan c).busy = true ∧
    match l with
    | .xlock => (s.chan c).xc.isSome = true ∧ ¬ s.holdsXlock c
    | .mlock => (s.chan c).xc = none ∧ ∃ m, (s.chan c).mc = some m ∧ m.step = .lock

/-- An infinite run of the machine. -/
def IsRun (r : Nat → State) : Prop := ∀ n, step (r n) = .next (r (n + 1))

/-- A run of the machine that the fairness assumption of 20_memory.md R105 admits: where a channel waits for a lock for
ever, the lock is free only finitely often.  A lock that is released infinitely often is free infinitely often, so no
waiter starves; and a lock that is left free is taken at last.  A claim that a waiting channel goes on at last takes this
as its premise (notes/assumptions/15.md). -/
structure FairRun (r : Nat → State) : Prop where
  run : IsRun r
  fair : ∀ c l n, (∀ k, n ≤ k → (r k).waitsFor c l) → ∃ k, ∀ j, k ≤ j → ¬ (r j).lockFree l

/-- A run in which every present channel gets its turn again and again, as 42_mailbox.md R262 assumes: an enabled step that
stays enabled is taken at last (notes/assumptions/15.md). -/
def ChannelsServed (r : Nat → State) : Prop :=
  ∀ c n, c.val < (r n).params.nch → ∃ k ans, n ≤ k ∧ (r k).nextInput.1 = .channel c ans

/-- The clock of a run grows without bound, as 42_mailbox.md R262 assumes (notes/assumptions/15.md). -/
def ClockUnbounded (r : Nat → State) : Prop := ∀ time, ∃ n, time ≤ (r n).now

end Sys2Proof.Machine
end

