-- ==== Sys2Proof/Certificates/Slice0/Obligations.lean ====
section
/-! DEFINITION. The statements about the machine, each from a numbered rule of the spec or derived from several. -/

open Sys2Proof Sys2Proof.Machine

/-! ### Reset and the machine's step -/

/-- 10_state.md R69: the value of every piece of block state after reset, for every choice of the parameters. -/
def Obligations.ResetLeavesBlockStateZero : Prop :=
  ∀ p : Params, let s := State.resetWith p
    s.emiBase = 0 ∧ s.emiEnd = 0 ∧ s.cmdPort = 0 ∧ s.dataPort = 0 ∧ s.cfgLocked = false ∧ s.configured = false ∧
      s.xlock = .free ∧ s.mlock = .free ∧
      (∀ c, (s.chan c).statusWord = 0 ∧ (s.chan c).resultWord = 0 ∧ (∀ k, (s.chan c).arg k = 0) ∧
        (s.chan c).sumWord = 0 ∧ (s.chan c).state = .idle ∧ (s.chan c).op = 0 ∧ (s.chan c).noresp = false ∧
        (s.chan c).xc = none ∧ (s.chan c).mc = none) ∧
      (∀ i : Fin 40, s.txbuf[i] = 0 ∧ s.rxbuf[i] = 0) ∧ s.params = p

/-- 70_reset_and_hazards.md R330, 10_state.md R70: a reset at any time gives every piece of block state its reset value
and touches neither EC-side state, host memory nor the time input. -/
def Obligations.ResetStepTouchesBlockOnly : Prop :=
  ∀ s sch, s.sched = .reset :: sch → ∃ t, step s = .next t ∧
    SameWindow (State.resetWith s.params) t ∧ SameLocks (State.resetWith s.params) t ∧
    SameBuffers (State.resetWith s.params) t ∧ (∀ c, t.chan c = Channel.reset) ∧ t.params = s.params ∧
    t.ec = s.ec ∧ SameHost s t ∧ t.now = s.now

/-- The invariant holds after reset, for every choice of the parameters in the ranges of 00_scope.md R9. -/
def Obligations.InvariantHoldsAfterReset : Prop :=
  State.reset.Inv ∧ ∀ p : Params, p.wf = true → (State.resetWith p).Inv

/-- Every step of every agent keeps the invariant: the memories stay canonical, the window stays unconfigured until a
CONFIGURE is accepted, and each channel's registers and contexts stay those of its command. -/
def Obligations.EveryStepKeepsInvariant : Prop :=
  ∀ s t, s.Inv → step s = .next t → t.Inv

/-- No condition stops the machine: its step answers a next state in every state at all.  60_exceptions.md R290 gives that
no condition transfers control; R306 speaks of the absence of a step, and that the step answers next also where an
agent has no enabled step is the model's choice (notes/assumptions/6.md), as is the move where the schedule is empty
(notes/assumptions/3.md). -/
def Obligations.EveryStepAnswersNext : Prop :=
  ∀ s, ∃ t, step s = .next t

/-- 20_memory.md R108: a step of the machine is the step of the agent that moves next, as the schedule of State says (the
model's choice of a schedule, notes/assumptions/3.md). -/
def Obligations.StepIsTheNextAgentsStep : Prop :=
  ∀ s i sch, s.sched = i :: sch → let u := s.setSched sch
    step s =
      match i with
      | .client k => u.clientStep k
      | .channel c ans => u.channelStep c ans
      | .ec m => .next (u.setEc (u.ec.move m))
      | .clock d => .next (u.setNow (u.now + d))
      | .reset => .next u.resetBlock

/-- 40_control.md R175: where the next line is a write to `CH_CMD(c)` of a word that decodes to a command, the step is
the command's meaning on channel `c`, after the line is taken from the client's program. -/
def Obligations.CommandWriteRunsDecodedCommand : Prop :=
  ∀ s k c w i rest sch, s.params.wf = true → Writes s k (chanOffset c.val) w rest sch → c.val < s.params.nch →
    decode (bytesOfWord w) = .ok (i, []) → i.isCommand = true →
    step s = exec i ((s.lineDone k rest sch).select c)

/-- Where a channel moves next and its next step issues the event `i`, the step is the meaning of `i` on that channel,
and `i` is the instruction that its own descriptor decodes to. -/
def Obligations.ChannelStepRunsItsEvent : Prop :=
  ∀ s c ans i sch, s.sched = .channel c ans :: sch → c.val < s.params.nch →
    ((s.setSched sch).select c).nextEvent ans = some i → s.Inv →
    step s = exec i ((s.setSched sch).select c) ∧ i.isCommand = false ∧ decode (encode i) = .ok (i, [])

/-- 20_memory.md R94: a port event runs exactly in the states in which the selected channel's next step issues it, for some
answer of the EC; in every other state its meaning stops by name (the model's choice, notes/assumptions/13.md). -/
def Obligations.EventRunsExactlyWhereIssued : Prop :=
  ∀ (s : State) (i : Instr), i.isCommand = false →
    ((∃ t, exec i s = .next t) ↔ ∃ ans, s.nextEvent ans = some i) ∧
      ((∀ ans, s.nextEvent ans ≠ some i) →
        exec i s = .fault .eventNotIssued ∨ exec i s = .fault .hostAccessNotAdmitted)

/-! ### Encodings -/

/-- Decoding the bytes of a well-formed instruction gives it back, with every operand at every value its encoding
admits, and leaves the bytes after it. -/
def Obligations.DecodeOfEncodeIsTheInstruction : Prop :=
  ∀ (i : Instr) (rest : List Byte), i.WellFormed → decode (encode i ++ rest) = .ok (i, rest)

/-- The other direction: a word that decodes is the word of the instruction it decodes to, and that instruction is
well formed; so no two words decode to one instruction, and no reserved encoding falls through to a neighbour. -/
def Obligations.DecodedWordIsTheEncoding : Prop :=
  ∀ (w : Word) (i : Instr), decodeWord w = .ok i → i.WellFormed ∧ encodeWord i = w

/-- Words written out from 30_encoding.md R131 and R142 decode to their instructions. -/
def Obligations.WordsOfTheTableDecode : Prop :=
  decodeWord 0x00000001 = .ok .configure ∧ decodeWord 0x00000002 = .ok .xferWr ∧
    decodeWord 0x00000003 = .ok .xferRd ∧ decodeWord 0x00000004 = .ok (.mboxExec false) ∧
    decodeWord 0x00000104 = .ok (.mboxExec true) ∧ decodeWord 0x80020004 = .ok (.selLo 0x04) ∧
    decodeWord 0x80030000 = .ok (.selHi 0x00) ∧ decodeWord 0x80050011 = .ok (.dbWr 1 0x11) ∧
    decodeWord 0x00070033 = .ok (.dbRd 3 0x33) ∧ decodeWord 0xC0045544 = .ok (.dhWr 0 0x5544) ∧
    decodeWord 0x40067766 = .ok (.dhRd 1 0x7766) ∧ decodeWord 0x900000DA = .ok (.strobe 0xDA) ∧
    decodeWord 0x10000006 = .ok (.statRd 0x06) ∧ decodeWord 0x2000007F = .ok (.flagRd 0x7F)

/-- 30_encoding.md R132: a command word is illegal exactly where its opcode is 0 or 5 to 15, a reserved bit is set, or
`N` is set with an opcode other than 4. -/
def Obligations.IllegalCommandWordsAreRefused : Prop :=
  ∀ w : Word, (∀ i, decodeCommand w ≠ .ok i) ↔
    (w.toNat % 16 = 0 ∨ 5 ≤ w.toNat % 16) ∨ w.toNat / 16 % 16 ≠ 0 ∨ w.toNat / 2 ^ 9 ≠ 0 ∨
      (w.toNat / 2 ^ 8 % 2 = 1 ∧ w.toNat % 16 ≠ 4)

/-! ### Control registers -/

/-- 10_state.md R36 to R41: what a read of each global offset returns. -/
def Obligations.GlobalRegistersRead : Prop :=
  ∀ s : State,
    (s.csrRead 0x000).toNat =
        (if s.emiBase ≠ 0 ∧ s.emiEnd ≠ 0 then 1 else 0) + (if s.cfgLocked = true then 2 else 0) ∧
      (s.csrRead 0x004).toNat = s.emiBase.toNat ∧ (s.csrRead 0x008).toNat = s.emiEnd.toNat ∧
      (s.csrRead 0x00C).toNat = s.cmdPort.toNat ∧ (s.csrRead 0x010).toNat = s.dataPort.toNat ∧
      (s.csrRead 0x014).toNat =
        (match s.xlock with
          | .free => 0
          | .held c via => 1 + (if via = true then 2 else 0) + 2 ^ 4 * c.val) +
        (match s.mlock with
          | .free => 0
          | .held c => 2 ^ 8 + 2 ^ 12 * c.val) ∧
      (s.csrRead 0x018).toNat =
        s.params.nch % 32 + (if s.params.validateRespCsum = true then 2 ^ 5 else 0) +
          (if s.params.port16OddOk = true then 2 ^ 6 else 0) + 2 ^ 8 * s.params.protoVersion.toNat +
          2 ^ 16 * s.params.mbxVersion.toNat + 2 ^ 24 * s.params.startCmd.toNat ∧
      s.csrRead 0x01C = s.params.timeoutTicks ∧ s.csrRead 0x020 = s.params.pollDelayTicks ∧
      ∀ off, (0x024 ≤ off ∧ off < 0x100) ∨ 0x100 + 0x40 * s.params.nch ≤ off → s.csrRead off = 0

/-- 10_state.md R42 to R48, 30_encoding.md R136: what a read of each offset of a present channel returns. -/
def Obligations.ChannelRegistersRead : Prop :=
  ∀ (s : State) (c : ChanId), c.val < s.params.nch →
    let o := 0x100 + 0x40 * c.val
    let ch := s.chan c
    s.csrRead o = 0 ∧
      (s.csrRead (o + 0x04)).toNat =
        (if ch.busy = true then 1 else 0) + (if ch.done = true then 2 else 0) +
          (if ch.wdrop = true then 4 else 0) + (if ch.noop = true then 8 else 0) +
          2 ^ 8 * ch.state.toCode.toNat ∧
      (s.csrRead (o + 0x08)).toNat = ch.kind.toCode.toNat + 2 ^ 16 * ch.code.toNat ∧
      s.csrRead (o + 0x0C) = ch.arg0 ∧ s.csrRead (o + 0x10) = ch.arg1 ∧ s.csrRead (o + 0x14) = ch.arg2 ∧
      s.csrRead (o + 0x18) = ch.arg3 ∧ s.csrRead (o + 0x1C) = ch.arg4 ∧
      (s.csrRead (o + 0x20)).toNat = ch.sum.toNat ∧
      ∀ r, 0x24 ≤ r ∧ r < 0x40 → s.csrRead (o + r) = 0

/-- 30_encoding.md R137, R138: every code of `STATE` and of `KIND`. -/
def Obligations.StatusAndKindCodes : Prop :=
  [SeqState.idle, .xWait, .xHead, .xBulk, .xTail, .mWait, .headerBuilt, .transmitted, .commandStarted,
      .noResponseExpected, .awaitingResponse, .responseReading, .responseRead, .done, .timedOut, .resultFlagBad,
      .sizeMismatch, .insufficientData, .resultCodeBad, .checksumBad, .rejected].map SeqState.toCode =
    [0x00, 0x02, 0x03, 0x04, 0x05, 0x10, 0x11, 0x12, 0x13, 0x14, 0x15, 0x16, 0x17, 0x20, 0x21, 0x22, 0x23, 0x24,
      0x25, 0x26, 0x27] ∧
  [Kind.ok, .timeout, .deviceFlag, .deviceResult, .sizeMismatch, .insufficientData, .badChecksum, .badCommand,
      .badArgument, .alreadyConfigured, .unconfigured].map Kind.toCode =
    [0x00, 0x01, 0x02, 0x03, 0x04, 0x05, 0x06, 0x10, 0x11, 0x12, 0x13]

/-- 40_control.md R171: a control-register read returns the register to the client and has no side effect. -/
def Obligations.ControlRegisterReadHasNoSideEffect : Prop :=
  ∀ s k off rest sch, s.params.wf = true → s.sched = .client k :: sch → k.val < s.params.nch →
    (s.client k).prog = .read (csrAddr s.params off) .w32 :: rest → off < 0x500 → off % 4 = 0 →
    ∃ t, step s = .next t ∧ t.client k = ⟨rest, s.csrRead off⟩ ∧ (∀ j, j ≠ k → t.client j = s.client j) ∧
      SameWindow s t ∧ SameLocks s t ∧ SameBuffers s t ∧ SameBus s t ∧ SameHost s t ∧ (∀ c, t.chan c = s.chan c) ∧
      t.params = s.params ∧ t.now = s.now ∧ t.drawn = s.drawn ∧ t.sched = sch

/-- 10_state.md R33: a control-register access that is not 32 bits wide, or not aligned, is not admitted: the client
has no step, and its line stays (a step that is not enabled leaves the state, notes/assumptions/6.md). -/
def Obligations.InadmissibleControlAccessHasNoStep : Prop :=
  ∀ s k a w v rest sch, s.sched = .client k :: sch →
    s.params.csrBase.toNat ≤ a.toNat → a.toNat < s.params.csrBase.toNat + 0x500 →
    w ≠ .w32 ∨ a.toNat % 4 ≠ 0 →
    (s.client k).prog = .write a w v :: rest ∨ (s.client k).prog = .read a w :: rest →
    step s = .next (s.setSched sch)

/-- 40_control.md R172: a write to `CH_ARGk(c)` while `BUSY = 0` stores the whole value, and changes nothing else. -/
def Obligations.ArgumentWriteIsStored : Prop :=
  ∀ s k c v rest sch (j : Fin 5), s.params.wf = true → c.val < s.params.nch →
    Writes s k (0x10C + 0x40 * c.val + 4 * j.val) v rest sch → (s.chan c).busy = false →
    ∃ t, step s = .next t ∧ OnlyChan (s.lineDone k rest sch) t c ∧ (t.chan c).arg j = v ∧
      (∀ i, i ≠ j → (t.chan c).arg i = (s.chan c).arg i) ∧ SameLatch s t c ∧ SameRecord s t c ∧
      (t.chan c).state = (s.chan c).state ∧ (t.chan c).xc = (s.chan c).xc ∧ (t.chan c).mc = (s.chan c).mc

/-- 40_control.md R173: while `BUSY = 1` a write to `CH_CMD(c)` or to any `CH_ARGk(c)` only sets `WDROP`. -/
def Obligations.BusyWritesAreDropped : Prop :=
  ∀ s k c v off rest sch, s.params.wf = true → c.val < s.params.nch →
    (off = 0x100 + 0x40 * c.val ∨ ∃ j : Fin 5, off = 0x10C + 0x40 * c.val + 4 * j.val) →
    Writes s k off v rest sch → (s.chan c).busy = true →
    ∃ t, step s = .next t ∧ OnlyChan (s.lineDone k rest sch) t c ∧
      t.chan c = { s.chan c with wdrop := true }

/-- 40_control.md R178: a write to `CH_STATUS(c)` clears `DONE` and `WDROP` where the word has their bits set, whatever
`BUSY` is, and changes nothing else. -/
def Obligations.StatusWriteClearsDoneAndDropped : Prop :=
  ∀ s k c v rest sch, s.params.wf = true → c.val < s.params.nch →
    Writes s k (0x104 + 0x40 * c.val) v rest sch →
    ∃ t, step s = .next t ∧ OnlyChan (s.lineDone k rest sch) t c ∧
      t.chan c = { s.chan c with
        done := if v.getLsbD 1 = true then false else (s.chan c).done
        wdrop := if v.getLsbD 2 = true then false else (s.chan c).wdrop }

/-- 40_control.md R179, R182: a write to a global register, to `CH_RESULT`, to `CH_SUM`, to a reserved offset or to an
offset of an absent channel has no effect. -/
def Obligations.ReadOnlyWritesHaveNoEffect : Prop :=
  ∀ s k off v rest sch, s.params.wf = true → off < 0x500 → off % 4 = 0 → Writes s k off v rest sch →
    (off < 0x100 ∨ 0x100 + 0x40 * s.params.nch ≤ off ∨ (off - 0x100) % 0x40 = 0x08 ∨
      0x20 ≤ (off - 0x100) % 0x40) →
    ∃ t, step s = .next t ∧ (∀ c, t.chan c = s.chan c) ∧ SameWindow s t ∧ SameLocks s t ∧ SameBuffers s t ∧
      SameBus s t ∧ SameHost s t ∧ SameAgents (s.lineDone k rest sch) t

/-- 30_encoding.md R149: a `wait c` line reads `CH_STATUS(c)` and stays until `BUSY` is 0; it changes nothing but its
client and the schedule, from which its move is taken. -/
def Obligations.WaitLineStaysUntilIdle : Prop :=
  ∀ s k (c : ChanId) rest sch, s.sched = .client k :: sch → k.val < s.params.nch → c.val < s.params.nch →
    (s.client k).prog = .wait c.val :: rest →
    ∃ t, step s = .next t ∧
      (t.client k).prog = (if (s.chan c).busy = true then .wait c.val :: rest else rest) ∧
      (t.client k).rdata = (s.chan c).statusWord ∧ (∀ j, j ≠ k → t.client j = s.client j) ∧
      (∀ d, t.chan d = s.chan d) ∧ SameWindow s t ∧ SameLocks s t ∧ SameBuffers s t ∧ SameBus s t ∧ SameHost s t ∧
      t.params = s.params ∧ t.now = s.now ∧ t.drawn = s.drawn ∧ t.sched = sch

/-! ### Acceptance of commands -/

/-- 40_control.md R176, R177: an illegal command word, written to a channel that takes commands, ends at once with
BAD_COMMAND and code 0. -/
def Obligations.IllegalCommandEndsWithBadCommand : Prop :=
  ∀ s k c w rest sch, s.params.wf = true → c.val < s.params.nch → (s.chan c).busy = false →
    Writes s k (0x100 + 0x40 * c.val) w rest sch → (∀ i, decodeCommand w ≠ .ok i) →
    ∃ t, step s = .next t ∧
      Rejection ((s.lineDone k rest sch).select c) t (w.setWidth 4) (w.getLsbD 8) .badCommand 0

/-- 40_control.md R173, R182: a command on a channel that is busy only sets its `WDROP`; a command on an absent channel
does nothing.  For each of the four commands. -/
def Obligations.CommandOnBusyOrAbsentChannel : Prop :=
  ∀ (s : State) (i : Instr), i.isCommand = true →
    (s.sel.val < s.params.nch → (s.chan s.sel).busy = true →
      ∃ t, exec i s = .next t ∧ OnlyChan s t s.sel ∧ t.chan s.sel = { s.chan s.sel with wdrop := true }) ∧
    (s.params.nch ≤ s.sel.val → exec i s = .next s)

/-- 40_control.md R184: a CONFIGURE that passes its checks writes the window registers, locks the configuration and
completes as a no-op. -/
def Obligations.ConfigureWritesTheWindow : Prop :=
  ∀ s : State, Accepts s → s.cfgLocked = false →
    (s.chan s.sel).arg0.toNat < 0x10000 → (s.chan s.sel).arg1.toNat < 0x10000 →
    (s.chan s.sel).arg2.toNat < 0x10000 → (s.chan s.sel).arg3.toNat < 0x10000 →
    (s.params.port16OddOk = true ∨ (s.chan s.sel).arg0.toNat % 2 = 0) →
    ∃ t, exec .configure s = .next t ∧ t.emiBase.toNat = (s.chan s.sel).arg0.toNat ∧
      t.emiEnd.toNat = (s.chan s.sel).arg1.toNat ∧ t.cmdPort.toNat = (s.chan s.sel).arg2.toNat ∧
      t.dataPort.toNat = (s.chan s.sel).arg3.toNat ∧ t.cfgLocked = true ∧
      Completed (t.chan s.sel) .ok 0 .done 0 true ∧ AcceptFrame s t 1 false ∧ MlockAfter s t s.sel

/-- 40_control.md R184, R185, 60_exceptions.md R296: why a CONFIGURE is rejected, in order of priority, and what it
leaves unchanged. -/
def Obligations.ConfigureRejections : Prop :=
  ∀ (s : State) (kind : Kind) (code : Half), Accepts s →
    let a := fun k => ((s.chan s.sel).arg k).toNat
    ((s.cfgLocked = true ∧ kind = .alreadyConfigured ∧ code = 0) ∨
      (s.cfgLocked = false ∧ kind = .badArgument ∧
        ((0x10000 ≤ a 0 ∧ code = 0) ∨
          (a 0 < 0x10000 ∧ 0x10000 ≤ a 1 ∧ code = 1) ∨
          (a 0 < 0x10000 ∧ a 1 < 0x10000 ∧ 0x10000 ≤ a 2 ∧ code = 2) ∨
          (a 0 < 0x10000 ∧ a 1 < 0x10000 ∧ a 2 < 0x10000 ∧ 0x10000 ≤ a 3 ∧ code = 3) ∨
          (a 0 < 0x10000 ∧ a 1 < 0x10000 ∧ a 2 < 0x10000 ∧ a 3 < 0x10000 ∧ s.params.port16OddOk = false ∧
            a 0 % 2 = 1 ∧ code = 0)))) →
    ∃ t, exec .configure s = .next t ∧ Rejection s t 1 false kind code

/-- 40_control.md R188: once a CONFIGURE has been accepted without error, no step but reset changes the window. -/
def Obligations.ConfiguredWindowNeverChanges : Prop :=
  ∀ s t, s.cfgLocked = true → s.nextInput.1 ≠ .reset → step s = .next t → SameWindow s t

/-- 41_transfer.md R197, R200: a transfer that passes its checks, on a configured window and with at least one byte,
binds its context and waits for XLOCK in X_WAIT, in both directions. -/
def Obligations.TransferStartsAndWaits : Prop :=
  ∀ (s : State) (dir : Dir), Accepts s →
    (s.chan s.sel).arg0.toNat < 0x10000 →
    (s.chan s.sel).arg1.toNat + (s.chan s.sel).arg2.toNat ≤ 2 ^ 32 →
    (s.chan s.sel).arg0.toNat + (s.chan s.sel).arg2.toNat ≤ 0x10000 →
    s.emiBase ≠ 0 → s.emiEnd ≠ 0 → (s.chan s.sel).arg2 ≠ 0 →
    ∃ t x, exec (match dir with | .wr => .xferWr | .rd => .xferRd) s = .next t ∧
      (t.chan s.sel).xc = some x ∧ x.dir = dir ∧ x.ec.toNat = (s.chan s.sel).arg0.toNat ∧
      x.n = (s.chan s.sel).arg2.toNat ∧ x.buf = .host (s.chan s.sel).arg1 ∧ x.ops = xferOps x.ec x.n ∧ x.pos = 0 ∧
      x.sum = 0 ∧ x.ret = .complete ∧ Started (t.chan s.sel) .xWait ∧ (t.chan s.sel).mc = (s.chan s.sel).mc ∧
      AcceptFrame s t (match dir with | .wr => 2 | .rd => 3) false ∧ SameWindow s t ∧ t.mlock = s.mlock

/-- 41_transfer.md R197, R198: a transfer that passes its checks is a successful no-op where the window is not
configured or the length is 0. -/
def Obligations.TransferNoop : Prop :=
  ∀ (s : State) (dir : Dir), Accepts s →
    (s.chan s.sel).arg0.toNat < 0x10000 →
    (s.chan s.sel).arg1.toNat + (s.chan s.sel).arg2.toNat ≤ 2 ^ 32 →
    (s.chan s.sel).arg0.toNat + (s.chan s.sel).arg2.toNat ≤ 0x10000 →
    (s.emiBase = 0 ∨ s.emiEnd = 0 ∨ (s.chan s.sel).arg2 = 0) →
    ∃ t, exec (match dir with | .wr => .xferWr | .rd => .xferRd) s = .next t ∧
      Completed (t.chan s.sel) .ok 0 .done 0 true ∧
      AcceptFrame s t (match dir with | .wr => 2 | .rd => 3) false ∧ SameWindow s t ∧ MlockAfter s t s.sel

/-- 41_transfer.md R197, R198: why a transfer is rejected, in order of priority, whether the window is configured or
not. -/
def Obligations.TransferRejections : Prop :=
  ∀ (s : State) (dir : Dir) (code : Half), Accepts s →
    let a := (s.chan s.sel).arg0.toNat
    let h := (s.chan s.sel).arg1.toNat
    let n := (s.chan s.sel).arg2.toNat
    ((0x10000 ≤ a ∧ code = 0) ∨ (a < 0x10000 ∧ 2 ^ 32 < h + n ∧ code = 1) ∨
      (a < 0x10000 ∧ h + n ≤ 2 ^ 32 ∧ 0x10000 < a + n ∧ code = 2)) →
    ∃ t, exec (match dir with | .wr => .xferWr | .rd => .xferRd) s = .next t ∧
      Rejection s t (match dir with | .wr => 2 | .rd => 3) false .badArgument code

/-- 42_mailbox.md R240: an MBOX_EXEC that passes its checks, on a configured window, gets its context and waits for
MLOCK in M_WAIT; with `N = 1` the response registers are not checked. -/
def Obligations.MailboxStartsAndWaits : Prop :=
  ∀ (s : State) (n : Bool), Accepts s →
    (s.chan s.sel).arg0.toNat < 0x10000 → (s.chan s.sel).arg2.toNat ≤ 32 →
    (s.chan s.sel).arg1.toNat + (s.chan s.sel).arg2.toNat ≤ 2 ^ 32 →
    (n = false → (s.chan s.sel).arg3.toNat + min (s.chan s.sel).arg4.toNat 32 ≤ 2 ^ 32) →
    s.emiBase ≠ 0 → s.emiEnd ≠ 0 →
    ∃ t, exec (.mboxExec n) s = .next t ∧
      (t.chan s.sel).mc = some { step := .lock, t0 := 0, tnext := 0, len := (s.chan s.sel).arg2.toNat } ∧
      Started (t.chan s.sel) .mWait ∧ (t.chan s.sel).xc = (s.chan s.sel).xc ∧ AcceptFrame s t 4 n ∧
      SameWindow s t ∧ t.mlock = s.mlock

/-- 42_mailbox.md R240, 60_exceptions.md R296: why an MBOX_EXEC is rejected, in order of priority. -/
def Obligations.MailboxRejections : Prop :=
  ∀ (s : State) (n : Bool) (kind : Kind) (code : Half), Accepts s →
    let a := fun k => ((s.chan s.sel).arg k).toNat
    let respFits := n = true ∨ a 3 + min (a 4) 32 ≤ 2 ^ 32
    ((kind = .badArgument ∧
        ((0x10000 ≤ a 0 ∧ code = 0) ∨ (a 0 < 0x10000 ∧ 32 < a 2 ∧ code = 2) ∨
          (a 0 < 0x10000 ∧ a 2 ≤ 32 ∧ 2 ^ 32 < a 1 + a 2 ∧ code = 1) ∨
          (a 0 < 0x10000 ∧ a 2 ≤ 32 ∧ a 1 + a 2 ≤ 2 ^ 32 ∧ ¬ respFits ∧ code = 3))) ∨
      (kind = .unconfigured ∧ code = 0 ∧ a 0 < 0x10000 ∧ a 2 ≤ 32 ∧ a 1 + a 2 ≤ 2 ^ 32 ∧ respFits ∧
        (s.emiBase = 0 ∨ s.emiEnd = 0))) →
    ∃ t, exec (.mboxExec n) s = .next t ∧ Rejection s t 4 n kind code

/-! ### Transfers -/

/-- 41_transfer.md R213, 20_memory.md R100: a channel with a transfer to begin takes XLOCK where it is free, and shows
the phase of its first operation if the transfer is direct; where another channel holds XLOCK it has no step (a step that
is not enabled leaves the state, notes/assumptions/6.md). -/
def Obligations.TransferLockIsAcquired : Prop :=
  ∀ (s : State) (c : ChanId) (ans : Answer) (x : XferCtx), c.val < s.params.nch → (s.chan c).xc = some x →
    (s.xlock = .free → ∃ t, s.channelStep c ans = .next t ∧ t.xlock = .held c x.viaMbx ∧ t.mlock = s.mlock ∧
      (t.chan c).xc = some { x with pos := 0 } ∧ (t.chan c).mc = (s.chan c).mc ∧
      (x.viaMbx = true → (t.chan c).state = (s.chan c).state) ∧
      (∀ op, x.viaMbx = false → x.ops[0]? = some op → (t.chan c).state = op.phase.seqState) ∧
      SameWindow s t ∧ SameBuffers s t ∧ SameAgents s t ∧ SameBus s t ∧ SameHost s t ∧ SameOthers s t c ∧
      SameArgs s t c ∧ SameLatch s t c ∧ SameRecord s t c) ∧
    (∀ d via, d ≠ c → s.xlock = .held d via → s.channelStep c ans = .next (s.select c))

/-- 41_transfer.md R201, R214: the two select operations complete for every value, write window offsets 2 and 3, make
no host access, and advance the transfer. -/
def Obligations.SelectEventsComplete : Prop :=
  ∀ (s : State) (x : XferCtx) (v : Byte) (ph : Phase),
    (AtOp s x (.selLo v ph) → ∃ t, exec (.selLo v) s = .next t ∧
      EventFrame s t (.selLo v) (BitVec.ofNat 16 (s.emiBase.toNat + 2)) ∧ SameHost s t ∧ SameBuffers s t ∧
      OpDone s t x x.sum) ∧
    (AtOp s x (.selHi v ph) → ∃ t, exec (.selHi v) s = .next t ∧
      EventFrame s t (.selHi v) (BitVec.ofNat 16 (s.emiBase.toNat + 3)) ∧ SameHost s t ∧ SameBuffers s t ∧
      OpDone s t x x.sum)

/-- 41_transfer.md R206, R214: a BYTE operation in the write direction reads the byte at its index, writes it to its
slot, adds it to the running sum, and stores nothing. -/
def Obligations.ByteWriteEventCompletes : Prop :=
  ∀ (s : State) (x : XferCtx) (j idx : Nat) (ph : Phase) (v : Byte), AtOp s x (.byte j idx ph) → x.dir = .wr →
    Holds s x.buf idx v →
    ∃ t, exec (.dbWr j v) s = .next t ∧
      EventFrame s t (.dbWr j v) (BitVec.ofNat 16 (s.emiBase.toNat + 4 + j)) ∧ SameHost s t ∧ SameBuffers s t ∧
      OpDone s t x (x.sum + v)

/-- 41_transfer.md R207, R214: a BYTE operation in the read direction stores the byte the EC answers, whatever it is,
at its index, adds it to the running sum, and stores nothing else. -/
def Obligations.ByteReadEventCompletes : Prop :=
  ∀ (s : State) (x : XferCtx) (j idx : Nat) (ph : Phase) (v : Byte), s.hostMem.wf = true →
    AtOp s x (.byte j idx ph) → x.dir = .rd → Writable s x.buf idx →
    ∃ t, exec (.dbRd j v) s = .next t ∧
      EventFrame s t (.dbRd j v) (BitVec.ofNat 16 (s.emiBase.toNat + 4 + j)) ∧ Stored s t x.buf idx [v] ∧
      OpDone s t x (x.sum + v)

/-- 41_transfer.md R208, R214: a HALF operation in the write direction sends two bytes as one little-endian value. -/
def Obligations.HalfWriteEventCompletes : Prop :=
  ∀ (s : State) (x : XferCtx) (g idx : Nat) (ph : Phase) (b0 b1 : Byte) (v : Half),
    AtOp s x (.half g idx ph) → x.dir = .wr → Holds s x.buf idx b0 → Holds s x.buf (idx + 1) b1 →
    v.toNat = b0.toNat + 256 * b1.toNat →
    ∃ t, exec (.dhWr g v) s = .next t ∧
      EventFrame s t (.dhWr g v) (BitVec.ofNat 16 (s.emiBase.toNat + 4 + 2 * g)) ∧ SameHost s t ∧
      SameBuffers s t ∧ OpDone s t x (x.sum + b0 + b1)

/-- 41_transfer.md R208, R214: a HALF operation in the read direction stores the low byte of what the EC answers at its
index and the high byte at the next, and stores nothing else. -/
def Obligations.HalfReadEventCompletes : Prop :=
  ∀ (s : State) (x : XferCtx) (g idx : Nat) (ph : Phase) (b0 b1 : Byte) (v : Half), s.hostMem.wf = true →
    AtOp s x (.half g idx ph) → x.dir = .rd → Writable s x.buf idx → Writable s x.buf (idx + 1) →
    v.toNat = b0.toNat + 256 * b1.toNat →
    ∃ t, exec (.dhRd g v) s = .next t ∧
      EventFrame s t (.dhRd g v) (BitVec.ofNat 16 (s.emiBase.toNat + 4 + 2 * g)) ∧
      Stored s t x.buf idx [b0, b1] ∧ OpDone s t x (x.sum + b0 + b1)

/-- 41_transfer.md R211, R212: a transfer moves every buffer index once, in ascending order, and index `i` travels through
the slot of EC address `a + i`; and how many operations it has. -/
def Obligations.OperationsCoverTheBuffer : Prop :=
  ∀ (a : Half) (n : Nat), 1 ≤ n → a.toNat + n ≤ 0x10000 →
    let h := a.toNat % 4
    let k := if h = 0 then 0 else min n (4 - h)
    let b := (n - k) / 4
    let t := (n - k) % 4
    (xferOps a n).flatMap BusOp.indices = List.range n ∧
      (xferOps a n).flatMap BusOp.slots = ((List.range n).map fun i => (a.toNat + i) % 4) ∧
      (xferOps a n).length =
        (if h ≠ 0 then 2 + k else 0) + (if 1 ≤ b then 2 + 2 * b else 0) + (if 1 ≤ t then 2 + t else 0)

/-- 41_transfer.md R202, R209, R210: the data operations before the next select of a transfer: mode 0 selects are
followed by bytes, mode 3 selects by pairs of half 0 and half 1, and bulk and tail selects carry an aligned address. -/
def Obligations.PhasesUseTheirAccessMode : Prop :=
  ∀ (a : Half) (n : Nat), 1 ≤ n → a.toNat + n ≤ 0x10000 →
    ∃ head bulk tail : List BusOp, xferOps a n = head ++ bulk ++ tail ∧
      (head = [] ∨ ∃ m, 1 ≤ m ∧ m ≤ n ∧
        head = .selLo (BitVec.ofNat 8 (4 * (a.toNat / 4))) .head :: .selHi (BitVec.ofNat 8 (a.toNat / 256)) .head ::
          (List.range m).map fun i => .byte (a.toNat % 4 + i) i .head) ∧
      (bulk = [] ∨ ∃ i m, 1 ≤ m ∧ i + 4 * m ≤ n ∧ (a.toNat + i) % 4 = 0 ∧
        bulk = .selLo (BitVec.ofNat 8 (a.toNat + i + 3)) .bulk ::
          .selHi (BitVec.ofNat 8 ((a.toNat + i) / 256)) .bulk ::
          (List.range m).flatMap fun u => [.half 0 (i + 4 * u) .bulk, .half 1 (i + 4 * u + 2) .bulk]) ∧
      (tail = [] ∨ ∃ i m, 1 ≤ m ∧ m < 4 ∧ i + m = n ∧ (a.toNat + i) % 4 = 0 ∧
        tail = .selLo (BitVec.ofNat 8 (a.toNat + i)) .tail :: .selHi (BitVec.ofNat 8 ((a.toNat + i) / 256)) .tail ::
          (List.range m).map fun k => .byte k (i + k) .tail)

/-- 41_transfer.md R217, R212: a transfer, direct or the framer's, that finds XLOCK free takes `1 + len(ops)` steps of its
channel, issues one event in each step but the first, and holds XLOCK from the first to the last, in which it is released
(20_memory.md R101).  The channel runs alone and every host access is admitted; the EC may answer each read with any value
(R82). -/
def Obligations.TransferTakesOneStepPerOperation : Prop :=
  ∀ (s : State) (c : ChanId) (x : XferCtx) (answers : List Answer), c.val < s.params.nch → s.xlock = .free →
    (s.chan c).xc = some x → x.ops ≠ [] → (∀ a, admitsRead s.params a = true ∧ admitsWrite s.params a = true) →
    answers.length = 1 + x.ops.length →
    (∀ p, p < x.ops.length → ∃ t, s.channelRun c (answers.take (1 + p)) = some t ∧ t.xlock = .held c x.viaMbx ∧
      (t.chan c).xc.map XferCtx.pos = some p ∧ t.trace.length = s.trace.length + p) ∧
    ∃ t, s.channelRun c answers = some t ∧ t.xlock = .free ∧
      t.trace.length = s.trace.length + x.ops.length

/-- 20_memory.md R122: on the reference window (the EC side of State, notes/assumptions/5.md), with no other agent
moving during a transfer.  An XFER_WR of a host buffer at EC address `a` leaves the buffer's bytes at `a`, `a + 1`, … of
EC memory and every other byte of it unchanged; an XFER_RD leaves the EC's bytes in the host buffer and every other byte
of host memory unchanged; each completes with OK and the byte-sum.  A read that follows the write, on any channel and
into any buffer, with the EC side as the write left it, returns the bytes that the written buffer held. -/
def Obligations.WriteThenReadRoundTrip : Prop :=
  ∀ (s : State) (c : ChanId) (a : Half) (base : Word) (n : Nat),
    let steps := 1 + (xferOps a n).length
    let hostSum := sum8 ((List.range n).map fun i => s.hostMem.read (base.toNat + i))
    let ecSum := sum8 ((List.range n).map fun i => s.ec.mem.read (a.toNat + i))
    (TransferReady s c .wr a base n →
      ∃ t, s.windowRun c steps = some t ∧ Completed (t.chan c) .ok 0 .done hostSum false ∧ SameHost s t ∧
        (∀ i, i < n → t.ec.mem.read (a.toNat + i) = s.hostMem.read (base.toNat + i)) ∧
        ∀ b, b < a.toNat ∨ a.toNat + n ≤ b → t.ec.mem.read b = s.ec.mem.read b) ∧
    (TransferReady s c .rd a base n →
      ∃ t, s.windowRun c steps = some t ∧ Completed (t.chan c) .ok 0 .done ecSum false ∧
        (∀ b, t.ec.mem.read b = s.ec.mem.read b) ∧
        (∀ i, i < n → t.hostMem.read (base.toNat + i) = s.ec.mem.read (a.toNat + i)) ∧
        ∀ b, b < base.toNat ∨ base.toNat + n ≤ b → t.hostMem.read b = s.hostMem.read b) ∧
    (TransferReady s c .wr a base n → ∀ t u d base', s.windowRun c steps = some t → u.ec = t.ec →
      TransferReady u d .rd a base' n →
      ∃ v, u.windowRun d steps = some v ∧ Completed (v.chan d) .ok 0 .done hostSum false ∧
        ∀ i, i < n → v.hostMem.read (base'.toNat + i) = s.hostMem.read (base.toNat + i))

/-- 20_memory.md R116 to R119: the accesses of the reference window, an environment for tests and no rule of the block
(the model's choice of an EC side, notes/assumptions/5.md). -/
def Obligations.ReferenceWindowAccesses : Prop :=
  ∀ (e : EcSide) (v : Byte) (w : Half) (j : Nat), e.mem.wf = true → j < 4 →
    let unit := e.addr.toNat - e.addr.toNat % 4
    let next := (unit + 4) % 2 ^ 16 + 3
    (e.write8 2 v).addr.toNat = e.addr.toNat / 256 * 256 + v.toNat ∧
      (e.write8 3 v).addr.toNat = e.addr.toNat % 256 + 256 * v.toNat ∧
      (e.write8 (4 + j) v).mem.read (unit + j) = v ∧
      (∀ b, b ≠ unit + j → (e.write8 (4 + j) v).mem.read b = e.mem.read b) ∧
      (e.write8 (4 + j) v).addr.toNat = (if j = 3 ∧ e.addr.toNat % 4 = 3 then next else e.addr.toNat) ∧
      e.read8 (4 + j) = e.mem.read (unit + j) ∧
      (j < 2 →
        (e.halfValue j).toNat = (e.mem.read (unit + 2 * j)).toNat + 256 * (e.mem.read (unit + 2 * j + 1)).toNat ∧
        (e.writeHalf j w).mem.read (unit + 2 * j) = BitVec.ofNat 8 w.toNat ∧
        (e.writeHalf j w).mem.read (unit + 2 * j + 1) = BitVec.ofNat 8 (w.toNat / 256) ∧
        (∀ b, b ≠ unit + 2 * j → b ≠ unit + 2 * j + 1 → (e.writeHalf j w).mem.read b = e.mem.read b) ∧
        (e.writeHalf j w).addr.toNat = (if j = 1 ∧ e.addr.toNat % 4 = 3 then next else e.addr.toNat))

/-- What each instruction leaves on the EC side: a window write is the reference window's, a window read only
autoincrements, and every other instruction changes nothing there.  The model's choice of an EC side
(notes/assumptions/5.md). -/
def Obligations.EcSideFrameOfEveryInstruction : Prop :=
  ∀ (i : Instr) (s t : State), exec i s = .next t →
    match i with
    | .selLo v => t.ec = s.ec.write8 2 v
    | .selHi v => t.ec = s.ec.write8 3 v
    | .dbWr j v => t.ec = s.ec.write8 (4 + j) v
    | .dhWr h v => t.ec = s.ec.writeHalf h v
    | .dbRd j _ => t.ec = if j = 3 then s.ec.autoIncrement else s.ec
    | .dhRd h _ => t.ec = if h = 1 then s.ec.autoIncrement else s.ec
    | .configure | .xferWr | .xferRd | .mboxExec _ | .strobe _ | .statRd _ | .flagRd _ => t.ec = s.ec

/-! ### The mailbox -/

/-- 42_mailbox.md R243, 20_memory.md R102: the lock step takes MLOCK where it is free; where another channel holds it
the channel has no step (a step that is not enabled leaves the state, notes/assumptions/6.md). -/
def Obligations.MailboxLockIsAcquired : Prop :=
  ∀ (s : State) (c : ChanId) (ans : Answer) (m : MboxCtx), c.val < s.params.nch →
    AtStep (s.select c) m .lock →
    (s.mlock = .free → ∃ t, s.channelStep c ans = .next t ∧ t.mlock = .held c ∧ t.xlock = s.xlock ∧
      t.chan c = { s.chan c with mc := some { m with step := .build } } ∧ SameOthers s t c ∧ SameWindow s t ∧
      SameBuffers s t ∧ SameAgents s t ∧ SameBus s t ∧ SameHost s t) ∧
    (∀ d, s.mlock = .held d → s.channelStep c ans = .next (s.select c))

/-- 42_mailbox.md R246, R248, R249: the build step leaves the request in `TXBUF`, header and payload, with a checksum
byte that makes the bytes transmitted sum to 0; the bytes after them keep what they held; and the header transfer
begins. -/
def Obligations.BuildStepFramesTheRequest : Prop :=
  ∀ (s : State) (c : ChanId) (ans : Answer) (m : MboxCtx) (payload : List Byte), c.val < s.params.nch →
    AtStep (s.select c) m .build → m.len ≤ 32 → payload.length = m.len →
    (∀ i, i < m.len → Holds s (.host (s.chan c).arg1) i (payload.getD i 0)) →
    ∃ t, s.channelStep c ans = .next t ∧
      t.txbuf[0] = s.params.protoVersion ∧
      t.txbuf[1].toNat =
        (256 - (s.params.protoVersion.toNat + (s.chan c).arg0.toNat % 256 + (s.chan c).arg0.toNat / 256 % 256 +
          s.params.mbxVersion.toNat + m.len + (payload.map BitVec.toNat).sum) % 256) % 256 ∧
      t.txbuf[2] = BitVec.ofNat 8 (s.chan c).arg0.toNat ∧
      t.txbuf[3] = BitVec.ofNat 8 ((s.chan c).arg0.toNat / 256) ∧ t.txbuf[4] = s.params.mbxVersion ∧
      t.txbuf[5] = 0 ∧ t.txbuf[6].toNat = m.len ∧ t.txbuf[7] = 0 ∧
      (∀ i, i < m.len → t.txbuf[8 + i]? = payload[i]?) ∧
      (∀ i, 8 + m.len ≤ i → t.txbuf[i]? = s.txbuf[i]?) ∧
      sum8 (t.txbuf.toList.take (8 + m.len)) = 0 ∧
      (t.chan c).state = .headerBuilt ∧ (t.chan c).mc = some { m with step := .sendHdr } ∧
      (t.chan c).xc = some
        { dir := .wr, ec := 0, n := 8, buf := .txbuf 0, ops := xferOps 0 8, pos := 0, sum := 0,
          ret := .sendPayload } ∧
      SameWindow s t ∧ SameLocks s t ∧ t.rxbuf = s.rxbuf ∧ SameAgents s t ∧ SameBus s t ∧ SameHost s t ∧
      SameOthers s t c ∧ SameArgs s t c ∧ SameLatch s t c ∧ SameRecord s t c

/-- 42_mailbox.md R257, R258: the strobe completes, once, with `START_CMD`; with `N = 1` the command ends there with OK,
else the wait begins at the present time. -/
def Obligations.StrobeEventCompletes : Prop :=
  ∀ (s : State) (m : MboxCtx), AtStep s m .strobe →
    ∃ t, exec (.strobe s.params.startCmd) s = .next t ∧
      EventFrame s t (.strobe s.params.startCmd) s.cmdPort ∧ SameHost s t ∧ SameBuffers s t ∧ t.xlock = s.xlock ∧
      ((s.chan s.sel).noresp = true → Completed (t.chan s.sel) .ok 0 .done 0 false ∧ MlockAfter s t s.sel) ∧
      ((s.chan s.sel).noresp = false →
        (t.chan s.sel).mc = some { m with step := .poll, t0 := s.now, tnext := s.now } ∧
        (t.chan s.sel).state = .awaitingResponse ∧ (t.chan s.sel).xc = none ∧ SameRecord s t s.sel ∧
        t.mlock = s.mlock)

/-- 42_mailbox.md R261: a poll is taken once the time has come, for every status byte the EC answers.  Bits 1 and 2
clear end the wait, whatever the time; else the deadline ends the command with TIMEOUT; else the next poll is set. -/
def Obligations.StatusReadEventCompletes : Prop :=
  ∀ (s : State) (m : MboxCtx) (v : Byte), AtStep s m .poll → m.tnext ≤ s.now →
    ∃ t, exec (.statRd v) s = .next t ∧ EventFrame s t (.statRd v) s.cmdPort ∧ SameHost s t ∧ SameBuffers s t ∧
      t.xlock = s.xlock ∧
      (v.getLsbD 1 = false ∧ v.getLsbD 2 = false →
        (t.chan s.sel).mc = some { m with step := .flag } ∧ (t.chan s.sel).state = (s.chan s.sel).state ∧
        (t.chan s.sel).xc = none ∧ SameRecord s t s.sel ∧ t.mlock = s.mlock) ∧
      ((v.getLsbD 1 = true ∨ v.getLsbD 2 = true) → s.params.timeoutTicks.toNat ≤ s.now - m.t0 →
        Completed (t.chan s.sel) .timeout 0 .timedOut 0 false ∧ MlockAfter s t s.sel) ∧
      ((v.getLsbD 1 = true ∨ v.getLsbD 2 = true) → s.now - m.t0 < s.params.timeoutTicks.toNat →
        (t.chan s.sel).mc = some { m with tnext := s.now + s.params.pollDelayTicks.toNat } ∧
        (t.chan s.sel).state = (s.chan s.sel).state ∧ (t.chan s.sel).xc = none ∧ SameRecord s t s.sel ∧
        t.mlock = s.mlock)

/-- 42_mailbox.md R266: the flag read completes for every byte the EC answers.  A non-zero flag ends the command with
that code; a zero flag begins the transfer of the 40 response bytes. -/
def Obligations.FlagReadEventCompletes : Prop :=
  ∀ (s : State) (m : MboxCtx) (v : Byte), AtStep s m .flag →
    ∃ t, exec (.flagRd v) s = .next t ∧ EventFrame s t (.flagRd v) s.dataPort ∧ SameHost s t ∧ SameBuffers s t ∧
      t.xlock = s.xlock ∧
      (v ≠ 0 → Completed (t.chan s.sel) .deviceFlag (v.setWidth 16) .resultFlagBad 0 false ∧ MlockAfter s t s.sel) ∧
      (v = 0 →
        (t.chan s.sel).mc = some { m with step := .read } ∧ (t.chan s.sel).state = .responseReading ∧
        (t.chan s.sel).xc = some
          { dir := .rd, ec := 0, n := 40, buf := .rxbuf 0, ops := xferOps 0 40, pos := 0, sum := 0,
            ret := .validate } ∧
        SameRecord s t s.sel ∧ t.mlock = s.mlock)

/-- 42_mailbox.md R269, R271 to R274, R276: which check a response fails, in order, with its code; the command ends
there, no host byte is written, and `SUM` is the byte-sum of the response. -/
def Obligations.ValidationFailures : Prop :=
  ∀ (s : State) (c : ChanId) (ans : Answer) (m : MboxCtx) (kind : Kind) (code : Half) (st : SeqState),
    c.val < s.params.nch → AtStep (s.select c) m .validate →
    let sum := sum8 s.rxbuf.toList
    let rc := s.rxbuf[2].toNat + 256 * s.rxbuf[3].toNat
    let dl := s.rxbuf[4].toNat + 256 * s.rxbuf[5].toNat
    let respLen := (s.chan c).arg4.toNat
    let sumFails := s.params.validateRespCsum = true ∧ sum ≠ 0
    ((sumFails ∧ kind = .badChecksum ∧ st = .checksumBad ∧ code = sum.setWidth 16) ∨
      (¬ sumFails ∧ dl ≠ 32 ∧ kind = .sizeMismatch ∧ st = .sizeMismatch ∧ code.toNat = dl) ∨
      (¬ sumFails ∧ dl = 32 ∧ 32 < respLen ∧ kind = .insufficientData ∧ st = .insufficientData ∧
        code.toNat = min respLen 0xFFFF) ∨
      (¬ sumFails ∧ dl = 32 ∧ respLen ≤ 32 ∧ rc ≠ 0 ∧ kind = .deviceResult ∧ st = .resultCodeBad ∧
        code.toNat = rc)) →
    ∃ t, s.channelStep c ans = .next t ∧ Completed (t.chan c) kind code st sum false ∧ MlockAfter s t c ∧
      t.xlock = s.xlock ∧ SameWindow s t ∧ SameBuffers s t ∧ SameAgents s t ∧ SameBus s t ∧ SameHost s t ∧
      SameOthers s t c ∧ SameArgs s t c ∧ SameLatch s t c

/-- 42_mailbox.md R269, R275: a response that passes every check ends the command with OK, and the requested prefix of
its payload is copied out, no other host byte. -/
def Obligations.ValidationCopiesOut : Prop :=
  ∀ (s : State) (c : ChanId) (ans : Answer) (m : MboxCtx), s.Inv → c.val < s.params.nch →
    AtStep (s.select c) m .validate →
    (s.params.validateRespCsum = true → sum8 s.rxbuf.toList = 0) →
    s.rxbuf[4].toNat + 256 * s.rxbuf[5].toNat = 32 → (s.chan c).arg4.toNat ≤ 32 →
    s.rxbuf[2].toNat + 256 * s.rxbuf[3].toNat = 0 →
    (∀ i, i < (s.chan c).arg4.toNat → Writable s (.host (s.chan c).arg3) i) →
    ∃ t, s.channelStep c ans = .next t ∧ Completed (t.chan c) .ok 0 .done (sum8 s.rxbuf.toList) false ∧
      (∀ i, i < (s.chan c).arg4.toNat →
        some (t.hostMem.read ((s.chan c).arg3.toNat + i)) = s.rxbuf[8 + i]?) ∧
      (∀ a, a < (s.chan c).arg3.toNat ∨ (s.chan c).arg3.toNat + (s.chan c).arg4.toNat ≤ a →
        t.hostMem.read a = s.hostMem.read a) ∧
      MlockAfter s t c ∧ t.xlock = s.xlock ∧ SameWindow s t ∧ SameBuffers s t ∧ SameAgents s t ∧ SameBus s t ∧
      SameOthers s t c ∧ SameArgs s t c ∧ SameLatch s t c

/-- 42_mailbox.md R262: an EC that is busy at every read ends the command with TIMEOUT, and at no poll before
`t0 + T`; with a poll delay of `D ≥ 1` ticks it is polled at most `ceil(T / D) + 1` times, however long the run. -/
def Obligations.TimeoutBoundsTheWait : Prop :=
  ∀ (s t : State) (c : ChanId) (m : MboxCtx) (ws : List (Nat × Byte)), c.val < s.params.nch →
    AtStep (s.select c) m .poll → (s.chan c).busy = true → m.t0 = s.now → m.tnext = s.now →
    (∀ w ∈ ws, w.2.getLsbD 1 = true ∨ w.2.getLsbD 2 = true) → s.pollRun c ws = some t →
    let limit := s.params.timeoutTicks.toNat
    let delay := s.params.pollDelayTicks.toNat
    (t.now < m.t0 + limit → (t.chan c).busy = true) ∧
      (ws ≠ [] → m.t0 + limit + delay ≤ t.now → Completed (t.chan c) .timeout 0 .timedOut 0 false) ∧
      (1 ≤ delay → t.trace.length ≤ s.trace.length + (limit + delay - 1) / delay + 1)

/-! ### Whole-machine rules -/

/-- 20_memory.md R81, R94 to R96: a step adds at most one event to the history; the event is one of the nine kinds, at
its port, on a configured window; a window event is issued under XLOCK and the others under MLOCK. -/
def Obligations.OnlyListedPortEventsAreIssued : Prop :=
  ∀ s t, s.Inv → step s = .next t →
    t.trace = s.trace ∨
    ∃ e i, t.trace = s.trace ++ [e] ∧ i.isCommand = false ∧ decodeWord e.word = .ok i ∧ s.emiBase ≠ 0 ∧
      s.emiEnd ≠ 0 ∧ e.chan.val < s.params.nch ∧
      ((s.holdsXlock e.chan ∧ ∃ off, 2 ≤ off ∧ off ≤ 7 ∧ field e.word 29 28 = 0 ∧ field e.word 18 16 = off ∧
          e.port = BitVec.ofNat 16 (s.emiBase.toNat + off)) ∨
        (s.mlock = .held e.chan ∧ field e.word 29 28 = 1 ∧ e.port = s.cmdPort) ∨
        (s.mlock = .held e.chan ∧ field e.word 29 28 = 2 ∧ e.port = s.dataPort))

/-- 20_memory.md R104: a step that takes XLOCK takes it for a mailbox sub-transfer exactly where the channel holds
MLOCK; and no channel takes MLOCK while it holds XLOCK. -/
def Obligations.MailboxLockComesBeforeTransferLock : Prop :=
  ∀ s t c, s.Inv → step s = .next t →
    (∀ via, s.xlock = .free → t.xlock = .held c via → (via = true ↔ s.mlock = .held c)) ∧
    (s.holdsXlock c → s.mlock ≠ .held c → t.mlock ≠ .held c)

/-- 20_memory.md R103, 42_mailbox.md R243: the holder of MLOCK keeps it while its command is in flight, and it is free
once the command has ended, on every exit path. -/
def Obligations.MailboxLockHeldUntilCompletion : Prop :=
  ∀ s t c, s.Inv → s.mlock = .held c → step s = .next t →
    ((t.chan c).busy = true → t.mlock = .held c) ∧ ((t.chan c).busy = false → t.mlock = .free)

/-- 42_mailbox.md R279: a mailbox command goes forward through its steps and never back. -/
def Obligations.MailboxStepsGoForward : Prop :=
  ∀ s t c m m', s.Inv → step s = .next t → (s.chan c).mc = some m → (t.chan c).mc = some m' →
    let order := [MboxStep.lock, .build, .sendHdr, .sendPayload, .strobe, .poll, .flag, .read, .validate]
    order.idxOf m.step ≤ order.idxOf m'.step ∧ m'.len = m.len

/-- 60_exceptions.md R301: the record of a command stays until the next command accepted on that channel, or reset. -/
def Obligations.CommandRecordStays : Prop :=
  ∀ s t c, s.Inv → step s = .next t → (s.chan c).busy = false → s.nextInput.1 ≠ .reset →
    (∀ k a w v rest, s.nextInput.1 = .client k → (s.client k).prog = .write a w v :: rest →
      a ≠ csrAddr s.params (0x100 + 0x40 * c.val)) →
    (t.chan c).kind = (s.chan c).kind ∧ (t.chan c).code = (s.chan c).code ∧ (t.chan c).state = (s.chan c).state ∧
      (t.chan c).sum = (s.chan c).sum ∧ (t.chan c).noop = (s.chan c).noop ∧ (t.chan c).busy = false

/-- 10_state.md R47, R43: while a command is in flight no step but reset changes its argument registers or its latch. -/
def Obligations.ArgumentsOfACommandAreFrozen : Prop :=
  ∀ s t c, (s.chan c).busy = true → s.nextInput.1 ≠ .reset → step s = .next t →
    SameArgs s t c ∧ (t.chan c).op = (s.chan c).op ∧ (t.chan c).noresp = (s.chan c).noresp

/-- 60_exceptions.md R314, 10_state.md R39, R40: no step takes the time back or changes a parameter. -/
def Obligations.TimeNeverDecreasesAndParametersStay : Prop :=
  ∀ s t, step s = .next t → s.now ≤ t.now ∧ t.params = s.params
end

