-- ==== Sys2Proof/Laws/Channel.lean ====
section
/-! SUPPORT. One lemma per field per update of a channel: completion (60_exceptions.md R300), acceptance
(40_control.md R174), a dropped write (R173), the start of a transfer (41_transfer.md R200), a mailbox step, a write
to `CH_STATUS` (40_control.md R178). -/

namespace Sys2Proof.Machine

section Completed

variable (ch : Channel) (kind : Kind) (code : Half) (st : SeqState) (sum : Byte)

@[simp] theorem completed_op : (ch.completed kind code st sum).op = ch.op := rfl
@[simp] theorem completed_noresp : (ch.completed kind code st sum).noresp = ch.noresp := rfl
@[simp] theorem completed_busy : (ch.completed kind code st sum).busy = false := rfl
@[simp] theorem completed_done : (ch.completed kind code st sum).done = true := rfl
@[simp] theorem completed_wdrop : (ch.completed kind code st sum).wdrop = ch.wdrop := rfl
@[simp] theorem completed_noop : (ch.completed kind code st sum).noop = noopAtCompletion kind ch.evented := rfl
@[simp] theorem completed_state : (ch.completed kind code st sum).state = st := rfl
@[simp] theorem completed_kind : (ch.completed kind code st sum).kind = kind := rfl
@[simp] theorem completed_code : (ch.completed kind code st sum).code = code := rfl
@[simp] theorem completed_arg0 : (ch.completed kind code st sum).arg0 = ch.arg0 := rfl
@[simp] theorem completed_arg1 : (ch.completed kind code st sum).arg1 = ch.arg1 := rfl
@[simp] theorem completed_arg2 : (ch.completed kind code st sum).arg2 = ch.arg2 := rfl
@[simp] theorem completed_arg3 : (ch.completed kind code st sum).arg3 = ch.arg3 := rfl
@[simp] theorem completed_arg4 : (ch.completed kind code st sum).arg4 = ch.arg4 := rfl
@[simp] theorem completed_sum : (ch.completed kind code st sum).sum = sum := rfl
@[simp] theorem completed_xc : (ch.completed kind code st sum).xc = none := rfl
@[simp] theorem completed_mc : (ch.completed kind code st sum).mc = none := rfl
@[simp] theorem completed_evented : (ch.completed kind code st sum).evented = ch.evented := rfl

end Completed

section Latch

variable (ch : Channel) (w : Word)

@[simp] theorem latch_op : (ch.latch w).op = BitVec.ofNat 4 (field w 3 0) := rfl
@[simp] theorem latch_noresp : (ch.latch w).noresp = decide (field w 8 8 = 1) := rfl
@[simp] theorem latch_busy : (ch.latch w).busy = true := rfl
@[simp] theorem latch_done : (ch.latch w).done = false := rfl
@[simp] theorem latch_wdrop : (ch.latch w).wdrop = false := rfl
@[simp] theorem latch_noop : (ch.latch w).noop = false := rfl
@[simp] theorem latch_state : (ch.latch w).state = ch.state := rfl
@[simp] theorem latch_kind : (ch.latch w).kind = .ok := rfl
@[simp] theorem latch_code : (ch.latch w).code = 0 := rfl
@[simp] theorem latch_arg0 : (ch.latch w).arg0 = ch.arg0 := rfl
@[simp] theorem latch_arg1 : (ch.latch w).arg1 = ch.arg1 := rfl
@[simp] theorem latch_arg2 : (ch.latch w).arg2 = ch.arg2 := rfl
@[simp] theorem latch_arg3 : (ch.latch w).arg3 = ch.arg3 := rfl
@[simp] theorem latch_arg4 : (ch.latch w).arg4 = ch.arg4 := rfl
@[simp] theorem latch_sum : (ch.latch w).sum = 0 := rfl
@[simp] theorem latch_xc : (ch.latch w).xc = ch.xc := rfl
@[simp] theorem latch_mc : (ch.latch w).mc = ch.mc := rfl
@[simp] theorem latch_evented : (ch.latch w).evented = false := rfl

end Latch

section DropWrite

variable (ch : Channel) 

@[simp] theorem dropWrite_op : (ch.dropWrite).op = ch.op := rfl
@[simp] theorem dropWrite_noresp : (ch.dropWrite).noresp = ch.noresp := rfl
@[simp] theorem dropWrite_busy : (ch.dropWrite).busy = ch.busy := rfl
@[simp] theorem dropWrite_done : (ch.dropWrite).done = ch.done := rfl
@[simp] theorem dropWrite_wdrop : (ch.dropWrite).wdrop = true := rfl
@[simp] theorem dropWrite_noop : (ch.dropWrite).noop = ch.noop := rfl
@[simp] theorem dropWrite_state : (ch.dropWrite).state = ch.state := rfl
@[simp] theorem dropWrite_kind : (ch.dropWrite).kind = ch.kind := rfl
@[simp] theorem dropWrite_code : (ch.dropWrite).code = ch.code := rfl
@[simp] theorem dropWrite_arg0 : (ch.dropWrite).arg0 = ch.arg0 := rfl
@[simp] theorem dropWrite_arg1 : (ch.dropWrite).arg1 = ch.arg1 := rfl
@[simp] theorem dropWrite_arg2 : (ch.dropWrite).arg2 = ch.arg2 := rfl
@[simp] theorem dropWrite_arg3 : (ch.dropWrite).arg3 = ch.arg3 := rfl
@[simp] theorem dropWrite_arg4 : (ch.dropWrite).arg4 = ch.arg4 := rfl
@[simp] theorem dropWrite_sum : (ch.dropWrite).sum = ch.sum := rfl
@[simp] theorem dropWrite_xc : (ch.dropWrite).xc = ch.xc := rfl
@[simp] theorem dropWrite_mc : (ch.dropWrite).mc = ch.mc := rfl
@[simp] theorem dropWrite_evented : (ch.dropWrite).evented = ch.evented := rfl

end DropWrite

section BindXfer

variable (ch : Channel) (dir : Dir) (a : Half) (n : Nat) (buf : Buf) (ret : Ret)

@[simp] theorem bindXfer_op : (ch.bindXfer dir a n buf ret).op = ch.op := rfl
@[simp] theorem bindXfer_noresp : (ch.bindXfer dir a n buf ret).noresp = ch.noresp := rfl
@[simp] theorem bindXfer_busy : (ch.bindXfer dir a n buf ret).busy = ch.busy := rfl
@[simp] theorem bindXfer_done : (ch.bindXfer dir a n buf ret).done = ch.done := rfl
@[simp] theorem bindXfer_wdrop : (ch.bindXfer dir a n buf ret).wdrop = ch.wdrop := rfl
@[simp] theorem bindXfer_noop : (ch.bindXfer dir a n buf ret).noop = ch.noop := rfl
@[simp] theorem bindXfer_state : (ch.bindXfer dir a n buf ret).state = if buf.viaMbx then ch.state else .xWait := rfl
@[simp] theorem bindXfer_kind : (ch.bindXfer dir a n buf ret).kind = ch.kind := rfl
@[simp] theorem bindXfer_code : (ch.bindXfer dir a n buf ret).code = ch.code := rfl
@[simp] theorem bindXfer_arg0 : (ch.bindXfer dir a n buf ret).arg0 = ch.arg0 := rfl
@[simp] theorem bindXfer_arg1 : (ch.bindXfer dir a n buf ret).arg1 = ch.arg1 := rfl
@[simp] theorem bindXfer_arg2 : (ch.bindXfer dir a n buf ret).arg2 = ch.arg2 := rfl
@[simp] theorem bindXfer_arg3 : (ch.bindXfer dir a n buf ret).arg3 = ch.arg3 := rfl
@[simp] theorem bindXfer_arg4 : (ch.bindXfer dir a n buf ret).arg4 = ch.arg4 := rfl
@[simp] theorem bindXfer_sum : (ch.bindXfer dir a n buf ret).sum = ch.sum := rfl
@[simp] theorem bindXfer_xc : (ch.bindXfer dir a n buf ret).xc = some { dir := dir, ec := a, n := n, buf := buf, ops := xferOps a n, pos := 0, sum := 0, ret := ret } := rfl
@[simp] theorem bindXfer_mc : (ch.bindXfer dir a n buf ret).mc = ch.mc := rfl
@[simp] theorem bindXfer_evented : (ch.bindXfer dir a n buf ret).evented = ch.evented := rfl

end BindXfer

section SetMboxStep

variable (ch : Channel) (st : MboxStep)

@[simp] theorem setMboxStep_op : (ch.setMboxStep st).op = ch.op := rfl
@[simp] theorem setMboxStep_noresp : (ch.setMboxStep st).noresp = ch.noresp := rfl
@[simp] theorem setMboxStep_busy : (ch.setMboxStep st).busy = ch.busy := rfl
@[simp] theorem setMboxStep_done : (ch.setMboxStep st).done = ch.done := rfl
@[simp] theorem setMboxStep_wdrop : (ch.setMboxStep st).wdrop = ch.wdrop := rfl
@[simp] theorem setMboxStep_noop : (ch.setMboxStep st).noop = ch.noop := rfl
@[simp] theorem setMboxStep_state : (ch.setMboxStep st).state = ch.state := rfl
@[simp] theorem setMboxStep_kind : (ch.setMboxStep st).kind = ch.kind := rfl
@[simp] theorem setMboxStep_code : (ch.setMboxStep st).code = ch.code := rfl
@[simp] theorem setMboxStep_arg0 : (ch.setMboxStep st).arg0 = ch.arg0 := rfl
@[simp] theorem setMboxStep_arg1 : (ch.setMboxStep st).arg1 = ch.arg1 := rfl
@[simp] theorem setMboxStep_arg2 : (ch.setMboxStep st).arg2 = ch.arg2 := rfl
@[simp] theorem setMboxStep_arg3 : (ch.setMboxStep st).arg3 = ch.arg3 := rfl
@[simp] theorem setMboxStep_arg4 : (ch.setMboxStep st).arg4 = ch.arg4 := rfl
@[simp] theorem setMboxStep_sum : (ch.setMboxStep st).sum = ch.sum := rfl
@[simp] theorem setMboxStep_xc : (ch.setMboxStep st).xc = ch.xc := rfl
@[simp] theorem setMboxStep_mc : (ch.setMboxStep st).mc = ch.mc.map fun m => { m with step := st } := rfl
@[simp] theorem setMboxStep_evented : (ch.setMboxStep st).evented = ch.evented := rfl

end SetMboxStep

section ClearStatus

variable (ch : Channel) (w : Word)

@[simp] theorem clearStatus_op : (ch.clearStatus w).op = ch.op := rfl
@[simp] theorem clearStatus_noresp : (ch.clearStatus w).noresp = ch.noresp := rfl
@[simp] theorem clearStatus_busy : (ch.clearStatus w).busy = ch.busy := rfl
@[simp] theorem clearStatus_done : (ch.clearStatus w).done = (ch.done && decide (field w 1 1 = 0)) := rfl
@[simp] theorem clearStatus_wdrop : (ch.clearStatus w).wdrop = (ch.wdrop && decide (field w 2 2 = 0)) := rfl
@[simp] theorem clearStatus_noop : (ch.clearStatus w).noop = ch.noop := rfl
@[simp] theorem clearStatus_state : (ch.clearStatus w).state = ch.state := rfl
@[simp] theorem clearStatus_kind : (ch.clearStatus w).kind = ch.kind := rfl
@[simp] theorem clearStatus_code : (ch.clearStatus w).code = ch.code := rfl
@[simp] theorem clearStatus_arg0 : (ch.clearStatus w).arg0 = ch.arg0 := rfl
@[simp] theorem clearStatus_arg1 : (ch.clearStatus w).arg1 = ch.arg1 := rfl
@[simp] theorem clearStatus_arg2 : (ch.clearStatus w).arg2 = ch.arg2 := rfl
@[simp] theorem clearStatus_arg3 : (ch.clearStatus w).arg3 = ch.arg3 := rfl
@[simp] theorem clearStatus_arg4 : (ch.clearStatus w).arg4 = ch.arg4 := rfl
@[simp] theorem clearStatus_sum : (ch.clearStatus w).sum = ch.sum := rfl
@[simp] theorem clearStatus_xc : (ch.clearStatus w).xc = ch.xc := rfl
@[simp] theorem clearStatus_mc : (ch.clearStatus w).mc = ch.mc := rfl
@[simp] theorem clearStatus_evented : (ch.clearStatus w).evented = ch.evented := rfl

end ClearStatus

end Sys2Proof.Machine
end

