-- ==== Sys2Proof/Laws/Memory.lean ====
section
/-! SUPPORT. Byte memories: read after write, and that a write keeps the canonical form. -/

namespace Sys2Proof.Machine

theorem Memory.read_entry_self (a : Nat) (b : Byte) (rest : Memory)
    (h : Memory.read rest a = unlistedByte) : (Memory.entry a b rest).read a = b := by
  unfold Memory.entry
  split
  · rw [h]; symm; assumption
  · simp [Memory.read]

theorem Memory.read_entry_ne (a a' : Nat) (b : Byte) (rest : Memory) (h : a' ≠ a) :
    (Memory.entry a b rest).read a' = Memory.read rest a' := by
  unfold Memory.entry
  split
  · rfl
  · simp [Memory.read, Ne.symm h]

/-- A write leaves every other byte alone. -/
@[simp] theorem Memory.read_write_ne (m : Memory) (a a' : Nat) (b : Byte) (h : a' ≠ a) :
    (m.write a b).read a' = m.read a' := by
  induction m with
  | nil => exact Memory.read_entry_ne a a' b [] h
  | cons kv rest ih =>
    obtain ⟨k, v⟩ := kv
    simp only [Memory.write]
    split
    · exact Memory.read_entry_ne a a' b _ h
    · split
      · next hk => rw [Memory.read_entry_ne a a' b _ h]; simp [Memory.read, ← hk, Ne.symm h]
      · simp only [Memory.read, ih]

/-- Below the first listed address nothing is listed. -/
theorem Memory.read_of_wfFrom {m : Memory} {lo a : Nat} (h : m.wfFrom lo = true) (ha : a < lo) :
    m.read a = unlistedByte := by
  induction m generalizing lo with
  | nil => rfl
  | cons kv rest ih =>
    obtain ⟨k, v⟩ := kv
    simp only [Memory.wfFrom, Bool.and_eq_true, decide_eq_true_eq] at h
    have hk : k ≠ a := by omega
    simp only [Memory.read, if_neg hk]
    exact ih h.2 (by omega)

theorem Memory.wfFrom_mono {m : Memory} {lo lo' : Nat} (h : m.wfFrom lo = true) (hl : lo' ≤ lo) :
    m.wfFrom lo' = true := by
  cases m with
  | nil => rfl
  | cons kv rest =>
    simp only [Memory.wfFrom, Bool.and_eq_true, decide_eq_true_eq] at h ⊢
    exact ⟨⟨by omega, h.1.2⟩, h.2⟩

theorem Memory.wfFrom_entry {rest : Memory} {lo a : Nat} (b : Byte) (ha : lo ≤ a)
    (h : rest.wfFrom (a + 1) = true) : (Memory.entry a b rest).wfFrom lo = true := by
  unfold Memory.entry
  split
  · exact Memory.wfFrom_mono h (by omega)
  · next hb => simp [Memory.wfFrom, ha, hb, h]

theorem Memory.wfFrom_write {m : Memory} {lo : Nat} (a : Nat) (b : Byte) (h : m.wfFrom lo = true)
    (ha : lo ≤ a) : (m.write a b).wfFrom lo = true := by
  induction m generalizing lo with
  | nil => exact Memory.wfFrom_entry b ha rfl
  | cons kv rest ih =>
    obtain ⟨k, v⟩ := kv
    have h0 := h
    simp only [Memory.wfFrom, Bool.and_eq_true, decide_eq_true_eq] at h
    simp only [Memory.write]
    split
    · refine Memory.wfFrom_entry b ha ?_
      simp only [Memory.wfFrom, Bool.and_eq_true, decide_eq_true_eq]
      exact ⟨⟨by omega, h.1.2⟩, h.2⟩
    · split
      · next hk => subst hk; exact Memory.wfFrom_entry b ha h.2
      · simp only [Memory.wfFrom, Bool.and_eq_true, decide_eq_true_eq]
        exact ⟨h.1, ih h.2 (by omega)⟩

/-- A write keeps the canonical form. -/
theorem Memory.wf_write {m : Memory} (a : Nat) (b : Byte) (h : m.wf = true) : (m.write a b).wf = true :=
  Memory.wfFrom_write a b h (Nat.zero_le a)

theorem Memory.read_write_self_from {m : Memory} {lo : Nat} (a : Nat) (b : Byte)
    (h : m.wfFrom lo = true) : (m.write a b).read a = b := by
  induction m generalizing lo with
  | nil => exact Memory.read_entry_self a b [] rfl
  | cons kv rest ih =>
    obtain ⟨k, v⟩ := kv
    have h0 := h
    simp only [Memory.wfFrom, Bool.and_eq_true, decide_eq_true_eq] at h
    simp only [Memory.write]
    split
    · next hk =>
      refine Memory.read_entry_self a b _ ?_
      have h1 : Memory.wfFrom k ((k, v) :: rest) = true := by
        simp only [Memory.wfFrom, Bool.and_eq_true, decide_eq_true_eq]
        exact ⟨⟨Nat.le_refl k, h.1.2⟩, h.2⟩
      exact Memory.read_of_wfFrom h1 hk
    · split
      · next hk => subst hk; exact Memory.read_entry_self a b rest (Memory.read_of_wfFrom h.2 (by omega))
      · next hk => simp only [Memory.read, if_neg (Ne.symm hk)]; exact ih h.2

/-- A byte written is read back. -/
theorem Memory.read_write_self {m : Memory} (a : Nat) (b : Byte) (h : m.wf = true) :
    (m.write a b).read a = b := Memory.read_write_self_from a b h

theorem Memory.below_entry {rest : Memory} {n a : Nat} (b : Byte) (ha : a < n)
    (h : Memory.below n rest = true) : Memory.below n (Memory.entry a b rest) = true := by
  unfold Memory.entry
  split
  · exact h
  · simp only [Memory.below, List.all_cons, Bool.and_eq_true, decide_eq_true_eq] at h ⊢
    exact ⟨ha, h⟩

/-- A write below a bound keeps every listed address below it. -/
theorem Memory.below_write {m : Memory} {n : Nat} (a : Nat) (b : Byte) (ha : a < n)
    (h : m.below n = true) : (m.write a b).below n = true := by
  induction m with
  | nil => exact Memory.below_entry b ha h
  | cons kv rest ih =>
    obtain ⟨k, v⟩ := kv
    have h' := h
    simp only [Memory.below, List.all_cons, Bool.and_eq_true, decide_eq_true_eq] at h
    simp only [Memory.write]
    split
    · exact Memory.below_entry b ha h'
    · split
      · exact Memory.below_entry b ha h.2
      · simp only [Memory.below, List.all_cons, Bool.and_eq_true, decide_eq_true_eq]
        exact ⟨h.1, ih h.2⟩

/-! ### Bytes of a half, and sums -/

@[simp] theorem loByte_le16 (b0 b1 : Byte) : loByte (le16 b0 b1) = b0 := by
  apply BitVec.eq_of_toNat_eq
  have h0 := b0.isLt
  have h1 := b1.isLt
  simp only [loByte, le16, BitVec.toNat_ofNat]
  omega

@[simp] theorem hiByte_le16 (b0 b1 : Byte) : hiByte (le16 b0 b1) = b1 := by
  apply BitVec.eq_of_toNat_eq
  have h0 := b0.isLt
  have h1 := b1.isLt
  simp only [hiByte, le16, BitVec.toNat_ofNat]
  omega

@[simp] theorem le16_lo_hi (w : Half) : le16 (loByte w) (hiByte w) = w := by
  apply BitVec.eq_of_toNat_eq
  have h := w.isLt
  simp only [loByte, hiByte, le16, BitVec.toNat_ofNat]
  omega

@[simp] theorem sum8_nil : sum8 [] = 0 := rfl

@[simp] theorem sum8_cons (b : Byte) (bs : List Byte) : sum8 (b :: bs) = b + sum8 bs := rfl

@[simp] theorem sum8_append (xs ys : List Byte) : sum8 (xs ++ ys) = sum8 xs + sum8 ys := by
  induction xs with
  | nil => simp
  | cons b bs ih => simp only [List.cons_append, sum8_cons, ih]; ring

end Sys2Proof.Machine
end

