-- ==== Sys2Proof/Laws/State.lean ====
section
/-! SUPPORT. One lemma per field per update of State, and what `chan` and `client` read after each update: later
proofs cite these and never unfold a record update. -/

namespace Sys2Proof.Machine

section Accessors

variable (s : State) (c d : ChanId) (ch : Channel) (f : Channel → Channel)

/-- Reading channel `d` after channel `c` was replaced. -/
theorem chan_setChan : (s.setChan c ch).chan d = if d = c then ch else s.chan d := by
  unfold State.chan State.setChan
  by_cases h : d = c
  · subst h; simp
  · have h' : c.val ≠ d.val := fun e => h (Fin.ext e.symm)
    simp [h, Vector.getElem_set_ne _ _ h']

@[simp] theorem chan_setChan_self : (s.setChan c ch).chan c = ch := by simp [chan_setChan]

@[simp] theorem chan_setChan_ne (h : d ≠ c) : (s.setChan c ch).chan d = s.chan d := by
  simp [chan_setChan, h]

theorem chan_modChan : (s.modChan c f).chan d = if d = c then f (s.chan c) else s.chan d := chan_setChan ..

@[simp] theorem chan_modChan_self : (s.modChan c f).chan c = f (s.chan c) := chan_setChan_self ..

@[simp] theorem chan_modChan_ne (h : d ≠ c) : (s.modChan c f).chan d = s.chan d := chan_setChan_ne _ _ _ _ h

/-- Reading client `k` after client `j` was replaced. -/
theorem client_setClient (j k : ChanId) (cl : Client) :
    (s.setClient j cl).client k = if k = j then cl else s.client k := by
  unfold State.client State.setClient
  by_cases h : k = j
  · subst h; simp
  · have h' : j.val ≠ k.val := fun e => h (Fin.ext e.symm)
    simp [h, Vector.getElem_set_ne _ _ h']

@[simp] theorem client_setClient_self (k : ChanId) (cl : Client) : (s.setClient k cl).client k = cl := by
  simp [client_setClient]

@[simp] theorem client_setClient_ne (j k : ChanId) (cl : Client) (h : k ≠ j) :
    (s.setClient j cl).client k = s.client k := by simp [client_setClient, h]

/-- A record update that leaves the channels leaves every channel. -/
@[simp] theorem chan_mk (p : Params) (b e cp dp : Half) (l : Bool) (xl : XLock) (ml : MLock)
    (tx rx : Vector Byte 40) (n : Nat) (hm : Memory) (ec : EcSide) (cl : Vector Client 16)
    (tr : List PortEvent) (sc : List Input) (dr : Nat) (se : ChanId) :
    State.chan (State.mk p b e cp dp l xl ml s.chans tx rx n hm ec cl tr sc dr se) d = s.chan d := rfl

/-- A record update that leaves the clients leaves every client. -/
@[simp] theorem client_mk (p : Params) (b e cp dp : Half) (l : Bool) (xl : XLock) (ml : MLock)
    (cs : Vector Channel 16) (tx rx : Vector Byte 40) (n : Nat) (hm : Memory) (ec : EcSide)
    (tr : List PortEvent) (sc : List Input) (dr : Nat) (se : ChanId) :
    State.client (State.mk p b e cp dp l xl ml cs tx rx n hm ec s.clients tr sc dr se) d = s.client d := rfl

@[simp] theorem chan_setClient (k : ChanId) (cl : Client) : (s.setClient k cl).chan d = s.chan d := rfl

@[simp] theorem client_setChan (k : ChanId) : (s.setChan c ch).client k = s.client k := rfl

@[simp] theorem client_modChan (k : ChanId) : (s.modChan c f).client k = s.client k := rfl

@[simp] theorem present_setChan : (s.setChan c ch).present d = s.present d := rfl

@[simp] theorem present_modChan : (s.modChan c f).present d = s.present d := rfl

@[simp] theorem configured_setChan : (s.setChan c ch).configured = s.configured := rfl

@[simp] theorem configured_modChan : (s.modChan c f).configured = s.configured := rfl

/-- Replacing a channel by itself changes nothing. -/
theorem setChan_chan_self : s.setChan c (s.chan c) = s := by
  have h : s.chans.set c.val (s.chan c) c.isLt = s.chans := Vector.set_getElem_self c.isLt
  simp [State.setChan, h]

end Accessors

section SetChan

variable (s : State) (c : ChanId) (ch : Channel)

@[simp] theorem setChan_params : (s.setChan c ch).params = s.params := rfl
@[simp] theorem setChan_emiBase : (s.setChan c ch).emiBase = s.emiBase := rfl
@[simp] theorem setChan_emiEnd : (s.setChan c ch).emiEnd = s.emiEnd := rfl
@[simp] theorem setChan_cmdPort : (s.setChan c ch).cmdPort = s.cmdPort := rfl
@[simp] theorem setChan_dataPort : (s.setChan c ch).dataPort = s.dataPort := rfl
@[simp] theorem setChan_cfgLocked : (s.setChan c ch).cfgLocked = s.cfgLocked := rfl
@[simp] theorem setChan_xlock : (s.setChan c ch).xlock = s.xlock := rfl
@[simp] theorem setChan_mlock : (s.setChan c ch).mlock = s.mlock := rfl
@[simp] theorem setChan_txbuf : (s.setChan c ch).txbuf = s.txbuf := rfl
@[simp] theorem setChan_rxbuf : (s.setChan c ch).rxbuf = s.rxbuf := rfl
@[simp] theorem setChan_now : (s.setChan c ch).now = s.now := rfl
@[simp] theorem setChan_hostMem : (s.setChan c ch).hostMem = s.hostMem := rfl
@[simp] theorem setChan_ec : (s.setChan c ch).ec = s.ec := rfl
@[simp] theorem setChan_clients : (s.setChan c ch).clients = s.clients := rfl
@[simp] theorem setChan_trace : (s.setChan c ch).trace = s.trace := rfl
@[simp] theorem setChan_sched : (s.setChan c ch).sched = s.sched := rfl
@[simp] theorem setChan_drawn : (s.setChan c ch).drawn = s.drawn := rfl
@[simp] theorem setChan_sel : (s.setChan c ch).sel = s.sel := rfl

end SetChan

section ModChan

variable (s : State) (c : ChanId) (f : Channel → Channel)

@[simp] theorem modChan_params : (s.modChan c f).params = s.params := rfl
@[simp] theorem modChan_emiBase : (s.modChan c f).emiBase = s.emiBase := rfl
@[simp] theorem modChan_emiEnd : (s.modChan c f).emiEnd = s.emiEnd := rfl
@[simp] theorem modChan_cmdPort : (s.modChan c f).cmdPort = s.cmdPort := rfl
@[simp] theorem modChan_dataPort : (s.modChan c f).dataPort = s.dataPort := rfl
@[simp] theorem modChan_cfgLocked : (s.modChan c f).cfgLocked = s.cfgLocked := rfl
@[simp] theorem modChan_xlock : (s.modChan c f).xlock = s.xlock := rfl
@[simp] theorem modChan_mlock : (s.modChan c f).mlock = s.mlock := rfl
@[simp] theorem modChan_txbuf : (s.modChan c f).txbuf = s.txbuf := rfl
@[simp] theorem modChan_rxbuf : (s.modChan c f).rxbuf = s.rxbuf := rfl
@[simp] theorem modChan_now : (s.modChan c f).now = s.now := rfl
@[simp] theorem modChan_hostMem : (s.modChan c f).hostMem = s.hostMem := rfl
@[simp] theorem modChan_ec : (s.modChan c f).ec = s.ec := rfl
@[simp] theorem modChan_clients : (s.modChan c f).clients = s.clients := rfl
@[simp] theorem modChan_trace : (s.modChan c f).trace = s.trace := rfl
@[simp] theorem modChan_sched : (s.modChan c f).sched = s.sched := rfl
@[simp] theorem modChan_drawn : (s.modChan c f).drawn = s.drawn := rfl
@[simp] theorem modChan_sel : (s.modChan c f).sel = s.sel := rfl

end ModChan

section SetClient

variable (s : State) (k : ChanId) (cl : Client)

@[simp] theorem setClient_chans : (s.setClient k cl).chans = s.chans := rfl
@[simp] theorem setClient_params : (s.setClient k cl).params = s.params := rfl
@[simp] theorem setClient_emiBase : (s.setClient k cl).emiBase = s.emiBase := rfl
@[simp] theorem setClient_emiEnd : (s.setClient k cl).emiEnd = s.emiEnd := rfl
@[simp] theorem setClient_cmdPort : (s.setClient k cl).cmdPort = s.cmdPort := rfl
@[simp] theorem setClient_dataPort : (s.setClient k cl).dataPort = s.dataPort := rfl
@[simp] theorem setClient_cfgLocked : (s.setClient k cl).cfgLocked = s.cfgLocked := rfl
@[simp] theorem setClient_xlock : (s.setClient k cl).xlock = s.xlock := rfl
@[simp] theorem setClient_mlock : (s.setClient k cl).mlock = s.mlock := rfl
@[simp] theorem setClient_txbuf : (s.setClient k cl).txbuf = s.txbuf := rfl
@[simp] theorem setClient_rxbuf : (s.setClient k cl).rxbuf = s.rxbuf := rfl
@[simp] theorem setClient_now : (s.setClient k cl).now = s.now := rfl
@[simp] theorem setClient_hostMem : (s.setClient k cl).hostMem = s.hostMem := rfl
@[simp] theorem setClient_ec : (s.setClient k cl).ec = s.ec := rfl
@[simp] theorem setClient_trace : (s.setClient k cl).trace = s.trace := rfl
@[simp] theorem setClient_sched : (s.setClient k cl).sched = s.sched := rfl
@[simp] theorem setClient_drawn : (s.setClient k cl).drawn = s.drawn := rfl
@[simp] theorem setClient_sel : (s.setClient k cl).sel = s.sel := rfl

end SetClient

section Complete

variable (s : State) (c : ChanId) (kind : Kind) (code : Half) (st : SeqState) (sum : Byte)

@[simp] theorem complete_params : (s.complete c kind code st sum).params = s.params := rfl
@[simp] theorem complete_emiBase : (s.complete c kind code st sum).emiBase = s.emiBase := rfl
@[simp] theorem complete_emiEnd : (s.complete c kind code st sum).emiEnd = s.emiEnd := rfl
@[simp] theorem complete_cmdPort : (s.complete c kind code st sum).cmdPort = s.cmdPort := rfl
@[simp] theorem complete_dataPort : (s.complete c kind code st sum).dataPort = s.dataPort := rfl
@[simp] theorem complete_cfgLocked : (s.complete c kind code st sum).cfgLocked = s.cfgLocked := rfl
@[simp] theorem complete_xlock : (s.complete c kind code st sum).xlock = s.xlock := rfl
@[simp] theorem complete_txbuf : (s.complete c kind code st sum).txbuf = s.txbuf := rfl
@[simp] theorem complete_rxbuf : (s.complete c kind code st sum).rxbuf = s.rxbuf := rfl
@[simp] theorem complete_now : (s.complete c kind code st sum).now = s.now := rfl
@[simp] theorem complete_hostMem : (s.complete c kind code st sum).hostMem = s.hostMem := rfl
@[simp] theorem complete_ec : (s.complete c kind code st sum).ec = s.ec := rfl
@[simp] theorem complete_clients : (s.complete c kind code st sum).clients = s.clients := rfl
@[simp] theorem complete_trace : (s.complete c kind code st sum).trace = s.trace := rfl
@[simp] theorem complete_sched : (s.complete c kind code st sum).sched = s.sched := rfl
@[simp] theorem complete_drawn : (s.complete c kind code st sum).drawn = s.drawn := rfl
@[simp] theorem complete_sel : (s.complete c kind code st sum).sel = s.sel := rfl

end Complete

section IssueEvent

variable (s : State) (c : ChanId) (i : Instr)

@[simp] theorem issueEvent_params : (s.issueEvent c i).params = s.params := rfl
@[simp] theorem issueEvent_emiBase : (s.issueEvent c i).emiBase = s.emiBase := rfl
@[simp] theorem issueEvent_emiEnd : (s.issueEvent c i).emiEnd = s.emiEnd := rfl
@[simp] theorem issueEvent_cmdPort : (s.issueEvent c i).cmdPort = s.cmdPort := rfl
@[simp] theorem issueEvent_dataPort : (s.issueEvent c i).dataPort = s.dataPort := rfl
@[simp] theorem issueEvent_cfgLocked : (s.issueEvent c i).cfgLocked = s.cfgLocked := rfl
@[simp] theorem issueEvent_xlock : (s.issueEvent c i).xlock = s.xlock := rfl
@[simp] theorem issueEvent_mlock : (s.issueEvent c i).mlock = s.mlock := rfl
@[simp] theorem issueEvent_txbuf : (s.issueEvent c i).txbuf = s.txbuf := rfl
@[simp] theorem issueEvent_rxbuf : (s.issueEvent c i).rxbuf = s.rxbuf := rfl
@[simp] theorem issueEvent_now : (s.issueEvent c i).now = s.now := rfl
@[simp] theorem issueEvent_hostMem : (s.issueEvent c i).hostMem = s.hostMem := rfl
@[simp] theorem issueEvent_clients : (s.issueEvent c i).clients = s.clients := rfl
@[simp] theorem issueEvent_sched : (s.issueEvent c i).sched = s.sched := rfl
@[simp] theorem issueEvent_drawn : (s.issueEvent c i).drawn = s.drawn := rfl
@[simp] theorem issueEvent_sel : (s.issueEvent c i).sel = s.sel := rfl

end IssueEvent

section StartTransfer

variable (s : State) (c : ChanId) (dir : Dir) (a : Half) (n : Nat) (buf : Buf) (ret : Ret)

@[simp] theorem startTransfer_params : (s.startTransfer c dir a n buf ret).params = s.params := rfl
@[simp] theorem startTransfer_emiBase : (s.startTransfer c dir a n buf ret).emiBase = s.emiBase := rfl
@[simp] theorem startTransfer_emiEnd : (s.startTransfer c dir a n buf ret).emiEnd = s.emiEnd := rfl
@[simp] theorem startTransfer_cmdPort : (s.startTransfer c dir a n buf ret).cmdPort = s.cmdPort := rfl
@[simp] theorem startTransfer_dataPort : (s.startTransfer c dir a n buf ret).dataPort = s.dataPort := rfl
@[simp] theorem startTransfer_cfgLocked : (s.startTransfer c dir a n buf ret).cfgLocked = s.cfgLocked := rfl
@[simp] theorem startTransfer_xlock : (s.startTransfer c dir a n buf ret).xlock = s.xlock := rfl
@[simp] theorem startTransfer_mlock : (s.startTransfer c dir a n buf ret).mlock = s.mlock := rfl
@[simp] theorem startTransfer_txbuf : (s.startTransfer c dir a n buf ret).txbuf = s.txbuf := rfl
@[simp] theorem startTransfer_rxbuf : (s.startTransfer c dir a n buf ret).rxbuf = s.rxbuf := rfl
@[simp] theorem startTransfer_now : (s.startTransfer c dir a n buf ret).now = s.now := rfl
@[simp] theorem startTransfer_hostMem : (s.startTransfer c dir a n buf ret).hostMem = s.hostMem := rfl
@[simp] theorem startTransfer_ec : (s.startTransfer c dir a n buf ret).ec = s.ec := rfl
@[simp] theorem startTransfer_clients : (s.startTransfer c dir a n buf ret).clients = s.clients := rfl
@[simp] theorem startTransfer_trace : (s.startTransfer c dir a n buf ret).trace = s.trace := rfl
@[simp] theorem startTransfer_sched : (s.startTransfer c dir a n buf ret).sched = s.sched := rfl
@[simp] theorem startTransfer_drawn : (s.startTransfer c dir a n buf ret).drawn = s.drawn := rfl
@[simp] theorem startTransfer_sel : (s.startTransfer c dir a n buf ret).sel = s.sel := rfl

end StartTransfer

section Select

variable (s : State) (v : ChanId) (c : ChanId)

@[simp] theorem select_params : (s.select v).params = s.params := rfl
@[simp] theorem select_emiBase : (s.select v).emiBase = s.emiBase := rfl
@[simp] theorem select_emiEnd : (s.select v).emiEnd = s.emiEnd := rfl
@[simp] theorem select_cmdPort : (s.select v).cmdPort = s.cmdPort := rfl
@[simp] theorem select_dataPort : (s.select v).dataPort = s.dataPort := rfl
@[simp] theorem select_cfgLocked : (s.select v).cfgLocked = s.cfgLocked := rfl
@[simp] theorem select_xlock : (s.select v).xlock = s.xlock := rfl
@[simp] theorem select_mlock : (s.select v).mlock = s.mlock := rfl
@[simp] theorem select_txbuf : (s.select v).txbuf = s.txbuf := rfl
@[simp] theorem select_rxbuf : (s.select v).rxbuf = s.rxbuf := rfl
@[simp] theorem select_now : (s.select v).now = s.now := rfl
@[simp] theorem select_hostMem : (s.select v).hostMem = s.hostMem := rfl
@[simp] theorem select_ec : (s.select v).ec = s.ec := rfl
@[simp] theorem select_clients : (s.select v).clients = s.clients := rfl
@[simp] theorem select_trace : (s.select v).trace = s.trace := rfl
@[simp] theorem select_sched : (s.select v).sched = s.sched := rfl
@[simp] theorem select_drawn : (s.select v).drawn = s.drawn := rfl
@[simp] theorem select_sel : (s.select v).sel = v := rfl
@[simp] theorem select_chan : (s.select v).chan c = s.chan c := rfl
@[simp] theorem select_client : (s.select v).client c = s.client c := rfl

end Select

section SetXlock

variable (s : State) (v : XLock) (c : ChanId)

@[simp] theorem setXlock_params : (s.setXlock v).params = s.params := rfl
@[simp] theorem setXlock_emiBase : (s.setXlock v).emiBase = s.emiBase := rfl
@[simp] theorem setXlock_emiEnd : (s.setXlock v).emiEnd = s.emiEnd := rfl
@[simp] theorem setXlock_cmdPort : (s.setXlock v).cmdPort = s.cmdPort := rfl
@[simp] theorem setXlock_dataPort : (s.setXlock v).dataPort = s.dataPort := rfl
@[simp] theorem setXlock_cfgLocked : (s.setXlock v).cfgLocked = s.cfgLocked := rfl
@[simp] theorem setXlock_xlock : (s.setXlock v).xlock = v := rfl
@[simp] theorem setXlock_mlock : (s.setXlock v).mlock = s.mlock := rfl
@[simp] theorem setXlock_txbuf : (s.setXlock v).txbuf = s.txbuf := rfl
@[simp] theorem setXlock_rxbuf : (s.setXlock v).rxbuf = s.rxbuf := rfl
@[simp] theorem setXlock_now : (s.setXlock v).now = s.now := rfl
@[simp] theorem setXlock_hostMem : (s.setXlock v).hostMem = s.hostMem := rfl
@[simp] theorem setXlock_ec : (s.setXlock v).ec = s.ec := rfl
@[simp] theorem setXlock_clients : (s.setXlock v).clients = s.clients := rfl
@[simp] theorem setXlock_trace : (s.setXlock v).trace = s.trace := rfl
@[simp] theorem setXlock_sched : (s.setXlock v).sched = s.sched := rfl
@[simp] theorem setXlock_drawn : (s.setXlock v).drawn = s.drawn := rfl
@[simp] theorem setXlock_sel : (s.setXlock v).sel = s.sel := rfl
@[simp] theorem setXlock_chan : (s.setXlock v).chan c = s.chan c := rfl
@[simp] theorem setXlock_client : (s.setXlock v).client c = s.client c := rfl

end SetXlock

section SetMlock

variable (s : State) (v : MLock) (c : ChanId)

@[simp] theorem setMlock_params : (s.setMlock v).params = s.params := rfl
@[simp] theorem setMlock_emiBase : (s.setMlock v).emiBase = s.emiBase := rfl
@[simp] theorem setMlock_emiEnd : (s.setMlock v).emiEnd = s.emiEnd := rfl
@[simp] theorem setMlock_cmdPort : (s.setMlock v).cmdPort = s.cmdPort := rfl
@[simp] theorem setMlock_dataPort : (s.setMlock v).dataPort = s.dataPort := rfl
@[simp] theorem setMlock_cfgLocked : (s.setMlock v).cfgLocked = s.cfgLocked := rfl
@[simp] theorem setMlock_xlock : (s.setMlock v).xlock = s.xlock := rfl
@[simp] theorem setMlock_mlock : (s.setMlock v).mlock = v := rfl
@[simp] theorem setMlock_txbuf : (s.setMlock v).txbuf = s.txbuf := rfl
@[simp] theorem setMlock_rxbuf : (s.setMlock v).rxbuf = s.rxbuf := rfl
@[simp] theorem setMlock_now : (s.setMlock v).now = s.now := rfl
@[simp] theorem setMlock_hostMem : (s.setMlock v).hostMem = s.hostMem := rfl
@[simp] theorem setMlock_ec : (s.setMlock v).ec = s.ec := rfl
@[simp] theorem setMlock_clients : (s.setMlock v).clients = s.clients := rfl
@[simp] theorem setMlock_trace : (s.setMlock v).trace = s.trace := rfl
@[simp] theorem setMlock_sched : (s.setMlock v).sched = s.sched := rfl
@[simp] theorem setMlock_drawn : (s.setMlock v).drawn = s.drawn := rfl
@[simp] theorem setMlock_sel : (s.setMlock v).sel = s.sel := rfl
@[simp] theorem setMlock_chan : (s.setMlock v).chan c = s.chan c := rfl
@[simp] theorem setMlock_client : (s.setMlock v).client c = s.client c := rfl

end SetMlock

section SetTxbuf

variable (s : State) (v : Vector Byte 40) (c : ChanId)

@[simp] theorem setTxbuf_params : (s.setTxbuf v).params = s.params := rfl
@[simp] theorem setTxbuf_emiBase : (s.setTxbuf v).emiBase = s.emiBase := rfl
@[simp] theorem setTxbuf_emiEnd : (s.setTxbuf v).emiEnd = s.emiEnd := rfl
@[simp] theorem setTxbuf_cmdPort : (s.setTxbuf v).cmdPort = s.cmdPort := rfl
@[simp] theorem setTxbuf_dataPort : (s.setTxbuf v).dataPort = s.dataPort := rfl
@[simp] theorem setTxbuf_cfgLocked : (s.setTxbuf v).cfgLocked = s.cfgLocked := rfl
@[simp] theorem setTxbuf_xlock : (s.setTxbuf v).xlock = s.xlock := rfl
@[simp] theorem setTxbuf_mlock : (s.setTxbuf v).mlock = s.mlock := rfl
@[simp] theorem setTxbuf_txbuf : (s.setTxbuf v).txbuf = v := rfl
@[simp] theorem setTxbuf_rxbuf : (s.setTxbuf v).rxbuf = s.rxbuf := rfl
@[simp] theorem setTxbuf_now : (s.setTxbuf v).now = s.now := rfl
@[simp] theorem setTxbuf_hostMem : (s.setTxbuf v).hostMem = s.hostMem := rfl
@[simp] theorem setTxbuf_ec : (s.setTxbuf v).ec = s.ec := rfl
@[simp] theorem setTxbuf_clients : (s.setTxbuf v).clients = s.clients := rfl
@[simp] theorem setTxbuf_trace : (s.setTxbuf v).trace = s.trace := rfl
@[simp] theorem setTxbuf_sched : (s.setTxbuf v).sched = s.sched := rfl
@[simp] theorem setTxbuf_drawn : (s.setTxbuf v).drawn = s.drawn := rfl
@[simp] theorem setTxbuf_sel : (s.setTxbuf v).sel = s.sel := rfl
@[simp] theorem setTxbuf_chan : (s.setTxbuf v).chan c = s.chan c := rfl
@[simp] theorem setTxbuf_client : (s.setTxbuf v).client c = s.client c := rfl

end SetTxbuf

section SetRxbuf

variable (s : State) (v : Vector Byte 40) (c : ChanId)

@[simp] theorem setRxbuf_params : (s.setRxbuf v).params = s.params := rfl
@[simp] theorem setRxbuf_emiBase : (s.setRxbuf v).emiBase = s.emiBase := rfl
@[simp] theorem setRxbuf_emiEnd : (s.setRxbuf v).emiEnd = s.emiEnd := rfl
@[simp] theorem setRxbuf_cmdPort : (s.setRxbuf v).cmdPort = s.cmdPort := rfl
@[simp] theorem setRxbuf_dataPort : (s.setRxbuf v).dataPort = s.dataPort := rfl
@[simp] theorem setRxbuf_cfgLocked : (s.setRxbuf v).cfgLocked = s.cfgLocked := rfl
@[simp] theorem setRxbuf_xlock : (s.setRxbuf v).xlock = s.xlock := rfl
@[simp] theorem setRxbuf_mlock : (s.setRxbuf v).mlock = s.mlock := rfl
@[simp] theorem setRxbuf_txbuf : (s.setRxbuf v).txbuf = s.txbuf := rfl
@[simp] theorem setRxbuf_rxbuf : (s.setRxbuf v).rxbuf = v := rfl
@[simp] theorem setRxbuf_now : (s.setRxbuf v).now = s.now := rfl
@[simp] theorem setRxbuf_hostMem : (s.setRxbuf v).hostMem = s.hostMem := rfl
@[simp] theorem setRxbuf_ec : (s.setRxbuf v).ec = s.ec := rfl
@[simp] theorem setRxbuf_clients : (s.setRxbuf v).clients = s.clients := rfl
@[simp] theorem setRxbuf_trace : (s.setRxbuf v).trace = s.trace := rfl
@[simp] theorem setRxbuf_sched : (s.setRxbuf v).sched = s.sched := rfl
@[simp] theorem setRxbuf_drawn : (s.setRxbuf v).drawn = s.drawn := rfl
@[simp] theorem setRxbuf_sel : (s.setRxbuf v).sel = s.sel := rfl
@[simp] theorem setRxbuf_chan : (s.setRxbuf v).chan c = s.chan c := rfl
@[simp] theorem setRxbuf_client : (s.setRxbuf v).client c = s.client c := rfl

end SetRxbuf

section SetHostMem

variable (s : State) (v : Memory) (c : ChanId)

@[simp] theorem setHostMem_params : (s.setHostMem v).params = s.params := rfl
@[simp] theorem setHostMem_emiBase : (s.setHostMem v).emiBase = s.emiBase := rfl
@[simp] theorem setHostMem_emiEnd : (s.setHostMem v).emiEnd = s.emiEnd := rfl
@[simp] theorem setHostMem_cmdPort : (s.setHostMem v).cmdPort = s.cmdPort := rfl
@[simp] theorem setHostMem_dataPort : (s.setHostMem v).dataPort = s.dataPort := rfl
@[simp] theorem setHostMem_cfgLocked : (s.setHostMem v).cfgLocked = s.cfgLocked := rfl
@[simp] theorem setHostMem_xlock : (s.setHostMem v).xlock = s.xlock := rfl
@[simp] theorem setHostMem_mlock : (s.setHostMem v).mlock = s.mlock := rfl
@[simp] theorem setHostMem_txbuf : (s.setHostMem v).txbuf = s.txbuf := rfl
@[simp] theorem setHostMem_rxbuf : (s.setHostMem v).rxbuf = s.rxbuf := rfl
@[simp] theorem setHostMem_now : (s.setHostMem v).now = s.now := rfl
@[simp] theorem setHostMem_hostMem : (s.setHostMem v).hostMem = v := rfl
@[simp] theorem setHostMem_ec : (s.setHostMem v).ec = s.ec := rfl
@[simp] theorem setHostMem_clients : (s.setHostMem v).clients = s.clients := rfl
@[simp] theorem setHostMem_trace : (s.setHostMem v).trace = s.trace := rfl
@[simp] theorem setHostMem_sched : (s.setHostMem v).sched = s.sched := rfl
@[simp] theorem setHostMem_drawn : (s.setHostMem v).drawn = s.drawn := rfl
@[simp] theorem setHostMem_sel : (s.setHostMem v).sel = s.sel := rfl
@[simp] theorem setHostMem_chan : (s.setHostMem v).chan c = s.chan c := rfl
@[simp] theorem setHostMem_client : (s.setHostMem v).client c = s.client c := rfl

end SetHostMem

section SetEc

variable (s : State) (v : EcSide) (c : ChanId)

@[simp] theorem setEc_params : (s.setEc v).params = s.params := rfl
@[simp] theorem setEc_emiBase : (s.setEc v).emiBase = s.emiBase := rfl
@[simp] theorem setEc_emiEnd : (s.setEc v).emiEnd = s.emiEnd := rfl
@[simp] theorem setEc_cmdPort : (s.setEc v).cmdPort = s.cmdPort := rfl
@[simp] theorem setEc_dataPort : (s.setEc v).dataPort = s.dataPort := rfl
@[simp] theorem setEc_cfgLocked : (s.setEc v).cfgLocked = s.cfgLocked := rfl
@[simp] theorem setEc_xlock : (s.setEc v).xlock = s.xlock := rfl
@[simp] theorem setEc_mlock : (s.setEc v).mlock = s.mlock := rfl
@[simp] theorem setEc_txbuf : (s.setEc v).txbuf = s.txbuf := rfl
@[simp] theorem setEc_rxbuf : (s.setEc v).rxbuf = s.rxbuf := rfl
@[simp] theorem setEc_now : (s.setEc v).now = s.now := rfl
@[simp] theorem setEc_hostMem : (s.setEc v).hostMem = s.hostMem := rfl
@[simp] theorem setEc_ec : (s.setEc v).ec = v := rfl
@[simp] theorem setEc_clients : (s.setEc v).clients = s.clients := rfl
@[simp] theorem setEc_trace : (s.setEc v).trace = s.trace := rfl
@[simp] theorem setEc_sched : (s.setEc v).sched = s.sched := rfl
@[simp] theorem setEc_drawn : (s.setEc v).drawn = s.drawn := rfl
@[simp] theorem setEc_sel : (s.setEc v).sel = s.sel := rfl
@[simp] theorem setEc_chan : (s.setEc v).chan c = s.chan c := rfl
@[simp] theorem setEc_client : (s.setEc v).client c = s.client c := rfl

end SetEc

section SetNow

variable (s : State) (v : Nat) (c : ChanId)

@[simp] theorem setNow_params : (s.setNow v).params = s.params := rfl
@[simp] theorem setNow_emiBase : (s.setNow v).emiBase = s.emiBase := rfl
@[simp] theorem setNow_emiEnd : (s.setNow v).emiEnd = s.emiEnd := rfl
@[simp] theorem setNow_cmdPort : (s.setNow v).cmdPort = s.cmdPort := rfl
@[simp] theorem setNow_dataPort : (s.setNow v).dataPort = s.dataPort := rfl
@[simp] theorem setNow_cfgLocked : (s.setNow v).cfgLocked = s.cfgLocked := rfl
@[simp] theorem setNow_xlock : (s.setNow v).xlock = s.xlock := rfl
@[simp] theorem setNow_mlock : (s.setNow v).mlock = s.mlock := rfl
@[simp] theorem setNow_txbuf : (s.setNow v).txbuf = s.txbuf := rfl
@[simp] theorem setNow_rxbuf : (s.setNow v).rxbuf = s.rxbuf := rfl
@[simp] theorem setNow_now : (s.setNow v).now = v := rfl
@[simp] theorem setNow_hostMem : (s.setNow v).hostMem = s.hostMem := rfl
@[simp] theorem setNow_ec : (s.setNow v).ec = s.ec := rfl
@[simp] theorem setNow_clients : (s.setNow v).clients = s.clients := rfl
@[simp] theorem setNow_trace : (s.setNow v).trace = s.trace := rfl
@[simp] theorem setNow_sched : (s.setNow v).sched = s.sched := rfl
@[simp] theorem setNow_drawn : (s.setNow v).drawn = s.drawn := rfl
@[simp] theorem setNow_sel : (s.setNow v).sel = s.sel := rfl
@[simp] theorem setNow_chan : (s.setNow v).chan c = s.chan c := rfl
@[simp] theorem setNow_client : (s.setNow v).client c = s.client c := rfl

end SetNow

section SetSched

variable (s : State) (v : List Input) (c : ChanId)

@[simp] theorem setSched_params : (s.setSched v).params = s.params := rfl
@[simp] theorem setSched_emiBase : (s.setSched v).emiBase = s.emiBase := rfl
@[simp] theorem setSched_emiEnd : (s.setSched v).emiEnd = s.emiEnd := rfl
@[simp] theorem setSched_cmdPort : (s.setSched v).cmdPort = s.cmdPort := rfl
@[simp] theorem setSched_dataPort : (s.setSched v).dataPort = s.dataPort := rfl
@[simp] theorem setSched_cfgLocked : (s.setSched v).cfgLocked = s.cfgLocked := rfl
@[simp] theorem setSched_xlock : (s.setSched v).xlock = s.xlock := rfl
@[simp] theorem setSched_mlock : (s.setSched v).mlock = s.mlock := rfl
@[simp] theorem setSched_txbuf : (s.setSched v).txbuf = s.txbuf := rfl
@[simp] theorem setSched_rxbuf : (s.setSched v).rxbuf = s.rxbuf := rfl
@[simp] theorem setSched_now : (s.setSched v).now = s.now := rfl
@[simp] theorem setSched_hostMem : (s.setSched v).hostMem = s.hostMem := rfl
@[simp] theorem setSched_ec : (s.setSched v).ec = s.ec := rfl
@[simp] theorem setSched_clients : (s.setSched v).clients = s.clients := rfl
@[simp] theorem setSched_trace : (s.setSched v).trace = s.trace := rfl
@[simp] theorem setSched_sched : (s.setSched v).sched = v := rfl
@[simp] theorem setSched_drawn : (s.setSched v).drawn = s.drawn := rfl
@[simp] theorem setSched_sel : (s.setSched v).sel = s.sel := rfl
@[simp] theorem setSched_chan : (s.setSched v).chan c = s.chan c := rfl
@[simp] theorem setSched_client : (s.setSched v).client c = s.client c := rfl

end SetSched

section SetDrawn

variable (s : State) (v : Nat) (c : ChanId)

@[simp] theorem setDrawn_params : (s.setDrawn v).params = s.params := rfl
@[simp] theorem setDrawn_emiBase : (s.setDrawn v).emiBase = s.emiBase := rfl
@[simp] theorem setDrawn_emiEnd : (s.setDrawn v).emiEnd = s.emiEnd := rfl
@[simp] theorem setDrawn_cmdPort : (s.setDrawn v).cmdPort = s.cmdPort := rfl
@[simp] theorem setDrawn_dataPort : (s.setDrawn v).dataPort = s.dataPort := rfl
@[simp] theorem setDrawn_cfgLocked : (s.setDrawn v).cfgLocked = s.cfgLocked := rfl
@[simp] theorem setDrawn_xlock : (s.setDrawn v).xlock = s.xlock := rfl
@[simp] theorem setDrawn_mlock : (s.setDrawn v).mlock = s.mlock := rfl
@[simp] theorem setDrawn_txbuf : (s.setDrawn v).txbuf = s.txbuf := rfl
@[simp] theorem setDrawn_rxbuf : (s.setDrawn v).rxbuf = s.rxbuf := rfl
@[simp] theorem setDrawn_now : (s.setDrawn v).now = s.now := rfl
@[simp] theorem setDrawn_hostMem : (s.setDrawn v).hostMem = s.hostMem := rfl
@[simp] theorem setDrawn_ec : (s.setDrawn v).ec = s.ec := rfl
@[simp] theorem setDrawn_clients : (s.setDrawn v).clients = s.clients := rfl
@[simp] theorem setDrawn_trace : (s.setDrawn v).trace = s.trace := rfl
@[simp] theorem setDrawn_sched : (s.setDrawn v).sched = s.sched := rfl
@[simp] theorem setDrawn_drawn : (s.setDrawn v).drawn = v := rfl
@[simp] theorem setDrawn_sel : (s.setDrawn v).sel = s.sel := rfl
@[simp] theorem setDrawn_chan : (s.setDrawn v).chan c = s.chan c := rfl
@[simp] theorem setDrawn_client : (s.setDrawn v).client c = s.client c := rfl

end SetDrawn

section SetWindow

variable (s : State) (b e cp dp : Half) (c : ChanId)

@[simp] theorem setWindow_params : (s.setWindow b e cp dp).params = s.params := rfl
@[simp] theorem setWindow_emiBase : (s.setWindow b e cp dp).emiBase = b := rfl
@[simp] theorem setWindow_emiEnd : (s.setWindow b e cp dp).emiEnd = e := rfl
@[simp] theorem setWindow_cmdPort : (s.setWindow b e cp dp).cmdPort = cp := rfl
@[simp] theorem setWindow_dataPort : (s.setWindow b e cp dp).dataPort = dp := rfl
@[simp] theorem setWindow_cfgLocked : (s.setWindow b e cp dp).cfgLocked = true := rfl
@[simp] theorem setWindow_xlock : (s.setWindow b e cp dp).xlock = s.xlock := rfl
@[simp] theorem setWindow_mlock : (s.setWindow b e cp dp).mlock = s.mlock := rfl
@[simp] theorem setWindow_txbuf : (s.setWindow b e cp dp).txbuf = s.txbuf := rfl
@[simp] theorem setWindow_rxbuf : (s.setWindow b e cp dp).rxbuf = s.rxbuf := rfl
@[simp] theorem setWindow_now : (s.setWindow b e cp dp).now = s.now := rfl
@[simp] theorem setWindow_hostMem : (s.setWindow b e cp dp).hostMem = s.hostMem := rfl
@[simp] theorem setWindow_ec : (s.setWindow b e cp dp).ec = s.ec := rfl
@[simp] theorem setWindow_clients : (s.setWindow b e cp dp).clients = s.clients := rfl
@[simp] theorem setWindow_trace : (s.setWindow b e cp dp).trace = s.trace := rfl
@[simp] theorem setWindow_sched : (s.setWindow b e cp dp).sched = s.sched := rfl
@[simp] theorem setWindow_drawn : (s.setWindow b e cp dp).drawn = s.drawn := rfl
@[simp] theorem setWindow_sel : (s.setWindow b e cp dp).sel = s.sel := rfl
@[simp] theorem setWindow_chan : (s.setWindow b e cp dp).chan c = s.chan c := rfl
@[simp] theorem setWindow_client : (s.setWindow b e cp dp).client c = s.client c := rfl

end SetWindow

section Present

variable (s : State) (d : ChanId)

@[simp] theorem present_select (v : ChanId) : (s.select v).present d = s.present d := rfl
@[simp] theorem configured_select (v : ChanId) : (s.select v).configured = s.configured := rfl
@[simp] theorem present_setXlock (v : XLock) : (s.setXlock v).present d = s.present d := rfl
@[simp] theorem configured_setXlock (v : XLock) : (s.setXlock v).configured = s.configured := rfl
@[simp] theorem present_setMlock (v : MLock) : (s.setMlock v).present d = s.present d := rfl
@[simp] theorem configured_setMlock (v : MLock) : (s.setMlock v).configured = s.configured := rfl
@[simp] theorem present_setTxbuf (v : Vector Byte 40) : (s.setTxbuf v).present d = s.present d := rfl
@[simp] theorem configured_setTxbuf (v : Vector Byte 40) : (s.setTxbuf v).configured = s.configured := rfl
@[simp] theorem present_setRxbuf (v : Vector Byte 40) : (s.setRxbuf v).present d = s.present d := rfl
@[simp] theorem configured_setRxbuf (v : Vector Byte 40) : (s.setRxbuf v).configured = s.configured := rfl
@[simp] theorem present_setHostMem (v : Memory) : (s.setHostMem v).present d = s.present d := rfl
@[simp] theorem configured_setHostMem (v : Memory) : (s.setHostMem v).configured = s.configured := rfl
@[simp] theorem present_setEc (v : EcSide) : (s.setEc v).present d = s.present d := rfl
@[simp] theorem configured_setEc (v : EcSide) : (s.setEc v).configured = s.configured := rfl
@[simp] theorem present_setNow (v : Nat) : (s.setNow v).present d = s.present d := rfl
@[simp] theorem configured_setNow (v : Nat) : (s.setNow v).configured = s.configured := rfl
@[simp] theorem present_setSched (v : List Input) : (s.setSched v).present d = s.present d := rfl
@[simp] theorem configured_setSched (v : List Input) : (s.setSched v).configured = s.configured := rfl
@[simp] theorem present_setDrawn (v : Nat) : (s.setDrawn v).present d = s.present d := rfl
@[simp] theorem configured_setDrawn (v : Nat) : (s.setDrawn v).configured = s.configured := rfl
@[simp] theorem present_setClient (k : ChanId) (cl : Client) : (s.setClient k cl).present d = s.present d := rfl
@[simp] theorem configured_setClient (k : ChanId) (cl : Client) : (s.setClient k cl).configured = s.configured := rfl
@[simp] theorem present_issueEvent (c : ChanId) (i : Instr) : (s.issueEvent c i).present d = s.present d := rfl
@[simp] theorem configured_issueEvent (c : ChanId) (i : Instr) : (s.issueEvent c i).configured = s.configured := rfl
@[simp] theorem present_setWindow (b e cp dp : Half) : (s.setWindow b e cp dp).present d = s.present d := rfl

end Present

section Derived

variable (s : State) (c d : ChanId)

@[simp] theorem complete_mlock (kind : Kind) (code : Half) (st : SeqState) (sum : Byte) :
    (s.complete c kind code st sum).mlock = s.mlock.releasedBy c := rfl

@[simp] theorem complete_chan_self (kind : Kind) (code : Half) (st : SeqState) (sum : Byte) :
    (s.complete c kind code st sum).chan c = (s.chan c).completed kind code st sum := by
  simp [State.complete]

@[simp] theorem complete_chan_ne (kind : Kind) (code : Half) (st : SeqState) (sum : Byte) (h : d ≠ c) :
    (s.complete c kind code st sum).chan d = s.chan d := by simp [State.complete, h]

@[simp] theorem issueEvent_chan_self (i : Instr) :
    (s.issueEvent c i).chan c = { s.chan c with evented := true } := by simp [State.issueEvent]

@[simp] theorem issueEvent_chan_ne (i : Instr) (h : d ≠ c) : (s.issueEvent c i).chan d = s.chan d := by
  simp [State.issueEvent, h]

@[simp] theorem issueEvent_ec (i : Instr) : (s.issueEvent c i).ec = s.ec.afterEvent i := rfl

@[simp] theorem issueEvent_trace (i : Instr) :
    (s.issueEvent c i).trace =
      s.trace ++ (s.eventPort i).toList.map fun p => ⟨c, encodeWord i, p⟩ := rfl

@[simp] theorem startTransfer_chan_self (dir : Dir) (a : Half) (n : Nat) (buf : Buf) (ret : Ret) :
    (s.startTransfer c dir a n buf ret).chan c = (s.chan c).bindXfer dir a n buf ret := by
  simp [State.startTransfer]

@[simp] theorem startTransfer_chan_ne (dir : Dir) (a : Half) (n : Nat) (buf : Buf) (ret : Ret) (h : d ≠ c) :
    (s.startTransfer c dir a n buf ret).chan d = s.chan d := by simp [State.startTransfer, h]

/-- After reset every channel is at its reset value (10_state.md R69). -/
@[simp] theorem resetWith_chan (p : Params) : (State.resetWith p).chan c = Channel.reset := by
  simp [State.chan, State.resetWith]

@[simp] theorem resetBlock_chan : (s.resetBlock).chan c = Channel.reset := by
  simp [State.chan, State.resetBlock, State.resetWith]

@[simp] theorem resetWith_client (p : Params) : (State.resetWith p).client c = ⟨[], 0⟩ := by
  simp [State.client, State.resetWith]

@[simp] theorem resetBlock_client : (s.resetBlock).client c = s.client c := rfl

end Derived

end Sys2Proof.Machine
end

