-- ==== Sys2Proof/Laws/Ops.lean ====
section
/-! SUPPORT. What each shared operation can do, said once: host memory, buffers, command acceptance, locks. -/

namespace Sys2Proof.Machine

/-! ### Host memory -/

/-- A host read that is admitted returns the byte (20_memory.md R83). -/
theorem hostRead_eq_some {s : State} {a : Word} {b : Byte} (h : s.hostRead a = some b) :
    admitsRead s.params a = true ∧ b = s.hostMem.read a.toNat := by
  unfold State.hostRead at h
  split at h
  · next ha => exact ⟨ha, (Option.some.inj h).symm⟩
  · exact absurd h nofun

/-- A host write that is admitted changes host memory alone. -/
theorem hostWrite_eq_some {s t : State} {a : Word} {v : Byte} (h : s.hostWrite a v = some t) :
    admitsWrite s.params a = true ∧ t = s.setHostMem (s.hostMem.write a.toNat v) := by
  unfold State.hostWrite at h
  split at h
  · next ha => exact ⟨ha, (Option.some.inj h).symm⟩
  · exact absurd h nofun

/-- The reads of a range return as many bytes as it has. -/
theorem hostReads_length {s : State} {a : Word} {n : Nat} {bs : List Byte} (h : s.hostReads a n = some bs) :
    bs.length = n := by
  induction n generalizing a bs with
  | zero => cases h; rfl
  | succ n ih =>
    simp only [State.hostReads] at h
    split at h
    · next _ _ _ hbs => cases h; simp [ih hbs]
    · exact absurd h nofun

/-- Byte `i` of the reads of a range is the byte at `a + i`. -/
theorem hostReads_getElem {s : State} {a : Word} {n i : Nat} {bs : List Byte} (h : s.hostReads a n = some bs)
    (hi : i < bs.length) : bs[i] = s.hostMem.read (hostIndex a i).toNat := by
  induction n generalizing a bs i with
  | zero => cases h; exact absurd hi (Nat.not_lt_zero i)
  | succ n ih =>
    simp only [State.hostReads] at h
    split at h
    · next b bs' hb hbs =>
      cases h
      cases i with
      | zero => simp [hostIndex, (hostRead_eq_some hb).2]
      | succ i =>
        have e : hostIndex (a + 1) i = hostIndex a (i + 1) := by
          apply BitVec.eq_of_toNat_eq
          simp [hostIndex]; omega
        rw [List.getElem_cons_succ, ih hbs (Nat.lt_of_succ_lt_succ hi), e]
    · exact absurd h nofun

/-- The writes of a byte sequence change host memory alone, and there only the bytes at `a`, `a + 1`, …; they keep the
canonical form. -/
theorem hostWrites_eq_some {s t : State} {a : Word} {bs : List Byte} (h : s.hostWrites a bs = some t) :
    ∃ m : Memory, t = s.setHostMem m ∧
      (∀ b, (∀ i, i < bs.length → b ≠ (hostIndex a i).toNat) → m.read b = s.hostMem.read b) ∧
      (s.hostMem.wf = true → m.wf = true) ∧
      (s.hostMem.below (2 ^ 32) = true → m.below (2 ^ 32) = true) := by
  induction bs generalizing s a with
  | nil => rw [← Option.some.inj h]; exact ⟨s.hostMem, rfl, fun _ _ => rfl, id, id⟩
  | cons v bs ih =>
    simp only [State.hostWrites] at h
    split at h
    · next s' hs' =>
      obtain ⟨-, rfl⟩ := hostWrite_eq_some hs'
      obtain ⟨m, rfl, hm, hwf, hb⟩ := ih h
      refine ⟨m, rfl, ?_, fun w => hwf (Memory.wf_write _ _ w), fun w => hb (Memory.below_write _ _ a.isLt w)⟩
      intro b hne
      have h0 := hne 0 (by simp)
      have e0 : hostIndex a 0 = a := by simp [hostIndex]
      rw [e0] at h0
      rw [hm b, setHostMem_hostMem, Memory.read_write_ne _ _ _ _ h0]
      intro i hi
      have e : hostIndex (a + 1) i = hostIndex a (i + 1) := by
        apply BitVec.eq_of_toNat_eq
        simp [hostIndex]; omega
      rw [e]
      exact hne (i + 1) (by simpa using hi)
    · exact absurd h nofun

/-- Within host memory no two buffer indices share an address. -/
theorem hostIndex_toNat {a : Word} {i : Nat} (h : a.toNat + i < 2 ^ 32) : (hostIndex a i).toNat = a.toNat + i := by
  simp [hostIndex]; omega

/-- Byte `i` of a sequence written within host memory is read back at `a + i` (20_memory.md R97). -/
theorem hostWrites_read {s t : State} {a : Word} {bs : List Byte} (h : s.hostWrites a bs = some t)
    (hwf : s.hostMem.wf = true) (hfit : a.toNat + bs.length ≤ 2 ^ 32) (i : Nat) (hi : i < bs.length) :
    t.hostMem.read (a.toNat + i) = bs[i] := by
  induction bs generalizing s a i with
  | nil => exact absurd hi (Nat.not_lt_zero i)
  | cons v bs ih =>
    simp only [State.hostWrites] at h
    split at h
    · next s' hs' =>
      obtain ⟨-, rfl⟩ := hostWrite_eq_some hs'
      simp only [List.length_cons] at hfit hi
      cases i with
      | zero =>
        obtain ⟨m, rfl, hm, -, -⟩ := hostWrites_eq_some h
        have hne : ∀ i, i < bs.length → a.toNat ≠ (hostIndex (a + 1) i).toNat := by
          intro i hi
          have e : hostIndex (a + 1) i = hostIndex a (i + 1) := by
            apply BitVec.eq_of_toNat_eq
            simp [hostIndex]; omega
          rw [e, hostIndex_toNat (by omega)]
          omega
        rw [Nat.add_zero, setHostMem_hostMem, hm _ hne, setHostMem_hostMem]
        exact Memory.read_write_self _ _ hwf
      | succ i =>
        have ha : (a + 1).toNat = a.toNat + 1 := by
          have := a.isLt
          simp; omega
        have := ih h (Memory.wf_write _ _ hwf) (by omega) i (by omega)
        rw [ha] at this
        simpa [Nat.add_assoc, Nat.add_comm 1 i] using this
    · exact absurd h nofun

/-! ### The buffers of a transfer -/

/-- `dst(i) <- v` changes host memory at one byte, or one byte of a framer buffer, and nothing else. -/
theorem dst_eq_some {s t : State} {b : Buf} {i : Nat} {v : Byte} (h : s.dst b i v = some t) :
    (∃ base, b = .host base ∧ t = s.setHostMem (s.hostMem.write (hostIndex base i).toNat v)) ∨
    (∃ off, b = .txbuf off ∧ t = s.setTxbuf (s.txbuf.setIfInBounds (off + i) v)) ∨
    (∃ off, b = .rxbuf off ∧ t = s.setRxbuf (s.rxbuf.setIfInBounds (off + i) v)) := by
  cases b with
  | host base => exact .inl ⟨base, rfl, (hostWrite_eq_some h).2⟩
  | txbuf off => exact .inr (.inl ⟨off, rfl, (Option.some.inj h).symm⟩)
  | rxbuf off => exact .inr (.inr ⟨off, rfl, (Option.some.inj h).symm⟩)

/-- `dst(i) <- v` changes host memory and the framer buffers alone, keeping the canonical form. -/
theorem dst_frame {s t : State} {b : Buf} {i : Nat} {v : Byte} (h : s.dst b i v = some t) :
    ∃ (m : Memory) (tx rx : Vector Byte 40), t = ((s.setHostMem m).setTxbuf tx).setRxbuf rx ∧
      (s.hostMem.wf = true → m.wf = true) ∧ (s.hostMem.below (2 ^ 32) = true → m.below (2 ^ 32) = true) := by
  obtain ⟨base, -, rfl⟩ | ⟨off, -, rfl⟩ | ⟨off, -, rfl⟩ := dst_eq_some h
  · exact ⟨_, s.txbuf, s.rxbuf, rfl, fun w => Memory.wf_write _ _ w,
      fun w => Memory.below_write _ _ (hostIndex base i).isLt w⟩
  · exact ⟨s.hostMem, s.txbuf.setIfInBounds (off + i) v, s.rxbuf, rfl, id, id⟩
  · exact ⟨s.hostMem, s.txbuf, s.rxbuf.setIfInBounds (off + i) v, rfl, id, id⟩

/-- Two bytes stored: as for one. -/
theorem dst2_frame {s t : State} {b : Buf} {i : Nat} {v0 v1 : Byte} (h : s.dst2 b i v0 v1 = some t) :
    ∃ (m : Memory) (tx rx : Vector Byte 40), t = ((s.setHostMem m).setTxbuf tx).setRxbuf rx ∧
      (s.hostMem.wf = true → m.wf = true) ∧ (s.hostMem.below (2 ^ 32) = true → m.below (2 ^ 32) = true) := by
  unfold State.dst2 at h
  split at h
  · next s' hs' =>
    obtain ⟨m, tx, rx, rfl, hw, hb⟩ := dst_frame hs'
    obtain ⟨m', tx', rx', rfl, hw', hb'⟩ := dst_frame h
    exact ⟨m', tx', rx', rfl, fun w => hw' (hw w), fun w => hb' (hb w)⟩
  · exact absurd h nofun

/-! ### Acceptance -/

section Acceptance

variable {s : State} (w : Word) (body : State → State)

/-- A command word is accepted by a channel that is present and not busy (40_control.md R174). -/
theorem issueCommand_accepted (hp : s.present s.sel = true) (hb : (s.chan s.sel).busy = false) :
    s.issueCommand w body = body (s.modChan s.sel fun ch => ch.latch w) := by
  simp [State.issueCommand, hp, hb]

/-- A command word is dropped by a busy channel (40_control.md R173). -/
theorem issueCommand_dropped (hp : s.present s.sel = true) (hb : (s.chan s.sel).busy = true) :
    s.issueCommand w body = s.modChan s.sel Channel.dropWrite := by
  simp [State.issueCommand, hp, hb]

/-- A command word is ignored where the channel is absent (40_control.md R182). -/
theorem issueCommand_absent (hp : s.present s.sel = false) : s.issueCommand w body = s := by
  simp [State.issueCommand, hp]

/-- The three outcomes of a write to `CH_CMD`. -/
theorem issueCommand_cases :
    (s.present s.sel = true ∧ (s.chan s.sel).busy = false ∧
      s.issueCommand w body = body (s.modChan s.sel fun ch => ch.latch w)) ∨
    (s.present s.sel = true ∧ (s.chan s.sel).busy = true ∧
      s.issueCommand w body = s.modChan s.sel Channel.dropWrite) ∨
    (s.present s.sel = false ∧ s.issueCommand w body = s) := by
  cases hp : s.present s.sel with
  | false => exact .inr (.inr ⟨rfl, issueCommand_absent w body hp⟩)
  | true =>
    cases hb : (s.chan s.sel).busy with
    | false => exact .inl ⟨rfl, rfl, issueCommand_accepted w body hp hb⟩
    | true => exact .inr (.inl ⟨rfl, rfl, issueCommand_dropped w body hp hb⟩)

end Acceptance

/-! ### Locks -/

/-- Completion by a channel that does not hold MLOCK leaves it. -/
theorem releasedBy_ne {m : MLock} {c : ChanId} (h : m ≠ .held c) : m.releasedBy c = m := by
  simp [MLock.releasedBy, h]

@[simp] theorem releasedBy_self (c : ChanId) : (MLock.held c).releasedBy c = .free := by
  simp [MLock.releasedBy]

end Sys2Proof.Machine
end

