-- ==== Sys2Proof/Laws/Transfer.lean ====
section
/-! SUPPORT. What a window event's meaning can answer, said once for each: if it answers a next state, then the
selected channel's operation is that event, and this is the next state (41_transfer.md R206 to R208, R214). -/

namespace Sys2Proof.Machine

/-- When the selected channel is at an operation: it holds XLOCK and its context points at the operation. -/
theorem currentOp_eq_some {s : State} {x : XferCtx} {op : BusOp} :
    s.currentOp = some (x, op) ↔
      s.holdsXlock s.sel ∧ (s.chan s.sel).xc = some x ∧ x.ops[x.pos]? = some op := by
  unfold State.currentOp State.holdsXlock
  constructor
  · intro h
    split at h
    · next o via y ho hy =>
      split at h
      · next hsel =>
        subst hsel
        simp only [Option.map_eq_some_iff, Prod.mk.injEq] at h
        obtain ⟨op', hop, rfl, rfl⟩ := h
        exact ⟨⟨via, ho⟩, hy, hop⟩
      · exact absurd h nofun
    · exact absurd h nofun
  · rintro ⟨⟨via, hv⟩, hx, hop⟩
    simp [hv, hx, hop]

/-! ### Inversion of the window events -/

section Inversion

variable {s t : State} {j h : Nat} {v : Byte} {w : Half}

theorem execSelLo_eq_next : execSelLo v s = .next t ↔
    ∃ x ph, s.currentOp = some (x, .selLo v ph) ∧ t = s.opStep (.selLo v) x := by
  unfold execSelLo
  constructor
  · intro e
    split at e
    · next x b ph hop =>
      split at e
      · next hb => subst hb; exact ⟨x, ph, hop, (Host.Outcome.next.inj e).symm⟩
      · exact absurd e nofun
    · exact absurd e nofun
  · rintro ⟨x, ph, hop, rfl⟩
    simp [hop]

theorem execSelHi_eq_next : execSelHi v s = .next t ↔
    ∃ x ph, s.currentOp = some (x, .selHi v ph) ∧ t = s.opStep (.selHi v) x := by
  unfold execSelHi
  constructor
  · intro e
    split at e
    · next x b ph hop =>
      split at e
      · next hb => subst hb; exact ⟨x, ph, hop, (Host.Outcome.next.inj e).symm⟩
      · exact absurd e nofun
    · exact absurd e nofun
  · rintro ⟨x, ph, hop, rfl⟩
    simp [hop]

theorem execDbWr_eq_next : execDbWr j v s = .next t ↔
    ∃ x idx ph, s.currentOp = some (x, .byte j idx ph) ∧ x.dir = .wr ∧ s.src x.buf idx = some v ∧
      t = s.opStep (.dbWr j v) { x with sum := x.sum + v } := by
  unfold execDbWr
  constructor
  · intro e
    split at e
    · next x slot idx ph hop =>
      split at e
      · next hd =>
        obtain ⟨hdir, rfl⟩ := hd
        split at e
        · next b hb =>
          split at e
          · next hv => subst hv; exact ⟨x, idx, ph, hop, hdir, hb, (Host.Outcome.next.inj e).symm⟩
          · exact absurd e nofun
        · exact absurd e nofun
      · exact absurd e nofun
    · exact absurd e nofun
  · rintro ⟨x, idx, ph, hop, hd, hb, rfl⟩
    simp [hop, hd, hb]

theorem execDbRd_eq_next : execDbRd j v s = .next t ↔
    ∃ x idx ph s', s.currentOp = some (x, .byte j idx ph) ∧ x.dir = .rd ∧ s.dst x.buf idx v = some s' ∧
      t = s'.opStep (.dbRd j v) { x with sum := x.sum + v } := by
  unfold execDbRd
  constructor
  · intro e
    split at e
    · next x slot idx ph hop =>
      split at e
      · next hd =>
        obtain ⟨hdir, rfl⟩ := hd
        split at e
        · next s' hs' => exact ⟨x, idx, ph, s', hop, hdir, hs', (Host.Outcome.next.inj e).symm⟩
        · exact absurd e nofun
      · exact absurd e nofun
    · exact absurd e nofun
  · rintro ⟨x, idx, ph, s', hop, hd, hs', rfl⟩
    simp [hop, hd, hs']

theorem execDhWr_eq_next : execDhWr h w s = .next t ↔
    ∃ x idx ph b0 b1, s.currentOp = some (x, .half h idx ph) ∧ x.dir = .wr ∧ s.src x.buf idx = some b0 ∧
      s.src x.buf (idx + 1) = some b1 ∧ w = le16 b0 b1 ∧
      t = s.opStep (.dhWr h w) { x with sum := x.sum + b0 + b1 } := by
  unfold execDhWr
  constructor
  · intro e
    split at e
    · next x g idx ph hop =>
      split at e
      · next hd =>
        obtain ⟨hdir, rfl⟩ := hd
        split at e
        · next b0 b1 h0 h1 =>
          split at e
          · next hv =>
            exact ⟨x, idx, ph, b0, b1, hop, hdir, h0, h1, hv.symm, (Host.Outcome.next.inj e).symm⟩
          · exact absurd e nofun
        · exact absurd e nofun
      · exact absurd e nofun
    · exact absurd e nofun
  · rintro ⟨x, idx, ph, b0, b1, hop, hd, h0, h1, rfl, rfl⟩
    simp [hop, hd, h0, h1]

theorem execDhRd_eq_next : execDhRd h w s = .next t ↔
    ∃ x idx ph s', s.currentOp = some (x, .half h idx ph) ∧ x.dir = .rd ∧
      s.dst2 x.buf idx (loByte w) (hiByte w) = some s' ∧
      t = s'.opStep (.dhRd h w) { x with sum := x.sum + loByte w + hiByte w } := by
  unfold execDhRd
  constructor
  · intro e
    split at e
    · next x g idx ph hop =>
      split at e
      · next hd =>
        obtain ⟨hdir, rfl⟩ := hd
        split at e
        · next s' hs' => exact ⟨x, idx, ph, s', hop, hdir, hs', (Host.Outcome.next.inj e).symm⟩
        · exact absurd e nofun
      · exact absurd e nofun
    · exact absurd e nofun
  · rintro ⟨x, idx, ph, s', hop, hd, hs', rfl⟩
    simp [hop, hd, hs']

end Inversion

/-! ### The step after an operation -/

section Advance

variable (s : State) (c : ChanId) (x : XferCtx)

/-- The last operation ends the transfer (R214). -/
theorem advance_last (h : x.ops[x.pos + 1]? = none) :
    s.advance c x = s.endTransfer c { x with pos := x.pos + 1 } := by
  simp [State.advance, h]

/-- Any other operation moves `pos` on by one, and a direct transfer shows the next operation's phase (R214). -/
theorem advance_more {op : BusOp} (h : x.ops[x.pos + 1]? = some op) :
    s.advance c x = s.modChan c fun ch =>
      { ch with
        xc := some { x with pos := x.pos + 1 }
        state := if x.viaMbx then ch.state else op.phase.seqState } := by
  simp only [State.advance, h, XferCtx.stateAt, XferCtx.viaMbx]
  rfl

/-- Where the last operation goes on to (R214, 42_mailbox.md R252, R253, R268). -/
theorem endTransfer_complete (h : x.ret = .complete) :
    s.endTransfer c x = (s.setXlock .free).complete c .ok 0 .done x.sum := by
  simp [State.endTransfer, h]

theorem endTransfer_sendPayload (h : x.ret = .sendPayload) :
    s.endTransfer c x = (s.setXlock .free).framerSendPayload c := by
  simp [State.endTransfer, h]

theorem endTransfer_sent (h : x.ret = .sent) :
    s.endTransfer c x = (s.setXlock .free).framerSent c := by
  simp [State.endTransfer, h]

theorem endTransfer_validate (h : x.ret = .validate) :
    s.endTransfer c x = (s.setXlock .free).framerResponseRead c := by
  simp [State.endTransfer, h]

end Advance

end Sys2Proof.Machine
end

