-- ==== Sys2Proof/Laws/Mailbox.lean ====
section
/-! SUPPORT. What a mailbox event's meaning can answer, said once for each (42_mailbox.md R257, R261, R266). -/

namespace Sys2Proof.Machine

/-- When the selected channel is at a mailbox step outside a sub-transfer. -/
theorem mboxAt_eq_some {s : State} {st : MboxStep} {m : MboxCtx} :
    s.mboxAt st = some m ↔ (s.chan s.sel).xc = none ∧ (s.chan s.sel).mc = some m ∧ m.step = st := by
  unfold State.mboxAt
  constructor
  · intro h
    split at h
    · next m' hx hm =>
      split at h
      · next hst => cases h; exact ⟨hx, hm, hst⟩
      · exact absurd h nofun
    · exact absurd h nofun
  · rintro ⟨hx, hm, hst⟩
    simp [hx, hm, hst]

section Inversion

variable {s t : State} {v : Byte}

theorem execStrobe_eq_next : execStrobe v s = .next t ↔
    ∃ m, s.mboxAt .strobe = some m ∧ v = s.params.startCmd ∧
      t = (s.issueEvent s.sel (.strobe v)).mboxStrobe s.sel := by
  unfold execStrobe
  constructor
  · intro e
    split at e
    · next m hm =>
      split at e
      · next hv => exact ⟨m, hm, hv, (Host.Outcome.next.inj e).symm⟩
      · exact absurd e nofun
    · exact absurd e nofun
  · rintro ⟨m, hm, hv, rfl⟩
    simp [hm, hv]

theorem execStatRd_eq_next : execStatRd v s = .next t ↔
    ∃ m, s.mboxAt .poll = some m ∧ m.tnext ≤ s.now ∧
      t = (s.issueEvent s.sel (.statRd v)).mboxPoll s.sel m v := by
  unfold execStatRd
  constructor
  · intro e
    split at e
    · next m hm =>
      split at e
      · next hv => exact ⟨m, hm, hv, (Host.Outcome.next.inj e).symm⟩
      · exact absurd e nofun
    · exact absurd e nofun
  · rintro ⟨m, hm, hv, rfl⟩
    simp [hm, hv]

theorem execFlagRd_eq_next : execFlagRd v s = .next t ↔
    ∃ m, s.mboxAt .flag = some m ∧ t = (s.issueEvent s.sel (.flagRd v)).mboxFlag s.sel v := by
  unfold execFlagRd
  constructor
  · intro e
    split at e
    · next m hm => exact ⟨m, hm, (Host.Outcome.next.inj e).symm⟩
    · exact absurd e nofun
  · rintro ⟨m, hm, rfl⟩
    simp [hm]

end Inversion

/-! ### The branches of the mailbox steps -/

section Branches

variable (s : State) (c : ChanId)

/-- A poll that finds the EC ready goes on to the flag read, whatever the time (R261). -/
theorem mboxPoll_ready (m : MboxCtx) (v : Byte) (h : ecBusy v = false) :
    s.mboxPoll c m v = s.modChan c fun ch => ch.setMboxStep .flag := by
  simp [State.mboxPoll, h]

/-- A busy read at or past the deadline ends the command (R261). -/
theorem mboxPoll_timeout (m : MboxCtx) (v : Byte) (h : ecBusy v = true)
    (ht : s.params.timeoutTicks.toNat ≤ s.now - m.t0) :
    s.mboxPoll c m v = s.complete c .timeout 0 .timedOut 0 := by
  simp [State.mboxPoll, h, ht]

/-- A busy read before the deadline sets the time of the next poll (R261). -/
theorem mboxPoll_again (m : MboxCtx) (v : Byte) (h : ecBusy v = true)
    (ht : s.now - m.t0 < s.params.timeoutTicks.toNat) :
    s.mboxPoll c m v = s.modChan c fun ch =>
      { ch with mc := ch.mc.map fun m => { m with tnext := s.now + s.params.pollDelayTicks.toNat } } := by
  have ht' : ¬ (s.params.timeoutTicks.toNat ≤ s.now - m.t0) := by omega
  simp [State.mboxPoll, h, ht']

/-- A non-zero result flag ends the command (R266). -/
theorem mboxFlag_bad (v : Byte) (h : v ≠ 0) :
    s.mboxFlag c v = s.complete c .deviceFlag (v.setWidth 16) .resultFlagBad 0 := if_pos h

/-- A zero result flag begins the response transfer (R266, R268). -/
theorem mboxFlag_good :
    s.mboxFlag c 0 = State.startTransfer
      (s.modChan c fun ch => { ch.setMboxStep .read with state := .responseReading })
      c .rd 0 respTotal (.rxbuf 0) .validate := by
  simp [State.mboxFlag]

/-- Every outcome of the validate step (R269). -/
theorem mboxValidate_cases :
    (∃ kind code st, kind ≠ .ok ∧ st.isTerminal = true ∧
      s.mboxValidate c = s.complete c kind code st s.responseSum) ∨
    (∃ s', s.hostWrites (s.chan c).respAddr (s.responsePayload (s.chan c).respLen) = some s' ∧
      s.responseDeclaredLen = 32 ∧ (s.chan c).respLen ≤ 32 ∧ s.responseResult = 0 ∧
      s.mboxValidate c = s'.complete c .ok 0 .done s.responseSum) ∨
    s.mboxValidate c = s := by
  unfold State.mboxValidate
  dsimp only
  split
  · exact .inl ⟨_, _, _, by decide, by decide, rfl⟩
  split
  · exact .inl ⟨_, _, _, by decide, by decide, rfl⟩
  next hdl =>
  split
  · exact .inl ⟨_, _, _, by decide, by decide, rfl⟩
  next hlen =>
  split
  · exact .inl ⟨_, _, _, by decide, by decide, rfl⟩
  next hrc =>
  split
  · exact .inr (.inr rfl)
  next s' hs' =>
  have hdl : s.responseDeclaredLen = 32 := by simpa using hdl
  refine .inr (.inl ⟨s', hs', hdl, ?_, by simpa using hrc, rfl⟩)
  rw [hdl] at hlen
  have : (32 : Half).toNat = 32 := rfl
  omega

end Branches

end Sys2Proof.Machine
end

