-- ==== Sys2Proof/Laws/Agents.lean ====
section
/-! SUPPORT. What an agent's step can do: the event a channel's step issues runs to a next state, so a channel's step
always answers one; the outcomes of a step without an event. -/

namespace Sys2Proof.Machine

section Channels

variable {s : State} {ans : Answer}

/-- The event an operation issues runs to a next state (41_transfer.md R214). -/
theorem opEvent_runs {x : XferCtx} {op : BusOp} {i : Instr} (hc : s.currentOp = some (x, op))
    (h : s.opEvent x op ans = some i) : ∃ t, exec i s = .next t := by
  obtain ⟨dir, ec, n, buf, ops, pos, sum, ret⟩ := x
  cases op with
  | selLo v ph =>
    cases h
    exact ⟨_, execSelLo_eq_next.2 ⟨_, _, hc, rfl⟩⟩
  | selHi v ph =>
    cases h
    exact ⟨_, execSelHi_eq_next.2 ⟨_, _, hc, rfl⟩⟩
  | byte j idx ph =>
    cases dir with
    | wr =>
      simp only [State.opEvent, Option.map_eq_some_iff] at h
      obtain ⟨b, hb, rfl⟩ := h
      exact ⟨_, execDbWr_eq_next.2 ⟨_, _, _, hc, rfl, hb, rfl⟩⟩
    | rd =>
      simp only [State.opEvent, Option.map_eq_some_iff] at h
      obtain ⟨s', hs', rfl⟩ := h
      exact ⟨_, execDbRd_eq_next.2 ⟨_, _, _, _, hc, rfl, hs', rfl⟩⟩
  | half g idx ph =>
    cases dir with
    | wr =>
      simp only [State.opEvent] at h
      split at h
      · next b0 b1 h0 h1 =>
        cases h
        exact ⟨_, execDhWr_eq_next.2 ⟨_, _, _, _, _, hc, rfl, h0, h1, rfl, rfl⟩⟩
      · exact absurd h nofun
    | rd =>
      simp only [State.opEvent, Option.map_eq_some_iff] at h
      obtain ⟨s', hs', rfl⟩ := h
      exact ⟨_, execDhRd_eq_next.2 ⟨_, _, _, _, hc, rfl, hs', rfl⟩⟩

/-- The event a mailbox step issues runs to a next state (42_mailbox.md R257, R261, R266). -/
theorem mboxEvent_runs {m : MboxCtx} {i : Instr} (hx : (s.chan s.sel).xc = none)
    (hm : (s.chan s.sel).mc = some m) (h : s.mboxEvent m ans = some i) : ∃ t, exec i s = .next t := by
  have at_step : ∀ st, m.step = st → s.mboxAt st = some m := fun st e => mboxAt_eq_some.2 ⟨hx, hm, e⟩
  unfold State.mboxEvent at h
  split at h
  · next e => cases h; exact ⟨_, execStrobe_eq_next.2 ⟨m, at_step _ e, rfl, rfl⟩⟩
  · next e =>
    split at h
    · next ht => cases h; exact ⟨_, execStatRd_eq_next.2 ⟨m, at_step _ e, ht, rfl⟩⟩
    · exact absurd h nofun
  · next e => cases h; exact ⟨_, execFlagRd_eq_next.2 ⟨m, at_step _ e, rfl⟩⟩
  all_goals exact absurd h nofun

/-- Where a channel's next event comes from. -/
theorem nextEvent_cases {i : Instr} (h : s.nextEvent ans = some i) :
    (∃ x op, s.currentOp = some (x, op) ∧ s.opEvent x op ans = some i) ∨
    (∃ m, s.currentOp = none ∧ (s.chan s.sel).xc = none ∧ (s.chan s.sel).mc = some m ∧
      s.mboxEvent m ans = some i) := by
  unfold State.nextEvent at h
  split at h
  · next x op hc => exact .inl ⟨x, op, hc, h⟩
  · next hc =>
    split at h
    · next m hx hm => exact .inr ⟨m, hc, hx, hm, h⟩
    · exact absurd h nofun

/-- The event a channel's next step issues runs to a next state. -/
theorem nextEvent_runs {i : Instr} (h : s.nextEvent ans = some i) : ∃ t, exec i s = .next t := by
  obtain ⟨x, op, hc, ho⟩ | ⟨m, -, hx, hm, he⟩ := nextEvent_cases h
  · exact opEvent_runs hc ho
  · exact mboxEvent_runs hx hm he

end Channels

/-- The outcomes of a channel's step without an event: it acquires a lock, builds, validates, or holds
(41_transfer.md R213; 42_mailbox.md R243, R246, R269; 00_scope.md R18). -/
theorem internalStep_cases (s : State) :
    s.internalStep = s ∨
    (∃ x, (s.chan s.sel).xc = some x ∧ s.xlock = .free ∧ s.internalStep = s.acquireXlock s.sel x) ∨
    (∃ m, (s.chan s.sel).xc = none ∧ (s.chan s.sel).mc = some m ∧
      ((m.step = .lock ∧ s.mlock = .free ∧ s.internalStep = s.acquireMlock s.sel) ∨
       (m.step = .build ∧ s.internalStep = s.mboxBuild s.sel m) ∨
       (m.step = .validate ∧ s.internalStep = s.mboxValidate s.sel))) := by
  unfold State.internalStep
  dsimp only
  split
  · next x hx =>
    split
    · next hl => exact .inr (.inl ⟨x, hx, hl, rfl⟩)
    · exact .inl rfl
  · next m hx hm =>
    split
    · next e =>
      split
      · next hl => exact .inr (.inr ⟨m, hx, hm, .inl ⟨e, hl, rfl⟩⟩)
      · exact .inl rfl
    · next e => exact .inr (.inr ⟨m, hx, hm, .inr (.inl ⟨e, rfl⟩)⟩)
    · next e => exact .inr (.inr ⟨m, hx, hm, .inr (.inr ⟨e, rfl⟩)⟩)
    all_goals exact .inl rfl
  · exact .inl rfl

/-- The outcomes of a channel's step. -/
theorem channelStep_cases (s : State) (c : ChanId) (ans : Answer) :
    (s.present c = false ∧ s.channelStep c ans = .next s) ∨
    (s.present c = true ∧ ∃ i t, (s.select c).nextEvent ans = some i ∧
      exec i (s.select c) = .next t ∧ s.channelStep c ans = .next t) ∨
    (s.present c = true ∧ (s.select c).nextEvent ans = none ∧
      s.channelStep c ans = .next ((s.select c).internalStep)) := by
  unfold State.channelStep
  cases hp : s.present c with
  | false => exact .inl ⟨rfl, rfl⟩
  | true =>
    cases he : (s.select c).nextEvent ans with
    | some i =>
      obtain ⟨t, ht⟩ := nextEvent_runs he
      exact .inr (.inl ⟨rfl, i, t, rfl, ht, by simp [ht]⟩)
    | none => exact .inr (.inr ⟨rfl, rfl, by simp⟩)

end Sys2Proof.Machine
end

