-- ==== Sys2Proof/Laws/Control.lean ====
section
/-! SUPPORT. Control-register access: the address of an offset and back, the channel of an offset, and the step of a
client whose next line is a control-register access (10_state.md R33, R42; 40_control.md R170). -/

namespace Sys2Proof.Machine

section Addresses

variable {p : Params} {off : Nat}

/-- A control-register address is its offset from `CSR_BASE`, with no wrap. -/
theorem csrAddr_toNat (h : p.wf = true) (ho : off < 0x500) : (csrAddr p off).toNat = p.csrBase.toNat + off := by
  obtain ⟨-, -, -, -, hf⟩ := of_decide_eq_true h
  have : p.csrBase.toNat + 0x500 ≤ 2 ^ 32 := hf
  simp only [csrAddr, BitVec.toNat_add, BitVec.toNat_ofNat]
  omega

/-- The offset of the address of an offset. -/
theorem csrOffset_csrAddr (h : p.wf = true) (ho : off < 0x500) : csrOffset p (csrAddr p off) = off := by
  simp only [csrOffset, csrAddr_toNat h ho]
  omega

/-- An aligned 32-bit access of a control register is admitted (10_state.md R33). -/
theorem csrAdmitted_csrAddr (h : p.wf = true) (ho : off < 0x500) (h4 : off % 4 = 0) :
    csrAdmitted p (csrAddr p off) .w32 = true := by
  obtain ⟨-, -, -, hb, -⟩ := of_decide_eq_true h
  simp only [csrAdmitted, inCsr, csrSize, csrAddr_toNat h ho, Bool.and_eq_true, decide_eq_true_eq]
  refine ⟨⟨by omega, trivial⟩, by omega⟩

end Addresses

/-- The register at offset `r` of a channel that is present (10_state.md R42). -/
theorem chanOfOffset_reg {s : State} {c : ChanId} {r : Nat} (hc : c.val < s.params.nch) (hr : r < 0x40) :
    s.chanOfOffset (0x100 + 0x40 * c.val + r) = some (c, r) := by
  have e : (0x100 + 0x40 * c.val + r - 0x100) / 0x40 = c.val := by omega
  have e' : (0x100 + 0x40 * c.val + r - 0x100) % 0x40 = r := by omega
  have hlt : ¬ 0x100 + 0x40 * c.val + r < 0x100 := by omega
  simp only [State.chanOfOffset, e, e', c.isLt, hlt, dite_true, if_false, State.present, hc, decide_true, if_true]

/-- No channel is at a global offset, nor at the offset of an absent channel (10_state.md R41). -/
theorem chanOfOffset_none {s : State} {off : Nat} (h : off < 0x100 ∨ 0x100 + 0x40 * s.params.nch ≤ off) :
    s.chanOfOffset off = none := by
  unfold State.chanOfOffset
  dsimp only
  split
  · split
    · rfl
    · rw [if_neg]
      simp only [State.present, decide_eq_true_eq]
      omega
  · rfl

section Steps

variable {s : State} {k : ChanId} {off : Nat} {v : Word} {rest : List ClientOp} {sch : List Input}

/-- Where a client moves next, the step is the client's. -/
theorem step_client (h : s.sched = .client k :: sch) : step s = (s.setSched sch).clientStep k := by
  simp only [step, State.runNext, State.nextInput, h, State.perform]

/-- Where a channel moves next, the step is the channel's. -/
theorem step_channel {c : ChanId} {ans : Answer} (h : s.sched = .channel c ans :: sch) :
    step s = (s.setSched sch).channelStep c ans := by
  simp only [step, State.runNext, State.nextInput, h, State.perform]

/-- A step that writes a control register (40_control.md R170). -/
theorem step_csrWrite (hw : s.params.wf = true) (ho : off < 0x500) (h4 : off % 4 = 0) (h : Writes s k off v rest sch) :
    step s = (s.lineDone k rest sch).csrWrite off v := by
  have hp : (s.setSched sch).present k = true := decide_eq_true h.present
  have hl : ((s.setSched sch).client k).prog = .write (csrAddr s.params off) .w32 v :: rest := h.line
  rw [step_client h.moves, State.clientStep, hp, hl]
  simp only [Bool.not_true, Bool.false_eq_true, if_false, State.clientWrite, setSched_params,
    csrAdmitted_csrAddr hw ho h4, csrOffset_csrAddr hw ho, if_true, State.lineDone]

/-- A write within a present channel. -/
theorem csrWrite_reg {c : ChanId} {r : Nat} (hc : c.val < s.params.nch) (hr : r < 0x40) :
    s.csrWrite (0x100 + 0x40 * c.val + r) v =
      if r = 0 then s.writeCommand c v else .next (s.modChan c fun ch => ch.write r v) := by
  simp only [State.csrWrite, chanOfOffset_reg hc hr]

end Steps

end Sys2Proof.Machine
end

