-- ==== Sys2Proof/Laws/Fairness.lean ====
section
/-! SUPPORT. Waiting for a lock (20_memory.md R100, R102, R105): a step but reset leaves a waiting channel waiting, or is the
step in which it acquires; on a fair run it acquires; and a fair run exists. -/

namespace Sys2Proof.Machine

/-! ### Steps of other channels -/

/-- From `s` to `t` channel `c` did not move: its registers and contexts are the same, and it was given no XLOCK. -/
structure Spared (s t : State) (c : ChanId) : Prop where
  params : t.params = s.params
  chan : t.chan c = s.chan c
  xlock : t.holdsXlock c → s.holdsXlock c

theorem Spared.rfl {s : State} {c : ChanId} : Spared s s c := ⟨Eq.refl _, Eq.refl _, id⟩

theorem Spared.waitsFor {s t : State} {c : ChanId} {l : Lock} (h : Spared s t c) (w : s.waitsFor c l) :
    t.waitsFor c l := by
  obtain ⟨hp, hb, w⟩ := w
  refine ⟨by rw [h.params]; exact hp, by rw [h.chan]; exact hb, ?_⟩
  cases l with
  | xlock => exact ⟨by rw [h.chan]; exact w.1, fun k => w.2 (h.xlock k)⟩
  | mlock => simpa [h.chan] using w

section Others

variable {s u : State} {c d : ChanId}

/-- An update that changes neither parameters, channels nor XLOCK. -/
theorem Spared.same (h : Spared s u c) {t : State} (hp : t.params = u.params) (hc : t.chan c = u.chan c)
    (hx : t.xlock = u.xlock) : Spared s t c :=
  ⟨hp.trans h.params, hc.trans h.chan, fun ⟨via, k⟩ => h.xlock ⟨via, hx.symm.trans k⟩⟩

theorem Spared.modChan (h : Spared s u c) (hd : c ≠ d) (f : Channel → Channel) : Spared s (u.modChan d f) c :=
  h.same (Eq.refl _) (by simp [hd]) (Eq.refl _)

theorem Spared.setXlock (h : Spared s u c) {x : XLock} (hx : ∀ via, x ≠ .held c via) : Spared s (u.setXlock x) c :=
  ⟨h.params, h.chan, fun ⟨via, k⟩ => absurd k (hx via)⟩

theorem Spared.setMlock (h : Spared s u c) (m : MLock) : Spared s (u.setMlock m) c :=
  h.same (Eq.refl _) (Eq.refl _) (Eq.refl _)

theorem Spared.setWindow (h : Spared s u c) (base end_ cmd data : Half) :
    Spared s (u.setWindow base end_ cmd data) c := h.same (Eq.refl _) (Eq.refl _) (Eq.refl _)

theorem Spared.setHostMem (h : Spared s u c) (m : Memory) : Spared s (u.setHostMem m) c :=
  h.same (Eq.refl _) (Eq.refl _) (Eq.refl _)

theorem Spared.setTxbuf (h : Spared s u c) (b : Vector Byte 40) : Spared s (u.setTxbuf b) c :=
  h.same (Eq.refl _) (Eq.refl _) (Eq.refl _)

theorem Spared.setRxbuf (h : Spared s u c) (b : Vector Byte 40) : Spared s (u.setRxbuf b) c :=
  h.same (Eq.refl _) (Eq.refl _) (Eq.refl _)

theorem Spared.complete (h : Spared s u c) (hd : c ≠ d) (kind : Kind) (code : Half) (st : SeqState) (sum : Byte) :
    Spared s (u.complete d kind code st sum) c := (h.modChan hd _).setMlock _

theorem Spared.startTransfer (h : Spared s u c) (hd : c ≠ d) (dir : Dir) (a : Half) (n : Nat) (b : Buf) (r : Ret) :
    Spared s (u.startTransfer d dir a n b r) c := h.modChan hd _

theorem Spared.issueEvent (h : Spared s u c) (hd : c ≠ d) (i : Instr) : Spared s (u.issueEvent d i) c :=
  (h.modChan hd fun ch => { ch with evented := true }).same (Eq.refl _) (Eq.refl _) (Eq.refl _)

theorem Spared.endTransfer (h : Spared s u c) (hd : c ≠ d) (x : XferCtx) : Spared s (u.endTransfer d x) c := by
  have h := h.setXlock (x := .free) nofun
  unfold State.endTransfer
  dsimp only
  split
  · exact h.complete hd _ _ _ _
  · unfold State.framerSendPayload
    dsimp only
    split
    · exact (h.modChan hd _).modChan hd _
    · exact (h.modChan hd _).startTransfer hd _ _ _ _ _
  · exact h.modChan hd _
  · exact h.modChan hd _

/-- The step of an operation of another channel (41_transfer.md R214). -/
theorem Spared.opStep (h : Spared s u c) (hd : c ≠ u.sel) (i : Instr) (x : XferCtx) : Spared s (u.opStep i x) c := by
  unfold State.opStep State.advance
  dsimp only
  split
  · exact (h.issueEvent hd i).endTransfer hd _
  · exact (h.issueEvent hd i).modChan hd _

/-- Acceptance on channel `d` leaves the others, where its body does; and a busy channel keeps its command. -/
theorem issueCommand_waitsFor {l : Lock} (w : s.waitsFor c l) (word : Word) {body : State → State}
    (hbody : ∀ u, c ≠ u.sel → Spared u (body u) c) : (s.issueCommand word body).waitsFor c l := by
  obtain ⟨-, hb, e⟩ | ⟨-, -, e⟩ | ⟨-, e⟩ := issueCommand_cases (s := s) word body
  · have hd : c ≠ s.sel := by
      rintro rfl
      simp [w.2.1] at hb
    rw [e]
    exact (hbody (s.modChan s.sel _) hd).waitsFor ((Spared.rfl.modChan hd _).waitsFor w)
  · rw [e]
    by_cases hd : c = s.sel
    · subst hd
      simpa [State.waitsFor, Channel.dropWrite, State.holdsXlock] using w
    · exact (Spared.rfl.modChan hd _).waitsFor w
  · rw [e]; exact w

theorem spared_configureWindow (u : State) (hd : c ≠ u.sel) : Spared u u.configureWindow c := by
  unfold State.configureWindow
  dsimp only
  split
  · exact Spared.rfl.complete hd _ _ _ _
  split
  · exact Spared.rfl.complete hd _ _ _ _
  · exact (Spared.rfl.setWindow _ _ _ _).complete hd _ _ _ _

theorem spared_xferStart (dir : Dir) (u : State) (hd : c ≠ u.sel) : Spared u (u.xferStart dir) c := by
  unfold State.xferStart
  dsimp only
  split
  · exact Spared.rfl.complete hd _ _ _ _
  split
  · exact Spared.rfl.complete hd _ _ _ _
  · exact Spared.rfl.startTransfer hd _ _ _ _ _

theorem spared_mboxStart (n : Bool) (u : State) (hd : c ≠ u.sel) : Spared u (u.mboxStart n) c := by
  unfold State.mboxStart
  dsimp only
  split
  · exact Spared.rfl.complete hd _ _ _ _
  split
  · exact Spared.rfl.complete hd _ _ _ _
  · exact Spared.rfl.modChan hd _

/-- A port event of channel `d` leaves the other channels. -/
theorem spared_event {t : State} {i : Instr} (hi : i.isCommand = false) (h : exec i s = .next t) (hd : c ≠ s.sel) :
    Spared s t c := by
  have h0 : Spared s s c := .rfl
  cases i with
  | selLo v => obtain ⟨x, -, -, rfl⟩ := execSelLo_eq_next.1 h; exact h0.opStep hd _ _
  | selHi v => obtain ⟨x, -, -, rfl⟩ := execSelHi_eq_next.1 h; exact h0.opStep hd _ _
  | dbWr j v => obtain ⟨x, -, -, -, -, -, rfl⟩ := execDbWr_eq_next.1 h; exact h0.opStep hd _ _
  | dhWr g v => obtain ⟨x, -, -, b0, b1, -, -, -, -, -, rfl⟩ := execDhWr_eq_next.1 h; exact h0.opStep hd _ _
  | dbRd j v =>
    obtain ⟨x, _, _, s', -, -, hs, rfl⟩ := execDbRd_eq_next.1 h
    obtain ⟨m, tx, rx, rfl, -, -⟩ := dst_frame hs
    exact (((h0.setHostMem m).setTxbuf tx).setRxbuf rx).opStep hd _ _
  | dhRd g v =>
    obtain ⟨x, _, _, s', -, -, hs, rfl⟩ := execDhRd_eq_next.1 h
    obtain ⟨m, tx, rx, rfl, -, -⟩ := dst2_frame hs
    exact (((h0.setHostMem m).setTxbuf tx).setRxbuf rx).opStep hd _ _
  | strobe v =>
    obtain ⟨-, -, -, rfl⟩ := execStrobe_eq_next.1 h
    unfold State.mboxStrobe
    dsimp only
    split
    · exact (((h0.issueEvent hd _).modChan hd _).modChan hd _).complete hd _ _ _ _
    · exact ((h0.issueEvent hd _).modChan hd _).modChan hd _
  | statRd v =>
    obtain ⟨m, -, -, rfl⟩ := execStatRd_eq_next.1 h
    unfold State.mboxPoll
    split
    · exact (h0.issueEvent hd _).modChan hd _
    split
    · exact (h0.issueEvent hd _).complete hd _ _ _ _
    · exact (h0.issueEvent hd _).modChan hd _
  | flagRd v =>
    obtain ⟨-, -, rfl⟩ := execFlagRd_eq_next.1 h
    unfold State.mboxFlag
    split
    · exact (h0.issueEvent hd _).complete hd _ _ _ _
    · exact ((h0.issueEvent hd _).modChan hd _).startTransfer hd _ _ _ _ _
  | configure => cases hi
  | xferWr => cases hi
  | xferRd => cases hi
  | mboxExec n => cases hi

/-- A step without an event of channel `d` leaves the other channels. -/
theorem spared_internalStep (hd : c ≠ s.sel) : Spared s s.internalStep c := by
  have h0 : Spared s s c := .rfl
  obtain e | ⟨x, -, -, e⟩ | ⟨m, -, -, (⟨-, -, e⟩ | ⟨-, e⟩ | ⟨-, e⟩)⟩ := internalStep_cases s
  · rw [e]; exact h0
  · rw [e]
    exact (h0.modChan hd _).setXlock fun via k => hd (XLock.held.inj k).1.symm
  · rw [e]; exact (h0.modChan hd _).setMlock _
  · rw [e]
    unfold State.mboxBuild
    dsimp only
    split
    · exact h0
    · next payload _ =>
      generalize overlay (requestBytes s.params (s.chan s.sel).mailboxId m.len payload) s.txbuf = tx
      exact ((h0.setTxbuf tx).modChan hd _).startTransfer hd _ _ _ _ _
  · rw [e]
    obtain ⟨_, _, _, -, -, e⟩ | ⟨s', hs, -, -, -, e⟩ | e := mboxValidate_cases s s.sel
    · rw [e]; exact h0.complete hd _ _ _ _
    · rw [e]
      obtain ⟨m, rfl, -⟩ := hostWrites_eq_some hs
      exact (h0.setHostMem m).complete hd _ _ _ _
    · rw [e]; exact h0

end Others

/-! ### The steps of the machine -/

section Steps

variable {s t : State} {c : ChanId} {l : Lock}

/-- A command word decodes to a command (30_encoding.md R131). -/
theorem decodeCommand_isCommand {word : Word} {i : Instr} (h : decodeCommand word = .ok i) : i.isCommand = true := by
  unfold decodeCommand at h
  split at h
  · cases h
  generalize decide (field word 8 8 = 1) = n at h
  dsimp only at h
  split at h
  iterate 3
    cases n
    · cases h; rfl
    · cases h
  all_goals cases h; try rfl

/-- A command leaves a waiting channel waiting, also where it is written to that channel (40_control.md R173). -/
theorem waitsFor_command {i : Instr} (hi : i.isCommand = true) (w : s.waitsFor c l) (h : exec i s = .next t) :
    t.waitsFor c l := by
  cases i with
  | configure => cases h; exact issueCommand_waitsFor w _ spared_configureWindow
  | xferWr => cases h; exact issueCommand_waitsFor w _ (spared_xferStart .wr)
  | xferRd => cases h; exact issueCommand_waitsFor w _ (spared_xferStart .rd)
  | mboxExec n => cases h; exact issueCommand_waitsFor w _ (spared_mboxStart n)
  | _ => cases hi

/-- A control-register write leaves a waiting channel waiting. -/
theorem waitsFor_csrWrite {off : Nat} {v : Word} (w : s.waitsFor c l) (h : s.csrWrite off v = .next t) :
    t.waitsFor c l := by
  unfold State.csrWrite at h
  split at h
  · next d r _ =>
    split at h
    · have w' : (s.select d).waitsFor c l := w
      unfold State.writeCommand at h
      split at h
      · next i hi => exact waitsFor_command (decodeCommand_isCommand hi) w' h
      · cases h
        exact issueCommand_waitsFor w' _ fun u hd => Spared.rfl.complete hd _ _ _ _
    · cases h
      by_cases hd : c = d
      · subst hd
        have hw : ((s.chan c).write r v).busy = (s.chan c).busy ∧ ((s.chan c).write r v).xc = (s.chan c).xc ∧
            ((s.chan c).write r v).mc = (s.chan c).mc := by
          unfold Channel.write Channel.writeArg
          split
          · exact ⟨rfl, rfl, rfl⟩
          split
          · rw [if_pos w.2.1]; exact ⟨rfl, rfl, rfl⟩
          · exact ⟨rfl, rfl, rfl⟩
        simpa [State.waitsFor, State.holdsXlock, hw] using w
      · exact (Spared.rfl.modChan hd _).waitsFor w
  · cases h; exact w

/-- A client's step leaves a waiting channel waiting. -/
theorem waitsFor_clientStep {k : ChanId} (w : s.waitsFor c l) (h : s.clientStep k = .next t) : t.waitsFor c l := by
  have hset : ∀ (u : State) cl, u.waitsFor c l → (u.setClient k cl).waitsFor c l := fun _ _ w => w
  unfold State.clientStep at h
  split at h
  · cases h; exact w
  split at h
  · cases h; exact w
  · unfold State.clientWrite at h
    split at h
    · exact waitsFor_csrWrite (hset s _ w) h
    split at h
    · cases h; exact w
    split at h
    · next hs =>
      cases h
      obtain ⟨m, rfl, -⟩ := hostWrites_eq_some hs
      exact hset _ _ w
    · cases h; exact w
  · cases h
    unfold State.clientRead
    split
    · exact hset _ _ w
    split
    · exact w
    split
    · exact hset _ _ w
    · exact w
  · cases h; exact hset _ _ w

/-- A waiting channel's own step issues no event: it acquires where the lock is free, and holds otherwise. -/
theorem own_step (w : s.waitsFor c l) (ans : Answer) :
    (s.select c).nextEvent ans = none ∧
      ((s.lockFree l ∧ (s.select c).internalStep.holdsLock c l) ∨ (s.select c).internalStep = s.select c) := by
  obtain ⟨-, -, w⟩ := w
  cases l with
  | xlock =>
    obtain ⟨hx, hn⟩ := w
    obtain ⟨x, hx⟩ := Option.isSome_iff_exists.1 hx
    have hx : ((s.select c).chan (s.select c).sel).xc = some x := hx
    refine ⟨?_, ?_⟩
    · have : (s.select c).currentOp = none := by
        by_contra hc
        obtain ⟨⟨y, op⟩, hc⟩ := Option.ne_none_iff_exists'.1 hc
        exact hn (currentOp_eq_some.1 hc).1
      unfold State.nextEvent
      rw [this]
      dsimp only
      rw [hx]
    · unfold State.internalStep
      simp only [hx]
      split
      · next hf => exact .inl ⟨hf, x.viaMbx, rfl⟩
      · exact .inr rfl
  | mlock =>
    obtain ⟨hx, m, hm, hst⟩ := w
    have hx : ((s.select c).chan (s.select c).sel).xc = none := hx
    have hm : ((s.select c).chan (s.select c).sel).mc = some m := hm
    refine ⟨?_, ?_⟩
    · have : (s.select c).currentOp = none := by
        by_contra hc
        obtain ⟨⟨y, op⟩, hc⟩ := Option.ne_none_iff_exists'.1 hc
        have := (currentOp_eq_some.1 hc).2.1
        rw [hx] at this
        cases this
      unfold State.nextEvent
      rw [this]
      dsimp only
      rw [hx, hm]
      dsimp only
      simp only [State.mboxEvent, hst]
    · unfold State.internalStep
      simp only [hx, hm, hst]
      split
      · next hf => exact .inl ⟨hf, rfl⟩
      · exact .inr rfl

/-- A step but reset leaves a waiting channel waiting, or is the step in which it acquires the lock, which was free
(20_memory.md R100, R102). -/
theorem waits_or_acquires (w : s.waitsFor c l) (hr : s.nextInput.1 ≠ .reset) (h : step s = .next t) :
    t.waitsFor c l ∨ (s.lockFree l ∧ t.holdsLock c l) := by
  unfold step State.runNext at h
  have hu : Spared s s.nextInput.2 c ∧ (s.nextInput.2.lockFree l → s.lockFree l) := by
    unfold State.nextInput
    split <;> exact ⟨Spared.rfl.same rfl rfl rfl, by cases l <;> exact id⟩
  obtain ⟨hw, hf⟩ := hu
  replace hw := hw.waitsFor w
  generalize s.nextInput.2 = u at *
  unfold State.perform at h
  split at h
  · exact .inl (waitsFor_clientStep hw h)
  · next d ans _ =>
    by_cases hd : c = d
    · subst hd
      obtain ⟨he, ho⟩ := own_step hw ans
      obtain ⟨-, e⟩ | ⟨-, i, t', hi, -, -⟩ | ⟨-, -, e⟩ := channelStep_cases u c ans
      · rw [e] at h; cases h; exact .inl hw
      · rw [he] at hi; cases hi
      · rw [e] at h; cases h
        obtain ⟨hfree, ho⟩ | ho := ho
        · exact .inr ⟨hf hfree, ho⟩
        · rw [ho]; exact .inl hw
    · refine .inl ?_
      obtain ⟨-, e⟩ | ⟨-, i, t', hn, hi, e⟩ | ⟨-, -, e⟩ := channelStep_cases u d ans
      · rw [e] at h; cases h; exact hw
      · rw [e] at h; cases h
        have w' : (u.select d).waitsFor c l := hw
        cases hc : i.isCommand with
        | true => exact waitsFor_command hc w' hi
        | false => exact (spared_event hc hi hd).waitsFor w'
      · rw [e] at h; cases h
        have w' : (u.select d).waitsFor c l := hw
        exact (spared_internalStep hd).waitsFor w'
  · cases h; exact .inl hw
  · cases h; exact .inl hw
  · next e => exact absurd e hr

end Steps

/-! ### Fair runs -/

/-- On a fair run that does not reset the block, a channel that waits for a lock that is free again and again acquires it
(20_memory.md R105). -/
theorem FairRun.waiter_acquires {r : Nat → State} (h : FairRun r) {c : ChanId} {l : Lock} {n : Nat}
    (w : (r n).waitsFor c l) (hfree : ∀ m, ∃ k, m ≤ k ∧ (r k).lockFree l)
    (hr : ∀ k, n ≤ k → (r k).nextInput.1 ≠ .reset) : ∃ k, n ≤ k ∧ (r k).holdsLock c l := by
  by_contra hn
  push Not at hn
  have hwait : ∀ k, n ≤ k → (r k).waitsFor c l := by
    intro k hk
    induction k, hk using Nat.le_induction with
    | base => exact w
    | succ k hk ih =>
      obtain hw | ⟨-, hh⟩ := waits_or_acquires ih (hr k hk) (h.run k)
      · exact hw
      · exact absurd hh (hn (k + 1) (by omega))
  obtain ⟨k, hk⟩ := h.fair c l n hwait
  obtain ⟨j, hj, hf⟩ := hfree k
  exact hk j hj hf

/-- Nothing is in flight and no client has a line left. -/
structure Quiet (s : State) : Prop where
  chan : ∀ c, s.chan c = Channel.reset
  client : ∀ k, (s.client k).prog = []

theorem Quiet.step_next {s : State} (h : Quiet s) : ∃ t, step s = .next t ∧ Quiet t := by
  unfold step State.runNext
  have hu : Quiet s.nextInput.2 := by
    unfold State.nextInput
    split <;> exact ⟨h.chan, h.client⟩
  generalize s.nextInput.2 = u at *
  have hset : ∀ f : State → State, (∀ c, (f u).chan c = u.chan c) → (∀ k, (f u).client k = u.client k) → Quiet (f u) :=
    fun f h1 h2 => ⟨fun c => by rw [h1]; exact hu.chan c, fun k => by rw [h2]; exact hu.client k⟩
  unfold State.perform
  split
  · next k _ =>
    refine ⟨u, ?_, hu⟩
    unfold State.clientStep
    simp [hu.client k]
  · next c ans _ =>
    have he : (u.select c).nextEvent ans = none ∧ (u.select c).internalStep = u.select c := by
      have hx : ((u.select c).chan (u.select c).sel).xc = none := by
        have := hu.chan c; simp [this, Channel.reset]
      have hm : ((u.select c).chan (u.select c).sel).mc = none := by
        have := hu.chan c; simp [this, Channel.reset]
      constructor
      · have : (u.select c).currentOp = none := by
          unfold State.currentOp
          rw [hx]
          split
          · next h => cases h
          · rfl
        unfold State.nextEvent
        rw [this]
        dsimp only
        rw [hx, hm]
      · simp only [State.internalStep, hx, hm]
    obtain ⟨-, e⟩ | ⟨-, i, t', hi, -, -⟩ | ⟨-, -, e⟩ := channelStep_cases u c ans
    · exact ⟨u, e, hu⟩
    · rw [he.1] at hi; cases hi
    · exact ⟨_, e, by rw [he.2]; exact ⟨hu.chan, hu.client⟩⟩
  · exact ⟨_, rfl, hset (fun u => u.setEc _) (fun _ => rfl) fun _ => rfl⟩
  · exact ⟨_, rfl, hset (fun u => u.setNow _) (fun _ => rfl) fun _ => rfl⟩
  · exact ⟨_, rfl, ⟨resetBlock_chan u, hu.client⟩⟩

/-- A fair run exists from reset, whatever the free schedule gives. -/
theorem exists_fairRun_of_reset : ∃ r, r 0 = State.reset ∧ FairRun r := by
  have h0 : Quiet State.reset := ⟨fun c => by simp [State.reset, State.chan, State.resetWith], fun k => by
    simp [State.reset, State.client, State.resetWith]⟩
  choose f hf hq using fun q : {s : State // Quiet s} => q.2.step_next
  let r : Nat → {s : State // Quiet s} := fun n => (fun q => ⟨f q, hq q⟩)^[n] ⟨State.reset, h0⟩
  refine ⟨fun n => (r n).1, rfl, fun n => ?_, fun c l n w => ?_⟩
  · show step (r n).1 = .next (r (n + 1)).1
    rw [hf (r n)]
    simp only [r, Function.iterate_succ_apply']
  · have hb := (w n (Nat.le_refl n)).2.1
    rw [(r n).2.chan c] at hb
    cases hb

end Sys2Proof.Machine
end

