-- ==== Sys2Proof/Laws/XferOps.lean ====
section
/-! SUPPORT. The pieces of an operation list (41_transfer.md R205): their lengths and what their members are. -/

namespace Sys2Proof.Machine

theorem byteOps_length (ph : Phase) (slot idx count : Nat) : (byteOps ph slot idx count).length = count := by
  induction count generalizing slot idx with
  | zero => rfl
  | succ n ih => simp [byteOps, ih]

theorem unitOps_length (idx units : Nat) : (unitOps idx units).length = 2 * units := by
  induction units generalizing idx with
  | zero => rfl
  | succ n ih => simp [unitOps, ih]; omega

/-- The operations of a run of bytes: consecutive slots and indices. -/
theorem mem_byteOps {ph : Phase} {slot idx count : Nat} {op : BusOp} :
    op ∈ byteOps ph slot idx count ↔ ∃ i, i < count ∧ op = .byte (slot + i) (idx + i) ph := by
  induction count generalizing slot idx with
  | zero => simp [byteOps]
  | succ n ih =>
    simp only [byteOps, List.mem_cons, ih]
    constructor
    · rintro (rfl | ⟨i, hi, rfl⟩)
      · exact ⟨0, by omega, rfl⟩
      · exact ⟨i + 1, by omega, by congr 1 <;> omega⟩
    · rintro ⟨i, hi, rfl⟩
      cases i with
      | zero => exact .inl rfl
      | succ i => exact .inr ⟨i, by omega, by congr 1 <;> omega⟩

/-- The operations of a run of units: pairs of halves. -/
theorem mem_unitOps {idx units : Nat} {op : BusOp} :
    op ∈ unitOps idx units ↔
      ∃ i, i < units ∧ (op = .half 0 (idx + 4 * i) .bulk ∨ op = .half 1 (idx + 4 * i + 2) .bulk) := by
  induction units generalizing idx with
  | zero => simp [unitOps]
  | succ n ih =>
    simp only [unitOps, List.mem_cons, ih]
    constructor
    · rintro (rfl | rfl | ⟨i, hi, h⟩)
      · exact ⟨0, by omega, .inl rfl⟩
      · exact ⟨0, by omega, .inr rfl⟩
      · refine ⟨i + 1, by omega, ?_⟩
        have e : idx + 4 + 4 * i = idx + 4 * (i + 1) := by omega
        rwa [e] at h
    · rintro ⟨i, hi, h⟩
      cases i with
      | zero => rcases h with rfl | rfl <;> simp
      | succ i =>
        refine .inr (.inr ⟨i, by omega, ?_⟩)
        have e : idx + 4 * (i + 1) = idx + 4 + 4 * i := by omega
        rwa [e] at h

/-- The parts of a transfer add up to its length (R204). -/
theorem parts_add (a : Half) (n : Nat) : headSize a n + 4 * bulkUnits a n + tailSize a n = n := by
  have h : headSize a n ≤ n := by unfold headSize; split <;> omega
  unfold bulkUnits tailSize
  omega

/-- A data operation of a transfer reaches a slot of the window (R22, R211). -/
theorem xferOps_wellFormed {a : Half} {n : Nat} {op : BusOp} (h : op ∈ xferOps a n) :
    match op with
    | .selLo _ _ | .selHi _ _ => True
    | .byte slot _ _ => slot < 4
    | .half g _ _ => g < 2 := by
  simp only [xferOps, List.mem_append, headOps, bulkOps, tailOps] at h
  rcases h with (h | h) | h
  · split at h
    · exact absurd h (by simp)
    · simp only [select, List.cons_append, List.nil_append, List.mem_cons, mem_byteOps] at h
      rcases h with rfl | rfl | ⟨i, hi, rfl⟩
      · trivial
      · trivial
      · have hk : headSize a n ≤ 4 - a.toNat % 4 := by unfold headSize; split <;> omega
        show a.toNat % 4 + i < 4
        omega
  · split at h
    · exact absurd h (by simp)
    · simp only [select, List.cons_append, List.nil_append, List.mem_cons, mem_unitOps] at h
      rcases h with rfl | rfl | ⟨i, hi, rfl | rfl⟩
      · trivial
      · trivial
      · show 0 < 2; omega
      · show 1 < 2; omega
  · split at h
    · exact absurd h (by simp)
    · simp only [select, List.cons_append, List.nil_append, List.mem_cons, mem_byteOps] at h
      rcases h with rfl | rfl | ⟨i, hi, rfl⟩
      · trivial
      · trivial
      · have ht : tailSize a n < 4 := Nat.mod_lt _ (by omega)
        show 0 + i < 4
        omega

/-- A transfer of at least one byte has an operation (R204). -/
theorem xferOps_ne_nil {a : Half} {n : Nat} (h : 1 ≤ n) : xferOps a n ≠ [] := by
  intro e
  simp only [xferOps, headOps, bulkOps, tailOps, List.append_eq_nil_iff] at e
  have hp := parts_add a n
  have hb : bulkUnits a n = 0 := by
    by_contra hne; simp [hne, select] at e
  have ht : tailSize a n = 0 := by
    by_contra hne; simp [hne, select] at e
  have hh : a.toNat % 4 = 0 := by
    by_contra hne; simp [hne, select] at e
  have h0 : headSize a n = 0 := by simp [headSize, hh]
  omega

end Sys2Proof.Machine
end

