-- ==== Sys2Proof/Laws/Invariant.lean ====
section
/-! SUPPORT. Moves of one channel: what a step of channel `c` leaves of the other channels' part of the invariant, said
once for each shared operation. -/

namespace Sys2Proof.Machine

/-- The invariant of a channel depends on the parameters, the time, the configured test, the channel and what it
holds. -/
theorem ChanInv.congr {s t : State} {d : ChanId} (h : ChanInv s d) (hp : t.params = s.params)
    (hc : t.configured = s.configured) (hn : s.now ≤ t.now) (hd : t.chan d = s.chan d)
    (hx : ∀ via, t.xlock = .held d via ↔ s.xlock = .held d via) (hm : t.mlock = .held d ↔ s.mlock = .held d) :
    ChanInv t d := by
  have hh : t.holdsXlock d ↔ s.holdsXlock d := by simp only [State.holdsXlock, hx]
  refine ⟨?_, ?_, ?_, ?_, ?_, ?_, ?_, ?_, ?_, ?_⟩
  · rw [hp, hd]; exact h.absent
  · rw [hd]; exact h.atRest
  · rw [hd, hc]; exact h.inFlight
  · rw [hd, hh]; exact h.xfer
  · rw [hd, hh]; exact h.direct
  · rw [hd]; exact h.sub
  · rw [hd]
    intro m hmc
    obtain ⟨a, b, c, d', e, f, g, g', i, j⟩ := h.mbox m hmc
    refine ⟨a, b, c, d', e, f, g, g', by omega, ?_⟩
    rw [hp]; omega
  · rw [hd]; exact h.alone
  · rw [hd, hm]; exact h.mlock
  · rw [hd]
    intro via hv
    exact h.xlock via ((hx via).1 hv)

/-- A channel with no command in flight that holds no lock meets its invariant. -/
theorem ChanInv.rest {s : State} {c : ChanId} (hpres : s.present c = true) (hb : (s.chan c).busy = false)
    (hx : (s.chan c).xc = none) (hm : (s.chan c).mc = none)
    (hst : (s.chan c).state = .idle ∨ (s.chan c).state.isTerminal = true)
    (hxl : ∀ via, s.xlock ≠ .held c via) (hml : s.mlock ≠ .held c) : ChanInv s c := by
  have hpres : c.val < s.params.nch := of_decide_eq_true hpres
  refine ⟨fun h => by omega, fun _ => ⟨hx, hm, hst⟩, fun h => by simp [hb] at h, ?_, ?_, ?_, ?_, ?_, ?_, ?_⟩
  · intro x h; simp [hx] at h
  · intro x h; simp [hx] at h
  · intro x m h; simp [hx] at h
  · intro m h; simp [hm] at h
  · intro m _ h; simp [hm] at h
  · simp [hm, hml]
  · intro via h; exact absurd h (hxl via)

/-- A channel with no command in flight holds no lock. -/
theorem ChanInv.not_holds {s : State} {c : ChanId} (h : ChanInv s c) (hb : (s.chan c).busy = false) :
    (∀ via, s.xlock ≠ .held c via) ∧ s.mlock ≠ .held c := by
  obtain ⟨hx, hm, -⟩ := h.atRest hb
  constructor
  · intro via e
    obtain ⟨x, hx', -⟩ := h.xlock via e
    simp [hx] at hx'
  · intro e
    obtain ⟨m, hm', -⟩ := h.mlock.1 e
    simp [hm] at hm'

theorem ChanInv.busy_of_xc {s : State} {c : ChanId} {x} (h : ChanInv s c) (hx : (s.chan c).xc = some x) :
    (s.chan c).busy = true := by
  by_contra hb
  have := (h.atRest (by simpa using hb)).1
  simp [hx] at this

theorem ChanInv.busy_of_mc {s : State} {c : ChanId} {x} (h : ChanInv s c) (hx : (s.chan c).mc = some x) :
    (s.chan c).busy = true := by
  by_contra hb
  have := (h.atRest (by simpa using hb)).2.1
  simp [hx] at this

theorem ChanInv.present {s : State} {c : ChanId} (h : ChanInv s c) (hb : (s.chan c).busy = true) :
    s.present c = true := by
  by_contra hn
  have hn : s.params.nch ≤ c.val := by simpa [State.present] using hn
  have := h.absent hn
  rw [this] at hb
  simp [Channel.reset] at hb


/-- From `s` to `t` only channel `c` moved: the other channels and what they hold, the window and the parameters are
the same, the memories keep their form, and time does not go back. -/
structure ChanMove (s t : State) (c : ChanId) : Prop where
  params : t.params = s.params
  hostMem : (s.hostMem.wf = true → t.hostMem.wf = true) ∧
    (s.hostMem.below (2 ^ 32) = true → t.hostMem.below (2 ^ 32) = true)
  ecMem : (s.ec.mem.wf = true → t.ec.mem.wf = true) ∧
    (s.ec.mem.below (2 ^ 16) = true → t.ec.mem.below (2 ^ 16) = true)
  window : SameWindow s t
  now : s.now ≤ t.now
  others : SameOthers s t c
  xlock : ∀ d via, d ≠ c → (t.xlock = .held d via ↔ s.xlock = .held d via)
  mlock : ∀ d, d ≠ c → (t.mlock = .held d ↔ s.mlock = .held d)

theorem ChanMove.trans {s t u : State} {c : ChanId} (h : ChanMove s t c) (k : ChanMove t u c) : ChanMove s u c where
  params := k.params.trans h.params
  hostMem := ⟨fun w => k.hostMem.1 (h.hostMem.1 w), fun w => k.hostMem.2 (h.hostMem.2 w)⟩
  ecMem := ⟨fun w => k.ecMem.1 (h.ecMem.1 w), fun w => k.ecMem.2 (h.ecMem.2 w)⟩
  window := ⟨k.window.1.trans h.window.1, k.window.2.trans h.window.2, k.window.3.trans h.window.3,
    k.window.4.trans h.window.4, k.window.5.trans h.window.5⟩
  now := Nat.le_trans h.now k.now
  others d hd := (k.others d hd).trans (h.others d hd)
  xlock d via hd := (k.xlock d via hd).trans (h.xlock d via hd)
  mlock d hd := (k.mlock d hd).trans (h.mlock d hd)

section Moves
variable (s : State) (c : ChanId)

theorem chanMove_modChan (f : Channel → Channel) : ChanMove s (s.modChan c f) c where
  params := rfl
  hostMem := ⟨id, id⟩
  ecMem := ⟨id, id⟩
  window := ⟨rfl, rfl, rfl, rfl, rfl⟩
  now := Nat.le_refl _
  others d hd := by simp [hd]
  xlock _ _ _ := Iff.rfl
  mlock _ _ := Iff.rfl

theorem chanMove_setXlock (l : XLock) (h : ∀ d via, d ≠ c → s.xlock ≠ .held d via)
    (h' : ∀ d via, d ≠ c → l ≠ .held d via) : ChanMove s (s.setXlock l) c where
  params := rfl
  hostMem := ⟨id, id⟩
  ecMem := ⟨id, id⟩
  window := ⟨rfl, rfl, rfl, rfl, rfl⟩
  now := Nat.le_refl _
  others _ _ := rfl
  xlock d via hd := by simp [h d via hd, h' d via hd]
  mlock _ _ := Iff.rfl

theorem chanMove_setMlock (l : MLock) (h : ∀ d, d ≠ c → (l = .held d ↔ s.mlock = .held d)) :
    ChanMove s (s.setMlock l) c where
  params := rfl
  hostMem := ⟨id, id⟩
  ecMem := ⟨id, id⟩
  window := ⟨rfl, rfl, rfl, rfl, rfl⟩
  now := Nat.le_refl _
  others _ _ := rfl
  xlock _ _ _ := Iff.rfl
  mlock d hd := h d hd

theorem chanMove_buffers (m : Memory) (tx rx : Vector Byte 40) (hw : s.hostMem.wf = true → m.wf = true)
    (hb : s.hostMem.below (2 ^ 32) = true → m.below (2 ^ 32) = true) :
    ChanMove s (((s.setHostMem m).setTxbuf tx).setRxbuf rx) c where
  params := rfl
  hostMem := ⟨hw, hb⟩
  ecMem := ⟨id, id⟩
  window := ⟨rfl, rfl, rfl, rfl, rfl⟩
  now := Nat.le_refl _
  others _ _ := rfl
  xlock _ _ _ := Iff.rfl
  mlock _ _ := Iff.rfl

theorem chanMove_select (d : ChanId) : ChanMove s (s.select d) c where
  params := rfl
  hostMem := ⟨id, id⟩
  ecMem := ⟨id, id⟩
  window := ⟨rfl, rfl, rfl, rfl, rfl⟩
  now := Nat.le_refl _
  others _ _ := rfl
  xlock _ _ _ := Iff.rfl
  mlock _ _ := Iff.rfl

theorem releasedBy_held (m : MLock) (c d : ChanId) (h : d ≠ c) : m.releasedBy c = .held d ↔ m = .held d := by
  unfold MLock.releasedBy
  split
  · next e => subst e; simp [Ne.symm h]
  · rfl

theorem releasedBy_ne_self (m : MLock) (c : ChanId) : m.releasedBy c ≠ .held c := by
  unfold MLock.releasedBy
  split
  · simp
  · assumption

theorem chanMove_complete (kind : Kind) (code : Half) (st : SeqState) (sum : Byte) :
    ChanMove s (s.complete c kind code st sum) c :=
  (chanMove_modChan s c _).trans
    (chanMove_setMlock _ c _ fun d hd => by simp [releasedBy_held _ _ _ hd])

theorem chanMove_startTransfer (dir : Dir) (a : Half) (n : Nat) (buf : Buf) (ret : Ret) :
    ChanMove s (s.startTransfer c dir a n buf ret) c := chanMove_modChan s c _

end Moves

theorem unit_lt (e : EcSide) (j : Nat) (h : j < 4) : e.slotAddr j < 2 ^ 16 := by
  unfold EcSide.slotAddr EcSide.unitBase
  have : (e.addr &&& 0xFFFC).toNat ≤ 0xFFFC := by
    rw [BitVec.toNat_and]
    exact Nat.and_le_right
  omega

theorem ecMem_setSlot (e : EcSide) (j : Nat) (v : Byte) (h : j < 4) :
    (e.mem.wf = true → (e.setSlot j v).mem.wf = true) ∧
      (e.mem.below (2 ^ 16) = true → (e.setSlot j v).mem.below (2 ^ 16) = true) :=
  ⟨fun w => Memory.wf_write _ _ w, fun w => Memory.below_write _ _ (unit_lt e j h) w⟩

theorem autoIncrement_mem (e : EcSide) : e.autoIncrement.mem = e.mem := by
  unfold EcSide.autoIncrement; split <;> rfl

theorem afterSlot_mem (e : EcSide) (j : Nat) : (e.afterSlot j).mem = e.mem := by
  unfold EcSide.afterSlot; split
  · exact autoIncrement_mem e
  · rfl

theorem ecMem_afterEvent (e : EcSide) (i : Instr) (h : i.WellFormed) :
    (e.mem.wf = true → (e.afterEvent i).mem.wf = true) ∧
      (e.mem.below (2 ^ 16) = true → (e.afterEvent i).mem.below (2 ^ 16) = true) := by
  cases i with
  | dbWr j v =>
    have hj : j < 4 := of_decide_eq_true h
    simp only [EcSide.afterEvent, EcSide.write8, afterSlot_mem]
    exact ecMem_setSlot e j v hj
  | dbRd j v => simp only [EcSide.afterEvent, afterSlot_mem]; exact ⟨id, id⟩
  | dhRd g v => simp only [EcSide.afterEvent, afterSlot_mem]; exact ⟨id, id⟩
  | dhWr g v =>
    have hg : g < 2 := of_decide_eq_true h
    simp only [EcSide.afterEvent, EcSide.writeHalf, afterSlot_mem]
    have h0 := ecMem_setSlot e (2 * g) (loByte v) (by omega)
    have h1 := ecMem_setSlot (e.setSlot (2 * g) (loByte v)) (2 * g + 1) (hiByte v) (by omega)
    exact ⟨fun w => h1.1 (h0.1 w), fun w => h1.2 (h0.2 w)⟩
  | _ => exact ⟨id, id⟩

theorem chanMove_issueEvent (s : State) (c : ChanId) (i : Instr) (h : i.WellFormed) :
    ChanMove s (s.issueEvent c i) c where
  params := rfl
  hostMem := ⟨id, id⟩
  ecMem := ecMem_afterEvent s.ec i h
  window := ⟨rfl, rfl, rfl, rfl, rfl⟩
  now := Nat.le_refl _
  others d hd := by
    show (s.modChan c fun ch => { ch with evented := true }).chan d = _
    simp [hd]
  xlock _ _ _ := Iff.rfl
  mlock _ _ := Iff.rfl

/-- A move of one channel keeps the invariant where it keeps that channel's. -/
theorem State.Inv.of_move {s t : State} {c : ChanId} (h : s.Inv) (k : ChanMove s t c) (hc : ChanInv t c) : t.Inv where
  params := by rw [k.params]; exact h.params
  hostMem := ⟨k.hostMem.1 h.hostMem.1, k.hostMem.2 h.hostMem.2⟩
  ecMem := ⟨k.ecMem.1 h.ecMem.1, k.ecMem.2 h.ecMem.2⟩
  window := by
    obtain ⟨w1, w2, w3, w4, w5⟩ := k.window
    rw [w1, w2, w3, w4, w5]; exact h.window
  evenBase := by rw [k.params, k.window.1]; exact h.evenBase
  chan d := by
    by_cases hd : d = c
    · rw [hd]; exact hc
    · exact (h.chan d).congr k.params (by simp [State.configured, k.window.1, k.window.2]) k.now (k.others d hd)
        (fun via => k.xlock d via hd) (k.mlock d hd)

/-- A channel that has completed is at rest. -/
theorem chanInv_complete {s : State} {c : ChanId} (kind : Kind) (code : Half) {st : SeqState} (sum : Byte)
    (hp : s.present c = true) (hst : st.isTerminal = true) (hx : ∀ via, s.xlock ≠ .held c via) :
    ChanInv (s.complete c kind code st sum) c := by
  apply ChanInv.rest
  · exact hp
  · simp [State.complete]
  · simp [State.complete]
  · simp [State.complete]
  · right; simpa [State.complete] using hst
  · exact hx
  · exact releasedBy_ne_self _ _

end Sys2Proof.Machine
end

