-- ==== Sys2Proof/Laws/InvariantOps.lean ====
section
/-! SUPPORT. What the shared operations keep of the invariant, said once for each: command acceptance, an operation of
a transfer, the end of a transfer, and the framer's steps. -/

namespace Sys2Proof.Machine

/-- A write that only clears `DONE` or changes `WDROP` keeps a channel's invariant (40_control.md R173, R178). -/
theorem ChanInv.flags {s t : State} {c : ChanId} (h : ChanInv s c) (hpres : s.present c = true) (w d : Bool)
    (hd : d = true → (s.chan c).done = true) (ht : t.chan c = { s.chan c with wdrop := w, done := d })
    (hp : t.params = s.params) (hc : t.configured = s.configured) (hn : t.now = s.now)
    (hx : t.xlock = s.xlock) (hm : t.mlock = s.mlock) : ChanInv t c := by
  have hpres : c.val < s.params.nch := of_decide_eq_true hpres
  have hh : t.holdsXlock c ↔ s.holdsXlock c := by simp only [State.holdsXlock, hx]
  refine ⟨?_, ?_, ?_, ?_, ?_, ?_, ?_, ?_, ?_, ?_⟩
  · rw [hp]; intro; omega
  · rw [ht]; exact h.atRest
  · rw [ht, hc]
    intro hb
    obtain ⟨h1, h2, h3⟩ := h.inFlight hb
    refine ⟨h1, ?_, h3⟩
    cases d with
    | false => rfl
    | true => have := hd rfl; simp [h2] at this
  · rw [ht, hh]; exact h.xfer
  · rw [ht, hh]
    intro x hx hm
    obtain ⟨⟨a1, a2, a3, a4, a5, a6⟩, b, c⟩ := h.direct x hx hm
    exact ⟨⟨a1, a2, a3, a4, a5, a6⟩, b, c⟩
  · rw [ht]; exact h.sub
  · rw [ht]
    intro m hmc
    obtain ⟨a, b, c, d', e, f, g, g', i, j⟩ := h.mbox m hmc
    exact ⟨a, b, c, d', e, f, g, g', by rw [hn]; exact i, by rw [hn, hp]; exact j⟩
  · rw [ht]; exact h.alone
  · rw [ht, hm]; exact h.mlock
  · rw [ht, hx]; exact h.xlock

/-- The invariant does not depend on the agents, the framer buffers, the event history or the channel selected, and keeps
as time goes on. -/
theorem State.Inv.of_same {s t : State} (h : s.Inv) (hp : t.params = s.params)
    (hh : (s.hostMem.wf = true → t.hostMem.wf = true) ∧ (s.hostMem.below (2^32) = true → t.hostMem.below (2^32) = true))
    (he : (s.ec.mem.wf = true → t.ec.mem.wf = true) ∧ (s.ec.mem.below (2^16) = true → t.ec.mem.below (2^16) = true))
    (hw : SameWindow s t) (hn : s.now ≤ t.now) (hd : ∀ d, t.chan d = s.chan d) (hl : SameLocks s t) : t.Inv := by
  have k : ChanMove s t 0 := ⟨hp, hh, he, hw, hn, fun d _ => hd d, fun d via _ => by rw [hl.1], fun d _ => by rw [hl.2]⟩
  refine h.of_move k ?_
  exact (h.chan 0).congr hp (by simp [State.configured, hw.1, hw.2]) hn (hd 0) (by simp [hl.1]) (by simp [hl.2])

theorem State.Inv.select {s : State} (h : s.Inv) (c : ChanId) : (s.select c).Inv :=
  h.of_same rfl ⟨id, id⟩ ⟨id, id⟩ ⟨rfl, rfl, rfl, rfl, rfl⟩ (Nat.le_refl _) (fun _ => rfl) ⟨rfl, rfl⟩

/-- A command rejected at acceptance keeps the invariant (40_control.md R177). -/
theorem State.Inv.raise {s : State} (h : s.Inv) {c : ChanId} (hp : s.present c = true) (hb : (s.chan c).busy = false)
    (f : Channel → Channel) (kind code) (st : SeqState) (hst : st.isTerminal = true) :
    ((s.modChan c f).complete c kind code st 0).Inv := by
  obtain ⟨hx, hm⟩ := (h.chan c).not_holds hb
  exact h.of_move ((chanMove_modChan s c f).trans (chanMove_complete _ c kind code st 0))
    (chanInv_complete kind code 0 hp hst hx)

/-- A channel with no command in flight keeps its invariant whatever the window becomes. -/
theorem ChanInv.congr_idle {s t : State} {d : ChanId} (h : ChanInv s d) (hb : (s.chan d).busy = false)
    (hp : t.params = s.params) (hd : t.chan d = s.chan d) (hx : ∀ via, t.xlock ≠ .held d via)
    (hm : t.mlock ≠ .held d) : ChanInv t d := by
  obtain ⟨r1, r2, r3⟩ := h.atRest hb
  refine ⟨by rw [hp, hd]; exact h.absent, by rw [hd]; exact h.atRest, ?_, ?_, ?_, ?_, ?_, ?_, ?_, ?_⟩
  · rw [hd]; intro hb'; simp [hb] at hb'
  · rw [hd, r1]; intro x hx; cases hx
  · rw [hd, r1]; intro x hx; cases hx
  · rw [hd, r1]; intro x m hx; cases hx
  · rw [hd, r2]; intro x hx; cases hx
  · rw [hd, r2]; intro m _ hx; cases hx
  · rw [hd, r2]; simp [hm]
  · intro via hv; exact absurd hv (hx via)

/-- A write to `CH_CMD` keeps the invariant where the body of the command does (40_control.md R173, R174, R182). -/
theorem inv_accept {s : State} (h : s.Inv) (w : Word) (body : State → State)
    (hbody : s.present s.sel = true → (s.chan s.sel).busy = false → (body (s.modChan s.sel fun ch => ch.latch w)).Inv) :
    (s.issueCommand w body).Inv := by
  obtain ⟨hp, hb, e⟩ | ⟨hp, hb, e⟩ | ⟨hp, e⟩ := issueCommand_cases (s := s) w body
  · rw [e]; exact hbody hp hb
  · rw [e]
    refine h.of_move (chanMove_modChan s s.sel _) ?_
    exact (h.chan s.sel).flags hp true (s.chan s.sel).done id (by simp [Channel.dropWrite]) rfl rfl rfl rfl rfl
  · rw [e]; exact h

/-- A move of one channel leaves the window configured or not, as it was. -/
theorem configured_of_move {s t : State} {c : ChanId} (k : ChanMove s t c) : t.configured = s.configured := by
  simp [State.configured, k.window.1, k.window.2]

/-- No move at all. -/
theorem ChanMove.refl (s : State) (c : ChanId) : ChanMove s s c :=
  ⟨rfl, ⟨id, id⟩, ⟨id, id⟩, ⟨rfl, rfl, rfl, rfl, rfl⟩, Nat.le_refl _, fun _ _ => rfl, fun _ _ _ => Iff.rfl, fun _ _ => Iff.rfl⟩

/-- After an operation that is not the last of its transfer the channel keeps its invariant (41_transfer.md R214). -/
theorem chanInv_more {s u : State} {c : ChanId} {x : XferCtx} {op : BusOp} (h : ChanInv s c) (hh : s.holdsXlock c)
    (hx : (s.chan c).xc = some x) (hop : x.ops[x.pos + 1]? = some op) (sum : Byte)
    (hp : u.params = s.params) (hc : u.configured = s.configured) (hn : u.now = s.now)
    (hxl : u.xlock = s.xlock) (hml : u.mlock = s.mlock)
    (hu : u.chan c = { s.chan c with
      evented := true
      xc := some { x with pos := x.pos + 1, sum := sum }
      state := if x.viaMbx then (s.chan c).state else op.phase.seqState }) : ChanInv u c := by
  have hb := h.busy_of_xc hx
  have hpres : c.val < s.params.nch := of_decide_eq_true (h.present hb)
  have hH : u.holdsXlock c := by
    obtain ⟨via, hv⟩ := hh; exact ⟨via, by rw [hxl]; exact hv⟩
  obtain ⟨hok, -⟩ := h.xfer x hx
  have hpos : x.pos + 1 < x.ops.length := by
    by_contra hlt
    rw [List.getElem?_eq_none (by omega)] at hop
    cases hop
  refine ⟨fun ha => by rw [hp] at ha; omega, ?_, ?_, ?_, ?_, ?_, ?_, ?_, ?_, ?_⟩
  · rw [hu]; intro hb'; rw [hb] at hb'; cases hb'
  · rw [hu, hc]
    intro _
    obtain ⟨a1, a2, a3, a4, a5, a6, a7⟩ := h.inFlight hb
    exact ⟨a1, a2, a3, a4, a5, a6, .inl rfl⟩
  · rw [hu]
    intro y hy
    cases hy
    exact ⟨⟨hok.ops, hok.nonempty, hok.inEc, hpos⟩, fun hn => absurd hH hn⟩
  · rw [hu]
    intro y hy hm
    cases hy
    obtain ⟨⟨b1, b2, b3, b4, b5, b6⟩, c1, c2⟩ := h.direct x hx hm
    refine ⟨⟨b1, b2, b3, b4, b5, b6⟩, fun _ => ?_, fun hn => absurd hH hn⟩
    have : x.viaMbx = false := by simp [XferCtx.viaMbx, b4, Buf.viaMbx]
    simp [hop, this]
  · rw [hu]
    intro y m hy hm
    cases hy
    exact h.sub x m hx hm
  · rw [hu]
    intro m hm
    obtain ⟨a, b, c, d', e, f, g, g', i, j⟩ := h.mbox m hm
    refine ⟨a, ?_, c, d', e, f, g, fun _ => rfl, by rw [hn]; exact i, by rw [hn, hp]; exact j⟩
    have hs := h.sub x m hx hm
    have : x.viaMbx = true := by
      unfold SubOk at hs
      unfold XferCtx.viaMbx
      split at hs
      · rw [hs.2.2.2.1]; rfl
      · rw [hs.2.2.2.1]; rfl
      · rw [hs.2.2.2.1]; rfl
      all_goals exact hs.elim
    simp [this, b]
  · rw [hu]; intro m hy; cases hy
  · rw [hu, hml]; exact h.mlock
  · rw [hu, hxl]
    intro via hv
    obtain ⟨y, hy, hyv⟩ := h.xlock via hv
    rw [hx] at hy
    cases hy
    exact ⟨_, rfl, hyv⟩

/-- A mailbox command that goes on to a step outside a sub-transfer keeps its channel's invariant. -/
theorem chanInv_alone {s u : State} {c : ChanId} {m : MboxCtx} (h : ChanInv s c) (hm : (s.chan c).mc = some m)
    (hlock : m.step ≠ .lock)
    (m' : MboxCtx) (ch : Channel) (hal : m'.step.alone = true) (hlen : m'.len = m.len)
    (hlock' : m'.step ≠ .lock)
    (hexp : m'.step.afterStrobe = true → (s.chan c).noresp = false ∧ ch.evented = true)
    (ht0 : m'.t0 ≤ u.now) (htn : m'.tnext ≤ u.now + s.params.pollDelayTicks.toNat)
    (hp : u.params = s.params) (hc : u.configured = s.configured)
    (hxl : ∀ via, u.xlock ≠ .held c via) (hml : u.mlock = s.mlock)
    (hu : u.chan c = { s.chan c with evented := ch.evented, xc := none, mc := some m', state := m'.step.seqState }) :
    ChanInv u c := by
  have hb := h.busy_of_mc hm
  have hpres : c.val < s.params.nch := of_decide_eq_true (h.present hb)
  refine ⟨fun ha => by rw [hp] at ha; omega, ?_, ?_, ?_, ?_, ?_, ?_, ?_, ?_, ?_⟩
  · rw [hu]; intro hb'; rw [hb] at hb'; cases hb'
  · rw [hu, hc]
    intro _
    obtain ⟨a1, a2, a3, a4, a5, a6, a7⟩ := h.inFlight hb
    exact ⟨a1, a2, a3, a4, a5, a6, .inr rfl⟩
  · rw [hu]; intro y hy; cases hy
  · rw [hu]; intro y hy; cases hy
  · rw [hu]; intro y m hy; cases hy
  · rw [hu]
    intro m'' hm''
    cases hm''
    obtain ⟨a, b, c, d', e, f, g, g', i, j⟩ := h.mbox m hm
    exact ⟨a, rfl, by rw [hlen]; exact c, by rw [hlen]; exact d', by rw [hlen]; exact e, f, fun ha => (hexp ha).1,
      fun ha => (hexp ha).2, ht0, by rw [hp]; exact htn⟩
  · rw [hu]; intro m'' _ hm''; cases hm''; exact hal
  · rw [hu, hml, h.mlock]
    constructor
    · intro _; exact ⟨m', rfl, hlock'⟩
    · intro _; exact ⟨m, hm, hlock⟩
  · intro via hv; exact absurd hv (hxl via)

/-- A mailbox command that begins a sub-transfer keeps its channel's invariant. -/
theorem chanInv_sub {s u : State} {c : ChanId} {m : MboxCtx} (h : ChanInv s c) (hm : (s.chan c).mc = some m)
    (hlock : m.step ≠ .lock)
    (m' : MboxCtx) (x : XferCtx) (ev : Bool) (hsub : SubOk m' x) (hlen : m'.len = m.len)
    (hlock' : m'.step ≠ .lock)
    (hexp : m'.step.afterStrobe = true → (s.chan c).noresp = false ∧ ev = true)
    (ht0 : m'.t0 ≤ u.now) (htn : m'.tnext ≤ u.now + s.params.pollDelayTicks.toNat)
    (hx : x = { x with ops := xferOps x.ec x.n, pos := 0, sum := 0 }) (hn1 : 1 ≤ x.n) (hn2 : x.ec.toNat + x.n ≤ 0x10000)
    (hp : u.params = s.params) (hc : u.configured = s.configured)
    (hxl : ∀ via, u.xlock ≠ .held c via) (hml : u.mlock = s.mlock)
    (hu : u.chan c = { s.chan c with evented := ev, xc := some x, mc := some m', state := m'.step.seqState }) :
    ChanInv u c := by
  have hb := h.busy_of_mc hm
  have hpres : c.val < s.params.nch := of_decide_eq_true (h.present hb)
  refine ⟨fun ha => by rw [hp] at ha; omega, ?_, ?_, ?_, ?_, ?_, ?_, ?_, ?_, ?_⟩
  · rw [hu]; intro hb'; rw [hb] at hb'; cases hb'
  · rw [hu, hc]
    intro _
    obtain ⟨a1, a2, a3, a4, a5, a6, a7⟩ := h.inFlight hb
    exact ⟨a1, a2, a3, a4, a5, a6, .inr rfl⟩
  · rw [hu]
    intro y hy
    cases hy
    rw [hx]
    exact ⟨⟨rfl, hn1, hn2, List.length_pos_iff.2 (xferOps_ne_nil hn1)⟩, fun _ => ⟨rfl, rfl⟩⟩
  · rw [hu]; intro y hy hm; cases hm
  · rw [hu]; intro y m hy hm; cases hy; cases hm; exact hsub
  · rw [hu]
    intro m'' hm''
    cases hm''
    obtain ⟨a, b, c, d', e, f, g, g', i, j⟩ := h.mbox m hm
    exact ⟨a, rfl, by rw [hlen]; exact c, by rw [hlen]; exact d', by rw [hlen]; exact e, f, fun ha => (hexp ha).1,
      fun ha => (hexp ha).2, ht0, by rw [hp]; exact htn⟩
  · rw [hu]; intro m'' hy hm''; cases hy
  · rw [hu, hml, h.mlock]
    constructor
    · intro _; exact ⟨m', rfl, hlock'⟩
    · intro _; exact ⟨m, hm, hlock⟩
  · intro via hv; exact absurd hv (hxl via)

section Framer
variable (s : State) (c : ChanId) {m : MboxCtx}

theorem framerSent_chan (hm : (s.chan c).mc = some m) : (s.framerSent c).chan c =
    { s.chan c with xc := none, mc := some { m with step := .strobe }, state := .transmitted } := by
  simp only [State.framerSent, chan_modChan_self, Channel.setMboxStep, hm, Option.map_some]

theorem framerResponseRead_chan (hm : (s.chan c).mc = some m) : (s.framerResponseRead c).chan c =
    { s.chan c with xc := none, mc := some { m with step := .validate }, state := .responseRead } := by
  simp only [State.framerResponseRead, chan_modChan_self, Channel.setMboxStep, hm, Option.map_some]

theorem framerSendPayload_zero (hm : (s.chan c).mc = some m) (h0 : m.len = 0) :
    s.framerSendPayload c = (s.modChan c fun ch => ch.setMboxStep .sendPayload).framerSent c := by
  simp [State.framerSendPayload, hm, h0]

theorem framerSendPayload_more (hm : (s.chan c).mc = some m) (h0 : m.len ≠ 0) :
    s.framerSendPayload c =
      (s.modChan c fun ch => ch.setMboxStep .sendPayload).startTransfer c .wr 8 m.len (.txbuf 8) .sent := by
  simp [State.framerSendPayload, hm, h0]

theorem framerSendPayload_chan_zero (hm : (s.chan c).mc = some m) (h0 : m.len = 0) :
    (s.framerSendPayload c).chan c =
    { s.chan c with xc := none, mc := some { m with step := .strobe }, state := .transmitted } := by
  rw [framerSendPayload_zero s c hm h0, framerSent_chan (m := { m with step := .sendPayload })]
  · simp only [chan_modChan_self]; rfl
  · simp only [chan_modChan_self, setMboxStep_mc, hm, Option.map_some]

theorem framerSendPayload_chan_more (hm : (s.chan c).mc = some m) (h0 : m.len ≠ 0) :
    (s.framerSendPayload c).chan c =
    { s.chan c with
      xc := some { dir := .wr, ec := 8, n := m.len, buf := .txbuf 8, ops := xferOps 8 m.len, pos := 0, sum := 0,
                   ret := .sent }
      mc := some { m with step := .sendPayload } } := by
  rw [framerSendPayload_more s c hm h0, startTransfer_chan_self, chan_modChan_self]
  simp only [Channel.bindXfer, Channel.setMboxStep, hm, Option.map_some, Buf.viaMbx]
  rfl

end Framer

section FramerMoves
variable (s : State) (c : ChanId)

theorem chanMove_framerSent : ChanMove s (s.framerSent c) c := chanMove_modChan s c _
theorem chanMove_framerResponseRead : ChanMove s (s.framerResponseRead c) c := chanMove_modChan s c _
theorem chanMove_framerSendPayload : ChanMove s (s.framerSendPayload c) c := by
  unfold State.framerSendPayload
  dsimp only
  split
  · exact (chanMove_modChan s c _).trans (chanMove_framerSent _ c)
  · exact (chanMove_modChan s c _).trans (chanMove_startTransfer _ c _ _ _ _ _)
theorem framerSendPayload_locks : SameLocks s (s.framerSendPayload c) := by
  unfold State.framerSendPayload
  dsimp only
  split <;> exact ⟨rfl, rfl⟩
theorem framerSendPayload_now : (s.framerSendPayload c).now = s.now := by
  unfold State.framerSendPayload
  dsimp only
  split <;> rfl
end FramerMoves

/-- The end of a transfer keeps the invariant (41_transfer.md R214; 42_mailbox.md R252, R253, R268). -/
theorem inv_endTransfer {s v : State} (h : s.Inv) {c : ChanId} {x : XferCtx} (hx : (s.chan c).xc = some x)
    (k : ChanMove s v c) (hv : v.chan c = { s.chan c with evented := true }) (hxl : v.xlock = .free)
    (hml : v.mlock = s.mlock) (hn : v.now = s.now) (y : XferCtx) (hy : y.ret = x.ret) : (v.endTransfer c y).Inv := by
  have hb := (h.chan c).busy_of_xc hx
  have hpres := (h.chan c).present hb
  have hxl' : (v.setXlock .free) = v := by rw [← hxl]; rfl
  cases hmc : (s.chan c).mc with
  | none =>
    obtain ⟨⟨b1, b2, b3, b4, b5, b6⟩, -⟩ := (h.chan c).direct x hx hmc
    rw [endTransfer_complete _ _ _ (hy.trans b5), hxl']
    refine h.of_move (k.trans (chanMove_complete _ c _ _ _ _)) ?_
    apply chanInv_complete
    · simpa [State.present, k.params] using hpres
    · rfl
    · intro via; simp [hxl]
  | some m =>
    have hsub := (h.chan c).sub x m hx hmc
    have hmb := (h.chan c).mbox m hmc
    have hmv : (v.chan c).mc = some m := by rw [hv]; exact hmc
    unfold SubOk at hsub
    split at hsub
    · next hst =>
      obtain ⟨-, -, -, -, hr⟩ := hsub
      rw [endTransfer_sendPayload _ c _ (hy.trans hr), hxl']
      have kk := k.trans (chanMove_framerSendPayload v c)
      have ll := framerSendPayload_locks v c
      have nn := framerSendPayload_now v c
      refine h.of_move kk ?_
      by_cases h0 : m.len = 0
      · refine chanInv_alone (h.chan c) hmc (by simp [hst]) { m with step := .strobe } { s.chan c with evented := true }
          rfl rfl (by simp) (by simp [MboxStep.afterStrobe]) (by rw [nn, hn]; exact hmb.strobed)
          (by rw [nn, hn]; exact hmb.pollSoon) kk.params (configured_of_move kk) (by simp [ll.1, hxl])
          (ll.2.trans hml) ?_
        rw [framerSendPayload_chan_zero v c hmv h0, hv]; rfl
      · have hshort := hmb.short
        refine chanInv_sub (h.chan c) hmc (by simp [hst]) { m with step := .sendPayload }
          { dir := .wr, ec := 8, n := m.len, buf := .txbuf 8, ops := xferOps 8 m.len, pos := 0, sum := 0, ret := .sent }
          true ⟨rfl, rfl, rfl, rfl, rfl⟩ rfl (by simp) (by simp [MboxStep.afterStrobe])
          (by rw [nn, hn]; exact hmb.strobed) (by rw [nn, hn]; exact hmb.pollSoon) rfl (by simp only; omega)
          (by simp; omega) kk.params (configured_of_move kk) (by simp [ll.1, hxl]) (ll.2.trans hml) ?_
        rw [framerSendPayload_chan_more v c hmv h0, hv]
        have := hmb.state
        rw [hst] at this
        simp only [this, MboxStep.seqState]
    · next hst =>
      obtain ⟨-, -, -, -, hr⟩ := hsub
      rw [endTransfer_sent _ c _ (hy.trans hr), hxl']
      have kk := k.trans (chanMove_framerSent v c)
      refine h.of_move kk ?_
      refine chanInv_alone (h.chan c) hmc (by simp [hst]) { m with step := .strobe } { s.chan c with evented := true }
        rfl rfl (by simp) (by simp [MboxStep.afterStrobe]) (by show m.t0 ≤ v.now; rw [hn]; exact hmb.strobed)
        (by show m.tnext ≤ v.now + _; rw [hn]; exact hmb.pollSoon) kk.params (configured_of_move kk)
        (by intro via; show v.xlock ≠ _; simp [hxl]) hml ?_
      rw [framerSent_chan v c hmv, hv]; rfl
    · next hst =>
      obtain ⟨-, -, -, -, hr⟩ := hsub
      rw [endTransfer_validate _ c _ (hy.trans hr), hxl']
      have kk := k.trans (chanMove_framerResponseRead v c)
      refine h.of_move kk ?_
      refine chanInv_alone (h.chan c) hmc (by simp [hst]) { m with step := .validate } { s.chan c with evented := true }
        rfl rfl (by simp) (fun _ => ⟨hmb.expects (by simp [hst, MboxStep.afterStrobe]), rfl⟩)
        (by show m.t0 ≤ v.now; rw [hn]; exact hmb.strobed)
        (by show m.tnext ≤ v.now + _; rw [hn]; exact hmb.pollSoon) kk.params (configured_of_move kk)
        (by intro via; show v.xlock ≠ _; simp [hxl]) hml ?_
      rw [framerResponseRead_chan v c hmv, hv]; rfl
    all_goals exact hsub.elim

/-- A step with a window event keeps the invariant, whatever bytes it moved (41_transfer.md R214). -/
theorem inv_advance {s s' : State} (h : s.Inv) {c : ChanId} {x : XferCtx} (i : Instr) (hw : i.WellFormed)
    (hh : s.holdsXlock c) (hx : (s.chan c).xc = some x) (sum : Byte)
    (k : ChanMove s s' c) (hc : s'.chan c = s.chan c) (hl : SameLocks s s') (hn : s'.now = s.now) :
    ((s'.issueEvent c i).advance c { x with sum := sum }).Inv := by
  have hxl : ∀ d via, d ≠ c → s.xlock ≠ .held d via := by
    intro d via hd e
    obtain ⟨v, hv⟩ := hh
    rw [hv] at e
    cases e
    exact hd rfl
  have k1 : ChanMove s (s'.issueEvent c i) c := k.trans (chanMove_issueEvent s' c i hw)
  cases hnext : x.ops[x.pos + 1]? with
  | some op' =>
    rw [advance_more (op := op') _ c { x with sum := sum } hnext]
    have kk := k1.trans (chanMove_modChan _ c fun ch => { ch with
          xc := some { x with pos := x.pos + 1, sum := sum }
          state := if x.viaMbx then ch.state else op'.phase.seqState })
    refine h.of_move kk ?_
    refine chanInv_more (h.chan c) hh hx hnext sum k.params (configured_of_move kk) hn hl.1 hl.2 ?_
    rw [chan_modChan_self, issueEvent_chan_self, hc]; rfl
  | none =>
    rw [advance_last _ c { x with sum := sum } hnext]
    have e : ∀ (u : State) y, u.endTransfer c y = (u.setXlock .free).endTransfer c y := fun u y => by
      simp only [State.endTransfer]; rfl
    rw [e]
    refine inv_endTransfer h hx (k1.trans (chanMove_setXlock _ c _ (fun d via hd => ?_) (fun d via hd => by simp)))
      ?_ rfl ?_ ?_ _ rfl
    · rw [issueEvent_xlock, hl.1]; exact hxl d via hd
    · rw [setXlock_chan, issueEvent_chan_self, hc]
    · exact hl.2
    · exact hn

/-- The operation a channel is at reaches a slot or a half that exists. -/
theorem op_wf {s : State} (h : s.Inv) {c : ChanId} {x : XferCtx} {op : BusOp} (hx : (s.chan c).xc = some x)
    (hop : x.ops[x.pos]? = some op) :
    (∀ j i p, op = .byte j i p → j < 4) ∧ (∀ g i p, op = .half g i p → g < 2) := by
  have hok := ((h.chan c).xfer x hx).1
  rw [hok.ops] at hop
  have := xferOps_wellFormed (List.mem_of_getElem? hop)
  constructor
  · rintro j i p rfl; exact this
  · rintro j i p rfl; exact this

end Sys2Proof.Machine
end

