-- ==== Sys2Proof/Laws/PerInstr.lean ====
section
/-! SUPPORT. A law proved for each instruction: the fields of its encoded word are those of its row of the opcode
table (30_encoding.md R131, R142), the fixed fields and the operand fields. -/

namespace Sys2Proof.Laws.EncodedBits

/-- The fields of the word of `i`, high bits first. -/
def Statement (i : Instr) : Prop :=
  i.WellFormed →
    match i with
    | .configure => encodeWord i = 1
    | .xferWr => encodeWord i = 2
    | .xferRd => encodeWord i = 3
    | .mboxExec n =>
      field (encodeWord i) 31 9 = 0 ∧ field (encodeWord i) 8 8 = n.toNat ∧ field (encodeWord i) 7 0 = 4
    | .selLo v => field (encodeWord i) 31 8 = 0x800200 ∧ field (encodeWord i) 7 0 = v.toNat
    | .selHi v => field (encodeWord i) 31 8 = 0x800300 ∧ field (encodeWord i) 7 0 = v.toNat
    | .dbWr j v =>
      field (encodeWord i) 31 18 = 0x2001 ∧ field (encodeWord i) 17 16 = j ∧ field (encodeWord i) 15 8 = 0 ∧
        field (encodeWord i) 7 0 = v.toNat
    | .dbRd j v =>
      field (encodeWord i) 31 18 = 1 ∧ field (encodeWord i) 17 16 = j ∧ field (encodeWord i) 15 8 = 0 ∧
        field (encodeWord i) 7 0 = v.toNat
    | .dhWr h v =>
      field (encodeWord i) 31 18 = 0x3001 ∧ field (encodeWord i) 17 17 = h ∧ field (encodeWord i) 16 16 = 0 ∧
        field (encodeWord i) 15 0 = v.toNat
    | .dhRd h v =>
      field (encodeWord i) 31 18 = 0x1001 ∧ field (encodeWord i) 17 17 = h ∧ field (encodeWord i) 16 16 = 0 ∧
        field (encodeWord i) 15 0 = v.toNat
    | .strobe v => field (encodeWord i) 31 8 = 0x900000 ∧ field (encodeWord i) 7 0 = v.toNat
    | .statRd v => field (encodeWord i) 31 8 = 0x100000 ∧ field (encodeWord i) 7 0 = v.toNat
    | .flagRd v => field (encodeWord i) 31 8 = 0x200000 ∧ field (encodeWord i) 7 0 = v.toNat

theorem configure : Statement .configure := fun _ => rfl

theorem xferWr : Statement .xferWr := fun _ => rfl

theorem xferRd : Statement .xferRd := fun _ => rfl

theorem mboxExec (noResp : Bool) : Statement (.mboxExec noResp) := by
  intro _
  cases noResp <;> decide

theorem selLo (v : Byte) : Statement (.selLo v) := by
  intro _
  simp only [field, encodeWord, descriptor, BitVec.toNat_ofNat, Bool.toNat_true, Bool.toNat_false]
  omega

theorem selHi (v : Byte) : Statement (.selHi v) := by
  intro _
  simp only [field, encodeWord, descriptor, BitVec.toNat_ofNat, Bool.toNat_true, Bool.toNat_false]
  omega

theorem dbWr (j : Nat) (v : Byte) : Statement (.dbWr j v) := by
  intro hwf
  have hj : j < 4 := of_decide_eq_true hwf
  simp only [field, encodeWord, descriptor, BitVec.toNat_ofNat, Bool.toNat_true, Bool.toNat_false]
  omega

theorem dbRd (j : Nat) (v : Byte) : Statement (.dbRd j v) := by
  intro hwf
  have hj : j < 4 := of_decide_eq_true hwf
  simp only [field, encodeWord, descriptor, BitVec.toNat_ofNat, Bool.toNat_false]
  omega

theorem dhWr (h : Nat) (v : Half) : Statement (.dhWr h v) := by
  intro hwf
  have hh : h < 2 := of_decide_eq_true hwf
  simp only [field, encodeWord, descriptor, BitVec.toNat_ofNat, Bool.toNat_true]
  omega

theorem dhRd (h : Nat) (v : Half) : Statement (.dhRd h v) := by
  intro hwf
  have hh : h < 2 := of_decide_eq_true hwf
  simp only [field, encodeWord, descriptor, BitVec.toNat_ofNat, Bool.toNat_true, Bool.toNat_false]
  omega

theorem strobe (v : Byte) : Statement (.strobe v) := by
  intro _
  simp only [field, encodeWord, descriptor, BitVec.toNat_ofNat, Bool.toNat_true, Bool.toNat_false]
  omega

theorem statRd (v : Byte) : Statement (.statRd v) := by
  intro _
  simp only [field, encodeWord, descriptor, BitVec.toNat_ofNat, Bool.toNat_false]
  omega

theorem flagRd (v : Byte) : Statement (.flagRd v) := by
  intro _
  simp only [field, encodeWord, descriptor, BitVec.toNat_ofNat, Bool.toNat_false]
  omega

end Sys2Proof.Laws.EncodedBits
end

