-- ==== Sys2Proof/Tests/Slice0.lean ====
section
/-! SUPPORT. The model's own tests: ill-formed terms refused, words of the spec decoded, the spec's vectors
(95_test_vectors.md) for one step each, and a state and operands that meet the hypotheses of every statement. -/

namespace Sys2Proof.Tests

open Sys2Proof.Machine

/-! ### WellFormed: an ill-formed term for each check (30_encoding.md R142) -/

theorem test_dbWr_slot_4_is_ill_formed : Instr.wellFormed (.dbWr 4 0) = false := by decide
theorem test_dbRd_slot_4_is_ill_formed : Instr.wellFormed (.dbRd 4 0) = false := by decide
theorem test_dhWr_half_2_is_ill_formed : Instr.wellFormed (.dhWr 2 0) = false := by decide
theorem test_dhRd_half_2_is_ill_formed : Instr.wellFormed (.dhRd 2 0) = false := by decide

/-! ### Decoding: words written out from 30_encoding.md R131, R132, R141, R142 and 95_test_vectors.md A10, A11 -/

theorem test_decode_configure : decodeWord 0x00000001 = .ok .configure := by decide
theorem test_decode_xferWr : decodeWord 0x00000002 = .ok .xferWr := by decide
theorem test_decode_xferRd : decodeWord 0x00000003 = .ok .xferRd := by decide
theorem test_decode_mboxExec : decodeWord 0x00000004 = .ok (.mboxExec false) := by decide
theorem test_decode_mboxExec_n : decodeWord 0x00000104 = .ok (.mboxExec true) := by decide
-- D=1 W=0 T=00 OFF=010 V=04
theorem test_decode_selLo : decodeWord 0b10000000000000100000000000000100#32 = .ok (.selLo 0x04) := by decide
-- D=1 W=0 T=00 OFF=011 V=01
theorem test_decode_selHi : decodeWord 0b10000000000000110000000000000001#32 = .ok (.selHi 0x01) := by decide
-- D=1 W=0 T=00 OFF=101 V=11
theorem test_decode_dbWr : decodeWord 0b10000000000001010000000000010001#32 = .ok (.dbWr 1 0x11) := by decide
-- D=0 W=0 T=00 OFF=111 V=33
theorem test_decode_dbRd : decodeWord 0b00000000000001110000000000110011#32 = .ok (.dbRd 3 0x33) := by decide
-- D=1 W=1 T=00 OFF=100 V=5544
theorem test_decode_dhWr : decodeWord 0b11000000000001000101010101000100#32 = .ok (.dhWr 0 0x5544) := by decide
-- D=0 W=1 T=00 OFF=110 V=7766
theorem test_decode_dhRd : decodeWord 0b01000000000001100111011101100110#32 = .ok (.dhRd 1 0x7766) := by decide
-- D=1 W=0 T=01 OFF=000 V=DA
theorem test_decode_strobe : decodeWord 0b10010000000000000000000011011010#32 = .ok (.strobe 0xDA) := by decide
-- D=0 W=0 T=01 OFF=000 V=06
theorem test_decode_statRd : decodeWord 0b00010000000000000000000000000110#32 = .ok (.statRd 0x06) := by decide
-- D=0 W=0 T=10 OFF=000 V=7F
theorem test_decode_flagRd : decodeWord 0b00100000000000000000000001111111#32 = .ok (.flagRd 0x7F) := by decide

/-- 95_test_vectors.md A11. -/
theorem test_decode_rejects_commands :
    decodeCommand 0x00000000 = .error .badOpcode ∧ decodeCommand 0x00000005 = .error .badOpcode ∧
      decodeCommand 0x0000000F = .error .badOpcode ∧ decodeCommand 0x00000102 = .error .noRespNotAllowed ∧
      decodeCommand 0x00000010 = .error .reservedBits ∧ decodeCommand 0x80000004 = .error .reservedBits := by
  decide

/-- R141: `T = 3`; R142: a write of window offset 0, a write of `DATA_PORT`, a 16-bit read of window offset 5; R130: bit
17, which a read of window offset 2 would have. -/
theorem test_decode_rejects_events :
    decodeWord 0x30000000 = .error .reservedTarget ∧ decodeWord 0x80000000 = .error .notIssued ∧
      decodeWord 0xA0000000 = .error .notIssued ∧ decodeWord 0x40050000 = .error .notIssued ∧
      decodeWord 0x00020000 = .error .reservedBits := by
  decide

/-! ### States -/

/-- P1 of 95_test_vectors.md after its first line: the window is configured. -/
def cfg : State :=
  { State.reset with emiBase := 0x0800, emiEnd := 0x0807, cmdPort := 0x0900, dataPort := 0x0904, cfgLocked := true }

/-- Channel 0 with the given argument registers. -/
def withArgs (s : State) (a0 a1 a2 a3 a4 : Word) : State :=
  s.modChan 0 fun ch => { ch with arg0 := a0, arg1 := a1, arg2 := a2, arg3 := a3, arg4 := a4 }

/-- Client 0's next line is `op`, and client 0 moves next. -/
def withLine (s : State) (op : ClientOp) : State := (s.setClient 0 ⟨[op], 0⟩).setSched [.client 0]

/-- Client 0's next line writes `v` to the control register at offset `off`. -/
def csrWrite (s : State) (off : Nat) (v : Word) : State := withLine s (.write (csrAddr s.params off) .w32 v)

/-- Channel 0 has a command in flight. -/
def busy (s : State) : State := s.modChan 0 fun ch => { ch with busy := true }

/-- Channel 0 holds XLOCK and is at the one operation `op` of a transfer of the buffer `buf`. -/
def opState (dir : Dir) (buf : Buf) (op : BusOp) : State :=
  (cfg.modChan 0 fun ch =>
    { ch with
      busy := true
      xc := some { dir := dir, ec := 0, n := 1, buf := buf, ops := [op], pos := 0, sum := 0, ret := .complete } }).setXlock
    (.held 0 false)

/-- Channel 0 waits for XLOCK with a direct transfer of `n` bytes at EC address `a`. -/
def waiting (dir : Dir) (a : Half) (base : Word) (n : Nat) : State :=
  cfg.modChan 0 fun ch =>
    { ch with
      busy := true, op := dir.opcode, state := .xWait
      arg0 := a.setWidth 32, arg1 := base, arg2 := BitVec.ofNat 32 n
      xc := some
        { dir := dir, ec := a, n := n, buf := .host base, ops := xferOps a n, pos := 0, sum := 0, ret := .complete } }

/-- Channel 0 holds XLOCK with a direct transfer of 3 bytes at EC address 0. -/
def moving (dir : Dir) : State :=
  ((waiting dir 0 0x1000 3).modChan 0 fun ch => { ch with state := .xTail }).setXlock (.held 0 false)

/-- Channel 0 runs MBOX_EXEC of a 16-byte request, is at step `st` outside a sub-transfer, and holds MLOCK from its
build step on. -/
def boxed (st : MboxStep) : State :=
  (cfg.modChan 0 fun ch =>
    { ch with
      busy := true, op := 4, state := st.seqState, evented := true
      arg0 := 0x0001, arg1 := 0x3000, arg2 := 16, arg3 := 0x4000, arg4 := 16
      mc := some { step := st, t0 := 0, tnext := 0, len := 16 } }).setMlock (if st = .lock then .free else .held 0)

/-- `s` with the response header fields result code `rc` and declared length `dl` in `RXBUF` (30_encoding.md R147). -/
def response (s : State) (rc dl : Half) : State :=
  s.setRxbuf ((((s.rxbuf.set 2 (loByte rc)).set 3 (hiByte rc)).set 4 (loByte dl)).set 5 (hiByte dl))

/-! ### States that meet the invariant -/

theorem chanInv_reset {s : State} {c : ChanId} (e : s.chan c = Channel.reset) (hx : ∀ via, s.xlock ≠ .held c via)
    (hm : s.mlock ≠ .held c) : ChanInv s c := by
  refine ⟨fun _ => e, ?_, ?_, ?_, ?_, ?_, ?_, ?_, ?_, fun via h => absurd h (hx via)⟩ <;> rw [e]
  · exact fun _ => ⟨rfl, rfl, .inl rfl⟩
  · exact nofun
  · exact nofun
  · exact nofun
  · exact nofun
  · exact nofun
  · exact nofun
  · exact ⟨fun h => absurd h hm, nofun⟩

theorem cfg_inv : cfg.Inv where
  params := by decide
  hostMem := by decide
  ecMem := by decide
  window := nofun
  evenBase := by decide
  chan c := chanInv_reset (by fin_cases c <;> rfl) nofun nofun

theorem waiting_inv (dir : Dir) (a : Half) (base : Word) (n : Nat) (h1 : 1 ≤ n) (h2 : a.toNat + n ≤ 0x10000)
    (h3 : base.toNat + n ≤ 2 ^ 32) : (waiting dir a base n).Inv := by
  refine cfg_inv.of_move (chanMove_modChan cfg 0 _) ?_
  unfold waiting
  have hx : ∀ via, cfg.xlock ≠ .held 0 via := nofun
  have ha : lowHalf (a.setWidth 32) = a := by
    apply BitVec.eq_of_toNat_eq
    simp only [lowHalf, field, BitVec.toNat_ofNat, BitVec.toNat_setWidth]
    have := a.isLt
    omega
  refine ⟨?_, ?_, ?_, ?_, ?_, ?_, ?_, ?_, ?_, fun via h => absurd h (hx via)⟩ <;> rw [chan_modChan_self]
  · exact fun (h : 2 ≤ 0) => absurd h (by decide)
  · exact nofun
  · exact fun _ => ⟨rfl, rfl, rfl, rfl, rfl, rfl, .inl rfl⟩
  · intro x h
    cases h
    exact ⟨⟨rfl, h1, h2, List.length_pos_iff.2 (xferOps_ne_nil h1)⟩, fun _ => ⟨rfl, rfl⟩⟩
  · intro x h _
    cases h
    refine ⟨⟨rfl, ha.symm, ?_, rfl, rfl, h3⟩, fun ⟨via, h⟩ => absurd h (hx via), fun _ => rfl⟩
    simp only [Channel.len, BitVec.toNat_ofNat]
    omega
  · exact nofun
  · exact nofun
  · exact nofun
  · exact ⟨nofun, nofun⟩

theorem moving_inv (dir : Dir) : (moving dir).Inv := by
  have hw := waiting_inv dir 0 0x1000 3 (by decide) (by decide) (by decide)
  have hc := hw.chan 0
  refine hw.of_move ((chanMove_modChan _ 0 fun ch => { ch with state := .xTail }).trans
    (chanMove_setXlock _ 0 _ nofun fun d via hd e => hd (by cases e; rfl))) ?_
  have hh : ((moving dir).holdsXlock 0) := ⟨false, rfl⟩
  unfold moving at *
  refine ⟨?_, ?_, ?_, ?_, ?_, ?_, ?_, ?_, ?_, ?_⟩ <;> rw [setXlock_chan, chan_modChan_self]
  · exact fun (h : 2 ≤ 0) => absurd h (by decide)
  · exact nofun
  · exact fun _ => ⟨rfl, rfl, rfl, rfl, rfl, rfl, .inl rfl⟩
  · intro x h
    cases h
    exact ⟨(hc.xfer _ rfl).1, fun h => absurd hh h⟩
  · intro x h _
    cases h
    obtain ⟨⟨e1, e2, e3, e4, e5, e6⟩, -⟩ := hc.direct _ rfl rfl
    exact ⟨⟨e1, e2, e3, e4, e5, e6⟩, fun _ => rfl, fun h => absurd hh h⟩
  · exact nofun
  · exact nofun
  · exact nofun
  · exact ⟨nofun, nofun⟩
  · intro via h
    cases h
    exact ⟨_, rfl, rfl⟩

theorem boxed_inv (st : MboxStep) (h : st.alone = true) : (boxed st).Inv := by
  refine cfg_inv.of_move ((chanMove_modChan cfg 0 _).trans (chanMove_setMlock _ 0 _ fun d hd => ?_)) ?_
  · split
    · exact ⟨nofun, nofun⟩
    · exact ⟨fun e => absurd (by cases e; rfl) hd, nofun⟩
  unfold boxed
  refine ⟨?_, ?_, ?_, ?_, ?_, ?_, ?_, ?_, ?_, nofun⟩ <;> rw [setMlock_chan, chan_modChan_self]
  · exact fun (h : 2 ≤ 0) => absurd h (by decide)
  · exact nofun
  · exact fun _ => ⟨rfl, rfl, rfl, rfl, rfl, rfl, .inr rfl⟩
  · exact nofun
  · exact nofun
  · exact nofun
  · intro m e
    cases e
    exact ⟨rfl, rfl, rfl, (by decide : 16 ≤ 32), (by decide : 0x3000 + 16 ≤ 2 ^ 32),
      fun _ => (by decide : 0x4000 + 16 ≤ 2 ^ 32), fun _ => rfl, fun _ => rfl, Nat.le_refl 0, Nat.zero_le _⟩
  · intro m _ e
    cases e
    exact h
  · constructor
    · intro e
      refine ⟨_, rfl, fun hs => ?_⟩
      simp only at hs
      rw [if_pos hs] at e
      cases e
    · rintro ⟨m, e, hs⟩
      cases e
      exact if_neg hs

/-- Channel 0 runs MBOX_EXEC and waits for XLOCK to read the response. -/
def receiving : State :=
  (boxed .flag).modChan 0 fun ch =>
    { ch with
      state := .responseReading
      xc := some
        { dir := .rd, ec := 0, n := 40, buf := .rxbuf 0, ops := xferOps 0 40, pos := 0, sum := 0, ret := .validate }
      mc := some { step := .read, t0 := 0, tnext := 0, len := 16 } }

theorem receiving_inv : receiving.Inv := by
  have hb := boxed_inv .flag rfl
  have k := chanMove_modChan (boxed .flag) 0 fun ch =>
    { ch with
      state := .responseReading
      xc := some
        { dir := .rd, ec := 0, n := 40, buf := .rxbuf 0, ops := xferOps 0 40, pos := 0, sum := 0, ret := .validate }
      mc := some { step := .read, t0 := 0, tnext := 0, len := 16 } }
  refine hb.of_move k ?_
  exact chanInv_sub (hb.chan 0) rfl nofun { step := .read, t0 := 0, tnext := 0, len := 16 }
    { dir := .rd, ec := 0, n := 40, buf := .rxbuf 0, ops := xferOps 0 40, pos := 0, sum := 0, ret := .validate }
    true ⟨rfl, rfl, rfl, rfl, rfl⟩ rfl nofun (fun _ => ⟨rfl, rfl⟩) (Nat.le_refl 0) (Nat.zero_le _) rfl (by decide)
    (by decide) rfl rfl nofun rfl (chan_modChan_self _ _ _)

theorem sched_inv {s : State} (h : s.Inv) (l : List Input) : (s.setSched l).Inv :=
  h.of_same rfl ⟨id, id⟩ ⟨id, id⟩ ⟨rfl, rfl, rfl, rfl, rfl⟩ (Nat.le_refl _) (fun _ => rfl) ⟨rfl, rfl⟩

theorem response_inv {s : State} (h : s.Inv) (rc dl : Half) : (response s rc dl).Inv :=
  h.of_same rfl ⟨id, id⟩ ⟨id, id⟩ ⟨rfl, rfl, rfl, rfl, rfl⟩ (Nat.le_refl _) (fun _ => rfl) ⟨rfl, rfl⟩

/-! ### One step of each instruction, against 95_test_vectors.md -/

/-- The next state, if there is one. -/
def after (o : Host.Outcome State Fault Refusal) : Option State :=
  match o with
  | .next t => some t
  | .fault _ | .refused _ => none

/-- P1 line 1: `CH_STATUS`, `CH_RESULT`, `CFG_STATUS` and the four window registers. -/
theorem test_configure :
    (after (exec .configure (withArgs State.reset 0x0800 0x0807 0x0900 0x0904 0))).map (fun t =>
      [t.csrRead 0x104, t.csrRead 0x108, t.csrRead 0x000, t.csrRead 0x004, t.csrRead 0x008, t.csrRead 0x00C,
        t.csrRead 0x010]) = some [0x200A, 0, 3, 0x0800, 0x0807, 0x0900, 0x0904] := by decide +kernel

/-- P4 line 1. -/
theorem test_configure_locked :
    (after (exec .configure (withArgs cfg 0x0A00 0x0A07 0x0B00 0x0B04 0))).map (fun t =>
      [t.csrRead 0x104, t.csrRead 0x108, t.csrRead 0x004]) = some [0x2702, 0x12, 0x0800] := by decide +kernel

/-- X4: no event, and `CODE = 2`. -/
theorem test_xferWr_past_the_end :
    (after (exec .xferWr (withArgs cfg 0xFFFF 0x1000 2 0 0))).map (fun t =>
      (t.csrRead 0x104, t.csrRead 0x108, t.trace)) = some (0x2702, 0x00020011, []) := by decide +kernel

/-- P5: X_WAIT while another channel holds XLOCK; X9 otherwise: a no-op on an unconfigured window. -/
theorem test_xferWr_waits_or_is_a_noop :
    (after (exec .xferWr (withArgs cfg 0x0100 0x1000 4 0 0))).map (fun t => t.csrRead 0x104) = some 0x0201 ∧
      (after (exec .xferWr (withArgs State.reset 5 0x1000 7 0 0))).map (fun t => t.csrRead 0x104) = some 0x200A := by
  decide +kernel

/-- X6, X5. -/
theorem test_xferRd_bad_arguments :
    (after (exec .xferRd (withArgs cfg 0 0xFFFFFFFF 2 0 0))).map (fun t => t.csrRead 0x108) = some 0x00010011 ∧
      (after (exec .xferRd (withArgs cfg 0x10000 0 1 0 0))).map (fun t => t.csrRead 0x108) = some 0x00000011 := by
  decide +kernel

/-- X7: accepted. -/
theorem test_xferRd_last_host_byte :
    (after (exec .xferRd (withArgs cfg 0 0xFFFFFFFF 1 0 0))).map (fun t => t.csrRead 0x104) = some 0x0201 := by
  decide +kernel

/-- A4, A5, A8, A9. -/
theorem test_mboxExec_rejections :
    (after (exec (.mboxExec false) (withArgs cfg 1 0xFFFFFFF0 33 0x4000 0))).map (fun t => t.csrRead 0x108) =
        some 0x00020011 ∧
      (after (exec (.mboxExec false) (withArgs cfg 1 0x3000 0 0xFFFFFFF0 100))).map (fun t => t.csrRead 0x108) =
        some 0x00030011 ∧
      (after (exec (.mboxExec false) (withArgs State.reset 1 0x3000 0 0x4000 0))).map (fun t =>
        (t.csrRead 0x104, t.csrRead 0x108)) = some (0x2702, 0x00000013) ∧
      (after (exec (.mboxExec false) (withArgs State.reset 1 0x3000 33 0x4000 0))).map (fun t => t.csrRead 0x108) =
        some 0x00020011 := by decide +kernel

/-- A6, A7: accepted, in M_WAIT. -/
theorem test_mboxExec_accepted :
    (after (exec (.mboxExec true) (withArgs cfg 1 0x3000 0 0xFFFFFFF0 100))).map (fun t => t.csrRead 0x104) =
        some 0x1001 ∧
      (after (exec (.mboxExec false) (withArgs cfg 1 0x3000 0 0xFFFFFFE0 100))).map (fun t => t.csrRead 0x104) =
        some 0x1001 := by decide +kernel

/-- A11, by a client's write of `CH_CMD(0)`. -/
theorem test_illegal_command :
    (after (step (csrWrite cfg 0x100 0x80000004))).map (fun t => (t.csrRead 0x104, t.csrRead 0x108)) =
      some (0x2702, 0x00000010) := by decide +kernel

/-- P4 lines 5 and 8: a dropped argument write, and `CH_STATUS` cleared. -/
theorem test_dropped_write :
    (after (step (csrWrite (busy cfg) 0x10C 0x7777))).map (fun t => (t.csrRead 0x104, t.csrRead 0x10C)) =
      some (0x0005, 0) := by decide +kernel

/-- X12, the second event, at port `0x0802` (P1); the reference window's `A` (20_memory.md R116). -/
theorem test_selLo :
    (after (exec (.selLo 0x04) (opState .wr (.host 0) (.selLo 0x04 .head)))).map (fun t => (t.trace, t.ec.addr)) =
      some ([⟨0, 0x80020004, 0x0802⟩], 0x0004) := by decide +kernel

theorem test_selHi :
    (after (exec (.selHi 0x01) (opState .wr (.host 0) (.selHi 0x01 .head)))).map (fun t => (t.trace, t.ec.addr)) =
      some ([⟨0, 0x80030001, 0x0803⟩], 0x0100) := by decide +kernel

/-- `s` with one byte of host memory. -/
def hostByte (s : State) (a : Nat) (b : Byte) : State := s.setHostMem (s.hostMem.write a b)

/-- X12, `out8 EMI+5, 0x11`: the byte reaches slot 1 and the sum. -/
theorem test_dbWr :
    (after (exec (.dbWr 1 0x11) (hostByte (opState .wr (.host 0x1000) (.byte 1 0 .head)) 0x1000 0x11))).map (fun t =>
      (t.trace, t.ec.mem, t.csrRead 0x120)) = some ([⟨0, 0x80050011, 0x0805⟩], [(1, 0x11)], 0x11) := by decide +kernel

/-- X13, `in8 EMI+7 -> 0x33`. -/
theorem test_dbRd :
    (after (exec (.dbRd 3 0x33) (opState .rd (.host 0x2000) (.byte 3 2 .head)))).map (fun t =>
      (t.trace, t.hostMem, t.csrRead 0x120)) = some ([⟨0, 0x00070033, 0x0807⟩], [(0x2002, 0x33)], 0x33) := by
  decide +kernel

/-- X12, `out16 EMI+4, 0x5544`: index 3 in bits 7:0. -/
theorem test_dhWr :
    (after (exec (.dhWr 0 0x5544)
      (hostByte (hostByte (opState .wr (.host 0x1000) (.half 0 3 .bulk)) 0x1003 0x44) 0x1004 0x55))).map (fun t =>
      (t.trace, t.ec.mem, t.csrRead 0x120)) =
      some ([⟨0, 0xC0045544, 0x0804⟩], [(0, 0x44), (1, 0x55)], 0x99) := by decide +kernel

/-- X13, `in16 EMI+6 -> 0x7766`. -/
theorem test_dhRd :
    (after (exec (.dhRd 1 0x7766) (opState .rd (.host 0x2000) (.half 1 5 .bulk)))).map (fun t =>
      (t.trace, t.hostMem, t.csrRead 0x120)) =
      some ([⟨0, 0x40067766, 0x0806⟩], [(0x2005, 0x66), (0x2006, 0x77)], 0xDD) := by decide +kernel

/-- P2 event 3; M17: with `N = 1` the command ends with OK. -/
theorem test_strobe :
    (after (exec (.strobe 0xDA) (boxed .strobe))).map (fun t => (t.trace, t.csrRead 0x104)) =
        some ([⟨0, 0x900000DA, 0x0900⟩], 0x1501) ∧
      (after (exec (.strobe 0xDA) ((boxed .strobe).modChan 0 fun ch => { ch with noresp := true }))).map (fun t =>
        (t.csrRead 0x104, t.mlock)) = some (0x2002, .free) := by decide +kernel

/-- M9: the fifth poll, 12 ticks after the strobe. -/
theorem test_statRd_timeout :
    (after (exec (.statRd 0x06) { boxed .poll with
      now := 12, params := { cfg.params with timeoutTicks := 10 } })).map (fun t =>
      (t.csrRead 0x104, t.csrRead 0x108, t.mlock)) = some (0x2102, 0x00000001, .free) := by decide +kernel

/-- M10: the same poll, not busy. -/
theorem test_statRd_ready :
    (after (exec (.statRd 0x00) { boxed .poll with
      now := 12, params := { cfg.params with timeoutTicks := 10 } })).map (fun t =>
      (t.csrRead 0x104, (t.chan 0).mc.map MboxCtx.step)) = some (0x1501, some .flag) := by decide +kernel

/-- M13. -/
theorem test_flagRd_device_flag :
    (after (exec (.flagRd 0x7F) (boxed .flag))).map (fun t => (t.csrRead 0x104, t.csrRead 0x108, t.csrRead 0x120)) =
      some (0x2202, 0x007F0002, 0) := by decide +kernel

/-- M2 and M6, without a port event. -/
theorem test_validate :
    ((response (boxed .validate) 0 31).mboxValidate 0).csrRead 0x108 = 0x001F0004 ∧
      ((response (boxed .validate) 5 32).mboxValidate 0).csrRead 0x108 = 0x00050003 := by decide +kernel

/-- Section 2, `a = 0x0103`, `n = 5`; and X1. -/
theorem test_xferOps :
    xferOps 0x0103 5 = [.selLo 0x00 .head, .selHi 0x01 .head, .byte 3 0 .head, .selLo 0x07 .bulk, .selHi 0x01 .bulk,
        .half 0 1 .bulk, .half 1 3 .bulk] ∧
      xferOps 0xFFFC 4 = [.selLo 0xFF .bulk, .selHi 0xFF .bulk, .half 0 0 .bulk, .half 1 2 .bulk] := by decide

/-- Section 4, K1, K3, K4 and K7. -/
theorem test_requestChecksum :
    requestBytes Config.resetParams 0x0001 16 (List.replicate 16 0) =
        [0x03, 0xEC, 0x01, 0, 0, 0, 0x10, 0] ++ List.replicate 16 0 ∧
      requestChecksum Config.resetParams 0xABCD 0 [] = 0x85 ∧
      requestChecksum Config.resetParams 0x00F0 32 (List.replicate 32 0xFF) = 0x0D ∧
      requestChecksum Config.resetParams 0x1234 5 [1, 2, 3, 4, 5] = 0xA3 := by decide +kernel

/-- P2 line 1 (30_encoding.md R150), and a trace line of X12 (R151). -/
theorem test_assembly :
    (assemble cfg.params (expand (.mbox 0 0x0001 0x3000 16 0x4000 16))) =
        [.write 0xF000010C .w32 0x0001, .write 0xF0000110 .w32 0x3000, .write 0xF0000114 .w32 16,
          .write 0xF0000118 .w32 0x4000, .write 0xF000011C .w32 16, .write 0xF0000100 .w32 4, .wait 0] ∧
      traceLine (.dhWr 0 0x5544) = some "out16 EMI+4, 0x5544".toList := by decide +kernel

/-- How a table word is run as the first instruction after reset (notes/assumptions/12.md). -/
theorem test_withFetchWord :
    (after (step (State.reset.withFetchWord 32 0x00000004))).map (fun t => t.csrRead 0x108) = some 0x00000013 ∧
      (after (step (State.reset.withFetchWord 32 0x2000007F))).map (fun t => t.csrRead 0x108) = some 0x007F0002 := by
  decide +kernel

/-- With CSR_BASE 0 an access that wraps at 2^32 touches the control registers (notes/assumptions/11.md). -/
theorem test_touchesCsr :
    let p := { Config.resetParams with csrBase := 0 }
    touchesCsr p 0xFFFFFFFF .w16 = true ∧ touchesCsr p 0xFFFFFFFF .w8 = false ∧ touchesCsr p 0x4FF .w32 = true ∧
      touchesCsr p 0x500 .w32 = false := by decide

/-- The waiters of 20_memory.md R105: a direct transfer, a sub-transfer, and a mailbox command at its lock step. -/
theorem test_waitsFor :
    (waiting .wr 5 0x1000 7).waitsFor 0 .xlock ∧ receiving.waitsFor 0 .xlock ∧ (boxed .lock).waitsFor 0 .mlock ∧
      ¬ cfg.waitsFor 0 .xlock ∧ ¬ (moving .wr).waitsFor 0 .xlock :=
  ⟨⟨by decide, rfl, rfl, nofun⟩, ⟨by decide, rfl, rfl, nofun⟩, ⟨by decide, rfl, rfl, _, rfl, rfl⟩,
    fun h => Bool.false_ne_true h.2.1, fun h => h.2.2.2 ⟨false, rfl⟩⟩

/-! ### Witnesses: a state and operands that meet the hypotheses of each statement, at the boundaries of its clauses -/

theorem accepts {s : State} (h : s.sel.val < s.params.nch ∧ (s.chan s.sel).busy = false) : Accepts s := ⟨h.1, h.2⟩

theorem writes {s : State} {off : Nat} {v : Word} : Writes (csrWrite s off v) 0 off v [] [] ↔ 0 < s.params.nch :=
  ⟨fun h => h.present, fun h => ⟨rfl, h, by simp [csrWrite, withLine]⟩⟩

theorem witness_ResetStepTouchesBlockOnly : (cfg.setSched [.reset]).sched = .reset :: [] := rfl

theorem witness_InvariantHoldsAfterReset :
    Params.wf { Config.resetParams with nch := 1, timeoutTicks := 1 } = true ∧
      Params.wf { Config.resetParams with nch := 16 } = true := by decide

theorem witness_EveryStepKeepsInvariant :
    ∃ s t : State, s.Inv ∧ step s = .next t := ⟨_, _, sched_inv (moving_inv .wr) [.channel 0 .fromEc], rfl⟩

theorem witness_StepIsTheNextAgentsStep : ∀ i, (cfg.setSched [i]).sched = i :: [] := fun _ => rfl

theorem witness_CommandWriteRunsDecodedCommand :
    cfg.params.wf = true ∧ Writes (csrWrite cfg (chanOffset 1) 0x104) 0 (chanOffset 1) 0x104 [] [] ∧
      1 < cfg.params.nch ∧ decode (bytesOfWord 0x104) = .ok (.mboxExec true, []) ∧
      (Instr.mboxExec true).isCommand = true := ⟨by decide, writes.2 (by decide), by decide, by decide, by decide⟩

theorem witness_ChannelStepRunsItsEvent :
    ∃ (s : State) (i : Instr), s.sched = .channel 0 .fromEc :: [] ∧ 0 < s.params.nch ∧
      ((s.setSched []).select 0).nextEvent .fromEc = some i ∧ s.Inv :=
  ⟨(moving .wr).setSched [.channel 0 .fromEc], .selLo 0, rfl, by decide, rfl, sched_inv (moving_inv .wr) _⟩

/-- A state that issues the event, and one that does not. -/
theorem witness_EventRunsExactlyWhereIssued :
    (moving .wr).nextEvent .fromEc = some (.selLo 0) ∧ ∀ ans, cfg.nextEvent ans ≠ some (.selLo 0) := ⟨rfl, fun _ => nofun⟩

theorem witness_DecodeOfEncodeIsTheInstruction :
    Instr.WellFormed (.dbWr 3 0xFF) ∧ Instr.WellFormed (.dhRd 1 0xFFFF) ∧ Instr.WellFormed (.dbRd 0 0) := by decide

theorem witness_DecodedWordIsTheEncoding : ∃ w i, decodeWord w = .ok i := ⟨_, _, test_decode_dhRd⟩

theorem witness_GlobalRegistersRead :
    (0x024 ≤ 0x024 ∧ 0x024 < 0x100) ∧ (0x024 ≤ 0x0FF ∧ 0x0FF < 0x100) ∧ 0x100 + 0x40 * cfg.params.nch ≤ 0x180 := by
  decide

theorem witness_ChannelRegistersRead :
    (1 : ChanId).val < cfg.params.nch ∧ (0x24 ≤ 0x24 ∧ 0x24 < 0x40) ∧ (0x24 ≤ 0x3F ∧ 0x3F < 0x40) := by decide

theorem witness_ControlRegisterReadHasNoSideEffect :
    ∀ off ∈ [0x000, 0x4FC], ∃ s : State, s.params.wf = true ∧ s.sched = .client 0 :: [] ∧ 0 < s.params.nch ∧
      (s.client 0).prog = .read (csrAddr s.params off) .w32 :: [] ∧ off < 0x500 ∧ off % 4 = 0 :=
  fun off h => ⟨withLine cfg (.read (csrAddr cfg.params off) .w32), (by decide : cfg.params.wf = true), rfl, (by decide : 0 < 2), rfl,
    by revert off; decide, by revert off; decide⟩

theorem witness_InadmissibleControlAccessHasNoStep :
    ∀ aw ∈ [((0xF0000000 : Word), Width.w8), (0xF00004FF, .w16), (0xF0000001, .w32)],
      ∃ s : State, s.sched = .client 0 :: [] ∧ s.params.csrBase.toNat ≤ aw.1.toNat ∧
        aw.1.toNat < s.params.csrBase.toNat + 0x500 ∧ (aw.2 ≠ .w32 ∨ aw.1.toNat % 4 ≠ 0) ∧
        (s.client 0).prog = .read aw.1 aw.2 :: [] :=
  fun aw h => ⟨withLine cfg (.read aw.1 aw.2), rfl, by revert aw; decide, by revert aw; decide,
    by revert aw; decide, rfl⟩

theorem witness_ArgumentWriteIsStored :
    ∀ j : Fin 5, cfg.params.wf = true ∧ 1 < cfg.params.nch ∧
      Writes (csrWrite cfg (0x10C + 0x40 * 1 + 4 * j.val) 7) 0 (0x10C + 0x40 * 1 + 4 * j.val) 7 [] [] ∧
      (cfg.chan 1).busy = false := fun _ => ⟨by decide, by decide, writes.2 (by decide), rfl⟩

theorem witness_BusyWritesAreDropped :
    ∀ off ∈ [0x100, 0x10C, 0x11C], ∃ s : State, s.params.wf = true ∧ 0 < s.params.nch ∧
      (off = 0x100 + 0x40 * 0 ∨ ∃ j : Fin 5, off = 0x10C + 0x40 * 0 + 4 * j.val) ∧ Writes s 0 off 7 [] [] ∧
      (s.chan 0).busy = true :=
  fun off h => ⟨csrWrite (busy cfg) off 7, (by decide : cfg.params.wf = true), (by decide : 0 < 2),
    by revert off; decide, writes.2 (by decide), rfl⟩

theorem witness_StatusWriteClearsDoneAndDropped :
    cfg.params.wf = true ∧ 1 < cfg.params.nch ∧ Writes (csrWrite cfg (0x104 + 0x40 * 1) 6) 0 (0x104 + 0x40 * 1) 6 [] [] :=
  ⟨by decide, by decide, writes.2 (by decide)⟩

theorem witness_ReadOnlyWritesHaveNoEffect :
    ∀ off ∈ [0x000, 0x0FC, 0x180, 0x4FC, 0x108, 0x120, 0x13C], ∃ s : State, s.params.wf = true ∧
      off < 0x500 ∧ off % 4 = 0 ∧ Writes s 0 off 7 [] [] ∧
      (off < 0x100 ∨ 0x100 + 0x40 * s.params.nch ≤ off ∨ (off - 0x100) % 0x40 = 0x08 ∨
        0x20 ≤ (off - 0x100) % 0x40) :=
  fun off h => ⟨csrWrite cfg off 7, (by decide : cfg.params.wf = true), by revert off; decide, by revert off; decide,
    writes.2 (by decide), by
      show off < 0x100 ∨ 0x100 + 0x40 * 2 ≤ off ∨ _
      revert off; decide⟩

theorem witness_WaitLineStaysUntilIdle :
    ∀ b, ∃ s : State, s.sched = .client 0 :: [] ∧ 0 < s.params.nch ∧ (s.client 0).prog = .wait 0 :: [] ∧
      (s.chan 0).busy = b :=
  fun b => ⟨withLine (cfg.modChan 0 fun ch => { ch with busy := b }) (.wait 0), rfl, (by decide : 0 < 2),
    by simp [withLine], rfl⟩

theorem witness_IllegalCommandEndsWithBadCommand :
    ∃ s : State, s.params.wf = true ∧ 0 < s.params.nch ∧ (s.chan 0).busy = false ∧
      Writes s 0 (0x100 + 0x40 * 0) 0x102 [] [] ∧ ∀ i, decodeCommand 0x102 ≠ .ok i :=
  ⟨csrWrite cfg 0x100 0x102, (by decide : cfg.params.wf = true), (by decide : 0 < 2), rfl, writes.2 (by decide),
    fun i h => by rw [test_decode_rejects_commands.2.2.2.1] at h; cases h⟩

theorem witness_CommandOnBusyOrAbsentChannel :
    ((busy cfg).sel.val < cfg.params.nch ∧ ((busy cfg).chan (busy cfg).sel).busy = true) ∧
      cfg.params.nch ≤ (cfg.select 2).sel.val := by decide

/-- An even base where odd ones are refused, and an odd one where they are not. -/
theorem witness_ConfigureWritesTheWindow :
    ∀ odd, ∃ s : State, Accepts s ∧ s.cfgLocked = false ∧ (s.chan s.sel).arg0.toNat < 0x10000 ∧
      (s.chan s.sel).arg1.toNat < 0x10000 ∧ (s.chan s.sel).arg2.toNat < 0x10000 ∧
      (s.chan s.sel).arg3.toNat < 0x10000 ∧ s.params.port16OddOk = odd ∧
      (s.params.port16OddOk = true ∨ (s.chan s.sel).arg0.toNat % 2 = 0) := by
  intro odd
  refine ⟨withArgs (State.resetWith { Config.resetParams with port16OddOk := odd })
    (if odd then 0xFFFF else 0xFFFE) 0xFFFF 0xFFFF 0xFFFF 0, accepts ?_, ?_⟩ <;> revert odd <;> decide

/-- Each rejection: a locked window; each register with a bit above bit 15; an odd base. -/
theorem witness_ConfigureRejections :
    let a := fun (s : State) k => ((s.chan s.sel).arg k).toNat
    (∃ s : State, Accepts s ∧ s.cfgLocked = true) ∧
      (∃ s : State, Accepts s ∧ s.cfgLocked = false ∧ 0x10000 ≤ a s 0) ∧
      (∃ s : State, Accepts s ∧ s.cfgLocked = false ∧ a s 0 < 0x10000 ∧ 0x10000 ≤ a s 1) ∧
      (∃ s : State, Accepts s ∧ s.cfgLocked = false ∧ a s 0 < 0x10000 ∧ a s 1 < 0x10000 ∧ 0x10000 ≤ a s 2) ∧
      (∃ s : State, Accepts s ∧ s.cfgLocked = false ∧ a s 0 < 0x10000 ∧ a s 1 < 0x10000 ∧ a s 2 < 0x10000 ∧
        0x10000 ≤ a s 3) ∧
      (∃ s : State, Accepts s ∧ s.cfgLocked = false ∧ a s 0 < 0x10000 ∧ a s 1 < 0x10000 ∧ a s 2 < 0x10000 ∧
        a s 3 < 0x10000 ∧ s.params.port16OddOk = false ∧ a s 0 % 2 = 1) :=
  ⟨⟨cfg, accepts (by decide), rfl⟩, ⟨withArgs State.reset 0x10000 0 0 0 0, accepts (by decide), by decide⟩,
    ⟨withArgs State.reset 0xFFFF 0x10000 0 0 0, accepts (by decide), by decide⟩,
    ⟨withArgs State.reset 0xFFFF 0xFFFF 0x10000 0 0, accepts (by decide), by decide⟩,
    ⟨withArgs State.reset 0xFFFF 0xFFFF 0xFFFF 0x10000 0, accepts (by decide), by decide⟩,
    ⟨withArgs State.reset 0xFFFF 0xFFFF 0xFFFF 0xFFFF 0, accepts (by decide), by decide⟩⟩

theorem witness_ConfiguredWindowNeverChanges :
    ∃ s t : State, s.cfgLocked = true ∧ s.nextInput.1 ≠ .reset ∧ step s = .next t :=
  ⟨cfg.setSched [.clock 1], _, rfl, nofun, rfl⟩

/-- 95_test_vectors.md X3, X7: the last byte of EC memory and of host memory. -/
theorem witness_TransferStartsAndWaits :
    ∃ s : State, Accepts s ∧ (s.chan s.sel).arg0.toNat = 0xFFFF ∧
      (s.chan s.sel).arg1.toNat + (s.chan s.sel).arg2.toNat = 2 ^ 32 ∧
      (s.chan s.sel).arg0.toNat + (s.chan s.sel).arg2.toNat = 0x10000 ∧ s.emiBase ≠ 0 ∧ s.emiEnd ≠ 0 ∧
      (s.chan s.sel).arg2 ≠ 0 := ⟨withArgs cfg 0xFFFF 0xFFFFFFFF 1 0 0, accepts (by decide), by decide⟩

/-- 95_test_vectors.md X9, X10; and `EMI_END` 0. -/
theorem witness_TransferNoop :
    let good := fun s : State => (s.chan s.sel).arg0.toNat < 0x10000 ∧
      (s.chan s.sel).arg1.toNat + (s.chan s.sel).arg2.toNat ≤ 2 ^ 32 ∧
      (s.chan s.sel).arg0.toNat + (s.chan s.sel).arg2.toNat ≤ 0x10000
    (∃ s : State, Accepts s ∧ good s ∧ s.emiBase = 0) ∧ (∃ s : State, Accepts s ∧ good s ∧ s.emiEnd = 0) ∧
      (∃ s : State, Accepts s ∧ good s ∧ (s.chan s.sel).arg2 = 0) :=
  ⟨⟨withArgs State.reset 5 0x1000 7 0 0, accepts (by decide), by decide, rfl⟩,
    ⟨withArgs { cfg with emiEnd := 0 } 5 0x1000 7 0 0, accepts (by decide), by decide, rfl⟩,
    withArgs cfg 0xFFFF 0xFFFFFFFF 0 0 0, accepts (by decide), by decide, rfl⟩

/-- 95_test_vectors.md X5, X6, X4, X8. -/
theorem witness_TransferRejections :
    let a := fun (s : State) k => ((s.chan s.sel).arg k).toNat
    (∃ s : State, Accepts s ∧ 0x10000 ≤ a s 0) ∧
      (∃ s : State, Accepts s ∧ a s 0 < 0x10000 ∧ 2 ^ 32 < a s 1 + a s 2) ∧
      (∃ s : State, Accepts s ∧ a s 0 < 0x10000 ∧ a s 1 + a s 2 ≤ 2 ^ 32 ∧ 0x10000 < a s 0 + a s 2) ∧
      (∃ s : State, Accepts s ∧ s.emiBase = 0 ∧ a s 0 < 0x10000 ∧ a s 1 + a s 2 ≤ 2 ^ 32 ∧ 0x10000 < a s 0 + a s 2) :=
  ⟨⟨withArgs cfg 0x10000 0 1 0 0, accepts (by decide), by decide⟩,
    ⟨withArgs cfg 0 0xFFFFFFFF 2 0 0, accepts (by decide), by decide⟩,
    ⟨withArgs cfg 0xFFFF 0 2 0 0, accepts (by decide), by decide⟩,
    withArgs State.reset 0xFFFF 0x1000 2 0 0, accepts (by decide), by decide⟩

/-- 95_test_vectors.md A7; and A6, where no response is expected. -/
theorem witness_MailboxStartsAndWaits :
    let good := fun s : State => (s.chan s.sel).arg0.toNat < 0x10000 ∧ (s.chan s.sel).arg2.toNat = 32 ∧
      (s.chan s.sel).arg1.toNat + (s.chan s.sel).arg2.toNat ≤ 2 ^ 32 ∧ s.emiBase ≠ 0 ∧ s.emiEnd ≠ 0
    (∃ s : State, Accepts s ∧ good s ∧ (s.chan s.sel).arg3.toNat + min (s.chan s.sel).arg4.toNat 32 = 2 ^ 32) ∧
      (∃ s : State, Accepts s ∧ good s ∧ 2 ^ 32 < (s.chan s.sel).arg3.toNat + min (s.chan s.sel).arg4.toNat 32) :=
  ⟨⟨withArgs cfg 0xFFFF 0xFFFFFFE0 32 0xFFFFFFE0 100, accepts (by decide), by decide⟩,
    withArgs cfg 1 0x3000 32 0xFFFFFFF0 100, accepts (by decide), by decide⟩

/-- 95_test_vectors.md A1, A2, A3, A5, A8. -/
theorem witness_MailboxRejections :
    let a := fun (s : State) k => ((s.chan s.sel).arg k).toNat
    (∃ s : State, Accepts s ∧ 0x10000 ≤ a s 0) ∧ (∃ s : State, Accepts s ∧ a s 0 < 0x10000 ∧ 32 < a s 2) ∧
      (∃ s : State, Accepts s ∧ a s 0 < 0x10000 ∧ a s 2 ≤ 32 ∧ 2 ^ 32 < a s 1 + a s 2) ∧
      (∃ s : State, Accepts s ∧ a s 0 < 0x10000 ∧ a s 2 ≤ 32 ∧ a s 1 + a s 2 ≤ 2 ^ 32 ∧
        ¬ a s 3 + min (a s 4) 32 ≤ 2 ^ 32) ∧
      (∃ s : State, Accepts s ∧ a s 0 < 0x10000 ∧ a s 2 ≤ 32 ∧ a s 1 + a s 2 ≤ 2 ^ 32 ∧
        a s 3 + min (a s 4) 32 ≤ 2 ^ 32 ∧ s.emiBase = 0) :=
  ⟨⟨withArgs cfg 0x10001 0x3000 0 0x4000 0, accepts (by decide), by decide⟩,
    ⟨withArgs cfg 1 0x3000 33 0x4000 0, accepts (by decide), by decide⟩,
    ⟨withArgs cfg 1 0xFFFFFFF0 32 0x4000 0, accepts (by decide), by decide⟩,
    ⟨withArgs cfg 1 0x3000 16 0xFFFFFFF0 100, accepts (by decide), by decide⟩,
    withArgs State.reset 1 0x3000 16 0x4000 16, accepts (by decide), by decide⟩

/-- A direct transfer, a sub-transfer, and XLOCK held by channel 1. -/
theorem witness_TransferLockIsAcquired :
    (∃ x, ((waiting .wr 5 0x1000 7).chan 0).xc = some x ∧ x.viaMbx = false ∧ (waiting .wr 5 0x1000 7).xlock = .free) ∧
      (∃ x, (((opState .wr (.txbuf 0) (.selLo 0 .tail)).setXlock .free).chan 0).xc = some x ∧ x.viaMbx = true) ∧
      ((waiting .rd 5 0x1000 7).setXlock (.held 1 false)).xlock = .held 1 false :=
  ⟨⟨_, rfl, rfl, rfl⟩, ⟨_, rfl, rfl⟩, rfl⟩

theorem atOp (dir : Dir) (buf : Buf) (op : BusOp) :
    ∃ x, AtOp (opState dir buf op) x op ∧ x.dir = dir ∧ x.buf = buf := ⟨_, ⟨⟨false, rfl⟩, rfl, rfl⟩, rfl, rfl⟩

theorem witness_SelectEventsComplete :
    (∃ x, AtOp (opState .wr (.host 0) (.selLo 3 .bulk)) x (.selLo 3 .bulk)) ∧
      (∃ x, AtOp (opState .rd (.rxbuf 0) (.selHi 0 .bulk)) x (.selHi 0 .bulk)) :=
  ⟨(atOp _ _ _).imp fun _ h => h.1, (atOp _ _ _).imp fun _ h => h.1⟩

/-- The last byte of host memory, and of `TXBUF`. -/
theorem witness_ByteWriteEventCompletes :
    (∃ x, AtOp (opState .wr (.host 0xFFFFFFFF) (.byte 3 0 .tail)) x (.byte 3 0 .tail) ∧ x.dir = .wr ∧
      x.buf = .host 0xFFFFFFFF) ∧ Holds (opState .wr (.host 0xFFFFFFFF) (.byte 3 0 .tail)) (.host 0xFFFFFFFF) 0 0 ∧
      Holds (opState .wr (.txbuf 8) (.byte 3 31 .tail)) (.txbuf 8) 31 0 := ⟨atOp _ _ _, ⟨rfl, rfl⟩, rfl⟩

/-- The last byte of host memory, and of `RXBUF`. -/
theorem witness_ByteReadEventCompletes :
    cfg.hostMem.wf = true ∧ (∃ x, AtOp (opState .rd (.rxbuf 0) (.byte 0 39 .head)) x (.byte 0 39 .head) ∧ x.dir = .rd ∧
      x.buf = .rxbuf 0) ∧ Writable (opState .rd (.rxbuf 0) (.byte 0 39 .head)) (.rxbuf 0) 39 ∧
      Writable (opState .rd (.host 0xFFFFFFFF) (.byte 0 0 .head)) (.host 0xFFFFFFFF) 0 :=
  ⟨rfl, atOp _ _ _, by show 0 + 39 < 40; decide, rfl⟩

theorem witness_HalfWriteEventCompletes :
    (∃ x, AtOp (opState .wr (.host 0x1000) (.half 1 2 .bulk)) x (.half 1 2 .bulk) ∧ x.dir = .wr ∧
      x.buf = .host 0x1000) ∧ (∀ i, Holds (opState .wr (.host 0x1000) (.half 1 2 .bulk)) (.host 0x1000) i 0) ∧
      Holds (opState .wr (.txbuf 0) (.half 1 38 .bulk)) (.txbuf 0) 39 0 := ⟨atOp _ _ _, fun _ => ⟨rfl, rfl⟩, rfl⟩

theorem witness_HalfReadEventCompletes :
    (∃ x, AtOp (opState .rd (.rxbuf 0) (.half 1 38 .bulk)) x (.half 1 38 .bulk) ∧ x.dir = .rd ∧ x.buf = .rxbuf 0) ∧
      Writable (opState .rd (.rxbuf 0) (.half 1 38 .bulk)) (.rxbuf 0) 39 ∧
      (0x7766 : Half).toNat = (0x66 : Byte).toNat + 256 * (0x77 : Byte).toNat :=
  ⟨atOp _ _ _, by show 0 + 39 < 40; decide, by decide⟩

/-- 95_test_vectors.md X11, X3; also of PhasesUseTheirAccessMode. -/
theorem witness_OperationsCoverTheBuffer :
    (1 ≤ 0x10000 ∧ (0 : Half).toNat + 0x10000 ≤ 0x10000) ∧ (1 ≤ 1 ∧ (0xFFFF : Half).toNat + 1 ≤ 0x10000) := by decide

theorem witness_TransferTakesOneStepPerOperation :
    ∃ (x : XferCtx) (answers : List Answer), 0 < cfg.params.nch ∧ (waiting .rd 5 0x1000 7).xlock = .free ∧
      ((waiting .rd 5 0x1000 7).chan 0).xc = some x ∧ x.ops ≠ [] ∧
      (∀ a, admitsRead cfg.params a = true ∧ admitsWrite cfg.params a = true) ∧ answers.length = 1 + x.ops.length :=
  ⟨_, List.replicate (1 + (xferOps 5 7).length) (.draw 0xBEEF), by decide, rfl, rfl, xferOps_ne_nil (by decide),
    fun _ => ⟨rfl, rfl⟩, List.length_replicate⟩

theorem waiting_ready (dir : Dir) (a : Half) (base : Word) (n : Nat) (h1 : 1 ≤ n) (h2 : a.toNat + n ≤ 0x10000)
    (h3 : base.toNat + n ≤ 2 ^ 32) : TransferReady (waiting dir a base n) 0 dir a base n :=
  ⟨waiting_inv dir a base n h1 h2 h3, by show 0 < 2; decide, rfl, fun _ => ⟨rfl, rfl⟩, rfl, rfl⟩

/-- The last byte of EC memory and of host memory, in both directions; and a write, with a read ready after it. -/
theorem witness_WriteThenReadRoundTrip :
    (∀ dir, TransferReady (waiting dir 0xFFFF 0xFFFFFFFF 1) 0 dir 0xFFFF 0xFFFFFFFF 1) ∧
      ∃ t u : State, (waiting .wr 0xFFFF 0xFFFFFFFF 1).windowRun 0 (1 + (xferOps 0xFFFF 1).length) = some t ∧
        u.ec = t.ec ∧ TransferReady u 0 .rd 0xFFFF 0 1 := by
  have ready := fun dir => waiting_ready dir 0xFFFF 0xFFFFFFFF 1 (by decide) (by decide) (by decide)
  refine ⟨ready, _, (waiting .rd 0xFFFF 0 1).setEc _, rfl, rfl, ?_⟩
  obtain ⟨h, hs⟩ := waiting_ready .rd 0xFFFF 0 1 (by decide) (by decide) (by decide)
  exact ⟨h.of_same rfl ⟨id, id⟩ ⟨fun _ => by decide +kernel, fun _ => by decide +kernel⟩ ⟨rfl, rfl, rfl, rfl, rfl⟩
    (Nat.le_refl _) (fun _ => rfl) ⟨rfl, rfl⟩, hs, rfl, fun _ => ⟨rfl, rfl⟩, rfl, rfl⟩

/-- The autoincrement at the end of the address space (95_test_vectors.md X1), and the first slot. -/
theorem witness_ReferenceWindowAccesses :
    EcSide.start.mem.wf = true ∧ 0 < 4 ∧ 3 < 4 ∧
      (({ EcSide.start with addr := 0xFFFF } : EcSide).write8 (4 + 3) 1).addr = 0x0003 := by decide

/-- Each of the thirteen instructions answers a next state somewhere. -/
theorem witness_EcSideFrameOfEveryInstruction :
    (∀ i, i.isCommand = true → ∃ t, exec i (cfg.select 2) = .next t) ∧
      (∃ t, exec (.selLo 3) (opState .wr (.host 0) (.selLo 3 .bulk)) = .next t) ∧
      (∃ t, exec (.selHi 1) (opState .wr (.host 0) (.selHi 1 .bulk)) = .next t) ∧
      (∃ t, exec (.dbWr 1 0) (opState .wr (.host 0) (.byte 1 0 .head)) = .next t) ∧
      (∃ t, exec (.dbRd 1 7) (opState .rd (.host 0) (.byte 1 0 .head)) = .next t) ∧
      (∃ t, exec (.dhWr 1 0) (opState .wr (.host 0) (.half 1 2 .bulk)) = .next t) ∧
      (∃ t, exec (.dhRd 1 7) (opState .rd (.host 0) (.half 1 2 .bulk)) = .next t) ∧
      (∃ t, exec (.strobe 0xDA) (boxed .strobe) = .next t) ∧ (∃ t, exec (.statRd 6) (boxed .poll) = .next t) ∧
      (∃ t, exec (.flagRd 0) (boxed .flag) = .next t) := by
  refine ⟨fun i h => ?_, ⟨_, rfl⟩, ⟨_, rfl⟩, ⟨_, rfl⟩, ⟨_, rfl⟩, ⟨_, rfl⟩, ⟨_, rfl⟩, ⟨_, rfl⟩, ⟨_, rfl⟩, ⟨_, rfl⟩⟩
  cases i <;> first | exact ⟨_, rfl⟩ | cases h

theorem atStep (st : MboxStep) : ∃ m, AtStep ((boxed st).select 0) m st ∧ m.t0 = 0 ∧ m.tnext = 0 ∧ m.len = 16 :=
  ⟨_, ⟨rfl, rfl, rfl⟩, rfl, rfl, rfl⟩

theorem witness_MailboxLockIsAcquired :
    (∃ m, AtStep ((boxed .lock).select 0) m .lock) ∧ (boxed .lock).mlock = .free ∧
      ((boxed .lock).setMlock (.held 1)).mlock = .held 1 := ⟨(atStep _).imp fun _ h => h.1, rfl, rfl⟩

theorem witness_BuildStepFramesTheRequest :
    (∃ m, AtStep ((boxed .build).select 0) m .build ∧ m.t0 = 0 ∧ m.tnext = 0 ∧ m.len = 16) ∧
      (List.replicate 16 (0 : Byte)).length = 16 ∧
      ∀ i, i < 16 → Holds (boxed .build) (.host ((boxed .build).chan 0).arg1) i ((List.replicate 16 0).getD i 0) :=
  ⟨atStep _, rfl, fun i h => by interval_cases i <;> exact ⟨rfl, rfl⟩⟩

/-- With and without a response expected. -/
theorem witness_StrobeEventCompletes :
    ∀ n, ∃ (s : State) (m : MboxCtx), AtStep s m .strobe ∧ (s.chan s.sel).noresp = n :=
  fun n => ⟨(boxed .strobe).modChan 0 fun ch => { ch with noresp := n }, _, ⟨rfl, rfl, rfl⟩, rfl⟩

/-- A status byte with bits 0 and 3 set is not busy (95_test_vectors.md M11); busy ones at the deadline and before. -/
theorem witness_StatusReadEventCompletes :
    (∃ m, AtStep ((boxed .poll).select 0) m .poll ∧ m.t0 = 0 ∧ m.tnext = 0 ∧ m.len = 16) ∧
      ((0x09 : Byte).getLsbD 1 = false ∧ (0x09 : Byte).getLsbD 2 = false) ∧
      ((0x02 : Byte).getLsbD 1 = true ∧ cfg.params.timeoutTicks.toNat ≤ 1000000 - 0) ∧
      ((0x04 : Byte).getLsbD 2 = true ∧ 999999 - 0 < cfg.params.timeoutTicks.toNat) :=
  ⟨atStep _, by decide, by decide, by decide⟩

theorem witness_FlagReadEventCompletes :
    (∃ m, AtStep ((boxed .flag).select 0) m .flag) ∧ (0x7F : Byte) ≠ 0 := ⟨(atStep _).imp fun _ h => h.1, by decide⟩

/-- 95_test_vectors.md M15, M2, M4, M6: the failing fields of the response. -/
theorem witness_ValidationFailures :
    (∃ m, AtStep ((boxed .validate).select 0) m .validate) ∧
      (let s := response { boxed .validate with params := { cfg.params with validateRespCsum := true } } 1 32;
        s.params.validateRespCsum = true ∧ sum8 s.rxbuf.toList ≠ 0) ∧
      (let s := response (boxed .validate) 0 31;
        s.params.validateRespCsum = false ∧ s.rxbuf[4].toNat + 256 * s.rxbuf[5].toNat ≠ 32) ∧
      (let s := response ((boxed .validate).modChan 0 fun ch => { ch with arg4 := 33 }) 0 32;
        s.rxbuf[4].toNat + 256 * s.rxbuf[5].toNat = 32 ∧ 32 < (s.chan 0).arg4.toNat) ∧
      (let s := response (boxed .validate) 5 32;
        s.rxbuf[4].toNat + 256 * s.rxbuf[5].toNat = 32 ∧ (s.chan 0).arg4.toNat ≤ 32 ∧
          s.rxbuf[2].toNat + 256 * s.rxbuf[3].toNat ≠ 0) :=
  ⟨(atStep _).imp fun _ h => h.1, by decide +kernel, by decide +kernel, by decide +kernel, by decide +kernel⟩

theorem witness_ValidationCopiesOut :
    let s := response (boxed .validate) 0 32
    s.Inv ∧ (∃ m, AtStep (s.select 0) m .validate) ∧ s.params.validateRespCsum = false ∧
      s.rxbuf[4].toNat + 256 * s.rxbuf[5].toNat = 32 ∧ (s.chan 0).arg4.toNat ≤ 32 ∧
      s.rxbuf[2].toNat + 256 * s.rxbuf[3].toNat = 0 ∧ ∀ i, Writable s (.host (s.chan 0).arg3) i :=
  ⟨response_inv (boxed_inv _ rfl) 0 32, ⟨_, rfl, rfl, rfl⟩, rfl, by decide +kernel, by decide +kernel,
    by decide +kernel, fun _ => rfl⟩

/-- No poll; and one poll that comes after the deadline (95_test_vectors.md M9). -/
theorem witness_TimeoutBoundsTheWait :
    (∃ m, AtStep ((boxed .poll).select 0) m .poll ∧ m.t0 = 0 ∧ m.tnext = 0 ∧ m.len = 16) ∧
      ((boxed .poll).chan 0).busy = true ∧ (boxed .poll).pollRun 0 [] = some (boxed .poll) ∧
      ∃ t, (boxed .poll).pollRun 0 [(1000010, 6)] = some t := ⟨atStep _, rfl, rfl, _, rfl⟩

theorem witness_OnlyListedPortEventsAreIssued :
    ∃ s t : State, s.Inv ∧ step s = .next t ∧ t.trace ≠ s.trace :=
  ⟨(moving .wr).setSched [.channel 0 .fromEc], _, sched_inv (moving_inv .wr) _, rfl, by decide +kernel⟩

/-- A direct transfer takes XLOCK, a sub-transfer does; and a channel holds XLOCK without MLOCK. -/
theorem witness_MailboxLockComesBeforeTransferLock :
    (∃ s t : State, s.Inv ∧ step s = .next t ∧ s.xlock = .free ∧ t.xlock = .held 0 false) ∧
      (∃ s t : State, s.Inv ∧ step s = .next t ∧ s.xlock = .free ∧ t.xlock = .held 0 true) ∧
      ((moving .wr).Inv ∧ (moving .wr).holdsXlock 0 ∧ (moving .wr).mlock ≠ .held 0) :=
  ⟨⟨(waiting .wr 5 0x1000 7).setSched [.channel 0 .fromEc], _,
    sched_inv (waiting_inv .wr _ _ _ (by decide) (by decide) (by decide)) _, rfl, rfl, rfl⟩,
    ⟨receiving.setSched [.channel 0 .fromEc], _, sched_inv receiving_inv _, rfl, rfl, rfl⟩,
    moving_inv .wr, ⟨false, rfl⟩, nofun⟩

/-- The command goes on; and it ends. -/
theorem witness_MailboxLockHeldUntilCompletion :
    (∃ s t : State, s.Inv ∧ s.mlock = .held 0 ∧ step s = .next t ∧ (t.chan 0).busy = true) ∧
      (∃ s t : State, s.Inv ∧ s.mlock = .held 0 ∧ step s = .next t ∧ (t.chan 0).busy = false) :=
  ⟨⟨(boxed .poll).setSched [.channel 0 (.draw 6)], _, sched_inv (boxed_inv _ rfl) _, rfl, rfl, rfl⟩,
    (boxed .flag).setSched [.channel 0 (.draw 0x7F)], _, sched_inv (boxed_inv _ rfl) _, rfl, rfl, rfl⟩

theorem witness_MailboxStepsGoForward :
    ∃ (s t : State) (m m' : MboxCtx), s.Inv ∧ step s = .next t ∧ (s.chan 0).mc = some m ∧ (t.chan 0).mc = some m' :=
  ⟨(boxed .poll).setSched [.channel 0 (.draw 0)], _, _, _, sched_inv (boxed_inv _ rfl) _, rfl, rfl, rfl⟩

theorem witness_CommandRecordStays :
    ∃ s t : State, s.Inv ∧ step s = .next t ∧ (s.chan 0).busy = false ∧ s.nextInput.1 = .clock 1 :=
  ⟨cfg.setSched [.clock 1], _, sched_inv cfg_inv _, rfl, rfl, rfl⟩

theorem witness_ArgumentsOfACommandAreFrozen :
    ∃ s t : State, (s.chan 0).busy = true ∧ s.nextInput.1 ≠ .reset ∧ step s = .next t :=
  ⟨(boxed .poll).setSched [.channel 0 (.draw 6)], _, rfl, nofun, rfl⟩

theorem witness_TimeNeverDecreasesAndParametersStay : ∃ s t : State, step s = .next t := ⟨cfg.setSched [.clock 1], _, rfl⟩

end Sys2Proof.Tests
end

/-! SUPPORT. Every instruction and every agent's step keeps the invariant: command acceptance, port events, the steps
without an event, and the clients' host accesses. -/

namespace Sys2Proof.Machine

/-! ### Acceptance -/

/-- A direct transfer that waits for XLOCK meets its channel's invariant (41_transfer.md R197, R200). -/
theorem chanInv_direct {u : State} {c : ChanId} {x : XferCtx} (hp : u.present c = true) (hcfg : u.configured = true)
    (hs : Started (u.chan c) .xWait) (hx : (u.chan c).xc = some x) (hm : (u.chan c).mc = none) (hok : x.Ok)
    (hstart : x.pos = 0 ∧ x.sum = 0) (hd : DirectOk (u.chan c) x) (hxl : ∀ via, u.xlock ≠ .held c via)
    (hml : u.mlock ≠ .held c) : ChanInv u c := by
  have hn : ¬ u.holdsXlock c := fun ⟨via, e⟩ => hxl via e
  refine ⟨fun ha => absurd (of_decide_eq_true hp) (by omega), fun hb => ?_, fun _ => ?_, ?_, ?_, ?_, ?_, ?_, ?_,
    fun via e => absurd e (hxl via)⟩
  · rw [hs.busy] at hb; cases hb
  · exact ⟨hcfg, hs.done, hs.noop, hs.kind, hs.code, hs.sum, .inl (by rw [hx]; rfl)⟩
  · intro y hy
    cases hx.symm.trans hy
    exact ⟨hok, fun _ => hstart⟩
  · intro y hy _
    cases hx.symm.trans hy
    exact ⟨hd, fun hh => absurd hh hn, fun _ => hs.state⟩
  all_goals simp [hm, hml]

/-- A mailbox command that waits for MLOCK meets its channel's invariant (42_mailbox.md R240). -/
theorem chanInv_lockStep {u : State} {c : ChanId} {m : MboxCtx} (hp : u.present c = true) (hcfg : u.configured = true)
    (hs : Started (u.chan c) .mWait) (hx : (u.chan c).xc = none) (hm : (u.chan c).mc = some m) (hst : m.step = .lock)
    (hok : MboxOk u (u.chan c) m) (hxl : ∀ via, u.xlock ≠ .held c via) (hml : u.mlock ≠ .held c) : ChanInv u c := by
  refine ⟨fun ha => absurd (of_decide_eq_true hp) (by omega), fun hb => ?_, fun _ => ?_, ?_, ?_, ?_, ?_, ?_, ?_,
    fun via e => absurd e (hxl via)⟩
  · rw [hs.busy] at hb; cases hb
  · exact ⟨hcfg, hs.done, hs.noop, hs.kind, hs.code, hs.sum, .inr (by rw [hm]; rfl)⟩
  · simp [hx]
  · simp [hx]
  · simp [hx]
  · intro m' hm'
    cases hm.symm.trans hm'
    exact hok
  · intro m' _ hm'
    cases hm.symm.trans hm'
    rw [hst]; rfl
  · simp [hm, hml, hst]

/-- A CONFIGURE with no bad argument has an even base where the platform needs one (40_control.md R185). -/
theorem even_of_configureBadArg {ch : Channel} (h : ch.configureBadArg false = none) :
    (lowHalf ch.arg0).toNat % 2 = 0 := by
  unfold Channel.configureBadArg at h
  iterate 4
    split at h
    · cases h
  split at h
  · cases h
  · next he =>
    by_cases h0 : lowHalf ch.arg0 = 0
    · rw [h0]; rfl
    · simp only [Bool.not_false, Bool.true_and, ne_eq, h0, not_false_eq_true, decide_true, decide_eq_true_eq] at he
      omega

/-- Before the first CONFIGURE no command is in flight (40_control.md R190). -/
theorem State.Inv.idle_of_unlocked {s : State} (h : s.Inv) (hl : s.cfgLocked = false) (d : ChanId) :
    (s.chan d).busy = false := by
  by_contra hb
  obtain ⟨hcfg, -⟩ := (h.chan d).inFlight (by simpa using hb)
  obtain ⟨hbase, -⟩ := h.window hl
  simp [State.configured, hbase] at hcfg

/-- An accepted CONFIGURE keeps the invariant: no channel has a command in flight that the new window could disturb
(40_control.md R184). -/
theorem State.Inv.configure {s : State} (h : s.Inv) {c : ChanId} (hp : s.present c = true)
    (hl : s.cfgLocked = false) (f : Channel → Channel) {base : Half} (end_ cmd data : Half)
    (hodd : s.params.port16OddOk = false → base.toNat % 2 = 0) :
    (((s.modChan c f).setWindow base end_ cmd data).complete c .ok 0 .done 0).Inv where
  params := h.params
  hostMem := h.hostMem
  ecMem := h.ecMem
  window := nofun
  evenBase := hodd
  chan d := by
    obtain ⟨hxl, hml⟩ := (h.chan d).not_holds (h.idle_of_unlocked hl d)
    by_cases hd : d = c
    · subst hd
      exact chanInv_complete _ _ _ hp rfl hxl
    · refine (h.chan d).congr_idle (h.idle_of_unlocked hl d) rfl (by simp [hd]) hxl ?_
      simpa [releasedBy_held _ _ _ hd] using hml

section Commands

variable {s : State} (h : s.Inv) (hp : s.present s.sel = true) (hb : (s.chan s.sel).busy = false)
include h hp hb

/-- CONFIGURE's body keeps the invariant (40_control.md R184). -/
theorem inv_configureWindow (w : Word) : (s.modChan s.sel fun ch => ch.latch w).configureWindow.Inv := by
  unfold State.configureWindow
  dsimp only
  split
  · exact h.raise hp hb _ _ _ .rejected rfl
  next hl =>
  split
  · exact h.raise hp hb _ _ _ .rejected rfl
  next hbad =>
  refine h.configure hp (by simpa using hl) _ _ _ _ fun ho => ?_
  rw [modChan_params, ho] at hbad
  exact even_of_configureBadArg hbad

/-- The body of XFER_WR and XFER_RD keeps the invariant (41_transfer.md R197). -/
theorem inv_xferStart (w : Word) (dir : Dir) (hop : BitVec.ofNat 4 (field w 3 0) = dir.opcode) :
    ((s.modChan s.sel fun ch => ch.latch w).xferStart dir).Inv := by
  unfold State.xferStart
  dsimp only
  split
  · exact h.raise hp hb _ _ _ .rejected rfl
  next hbad =>
  split
  · exact h.raise hp hb _ _ _ .done rfl
  next hgo =>
  simp only [modChan_sel, chan_modChan_self] at hbad hgo ⊢
  generalize hch : (s.chan s.sel).latch w = ch at *
  simp only [configured_modChan, Bool.or_eq_true, Bool.not_eq_true', decide_eq_true_eq, not_or,
    Bool.not_eq_false] at hgo
  obtain ⟨hcfg, hlen⟩ := hgo
  have hfit : ch.hostAddr.toNat + ch.len ≤ 2 ^ 32 ∧ ch.ecAddr.toNat + ch.len ≤ 0x10000 := by
    unfold Channel.xferBadArg at hbad
    split at hbad
    · cases hbad
    split at hbad
    · cases hbad
    split at hbad
    · cases hbad
    · omega
  obtain ⟨hxl, hml⟩ := (h.chan s.sel).not_holds hb
  obtain ⟨-, hmc, -⟩ := (h.chan s.sel).atRest hb
  have hpos : 1 ≤ ch.len := by omega
  have hu : (((s.modChan s.sel fun ch => ch.latch w).startTransfer s.sel dir ch.ecAddr ch.len (.host ch.hostAddr)
      .complete).chan s.sel) = ch.bindXfer dir ch.ecAddr ch.len (.host ch.hostAddr) .complete := by
    rw [startTransfer_chan_self, chan_modChan_self, hch]
  refine h.of_move ((chanMove_modChan s s.sel _).trans (chanMove_startTransfer _ s.sel _ _ _ _ _))
    (chanInv_direct hp hcfg ?_ (by rw [hu]; rfl) ?_ ⟨rfl, hpos, hfit.2, List.length_pos_iff.2 (xferOps_ne_nil hpos)⟩
      ⟨rfl, rfl⟩ ?_ hxl hml)
  · rw [hu, ← hch]
    exact ⟨rfl, rfl, rfl, rfl, rfl, rfl, rfl⟩
  · rw [hu, ← hch]
    exact hmc
  · rw [hu]
    exact ⟨by rw [← hch]; exact hop, rfl, rfl, rfl, rfl, hfit.1⟩

/-- The body of MBOX_EXEC keeps the invariant (42_mailbox.md R240). -/
theorem inv_mboxStart (w : Word) (n : Bool) (hop : BitVec.ofNat 4 (field w 3 0) = 4)
    (hn : decide (field w 8 8 = 1) = n) : ((s.modChan s.sel fun ch => ch.latch w).mboxStart n).Inv := by
  unfold State.mboxStart
  dsimp only
  split
  · exact h.raise hp hb _ _ _ .rejected rfl
  next hbad =>
  split
  · exact h.raise hp hb _ _ _ .rejected rfl
  next hcfg =>
  simp only [modChan_sel, chan_modChan_self] at hbad ⊢
  obtain ⟨hxl, hml⟩ := (h.chan s.sel).not_holds hb
  obtain ⟨hxc, -, -⟩ := (h.chan s.sel).atRest hb
  obtain ⟨hshort, hreq, hresp⟩ : (s.chan s.sel).reqLen ≤ 32 ∧
      (s.chan s.sel).reqAddr.toNat + (s.chan s.sel).reqLen ≤ 2 ^ 32 ∧
      (n = false → (s.chan s.sel).respAddr.toNat + min (s.chan s.sel).respLen 32 ≤ 2 ^ 32) := by
    unfold Channel.mboxBadArg at hbad
    split at hbad
    · cases hbad
    split at hbad
    · cases hbad
    next h2 =>
    split at hbad
    · cases hbad
    next h1 =>
    split at hbad
    · cases hbad
    next h3 =>
    refine ⟨Nat.le_of_not_lt h2, Nat.le_of_not_lt h1, ?_⟩
    rintro rfl
    simpa [Channel.respAddr, Channel.respLen] using h3
  refine h.of_move ((chanMove_modChan s s.sel _).trans (chanMove_modChan _ s.sel _))
    (chanInv_lockStep hp (by simpa using hcfg) ?_ ?_ (by rw [chan_modChan_self]) rfl ?_ hxl hml) <;>
    rw [chan_modChan_self, chan_modChan_self]
  · exact ⟨rfl, rfl, rfl, rfl, rfl, rfl, rfl⟩
  · exact hxc
  · exact ⟨hop, rfl, rfl, hshort, hreq, fun hr => hresp (hn.symm.trans hr), nofun, nofun, Nat.zero_le _, Nat.zero_le _⟩

end Commands

/-- An illegal command word keeps the invariant (40_control.md R176). -/
theorem inv_rejectCommand {s : State} (h : s.Inv) (w : Word) : (s.rejectCommand w).Inv :=
  inv_accept h w _ fun hp hb => h.raise hp hb _ _ _ .rejected rfl

/-! ### Port events -/

/-- A sub-transfer is one of the framer's buffers. -/
theorem SubOk.viaMbx {m : MboxCtx} {x : XferCtx} (h : SubOk m x) : x.viaMbx = true := by
  unfold SubOk at h
  unfold XferCtx.viaMbx
  split at h
  iterate 3
    · obtain ⟨-, -, -, hbuf, -⟩ := h
      rw [hbuf]; rfl
  all_goals exact h.elim

/-- A channel in no transfer does not hold XLOCK (20_memory.md R101). -/
theorem ChanInv.xlock_ne {s : State} {c : ChanId} (h : ChanInv s c) (hx : (s.chan c).xc = none) (via : Bool) :
    s.xlock ≠ .held c via := by
  intro e
  obtain ⟨x, hx', -⟩ := h.xlock via e
  rw [hx] at hx'
  cases hx'

section OneChannel

variable {s u : State} (h : s.Inv) {c : ChanId} (k : ChanMove s u c)
include h k

/-- A command that ends outside a transfer keeps the invariant (60_exceptions.md R300). -/
theorem inv_complete (hp : s.present c = true) (hx : (s.chan c).xc = none) (hxl : u.xlock = s.xlock) (kind : Kind)
    (code : Half) {st : SeqState} (hst : st.isTerminal = true) (sum : Byte) :
    (u.complete c kind code st sum).Inv := by
  refine h.of_move (k.trans (chanMove_complete u c _ _ _ _)) (chanInv_complete _ _ _ ?_ hst ?_)
  · rw [State.present, k.params]; exact hp
  · rw [hxl]; exact (h.chan c).xlock_ne hx

/-- A mailbox command that goes on to a step outside a sub-transfer keeps the invariant. -/
theorem inv_alone {m : MboxCtx} (hx : (s.chan c).xc = none) (hm : (s.chan c).mc = some m) (hlock : m.step ≠ .lock)
    (hl : SameLocks s u) (m' : MboxCtx) (ev : Bool) (hal : m'.step.alone = true) (hlen : m'.len = m.len)
    (hlock' : m'.step ≠ .lock)
    (hexp : m'.step.afterStrobe = true → (s.chan c).noresp = false ∧ ev = true)
    (ht0 : m'.t0 ≤ u.now) (htn : m'.tnext ≤ u.now + s.params.pollDelayTicks.toNat)
    (hu : u.chan c = { s.chan c with evented := ev, mc := some m', state := m'.step.seqState }) : u.Inv := by
  refine h.of_move k (chanInv_alone (h.chan c) hm hlock m' { s.chan c with evented := ev } hal hlen hlock' hexp ht0 htn
    k.params (configured_of_move k) ?_ hl.mlock (by rw [hu, ← hx]))
  rw [hl.xlock]; exact (h.chan c).xlock_ne hx

/-- A mailbox command that begins a sub-transfer keeps the invariant (42_mailbox.md R246, R266). -/
theorem inv_sub {m : MboxCtx} (hx : (s.chan c).xc = none) (hm : (s.chan c).mc = some m) (hlock : m.step ≠ .lock)
    (hl : SameLocks s u) (hn : u.now = s.now) (st : MboxStep) (x : XferCtx) (ev : Bool)
    (hsub : SubOk { m with step := st } x) (hlock' : st ≠ .lock)
    (hexp : st.afterStrobe = true → (s.chan c).noresp = false ∧ ev = true)
    (hstart : x = { x with ops := xferOps x.ec x.n, pos := 0, sum := 0 }) (hn1 : 1 ≤ x.n)
    (hn2 : x.ec.toNat + x.n ≤ 0x10000)
    (hu : u.chan c =
      { s.chan c with evented := ev, xc := some x, mc := some { m with step := st }, state := st.seqState }) :
    u.Inv := by
  have hmb := (h.chan c).mbox m hm
  refine h.of_move k (chanInv_sub (h.chan c) hm hlock { m with step := st } x ev hsub rfl hlock' hexp
    (by rw [hn]; exact hmb.strobed) (by rw [hn]; exact hmb.pollSoon) hstart hn1 hn2 k.params (configured_of_move k) ?_
    hl.mlock hu)
  rw [hl.xlock]; exact (h.chan c).xlock_ne hx

end OneChannel

section Window

variable {s : State} (h : s.Inv) {x : XferCtx} {op : BusOp} (hop : s.currentOp = some (x, op)) {i : Instr}
  (hw : i.WellFormed)
include h hop hw

/-- An operation that stores nothing keeps the invariant (41_transfer.md R214). -/
theorem inv_opStep (sum : Byte) : (s.opStep i { x with sum := sum }).Inv := by
  obtain ⟨hh, hx, -⟩ := currentOp_eq_some.1 hop
  exact inv_advance h i hw hh hx sum (.refl s s.sel) rfl ⟨rfl, rfl⟩ rfl

/-- An operation that stores bytes in its buffer keeps the invariant (41_transfer.md R207, R208). -/
theorem inv_opStep_stored {s' : State}
    (hs : ∃ (m : Memory) (tx rx : Vector Byte 40), s' = ((s.setHostMem m).setTxbuf tx).setRxbuf rx ∧
      (s.hostMem.wf = true → m.wf = true) ∧ (s.hostMem.below (2 ^ 32) = true → m.below (2 ^ 32) = true))
    (sum : Byte) : (s'.opStep i { x with sum := sum }).Inv := by
  obtain ⟨hh, hx, -⟩ := currentOp_eq_some.1 hop
  obtain ⟨m, tx, rx, rfl, hwf, hbelow⟩ := hs
  exact inv_advance h i hw hh hx sum (chanMove_buffers s s.sel m tx rx hwf hbelow) rfl ⟨rfl, rfl⟩ rfl

end Window

section CurrentOp

variable {s : State} (h : s.Inv) {x : XferCtx} {j idx : Nat} {ph : Phase}
include h

/-- The byte operation a channel is at reaches one of the four slots (00_scope.md R22). -/
theorem slot_lt_of_currentOp (hop : s.currentOp = some (x, .byte j idx ph)) : j < 4 := by
  obtain ⟨-, hx, hop⟩ := currentOp_eq_some.1 hop
  exact (op_wf h hx hop).1 _ _ _ rfl

/-- The half operation a channel is at reaches one of the two halves (00_scope.md R22). -/
theorem half_lt_of_currentOp (hop : s.currentOp = some (x, .half j idx ph)) : j < 2 := by
  obtain ⟨-, hx, hop⟩ := currentOp_eq_some.1 hop
  exact (op_wf h hx hop).2 _ _ _ rfl

end CurrentOp

section Mailbox

variable {s : State} (h : s.Inv) {m : MboxCtx} (v : Byte)
include h

/-- The strobe step keeps the invariant (42_mailbox.md R257). -/
theorem inv_strobe (hm : s.mboxAt .strobe = some m) : ((s.issueEvent s.sel (.strobe v)).mboxStrobe s.sel).Inv := by
  obtain ⟨hx, hm, hst⟩ := mboxAt_eq_some.1 hm
  have hp := (h.chan s.sel).present ((h.chan s.sel).busy_of_mc hm)
  have k := (chanMove_issueEvent s s.sel (.strobe v) rfl).trans (chanMove_modChan _ s.sel fun ch =>
    { ch with mc := ch.mc.map fun m => { m with t0 := s.now, tnext := s.now }, state := .commandStarted })
  unfold State.mboxStrobe
  dsimp only
  split
  · exact inv_complete h (k.trans (chanMove_modChan _ s.sel _)) hp hx rfl _ _ rfl _
  · next hr =>
    have hr : (s.chan s.sel).noresp = false := by simpa using hr
    refine inv_alone h (k.trans (chanMove_modChan _ s.sel _)) hx hm (by simp [hst]) ⟨rfl, rfl⟩
      { m with step := .poll, t0 := s.now, tnext := s.now } true rfl rfl nofun (fun _ => ⟨hr, rfl⟩) (Nat.le_refl _)
      (Nat.le_add_right _ _) ?_
    simp [Channel.setMboxStep, hm, MboxStep.seqState]

/-- The poll step keeps the invariant (42_mailbox.md R261). -/
theorem inv_poll (hm : s.mboxAt .poll = some m) : ((s.issueEvent s.sel (.statRd v)).mboxPoll s.sel m v).Inv := by
  obtain ⟨hx, hm, hst⟩ := mboxAt_eq_some.1 hm
  have hmb := (h.chan s.sel).mbox m hm
  have hstate : (s.chan s.sel).state = .awaitingResponse := by rw [hmb.state, hst]; rfl
  have hr : (s.chan s.sel).noresp = false := hmb.expects (by rw [hst]; rfl)
  have hp := (h.chan s.sel).present ((h.chan s.sel).busy_of_mc hm)
  have k := chanMove_issueEvent s s.sel (.statRd v) rfl
  unfold State.mboxPoll
  split
  · refine inv_alone h (k.trans (chanMove_modChan _ s.sel _)) hx hm (by simp [hst]) ⟨rfl, rfl⟩
      { m with step := .flag } true rfl rfl nofun (fun _ => ⟨hr, rfl⟩) hmb.strobed hmb.pollSoon ?_
    simp [Channel.setMboxStep, hm, hstate, MboxStep.seqState]
  split
  · exact inv_complete h k hp hx rfl _ _ rfl _
  · refine inv_alone h (k.trans (chanMove_modChan _ s.sel _)) hx hm (by simp [hst]) ⟨rfl, rfl⟩
      { m with tnext := s.now + s.params.pollDelayTicks.toNat } true (by simp [hst, MboxStep.alone]) rfl (by simp [hst])
      (fun _ => ⟨hr, rfl⟩) hmb.strobed (Nat.le_refl _) ?_
    simp [hm, hst, hstate, MboxStep.seqState]

/-- The flag step keeps the invariant (42_mailbox.md R266). -/
theorem inv_flag (hm : s.mboxAt .flag = some m) : ((s.issueEvent s.sel (.flagRd v)).mboxFlag s.sel v).Inv := by
  obtain ⟨hx, hm, hst⟩ := mboxAt_eq_some.1 hm
  have hr : (s.chan s.sel).noresp = false := ((h.chan s.sel).mbox m hm).expects (by rw [hst]; rfl)
  have hp := (h.chan s.sel).present ((h.chan s.sel).busy_of_mc hm)
  have k := chanMove_issueEvent s s.sel (.flagRd v) rfl
  by_cases hv : v = 0
  · subst hv
    rw [mboxFlag_good]
    refine inv_sub h ((k.trans (chanMove_modChan _ s.sel _)).trans (chanMove_startTransfer _ s.sel _ _ _ _ _)) hx hm
      (by simp [hst]) ⟨rfl, rfl⟩ rfl .read
      { dir := .rd, ec := 0, n := 40, buf := .rxbuf 0, ops := xferOps 0 40, pos := 0, sum := 0, ret := .validate } true
      ⟨rfl, rfl, rfl, rfl, rfl⟩ nofun (fun _ => ⟨hr, rfl⟩) rfl (by simp) (by simp) ?_
    rw [startTransfer_chan_self, chan_modChan_self, issueEvent_chan_self]
    simp [Channel.bindXfer, Channel.setMboxStep, hm, Buf.viaMbx, respTotal, MboxStep.seqState]
  · rw [mboxFlag_bad _ _ _ hv]
    exact inv_complete h k hp hx rfl _ _ rfl _

end Mailbox

/-- Every instruction keeps the invariant. -/
theorem inv_exec {s t : State} {i : Instr} (h : s.Inv) (he : exec i s = .next t) : t.Inv := by
  cases i with
  | configure => cases he; exact inv_accept h _ _ fun hp hb => inv_configureWindow h hp hb _
  | xferWr => cases he; exact inv_accept h _ _ fun hp hb => inv_xferStart h hp hb _ .wr rfl
  | xferRd => cases he; exact inv_accept h _ _ fun hp hb => inv_xferStart h hp hb _ .rd rfl
  | mboxExec n =>
    cases he
    exact inv_accept h _ _ fun hp hb => inv_mboxStart h hp hb _ n (by cases n <;> rfl) (by cases n <;> rfl)
  | selLo v =>
    obtain ⟨x, ph, hop, rfl⟩ := execSelLo_eq_next.1 he
    exact inv_opStep h hop rfl x.sum
  | selHi v =>
    obtain ⟨x, ph, hop, rfl⟩ := execSelHi_eq_next.1 he
    exact inv_opStep h hop rfl x.sum
  | dbWr j v =>
    obtain ⟨x, idx, ph, hop, -, -, rfl⟩ := execDbWr_eq_next.1 he
    exact inv_opStep (i := .dbWr j v) h hop (decide_eq_true (slot_lt_of_currentOp h hop)) _
  | dbRd j v =>
    obtain ⟨x, idx, ph, s', hop, -, hs, rfl⟩ := execDbRd_eq_next.1 he
    exact inv_opStep_stored (i := .dbRd j v) h hop (decide_eq_true (slot_lt_of_currentOp h hop)) (dst_frame hs) _
  | dhWr g v =>
    obtain ⟨x, idx, ph, b0, b1, hop, -, -, -, -, rfl⟩ := execDhWr_eq_next.1 he
    exact inv_opStep (i := .dhWr g v) h hop (decide_eq_true (half_lt_of_currentOp h hop)) _
  | dhRd g v =>
    obtain ⟨x, idx, ph, s', hop, -, hs, rfl⟩ := execDhRd_eq_next.1 he
    exact inv_opStep_stored (i := .dhRd g v) h hop (decide_eq_true (half_lt_of_currentOp h hop)) (dst2_frame hs) _
  | strobe v =>
    obtain ⟨m, hm, -, rfl⟩ := execStrobe_eq_next.1 he
    exact inv_strobe h v hm
  | statRd v =>
    obtain ⟨m, hm, -, rfl⟩ := execStatRd_eq_next.1 he
    exact inv_poll h v hm
  | flagRd v =>
    obtain ⟨m, hm, rfl⟩ := execFlagRd_eq_next.1 he
    exact inv_flag h v hm

/-! ### Steps without a port event -/

section Internal

variable {s : State} (h : s.Inv) {c : ChanId}
include h

/-- The step that acquires XLOCK keeps the invariant (41_transfer.md R213). -/
theorem inv_acquireXlock {x : XferCtx} (hx : (s.chan c).xc = some x) (hfree : s.xlock = .free) :
    (s.acquireXlock c x).Inv := by
  have hc := h.chan c
  have hb := hc.busy_of_xc hx
  have hp : c.val < s.params.nch := of_decide_eq_true (hc.present hb)
  obtain ⟨hok, -⟩ := hc.xfer x hx
  have hh : (s.acquireXlock c x).holdsXlock c := ⟨x.viaMbx, rfl⟩
  have hu : (s.acquireXlock c x).chan c =
      { s.chan c with xc := some { x with pos := 0 }, state := x.stateAt x.ops.head? (s.chan c).state } := by
    rw [State.acquireXlock, setXlock_chan, chan_modChan_self]
  have k : ChanMove s (s.acquireXlock c x) c := (chanMove_modChan s c _).trans
    (chanMove_setXlock _ c _ (fun d via _ => by simp [hfree]) fun d via hd e => hd (XLock.held.inj e).1.symm)
  refine h.of_move k ⟨fun ha => absurd hp (Nat.not_lt.2 ha), ?_, ?_, ?_, ?_, ?_, ?_, ?_, ?_, ?_⟩ <;> rw [hu]
  · intro hb'; cases hb.symm.trans hb'
  · rw [configured_of_move k]
    intro _
    obtain ⟨a1, a2, a3, a4, a5, a6, -⟩ := hc.inFlight hb
    exact ⟨a1, a2, a3, a4, a5, a6, .inl rfl⟩
  · intro y hy
    cases hy
    exact ⟨⟨hok.ops, hok.nonempty, hok.inEc, Nat.zero_lt_of_lt hok.pos⟩, fun hn => absurd hh hn⟩
  · intro y hy hm
    cases hy
    obtain ⟨⟨hop, hec, hlen, hbuf, hret, hin⟩, -⟩ := hc.direct x hx hm
    refine ⟨⟨hop, hec, hlen, hbuf, hret, hin⟩, fun _ => ?_, fun hn => absurd hh hn⟩
    have hvia : x.viaMbx = false := by rw [XferCtx.viaMbx, hbuf]; rfl
    obtain ⟨op, hop⟩ : ∃ op, x.ops[0]? = some op := ⟨_, List.getElem?_eq_getElem (Nat.zero_lt_of_lt hok.pos)⟩
    simp [XferCtx.stateAt, hvia, List.head?_eq_getElem?, hop]
  · intro y m hy hm
    cases hy
    exact hc.sub x m hx hm
  · intro m hm
    obtain ⟨a1, a2, a3, a4, a5, a6, a7, a8, a9, a10⟩ := hc.mbox m hm
    refine ⟨a1, ?_, a3, a4, a5, a6, a7, a8, a9, a10⟩
    simp [XferCtx.stateAt, (hc.sub x m hx hm).viaMbx, a2]
  · intro m hy; cases hy
  · exact hc.mlock
  · intro via hv
    exact ⟨_, rfl, (XLock.held.inj hv).2⟩

/-- The step that acquires MLOCK keeps the invariant (42_mailbox.md R243). -/
theorem inv_acquireMlock {m : MboxCtx} (hx : (s.chan c).xc = none) (hm : (s.chan c).mc = some m)
    (hst : m.step = .lock) (hfree : s.mlock = .free) : (s.acquireMlock c).Inv := by
  have hc := h.chan c
  have hb := hc.busy_of_mc hm
  have hp : c.val < s.params.nch := of_decide_eq_true (hc.present hb)
  have hxl := hc.xlock_ne hx
  have hu : (s.acquireMlock c).chan c = { s.chan c with mc := some { m with step := .build } } := by
    rw [State.acquireMlock, setMlock_chan, chan_modChan_self, Channel.setMboxStep, hm, Option.map_some]
  have k : ChanMove s (s.acquireMlock c) c := (chanMove_modChan s c _).trans
    (chanMove_setMlock _ c _ fun d hd => by simp [hfree, Ne.symm hd])
  refine h.of_move k ⟨fun ha => absurd hp (Nat.not_lt.2 ha), ?_, ?_, ?_, ?_, ?_, ?_, ?_, ?_,
    fun via e => absurd e (hxl via)⟩ <;> rw [hu]
  · intro hb'; cases hb.symm.trans hb'
  · rw [configured_of_move k]
    intro _
    obtain ⟨a1, a2, a3, a4, a5, a6, -⟩ := hc.inFlight hb
    exact ⟨a1, a2, a3, a4, a5, a6, .inr rfl⟩
  · simp [hx]
  · simp [hx]
  · simp [hx]
  · intro m' hm'
    cases hm'
    obtain ⟨a1, a2, a3, a4, a5, a6, -, -, a9, a10⟩ := hc.mbox m hm
    exact ⟨a1, by rw [a2, hst]; rfl, a3, a4, a5, a6, nofun, nofun, a9, a10⟩
  · intro m' _ hm'
    cases hm'
    rfl
  · exact ⟨fun _ => ⟨_, rfl, nofun⟩, fun _ => rfl⟩

/-- The build step keeps the invariant (42_mailbox.md R246). -/
theorem inv_mboxBuild {m : MboxCtx} (hx : (s.chan c).xc = none) (hm : (s.chan c).mc = some m)
    (hst : m.step = .build) : (s.mboxBuild c m).Inv := by
  unfold State.mboxBuild
  dsimp only
  split
  · exact h
  next payload _ =>
  generalize overlay (requestBytes s.params (s.chan c).mailboxId m.len payload) s.txbuf = tx
  have k : ChanMove s (s.setTxbuf tx) c := chanMove_buffers s c s.hostMem tx s.rxbuf id id
  refine inv_sub h ((k.trans (chanMove_modChan _ c _)).trans (chanMove_startTransfer _ c _ _ _ _ _)) hx hm
    (by simp [hst]) ⟨rfl, rfl⟩ rfl .sendHdr
    { dir := .wr, ec := 0, n := 8, buf := .txbuf 0, ops := xferOps 0 8, pos := 0, sum := 0, ret := .sendPayload }
    (s.chan c).evented ⟨rfl, rfl, rfl, rfl, rfl⟩ nofun nofun rfl (by simp) (by simp) ?_
  rw [startTransfer_chan_self, chan_modChan_self, setTxbuf_chan]
  simp [Channel.bindXfer, Channel.setMboxStep, hm, Buf.viaMbx, hdrSize, MboxStep.seqState]

/-- The validate step keeps the invariant (42_mailbox.md R269). -/
theorem inv_mboxValidate {m : MboxCtx} (hx : (s.chan c).xc = none) (hm : (s.chan c).mc = some m) :
    (s.mboxValidate c).Inv := by
  have hp := (h.chan c).present ((h.chan c).busy_of_mc hm)
  obtain ⟨kind, code, st, -, hst, e⟩ | ⟨s', hs, -, -, -, e⟩ | e := mboxValidate_cases s c
  · rw [e]; exact inv_complete h (.refl s c) hp hx rfl _ _ hst _
  · rw [e]
    obtain ⟨mem, rfl, -, hwf, hbelow⟩ := hostWrites_eq_some hs
    exact inv_complete h (chanMove_buffers s c mem s.txbuf s.rxbuf hwf hbelow) hp hx rfl _ _ rfl _
  · rw [e]; exact h

end Internal

/-- A channel's step without a port event keeps the invariant. -/
theorem inv_internalStep {s : State} (h : s.Inv) : s.internalStep.Inv := by
  obtain e | ⟨x, hx, hfree, e⟩ | ⟨m, hx, hm, ⟨hst, hfree, e⟩ | ⟨hst, e⟩ | ⟨-, e⟩⟩ := internalStep_cases s <;> rw [e]
  · exact h
  · exact inv_acquireXlock h hx hfree
  · exact inv_acquireMlock h hx hm hst hfree
  · exact inv_mboxBuild h hx hm hst
  · exact inv_mboxValidate h hx hm

/-- A channel's step keeps the invariant. -/
theorem inv_channelStep {s t : State} {c : ChanId} {ans : Answer} (h : s.Inv) (he : s.channelStep c ans = .next t) :
    t.Inv := by
  obtain ⟨-, e⟩ | ⟨-, i, u, -, hi, e⟩ | ⟨-, -, e⟩ := channelStep_cases s c ans <;> cases e.symm.trans he
  · exact h
  · exact inv_exec (h.select c) hi
  · exact inv_internalStep (h.select c)

/-! ### Clients -/

/-- Storing an argument changes neither the status nor the contexts of a channel (40_control.md R172). -/
theorem setArg_frame (ch : Channel) (j : Fin 5) (v : Word) :
    (ch.setArg j v).busy = ch.busy ∧ (ch.setArg j v).xc = ch.xc ∧ (ch.setArg j v).mc = ch.mc ∧
      (ch.setArg j v).state = ch.state := by
  unfold Channel.setArg
  split <;> exact ⟨rfl, rfl, rfl, rfl⟩

/-- What a write within a channel can do, but for `CH_CMD`: `DONE` is at most cleared and `WDROP` set or cleared, or an
argument is stored while no command is in flight (40_control.md R172, R173, R178, R179). -/
theorem channel_write_cases (ch : Channel) (r : Nat) (v : Word) :
    (∃ w d, (d = true → ch.done = true) ∧ ch.write r v = { ch with wdrop := w, done := d }) ∨
    (ch.busy = false ∧ ∃ j, ch.write r v = ch.setArg j v) := by
  unfold Channel.write
  split
  · exact .inl ⟨_, _, fun hd => (Bool.and_eq_true_iff.1 hd).1, rfl⟩
  split
  · next j _ =>
    unfold Channel.writeArg
    split
    · exact .inl ⟨true, ch.done, id, rfl⟩
    · next hb => exact .inr ⟨by simpa using hb, j, rfl⟩
  · exact .inl ⟨ch.wdrop, ch.done, id, rfl⟩

/-- The channel a control-register offset names is present (10_state.md R41). -/
theorem present_of_chanOfOffset {s : State} {off r : Nat} {c : ChanId} (h : s.chanOfOffset off = some (c, r)) :
    s.present c = true := by
  unfold State.chanOfOffset at h
  dsimp only at h
  split at h
  · split at h
    · cases h
    split at h
    · next hp => cases h; exact hp
    · cases h
  · cases h

section Clients

variable {s t : State} (h : s.Inv)
include h

/-- A write within a channel, but for `CH_CMD`, keeps the invariant. -/
theorem inv_channelWrite {c : ChanId} (hp : s.present c = true) (r : Nat) (v : Word) :
    (s.modChan c fun ch => ch.write r v).Inv := by
  refine h.of_move (chanMove_modChan s c _) ?_
  obtain ⟨w, d, hd, e⟩ | ⟨hb, j, e⟩ := channel_write_cases (s.chan c) r v
  · exact (h.chan c).flags hp w d hd (by rw [chan_modChan_self, e]) rfl rfl rfl rfl rfl
  · obtain ⟨fb, fx, fm, fs⟩ := setArg_frame (s.chan c) j v
    obtain ⟨hx, hm, hst⟩ := (h.chan c).atRest hb
    obtain ⟨hxl, hml⟩ := (h.chan c).not_holds hb
    refine ChanInv.rest hp ?_ ?_ ?_ ?_ hxl hml <;> rw [chan_modChan_self, e]
    · exact fb.trans hb
    · exact fx.trans hx
    · exact fm.trans hm
    · rw [fs]; exact hst

/-- A control-register write keeps the invariant. -/
theorem inv_csrWrite {off : Nat} {v : Word} (he : s.csrWrite off v = .next t) : t.Inv := by
  unfold State.csrWrite at he
  split at he
  · next c r hc =>
    split at he
    · unfold State.writeCommand at he
      split at he
      · exact inv_exec (h.select c) he
      · cases he; exact inv_rejectCommand (h.select c) v
    · cases he; exact inv_channelWrite h (present_of_chanOfOffset hc) r v
  · cases he; exact h

theorem State.Inv.setClient (k : ChanId) (cl : Client) : (s.setClient k cl).Inv :=
  h.of_same rfl ⟨id, id⟩ ⟨id, id⟩ ⟨rfl, rfl, rfl, rfl, rfl⟩ (Nat.le_refl _) (fun _ => rfl) ⟨rfl, rfl⟩

theorem State.Inv.hostWrites {a : Word} {bs : List Byte} (hs : s.hostWrites a bs = some t) : t.Inv := by
  obtain ⟨m, rfl, -, hwf, hbelow⟩ := hostWrites_eq_some hs
  exact h.of_same rfl ⟨hwf, hbelow⟩ ⟨id, id⟩ ⟨rfl, rfl, rfl, rfl, rfl⟩ (Nat.le_refl _) (fun _ => rfl) ⟨rfl, rfl⟩

/-- A client's write keeps the invariant (40_control.md R170; 70_reset_and_hazards.md R337). -/
theorem inv_clientWrite {k : ChanId} {a : Word} {w : Width} {v : Word} {rest : List ClientOp}
    (he : s.clientWrite k a w v rest = .next t) : t.Inv := by
  unfold State.clientWrite at he
  split at he
  · exact inv_csrWrite (h.setClient k _) he
  split at he
  · cases he; exact h
  split at he
  · next hs => cases he; exact (h.hostWrites hs).setClient k _
  · cases he; exact h

/-- A client's read keeps the invariant (40_control.md R171). -/
theorem inv_clientRead (k : ChanId) (a : Word) (w : Width) (rest : List ClientOp) : (s.clientRead k a w rest).Inv := by
  unfold State.clientRead
  split
  · exact h.setClient k _
  split
  · exact h
  split
  · exact h.setClient k _
  · exact h

/-- A client's step keeps the invariant. -/
theorem inv_clientStep {k : ChanId} (he : s.clientStep k = .next t) : t.Inv := by
  unfold State.clientStep at he
  split at he
  · cases he; exact h
  split at he
  · cases he; exact h
  · exact inv_clientWrite h he
  · cases he; exact inv_clientRead h k _ _ _
  · cases he; exact h.setClient k _

end Clients

/-! ### Reset, and the step of the machine -/

/-- Reset's values of the block meet the invariant, whatever the memories hold (10_state.md R69, R70). -/
theorem inv_of_reset {s : State} (hp : s.params.wf = true) (hh : s.hostMem.wf = true ∧ s.hostMem.below (2 ^ 32) = true)
    (he : s.ec.mem.wf = true ∧ s.ec.mem.below (2 ^ 16) = true) (hw : SameWindow (State.resetWith s.params) s)
    (hl : SameLocks (State.resetWith s.params) s) (hc : ∀ c, s.chan c = Channel.reset) : s.Inv where
  params := hp
  hostMem := hh
  ecMem := he
  window _ := ⟨hw.emiBase, hw.emiEnd, hw.cmdPort, hw.dataPort⟩
  evenBase _ := by rw [hw.emiBase]; rfl
  chan c := by
    have hxl : s.xlock = .free := hl.xlock
    have hml : s.mlock = .free := hl.mlock
    refine ⟨fun _ => hc c, ?_, ?_, ?_, ?_, ?_, ?_, ?_, ?_, ?_⟩ <;> simp [hc c, hxl, hml, Channel.reset]

/-- A change the EC makes to its own state keeps EC memory in form (20_memory.md R82). -/
theorem ecMem_move (e : EcSide) (m : EcMove) :
    (e.mem.wf = true → (e.move m).mem.wf = true) ∧
      (e.mem.below (2 ^ 16) = true → (e.move m).mem.below (2 ^ 16) = true) := by
  cases m with
  | setMem a b => exact ⟨fun w => Memory.wf_write _ _ w, fun w => Memory.below_write _ _ a.isLt w⟩
  | _ => exact ⟨id, id⟩

/-- Every agent's step keeps the invariant. -/
theorem inv_perform {s t : State} {i : Input} (h : s.Inv) (he : s.perform i = .next t) : t.Inv := by
  cases i with
  | client k => exact inv_clientStep h he
  | channel c ans => exact inv_channelStep h he
  | ec m =>
    cases he
    exact h.of_same rfl ⟨id, id⟩ (ecMem_move s.ec m) ⟨rfl, rfl, rfl, rfl, rfl⟩ (Nat.le_refl _) (fun _ => rfl) ⟨rfl, rfl⟩
  | clock d =>
    cases he
    exact h.of_same rfl ⟨id, id⟩ ⟨id, id⟩ ⟨rfl, rfl, rfl, rfl, rfl⟩ (Nat.le_add_right _ _) (fun _ => rfl) ⟨rfl, rfl⟩
  | reset =>
    cases he
    exact inv_of_reset h.params h.hostMem h.ecMem ⟨rfl, rfl, rfl, rfl, rfl⟩ ⟨rfl, rfl⟩ (resetBlock_chan s)

/-- Taking a move from the schedule keeps the invariant. -/
theorem State.Inv.nextInput {s : State} (h : s.Inv) : s.nextInput.2.Inv := by
  unfold State.nextInput
  split <;>
  exact h.of_same rfl ⟨id, id⟩ ⟨id, id⟩ ⟨rfl, rfl, rfl, rfl, rfl⟩ (Nat.le_refl _) (fun _ => rfl) ⟨rfl, rfl⟩

/-- Settles O4: each agent's step keeps the invariant, and so does taking its move from the schedule. -/
theorem everyStepKeepsInvariant : Obligations.EveryStepKeepsInvariant :=
  fun _ _ h he => inv_perform h.nextInput he

/-- Settles O3: nothing is in flight after reset, the locks are free and the window is not configured. -/
theorem invariantHoldsAfterReset : Obligations.InvariantHoldsAfterReset := by
  have hreset : ∀ p : Params, p.wf = true → (State.resetWith p).Inv := fun p hp =>
    inv_of_reset hp ⟨rfl, rfl⟩ ⟨rfl, rfl⟩ ⟨rfl, rfl, rfl, rfl, rfl⟩ ⟨rfl, rfl⟩ fun c => resetWith_chan c p
  exact ⟨hreset _ (by decide), hreset⟩

end Sys2Proof.Machine

/-! SUPPORT. Reset's values of the block (10_state.md R69, R70), the accesses of control-register space that are not
admitted (R33), and the words of the global registers (R36 to R41). -/

namespace Sys2Proof.Machine

/-! ### Reset -/

/-- Settles O1: every field of a reset channel and of a reset buffer is 0. -/
theorem resetLeavesBlockStateZero : Obligations.ResetLeavesBlockStateZero := by
  intro p
  have hzero : ∀ j, Channel.reset.arg j = 0 := by decide
  refine ⟨rfl, rfl, rfl, rfl, rfl, rfl, rfl, rfl, fun c => ?_, fun i => ?_, rfl⟩
  · rw [resetWith_chan]
    exact ⟨rfl, rfl, hzero, rfl, rfl, rfl, rfl, rfl, rfl⟩
  · simp [State.resetWith]

/-- Settles O2: the step is `resetBlock`, which keeps what stands outside the block. -/
theorem resetStepTouchesBlockOnly : Obligations.ResetStepTouchesBlockOnly := by
  intro s sch hs
  refine ⟨(s.setSched sch).resetBlock, ?_, ⟨rfl, rfl, rfl, rfl, rfl⟩, ⟨rfl, rfl⟩, ⟨rfl, rfl⟩,
    resetBlock_chan _, rfl, rfl, fun _ => rfl, rfl⟩
  simp only [step, State.runNext, State.nextInput, hs, State.perform]

/-! ### Inadmissible accesses -/

/-- An access that starts in control-register space touches it (10_state.md R33). -/
theorem touchesCsr_of_inCsr {p : Params} {a : Word} (w : Width) (h : inCsr p a = true) : touchesCsr p a w = true := by
  have h0 : hostIndex a 0 = a := by simp [hostIndex]
  refine List.any_eq_true.2 ⟨0, List.mem_range.2 ?_, by rw [h0]; exact h⟩
  cases w <;> decide

section Inadmissible

variable {s : State} {k : ChanId} {a : Word} {w : Width} {rest : List ClientOp}
  (hadm : csrAdmitted s.params a w = false) (htouch : touchesCsr s.params a w = true)
include hadm htouch

/-- A write that touches control-register space and is not admitted leaves its client no step (10_state.md R33). -/
theorem clientWrite_inadmissible (v : Word) : s.clientWrite k a w v rest = .next s := by
  simp [State.clientWrite, hadm, htouch]

/-- A read that touches control-register space and is not admitted leaves its client no step (10_state.md R33). -/
theorem clientRead_inadmissible : s.clientRead k a w rest = s := by
  simp [State.clientRead, hadm, htouch]

end Inadmissible

/-- Settles O18: the access starts in the space, so it touches it, and its width or its address bars it there. -/
theorem inadmissibleControlAccessHasNoStep : Obligations.InadmissibleControlAccessHasNoStep := by
  intro s k a w v rest sch hs hlo hhi hbad hprog
  have htouch : touchesCsr (s.setSched sch).params a w = true := touchesCsr_of_inCsr w (decide_eq_true ⟨hlo, hhi⟩)
  have hadm : csrAdmitted (s.setSched sch).params a w = false := by
    rcases hbad with hw | ha
    · simp [csrAdmitted, hw]
    · simp [csrAdmitted, ha]
  rw [step_client hs, State.clientStep]
  split
  · rfl
  rcases hprog with hp | hp
  · have hl : ((s.setSched sch).client k).prog = .write a w v :: rest := hp
    rw [hl]
    exact clientWrite_inadmissible hadm htouch v
  · have hl : ((s.setSched sch).client k).prog = .read a w :: rest := hp
    rw [hl]
    exact congrArg Host.Outcome.next (clientRead_inadmissible hadm htouch)

/-! ### Global registers -/

/-- A field at bit `k` joined to a word below it adds to that word's value. -/
theorem toNat_or_field {x y : Word} {k a q : Nat} (hx : x.toNat = a) (ha : a < 2 ^ k) (hy : y.toNat = 2 ^ k * q) :
    (x ||| y).toNat = a + 2 ^ k * q := by
  rw [BitVec.toNat_or, hx, hy, Nat.or_comm, ← Nat.two_pow_add_eq_or_of_lt ha, Nat.add_comm]

/-- A 16-bit register reads as its own value (10_state.md R37). -/
theorem halfWord_toNat (v : Half) : (halfWord v).toNat = v.toNat :=
  BitVec.toNat_setWidth_of_le (by decide)

/-- A field at bit `k` that fits in a word. -/
theorem toNat_field_at {v : Word} {k : Nat} (h : v.toNat * 2 ^ k < 2 ^ 32) : (v <<< k).toNat = 2 ^ k * v.toNat := by
  rw [BitVec.toNat_shiftLeft, Nat.shiftLeft_eq, Nat.mod_eq_of_lt h, Nat.mul_comm]

/-- One bit at position `k`. -/
theorem bitAt_toNat (b : Bool) {k : Nat} (hk : k < 32) : (bitAt b k).toNat = 2 ^ k * b.toNat := by
  cases b with
  | false => rfl
  | true =>
    have hlt : (1 : Word).toNat * 2 ^ k < 2 ^ 32 := by
      simpa using Nat.pow_lt_pow_right (a := 2) (by decide) hk
    exact toNat_field_at hlt

/-- A byte as a field at bit `k`. -/
theorem byteAt_toNat (b : Byte) {k : Nat} (hk : k ≤ 24) : ((b.setWidth 32 : Word) <<< k).toNat = 2 ^ k * b.toNat := by
  have hb : (b.setWidth 32 : Word).toNat = b.toNat := BitVec.toNat_setWidth_of_le (by decide)
  have hlt : b.toNat * 2 ^ k < 2 ^ 32 := calc
    b.toNat * 2 ^ k < 2 ^ 8 * 2 ^ k := Nat.mul_lt_mul_of_pos_right b.isLt (Nat.two_pow_pos k)
    _ = 2 ^ (8 + k) := (Nat.pow_add 2 8 k).symm
    _ ≤ 2 ^ 32 := Nat.pow_le_pow_right (by decide) (by omega)
  rw [toNat_field_at (by rwa [hb]), hb]

/-- `CFG_STATUS` (10_state.md R36). -/
theorem cfgStatusWord_toNat (s : State) : s.cfgStatusWord.toNat =
    (if s.emiBase ≠ 0 ∧ s.emiEnd ≠ 0 then 1 else 0) + (if s.cfgLocked = true then 2 else 0) := by
  have hc : s.configured.toNat = if s.emiBase ≠ 0 ∧ s.emiEnd ≠ 0 then 1 else 0 := by
    simp [State.configured, Bool.toNat, Bool.cond_eq_ite]
  have hl : 2 ^ 1 * s.cfgLocked.toNat = if s.cfgLocked = true then 2 else 0 := by cases s.cfgLocked <;> rfl
  have h0 : (bitAt s.configured 0).toNat = s.configured.toNat :=
    (bitAt_toNat s.configured (by decide)).trans (Nat.one_mul _)
  rw [← hc, ← hl]
  exact toNat_or_field h0 (Bool.toNat_lt _) (bitAt_toNat s.cfgLocked (by decide))

/-- A held transfer-engine lock in `LOCK_STATUS` (10_state.md R38). -/
theorem xlockWord_held (c : ChanId) (via : Bool) :
    (XLock.held c via).word.toNat = 1 + (if via = true then 2 else 0) + 2 ^ 4 * c.val := by
  revert c via; decide

/-- A held mailbox lock in `LOCK_STATUS` (10_state.md R38). -/
theorem mlockWord_held (c : ChanId) : (MLock.held c).word.toNat = 2 ^ 8 + 2 ^ 12 * c.val := by
  revert c; decide

/-- The two locks have separate fields of `LOCK_STATUS` (10_state.md R38). -/
theorem lockStatusWord_toNat (s : State) : s.lockStatusWord.toNat = s.xlock.word.toNat + s.mlock.word.toNat := by
  have hx : s.xlock.word.toNat < 2 ^ 8 := by
    cases s.xlock with
    | free => decide
    | held c via => rw [xlockWord_held]; split <;> omega
  obtain ⟨q, hq⟩ : ∃ q, s.mlock.word.toNat = 2 ^ 8 * q := by
    cases s.mlock with
    | free => exact ⟨0, rfl⟩
    | held c => exact ⟨1 + 2 ^ 4 * c.val, by rw [mlockWord_held]; ring⟩
  rw [hq]
  exact toNat_or_field rfl hx hq

/-- `PARAM` (10_state.md R39). -/
theorem paramWord_toNat (p : Params) : (paramWord p).toNat =
    p.nch % 32 + (if p.validateRespCsum = true then 2 ^ 5 else 0) + (if p.port16OddOk = true then 2 ^ 6 else 0) +
      2 ^ 8 * p.protoVersion.toNat + 2 ^ 16 * p.mbxVersion.toNat + 2 ^ 24 * p.startCmd.toNat := by
  have hnch : (BitVec.ofNat 32 (p.nch % 32)).toNat = p.nch % 32 := by
    rw [BitVec.toNat_ofNat]; omega
  have hv := Bool.toNat_lt p.validateRespCsum
  have ho := Bool.toNat_lt p.port16OddOk
  have hproto := p.protoVersion.isLt
  have hmbx := p.mbxVersion.isLt
  have h5 := toNat_or_field hnch (by omega) (bitAt_toNat p.validateRespCsum (k := 5) (by decide))
  have h6 := toNat_or_field h5 (by omega) (bitAt_toNat p.port16OddOk (k := 6) (by decide))
  have h8 := toNat_or_field h6 (by omega) (byteAt_toNat p.protoVersion (k := 8) (by decide))
  have h16 := toNat_or_field h8 (by omega) (byteAt_toNat p.mbxVersion (k := 16) (by decide))
  have h24 := toNat_or_field h16 (by omega) (byteAt_toNat p.startCmd (k := 24) (by decide))
  refine h24.trans ?_
  cases p.validateRespCsum <;> cases p.port16OddOk <;> rfl

/-- No register is at an offset from 0x24 to 0xFF (10_state.md R35). -/
theorem globalRead_reserved {s : State} {off : Nat} (h : 0x024 ≤ off) : s.globalRead off = 0 := by
  unfold State.globalRead
  split
  iterate 9
    · omega
  · rfl

/-- Settles O14: each register's word is the sum of its fields, and a reserved or absent offset has none. -/
theorem globalRegistersRead : Obligations.GlobalRegistersRead := by
  intro s
  refine ⟨cfgStatusWord_toNat s, halfWord_toNat _, halfWord_toNat _, halfWord_toNat _, halfWord_toNat _, ?_,
    paramWord_toNat _, rfl, rfl, ?_⟩
  · refine (lockStatusWord_toNat s).trans (congrArg₂ _ ?_ ?_)
    · cases s.xlock with
      | free => rfl
      | held c via => exact xlockWord_held c via
    · cases s.mlock with
      | free => rfl
      | held c => exact mlockWord_held c
  · rintro off (⟨hlo, hhi⟩ | hoff)
    · rw [State.csrRead, if_pos hhi, globalRead_reserved hlo]
    · rw [State.csrRead, if_neg (by omega), chanOfOffset_none (.inr hoff)]

end Sys2Proof.Machine

/-! SUPPORT. The command of a channel, its latch and its arguments (10_state.md R43, R47): only the acceptance of a
command and the store of an argument change it, which a busy channel refuses, and reset. -/

namespace Sys2Proof.Machine

/-- The command a channel runs: its latch and its argument registers (10_state.md R43, R47). -/
def Channel.command (ch : Channel) : BitVec 4 × Bool × Word × Word × Word × Word × Word :=
  (ch.op, ch.noresp, ch.arg0, ch.arg1, ch.arg2, ch.arg3, ch.arg4)

/-- From `s` to `t` channel `c` keeps its command. -/
def SameCommand (s t : State) (c : ChanId) : Prop := (t.chan c).command = (s.chan c).command

theorem SameCommand.refl (s : State) (c : ChanId) : SameCommand s s c := rfl

theorem Spared.sameCommand {s t : State} {c : ChanId} (h : Spared s t c) : SameCommand s t c :=
  congrArg Channel.command h.chan

section Updates

variable {s u : State} {c : ChanId} (h : SameCommand s u c) (d : ChanId)
include h

/-- A change of one channel keeps every command where it keeps the one of the channel it changes. -/
theorem SameCommand.modChan {f : Channel → Channel} (hf : ∀ ch, (f ch).command = ch.command) :
    SameCommand s (u.modChan d f) c := by
  unfold SameCommand
  rw [chan_modChan]
  split
  · next e => subst e; exact (hf _).trans h
  · exact h

theorem SameCommand.setXlock (l : XLock) : SameCommand s (u.setXlock l) c := h

theorem SameCommand.setMlock (l : MLock) : SameCommand s (u.setMlock l) c := h

theorem SameCommand.complete (kind : Kind) (code : Half) (st : SeqState) (sum : Byte) :
    SameCommand s (u.complete d kind code st sum) c := by
  refine .setMlock (.modChan h d ?_) _
  exact fun _ => rfl

theorem SameCommand.startTransfer (dir : Dir) (a : Half) (n : Nat) (buf : Buf) (ret : Ret) :
    SameCommand s (u.startTransfer d dir a n buf ret) c := h.modChan d fun _ => rfl

theorem SameCommand.issueEvent (i : Instr) : SameCommand s (u.issueEvent d i) c :=
  h.modChan (f := fun ch => { ch with evented := true }) d fun _ => rfl

theorem SameCommand.framerSendPayload : SameCommand s (u.framerSendPayload d) c := by
  have hstep : SameCommand s (u.modChan d fun ch => ch.setMboxStep .sendPayload) c := h.modChan d fun _ => rfl
  unfold State.framerSendPayload
  dsimp only
  split
  · exact hstep.modChan d fun _ => rfl
  · exact hstep.startTransfer d _ _ _ _ _

theorem SameCommand.endTransfer (x : XferCtx) : SameCommand s (u.endTransfer d x) c := by
  have hfree : SameCommand s (u.setXlock .free) c := h
  unfold State.endTransfer
  dsimp only
  split
  · exact hfree.complete d _ _ _ _
  · exact hfree.framerSendPayload d
  · exact hfree.modChan d fun _ => rfl
  · exact hfree.modChan d fun _ => rfl

/-- An operation of a transfer keeps every command (41_transfer.md R214). -/
theorem SameCommand.opStep (i : Instr) (x : XferCtx) : SameCommand s (u.opStep i x) c := by
  have hevent := h.issueEvent u.sel i
  unfold State.opStep State.advance
  dsimp only
  split
  · exact hevent.endTransfer u.sel _
  · exact hevent.modChan u.sel fun _ => rfl

theorem SameCommand.mboxStrobe : SameCommand s (u.mboxStrobe d) c := by
  unfold State.mboxStrobe
  dsimp only
  split
  · refine .complete (.modChan (.modChan h d ?_) d ?_) d _ _ _ _ <;> exact fun _ => rfl
  · refine .modChan (.modChan h d ?_) d ?_ <;> exact fun _ => rfl

theorem SameCommand.mboxPoll (m : MboxCtx) (v : Byte) : SameCommand s (u.mboxPoll d m v) c := by
  unfold State.mboxPoll
  split
  · exact h.modChan d fun _ => rfl
  split
  · exact h.complete d _ _ _ _
  · exact h.modChan d fun _ => rfl

theorem SameCommand.mboxFlag (v : Byte) : SameCommand s (u.mboxFlag d v) c := by
  unfold State.mboxFlag
  split
  · exact h.complete d _ _ _ _
  · refine .startTransfer (.modChan h d ?_) d _ _ _ _ _
    exact fun _ => rfl

theorem SameCommand.mboxBuild (m : MboxCtx) : SameCommand s (u.mboxBuild d m) c := by
  unfold State.mboxBuild
  dsimp only
  split
  · exact h
  next payload _ =>
  generalize overlay (requestBytes u.params (u.chan d).mailboxId m.len payload) u.txbuf = tx
  have htx : SameCommand s (u.setTxbuf tx) c := h
  refine .startTransfer (.modChan htx d ?_) d _ _ _ _ _
  exact fun _ => rfl

theorem SameCommand.mboxValidate : SameCommand s (u.mboxValidate d) c := by
  obtain ⟨_, _, _, -, -, e⟩ | ⟨u', hu, -, -, -, e⟩ | e := mboxValidate_cases u d <;> rw [e]
  · exact h.complete d _ _ _ _
  · obtain ⟨mem, rfl, -⟩ := hostWrites_eq_some hu
    have hmem : SameCommand s (u.setHostMem mem) c := h
    exact hmem.complete d _ _ _ _
  · exact h

/-- A step without an event keeps every command. -/
theorem SameCommand.internalStep : SameCommand s u.internalStep c := by
  obtain e | ⟨x, -, -, e⟩ | ⟨m, -, -, ⟨-, -, e⟩ | ⟨-, e⟩ | ⟨-, e⟩⟩ := internalStep_cases u <;> rw [e]
  · exact h
  · refine .setXlock (.modChan h u.sel ?_) _
    exact fun _ => rfl
  · refine .setMlock (.modChan h u.sel ?_) _
    exact fun _ => rfl
  · exact h.mboxBuild u.sel m
  · exact h.mboxValidate u.sel

end Updates

section Steps

variable {s t : State} {c : ChanId} (hb : (s.chan c).busy = true)
include hb

/-- A command word keeps the command of a busy channel: it is dropped there, and accepted elsewhere
(40_control.md R173). -/
theorem sameCommand_issueCommand (w : Word) {body : State → State}
    (hbody : ∀ u, c ≠ u.sel → Spared u (body u) c) : SameCommand s (s.issueCommand w body) c := by
  obtain ⟨-, hidle, e⟩ | ⟨-, -, e⟩ | ⟨-, e⟩ := issueCommand_cases (s := s) w body <;> rw [e]
  · have hd : c ≠ s.sel := by
      rintro rfl
      rw [hb] at hidle
      cases hidle
    have haccept := hbody (s.modChan s.sel fun ch => ch.latch w) hd
    exact haccept.sameCommand.trans (Spared.rfl.modChan hd _).sameCommand
  · exact (SameCommand.refl s c).modChan s.sel fun _ => rfl
  · exact .refl s c

/-- Every instruction keeps the command of a busy channel. -/
theorem sameCommand_exec {i : Instr} (he : exec i s = .next t) : SameCommand s t c := by
  have h := SameCommand.refl s c
  cases i with
  | configure => cases he; exact sameCommand_issueCommand hb _ spared_configureWindow
  | xferWr => cases he; exact sameCommand_issueCommand hb _ (spared_xferStart .wr)
  | xferRd => cases he; exact sameCommand_issueCommand hb _ (spared_xferStart .rd)
  | mboxExec n => cases he; exact sameCommand_issueCommand hb _ (spared_mboxStart n)
  | selLo v => obtain ⟨x, -, -, rfl⟩ := execSelLo_eq_next.1 he; exact h.opStep _ _
  | selHi v => obtain ⟨x, -, -, rfl⟩ := execSelHi_eq_next.1 he; exact h.opStep _ _
  | dbWr j v => obtain ⟨x, -, -, -, -, -, rfl⟩ := execDbWr_eq_next.1 he; exact h.opStep _ _
  | dhWr g v => obtain ⟨x, -, -, b0, b1, -, -, -, -, -, rfl⟩ := execDhWr_eq_next.1 he; exact h.opStep _ _
  | dbRd j v =>
    obtain ⟨x, _, _, s', -, -, hs, rfl⟩ := execDbRd_eq_next.1 he
    obtain ⟨m, tx, rx, rfl, -, -⟩ := dst_frame hs
    have hstored : SameCommand s (((s.setHostMem m).setTxbuf tx).setRxbuf rx) c := h
    exact hstored.opStep _ _
  | dhRd g v =>
    obtain ⟨x, _, _, s', -, -, hs, rfl⟩ := execDhRd_eq_next.1 he
    obtain ⟨m, tx, rx, rfl, -, -⟩ := dst2_frame hs
    have hstored : SameCommand s (((s.setHostMem m).setTxbuf tx).setRxbuf rx) c := h
    exact hstored.opStep _ _
  | strobe v =>
    obtain ⟨-, -, -, rfl⟩ := execStrobe_eq_next.1 he
    exact (h.issueEvent s.sel _).mboxStrobe s.sel
  | statRd v =>
    obtain ⟨m, -, -, rfl⟩ := execStatRd_eq_next.1 he
    exact (h.issueEvent s.sel _).mboxPoll s.sel m v
  | flagRd v =>
    obtain ⟨-, -, rfl⟩ := execFlagRd_eq_next.1 he
    exact (h.issueEvent s.sel _).mboxFlag s.sel v

/-- A write within a channel keeps the command of a busy channel (40_control.md R173). -/
theorem sameCommand_channelWrite (d : ChanId) (r : Nat) (v : Word) :
    SameCommand s (s.modChan d fun ch => ch.write r v) c := by
  unfold SameCommand
  rw [chan_modChan]
  split
  · next e =>
    subst e
    obtain ⟨w, dn, -, e⟩ | ⟨hidle, -⟩ := channel_write_cases (s.chan c) r v
    · rw [e]; rfl
    · rw [hb] at hidle; cases hidle
  · rfl

/-- A control-register write keeps the command of a busy channel. -/
theorem sameCommand_csrWrite {off : Nat} {v : Word} (he : s.csrWrite off v = .next t) : SameCommand s t c := by
  unfold State.csrWrite at he
  split at he
  · next d r _ =>
    split at he
    · unfold State.writeCommand at he
      split at he
      · exact sameCommand_exec (s := s.select d) hb he
      · cases he
        exact sameCommand_issueCommand (s := s.select d) hb v fun u hd => Spared.rfl.complete hd _ _ _ _
    · cases he; exact sameCommand_channelWrite hb d r v
  · cases he; rfl

/-- A client's write keeps the command of a busy channel. -/
theorem sameCommand_clientWrite {k : ChanId} {a : Word} {w : Width} {v : Word} {rest : List ClientOp}
    (he : s.clientWrite k a w v rest = .next t) : SameCommand s t c := by
  unfold State.clientWrite at he
  split at he
  · exact sameCommand_csrWrite (s := s.clientGoesOn k rest) hb he
  split at he
  · cases he; rfl
  split at he
  · next hs =>
    cases he
    obtain ⟨m, rfl, -⟩ := hostWrites_eq_some hs
    rfl
  · cases he; rfl

/-- A client's step keeps the command of a busy channel. -/
theorem sameCommand_clientStep {k : ChanId} (he : s.clientStep k = .next t) : SameCommand s t c := by
  unfold State.clientStep at he
  split at he
  · cases he; rfl
  split at he
  · cases he; rfl
  · exact sameCommand_clientWrite hb he
  · cases he
    unfold State.clientRead
    split
    · rfl
    split
    · rfl
    split <;> rfl
  · cases he; rfl

/-- A channel's step keeps the command of a busy channel. -/
theorem sameCommand_channelStep {d : ChanId} {ans : Answer} (he : s.channelStep d ans = .next t) :
    SameCommand s t c := by
  obtain ⟨-, e⟩ | ⟨-, i, u, -, hi, e⟩ | ⟨-, -, e⟩ := channelStep_cases s d ans <;> cases e.symm.trans he
  · rfl
  · exact sameCommand_exec (s := s.select d) hb hi
  · exact (SameCommand.refl (s.select d) c).internalStep

/-- Every agent's step but reset keeps the command of a busy channel. -/
theorem sameCommand_perform {i : Input} (hr : i ≠ .reset) (he : s.perform i = .next t) : SameCommand s t c := by
  cases i with
  | client k => exact sameCommand_clientStep hb he
  | channel d ans => exact sameCommand_channelStep hb he
  | ec m => cases he; rfl
  | clock d => cases he; rfl
  | reset => exact absurd rfl hr

end Steps

/-- Taking a move from the schedule leaves every channel. -/
theorem nextInput_chan (s : State) (c : ChanId) : s.nextInput.2.chan c = s.chan c := by
  unfold State.nextInput
  split <;> rfl

/-- Settles O59: a busy channel keeps its command, which is its latch and its arguments. -/
theorem argumentsOfACommandAreFrozen : Obligations.ArgumentsOfACommandAreFrozen := by
  intro s t c hb hr he
  have hchan := nextInput_chan s c
  have hcmd : (t.chan c).command = (s.chan c).command :=
    (sameCommand_perform (by rw [hchan]; exact hb) hr he).trans (congrArg _ hchan)
  simp only [Channel.command, Prod.mk.injEq] at hcmd
  obtain ⟨hop, hnoresp, h0, h1, h2, h3, h4⟩ := hcmd
  exact ⟨⟨h0, h1, h2, h3, h4⟩, hop, hnoresp⟩

end Sys2Proof.Machine

/-! SUPPORT. What a step does to the port bus and to MLOCK (20_memory.md R96, R102, R103): only the issue of an event
touches the bus, and MLOCK moves only by the lock step, by a completion of its holder and by reset. -/

namespace Sys2Proof.Machine

/-- From `s` to `t` MLOCK stayed, or a channel in no transfer took it free while XLOCK stayed, or its holder's command
ended and freed it (20_memory.md R102, R103). -/
inductive MlockMove (s t : State) : Prop
  | stays (h : t.mlock = s.mlock)
  | taken (d : ChanId) (free : s.mlock = .free) (held : t.mlock = .held d) (xlock : t.xlock = s.xlock)
      (idle : (t.chan d).xc = none)
  | freed (d : ChanId) (held : s.mlock = .held d) (free : t.mlock = .free) (ended : (t.chan d).busy = false)

/-- From `s` to `t` no port event was issued, and MLOCK moved as it may. -/
structure SilentStep (s t : State) : Prop where
  bus : SameBus s t
  mlock : MlockMove s t

theorem SameBus.refl (s : State) : SameBus s s := ⟨rfl, rfl⟩

theorem MlockMove.of_same {r s t : State} (h : MlockMove s t) (hl : SameLocks r s) : MlockMove r t := by
  cases h with
  | stays h => exact .stays (h.trans hl.mlock)
  | taken d free held xlock idle => exact .taken d (hl.mlock ▸ free) held (xlock.trans hl.xlock) idle
  | freed d held free ended => exact .freed d (hl.mlock ▸ held) free ended

theorem SilentStep.of_same {r s t : State} (h : SilentStep s t) (hb : SameBus r s) (hl : SameLocks r s) :
    SilentStep r t :=
  ⟨⟨h.bus.ec.trans hb.ec, h.bus.trace.trans hb.trace⟩, h.mlock.of_same hl⟩

/-! ### The pieces of a step after its event -/

section Silent

variable {s u : State} (hb : SameBus s u) (hm : u.mlock = s.mlock)
include hb hm

/-- A step that leaves the bus and MLOCK as they were. -/
theorem SilentStep.stays : SilentStep s u := ⟨hb, .stays hm⟩

/-- A completion frees MLOCK where the channel holds it (60_exceptions.md R300). -/
theorem SilentStep.complete (c : ChanId) (kind : Kind) (code : Half) (st : SeqState) (sum : Byte) :
    SilentStep s (u.complete c kind code st sum) := by
  refine ⟨⟨hb.ec, hb.trace⟩, ?_⟩
  by_cases hc : s.mlock = .held c
  · refine .freed c hc ?_ (by rw [complete_chan_self]; rfl)
    rw [complete_mlock, hm, hc, releasedBy_self]
  · exact .stays (by rw [complete_mlock, hm, releasedBy_ne hc])

theorem SilentStep.framerSendPayload (c : ChanId) : SilentStep s (u.framerSendPayload c) := by
  unfold State.framerSendPayload
  dsimp only
  split <;> exact .stays ⟨hb.ec, hb.trace⟩ hm

theorem SilentStep.endTransfer (c : ChanId) (x : XferCtx) : SilentStep s (u.endTransfer c x) := by
  have hfree : SameBus s (u.setXlock .free) := ⟨hb.ec, hb.trace⟩
  unfold State.endTransfer
  dsimp only
  split
  · exact .complete hfree hm c _ _ _ _
  · exact .framerSendPayload hfree hm c
  · exact .stays ⟨hb.ec, hb.trace⟩ hm
  · exact .stays ⟨hb.ec, hb.trace⟩ hm

theorem SilentStep.advance (c : ChanId) (x : XferCtx) : SilentStep s (u.advance c x) := by
  unfold State.advance
  dsimp only
  split
  · exact .endTransfer hb hm c _
  · exact .stays ⟨hb.ec, hb.trace⟩ hm

theorem SilentStep.mboxStrobe (c : ChanId) : SilentStep s (u.mboxStrobe c) := by
  unfold State.mboxStrobe
  dsimp only
  split
  · refine .complete ?_ ?_ c _ _ _ _
    · exact ⟨hb.ec, hb.trace⟩
    · exact hm
  · exact .stays ⟨hb.ec, hb.trace⟩ hm

theorem SilentStep.mboxPoll (c : ChanId) (m : MboxCtx) (v : Byte) : SilentStep s (u.mboxPoll c m v) := by
  unfold State.mboxPoll
  split
  · exact .stays ⟨hb.ec, hb.trace⟩ hm
  split
  · exact .complete hb hm c _ _ _ _
  · exact .stays ⟨hb.ec, hb.trace⟩ hm

theorem SilentStep.mboxFlag (c : ChanId) (v : Byte) : SilentStep s (u.mboxFlag c v) := by
  unfold State.mboxFlag
  split
  · exact .complete hb hm c _ _ _ _
  · exact .stays ⟨hb.ec, hb.trace⟩ hm

/-- The write of a command word issues no event where the command's body issues none (40_control.md R174). -/
theorem SilentStep.issueCommand (w : Word) {body : State → State}
    (hbody : ∀ v, SameBus s v → v.mlock = s.mlock → SilentStep s (body v)) : SilentStep s (u.issueCommand w body) := by
  obtain ⟨-, -, e⟩ | ⟨-, -, e⟩ | ⟨-, e⟩ := issueCommand_cases (s := u) w body <;> rw [e]
  · exact hbody _ ⟨hb.ec, hb.trace⟩ hm
  · exact .stays ⟨hb.ec, hb.trace⟩ hm
  · exact .stays hb hm

theorem SilentStep.configureWindow : SilentStep s u.configureWindow := by
  unfold State.configureWindow
  dsimp only
  split
  · exact .complete hb hm _ _ _ _ _
  split
  · exact .complete hb hm _ _ _ _ _
  · refine .complete ?_ ?_ _ _ _ _ _
    · exact ⟨hb.ec, hb.trace⟩
    · exact hm

theorem SilentStep.xferStart (dir : Dir) : SilentStep s (u.xferStart dir) := by
  unfold State.xferStart
  dsimp only
  split
  · exact .complete hb hm _ _ _ _ _
  split
  · exact .complete hb hm _ _ _ _ _
  · exact .stays ⟨hb.ec, hb.trace⟩ hm

theorem SilentStep.mboxStart (n : Bool) : SilentStep s (u.mboxStart n) := by
  unfold State.mboxStart
  dsimp only
  split
  · exact .complete hb hm _ _ _ _ _
  split
  · exact .complete hb hm _ _ _ _ _
  · exact .stays ⟨hb.ec, hb.trace⟩ hm

theorem SilentStep.mboxBuild (c : ChanId) (m : MboxCtx) : SilentStep s (u.mboxBuild c m) := by
  unfold State.mboxBuild
  dsimp only
  split
  · exact .stays hb hm
  next payload _ =>
  generalize overlay (requestBytes u.params (u.chan c).mailboxId m.len payload) u.txbuf = tx
  exact .stays ⟨hb.ec, hb.trace⟩ hm

theorem SilentStep.mboxValidate (c : ChanId) : SilentStep s (u.mboxValidate c) := by
  obtain ⟨_, _, _, -, -, e⟩ | ⟨u', hu, -, -, -, e⟩ | e := mboxValidate_cases u c <;> rw [e]
  · exact .complete hb hm c _ _ _ _
  · obtain ⟨mem, rfl, -⟩ := hostWrites_eq_some hu
    refine .complete ?_ ?_ c _ _ _ _
    · exact ⟨hb.ec, hb.trace⟩
    · exact hm
  · exact .stays hb hm

end Silent

/-! ### Instructions -/

section Steps

variable {s t : State}

/-- A command issues no port event. -/
theorem silent_command {i : Instr} (hi : i.isCommand = true) (he : exec i s = .next t) : SilentStep s t := by
  have hb := SameBus.refl s
  cases i with
  | configure => cases he; exact .issueCommand hb rfl _ fun _ => .configureWindow
  | xferWr => cases he; exact .issueCommand hb rfl _ fun _ hv hm => .xferStart hv hm .wr
  | xferRd => cases he; exact .issueCommand hb rfl _ fun _ hv hm => .xferStart hv hm .rd
  | mboxExec n => cases he; exact .issueCommand hb rfl _ fun _ hv hm => .mboxStart hv hm n
  | _ => cases hi

/-- A port event is issued once, and what its step does after that touches the bus no more (20_memory.md R95, R96). -/
theorem silent_after_event {i : Instr} (hi : i.isCommand = false) (he : exec i s = .next t) :
    SilentStep (s.issueEvent s.sel i) t := by
  have hb := SameBus.refl (s.issueEvent s.sel i)
  cases i with
  | selLo v => obtain ⟨x, -, -, rfl⟩ := execSelLo_eq_next.1 he; exact .advance hb rfl _ _
  | selHi v => obtain ⟨x, -, -, rfl⟩ := execSelHi_eq_next.1 he; exact .advance hb rfl _ _
  | dbWr j v => obtain ⟨x, -, -, -, -, -, rfl⟩ := execDbWr_eq_next.1 he; exact .advance hb rfl _ _
  | dhWr g v => obtain ⟨x, -, -, b0, b1, -, -, -, -, -, rfl⟩ := execDhWr_eq_next.1 he; exact .advance hb rfl _ _
  | dbRd j v =>
    obtain ⟨x, _, _, s', -, -, hs, rfl⟩ := execDbRd_eq_next.1 he
    obtain ⟨m, tx, rx, rfl, -, -⟩ := dst_frame hs
    refine .advance ?_ ?_ _ _
    · exact ⟨rfl, rfl⟩
    · rfl
  | dhRd g v =>
    obtain ⟨x, _, _, s', -, -, hs, rfl⟩ := execDhRd_eq_next.1 he
    obtain ⟨m, tx, rx, rfl, -, -⟩ := dst2_frame hs
    refine .advance ?_ ?_ _ _
    · exact ⟨rfl, rfl⟩
    · rfl
  | strobe v => obtain ⟨-, -, -, rfl⟩ := execStrobe_eq_next.1 he; exact .mboxStrobe hb rfl _
  | statRd v => obtain ⟨m, -, -, rfl⟩ := execStatRd_eq_next.1 he; exact .mboxPoll hb rfl _ m v
  | flagRd v => obtain ⟨-, -, rfl⟩ := execFlagRd_eq_next.1 he; exact .mboxFlag hb rfl _ v
  | _ => cases hi

/-! ### Agents -/

/-- A channel's step without a port event. -/
theorem silent_internalStep (s : State) : SilentStep s s.internalStep := by
  have hb := SameBus.refl s
  obtain e | ⟨x, -, -, e⟩ | ⟨m, hx, hm, ⟨-, hfree, e⟩ | ⟨-, e⟩ | ⟨-, e⟩⟩ := internalStep_cases s <;> rw [e]
  · exact .stays hb rfl
  · exact .stays ⟨rfl, rfl⟩ rfl
  · refine ⟨⟨rfl, rfl⟩, .taken s.sel hfree rfl rfl ?_⟩
    rw [State.acquireMlock, setMlock_chan, chan_modChan_self]
    exact hx
  · exact .mboxBuild hb rfl _ m
  · exact .mboxValidate hb rfl _

/-- A control-register write issues no port event. -/
theorem silent_csrWrite {off : Nat} {v : Word} (he : s.csrWrite off v = .next t) : SilentStep s t := by
  unfold State.csrWrite at he
  split at he
  · next d r _ =>
    split at he
    · unfold State.writeCommand at he
      split at he
      · next i hi => exact (silent_command (decodeCommand_isCommand hi) he).of_same ⟨rfl, rfl⟩ ⟨rfl, rfl⟩
      · cases he
        exact SilentStep.issueCommand (s := s) (u := s.select d) ⟨rfl, rfl⟩ rfl v fun _ hv hm =>
          .complete hv hm _ _ _ _ _
    · cases he; exact .stays ⟨rfl, rfl⟩ rfl
  · cases he; exact .stays (.refl s) rfl

/-- A client's step issues no port event. -/
theorem silent_clientStep {k : ChanId} (he : s.clientStep k = .next t) : SilentStep s t := by
  have hb := SameBus.refl s
  unfold State.clientStep at he
  split at he
  · cases he; exact .stays hb rfl
  split at he
  · cases he; exact .stays hb rfl
  · unfold State.clientWrite at he
    split at he
    · exact (silent_csrWrite he).of_same ⟨rfl, rfl⟩ ⟨rfl, rfl⟩
    split at he
    · cases he; exact .stays hb rfl
    split at he
    · next hs =>
      cases he
      obtain ⟨m, rfl, -⟩ := hostWrites_eq_some hs
      exact .stays ⟨rfl, rfl⟩ rfl
    · cases he; exact .stays hb rfl
  · cases he
    unfold State.clientRead
    split
    · exact .stays ⟨rfl, rfl⟩ rfl
    split
    · exact .stays hb rfl
    split
    · exact .stays ⟨rfl, rfl⟩ rfl
    · exact .stays hb rfl
  · cases he; exact .stays ⟨rfl, rfl⟩ rfl

end Steps
end Sys2Proof.Machine

/-! SUPPORT. The fields of an event descriptor and what it decodes to (30_encoding.md R141, R142): the bytes of a
well-formed instruction decode to it. -/

namespace Sys2Proof.Machine

/-! ### Descriptors -/

/-- The fields of a Format B descriptor (30_encoding.md R141). -/
theorem descriptor_fields (d w : Bool) {t off v : Nat} (ht : t < 4) (hoff : off < 8) (hv : v < 2 ^ 16) :
    field (descriptor d w t off v) 31 31 = d.toNat ∧ field (descriptor d w t off v) 30 30 = w.toNat ∧
      field (descriptor d w t off v) 29 28 = t ∧ field (descriptor d w t off v) 27 19 = 0 ∧
      field (descriptor d w t off v) 18 16 = off ∧ field (descriptor d w t off v) 15 8 = v / 2 ^ 8 ∧
      field (descriptor d w t off v) 15 0 = v ∧ field (descriptor d w t off v) 7 0 = v % 2 ^ 8 ∧
      field (descriptor d w t off v) 31 18 = 2 ^ 13 * d.toNat + 2 ^ 12 * w.toNat + 2 ^ 10 * t + off / 4 := by
  have hd := Bool.toNat_le d
  have hw := Bool.toNat_le w
  simp only [field, descriptor, BitVec.toNat_ofNat]
  omega

/-- A descriptor with a bit of 31:18 set is decoded as an event (30_encoding.md R142). -/
theorem decodeWord_descriptor (d w : Bool) {t off v : Nat} (ht : t < 4) (hoff : off < 8) (hv : v < 2 ^ 16)
    (hs : 4 ≤ 4 * d.toNat + 4 * t + off) :
    decodeWord (descriptor d w t off v) = decodeEvent (descriptor d w t off v) := by
  obtain ⟨-, -, -, -, -, -, -, -, hhigh⟩ := descriptor_fields d w ht hoff hv
  exact if_neg (by rw [hhigh]; omega)

/-- A byte event of the window is decoded from its offset (R142). -/
theorem decodeWord_windowByte (d : Bool) {off : Nat} (v : Byte) (hoff : off < 8) (hs : 4 ≤ 4 * d.toNat + off) :
    decodeWord (descriptor d false 0 off v.toNat) = decodeWindowByte d off v := by
  have hv := v.isLt
  obtain ⟨hd, hw, ht, hz, ho, h15, -, h7, -⟩ :=
    descriptor_fields d false (t := 0) (v := v.toNat) (by omega) hoff (by omega)
  rw [Nat.div_eq_of_lt hv] at h15
  rw [Nat.mod_eq_of_lt hv] at h7
  rw [decodeWord_descriptor d false (by omega) hoff (by omega) (by omega)]
  simp [decodeEvent, hd, hw, ht, hz, ho, h15, h7]

/-- A half event of the window is decoded from its offset (R142). -/
theorem decodeWord_windowHalf (d : Bool) {off : Nat} (v : Half) (hlo : 4 ≤ off) (hhi : off < 8) :
    decodeWord (descriptor d true 0 off v.toNat) = decodeWindowHalf d off v := by
  obtain ⟨hd, hw, ht, hz, ho, -, h15, -, -⟩ := descriptor_fields d true (t := 0) (by omega) hhi v.isLt
  rw [decodeWord_descriptor d true (by omega) hhi v.isLt (by omega)]
  simp [decodeEvent, hd, hw, ht, hz, ho, h15]

/-- An event of the command port is the strobe or the status read, one of the data port the flag read (R142). -/
theorem decodeWord_port (d : Bool) {t : Nat} (v : Byte) (ht : t = 1 ∨ t = 2 ∧ d = false) :
    decodeWord (descriptor d false t 0 v.toNat) =
      .ok (if t = 1 then if d then .strobe v else .statRd v else .flagRd v) := by
  have hv := v.isLt
  obtain ⟨hd, hw, ht', hz, ho, h15, -, h7, -⟩ :=
    descriptor_fields d false (t := t) (off := 0) (v := v.toNat) (by omega) (by omega) (by omega)
  rw [Nat.div_eq_of_lt hv] at h15
  rw [Nat.mod_eq_of_lt hv] at h7
  rw [decodeWord_descriptor d false (by omega) (by omega) (by omega) (by omega)]
  rcases ht with rfl | ⟨rfl, rfl⟩
  · simp [decodeEvent, hd, hw, ht', hz, ho, h15, h7]
  · simp [decodeEvent, hd, hw, ht', hz, ho, h15, h7]

/-- The word of a well-formed instruction decodes to it. -/
theorem decodeWord_encodeWord {i : Instr} (h : i.WellFormed) : decodeWord (encodeWord i) = .ok i := by
  cases i with
  | configure => rfl
  | xferWr => rfl
  | xferRd => rfl
  | mboxExec n => cases n <;> rfl
  | selLo v => simp [encodeWord, decodeWord_windowByte, decodeWindowByte]
  | selHi v => simp [encodeWord, decodeWord_windowByte, decodeWindowByte]
  | dbWr j v =>
    have hj : j < 4 := of_decide_eq_true h
    simp [encodeWord, decodeWord_windowByte, decodeWindowByte, show 4 + j < 8 by omega]
  | dbRd j v =>
    have hj : j < 4 := of_decide_eq_true h
    simp [encodeWord, decodeWord_windowByte, decodeWindowByte, show 4 + j < 8 by omega]
  | dhWr g v =>
    have hg : g = 0 ∨ g = 1 := by have : g < 2 := of_decide_eq_true h; omega
    rcases hg with rfl | rfl <;> simp [encodeWord, decodeWord_windowHalf, decodeWindowHalf]
  | dhRd g v =>
    have hg : g = 0 ∨ g = 1 := by have : g < 2 := of_decide_eq_true h; omega
    rcases hg with rfl | rfl <;> simp [encodeWord, decodeWord_windowHalf, decodeWindowHalf]
  | strobe v => exact decodeWord_port true v (.inl rfl)
  | statRd v => exact decodeWord_port false v (.inl rfl)
  | flagRd v => exact decodeWord_port false v (.inr ⟨rfl, rfl⟩)

/-- The bytes of a word, put together again. -/
theorem wordOfBytes_bytesOfWord (w : Word) :
    wordOfBytes (BitVec.ofNat 8 (field w 7 0)) (BitVec.ofNat 8 (field w 15 8)) (BitVec.ofNat 8 (field w 23 16))
      (BitVec.ofNat 8 (field w 31 24)) = w := by
  apply BitVec.eq_of_toNat_eq
  have := w.isLt
  simp only [wordOfBytes, field, BitVec.toNat_ofNat]
  omega

/-- The bytes of a well-formed instruction decode to it, and the bytes after them are left. -/
theorem decode_encode_append {i : Instr} (h : i.WellFormed) (rest : List Byte) :
    decode (encode i ++ rest) = .ok (i, rest) := by
  simp only [encode, bytesOfWord, List.cons_append, List.nil_append, decode, wordOfBytes_bytesOfWord,
    decodeWord_encodeWord h]

end Sys2Proof.Machine

/-! SUPPORT. The port events of a step (20_memory.md R81, R94): where a channel issues one, its port, the lock it is
issued under, and what the step does to the two locks (R102 to R104). -/

namespace Sys2Proof.Machine

/-! ### The port of an event, and the lock it is issued under -/

/-- The window offset an event of the EMI window goes to (30_encoding.md R142); none for any other instruction. -/
def windowOffset : Instr → Option Nat
  | .selLo _ => some 2
  | .selHi _ => some 3
  | .dbWr j _ | .dbRd j _ => some (4 + j)
  | .dhWr h _ | .dhRd h _ => some (4 + 2 * h)
  | .configure | .xferWr | .xferRd | .mboxExec _ | .strobe _ | .statRd _ | .flagRd _ => none

/-- The descriptor of an event of the window carries its offset, and it goes to the window's port at that offset
(20_memory.md R84, 30_encoding.md R141). -/
theorem window_descriptor (s : State) {i : Instr} {off : Nat} (hw : i.WellFormed) (h : windowOffset i = some off) :
    2 ≤ off ∧ off ≤ 7 ∧ s.eventPort i = some (s.emiBase + BitVec.ofNat 16 off) ∧
      ∃ d w v, v < 2 ^ 16 ∧ encodeWord i = descriptor d w 0 off v := by
  cases i with
  | selLo v => cases h; exact ⟨by omega, by omega, rfl, true, false, v.toNat, by omega, rfl⟩
  | selHi v => cases h; exact ⟨by omega, by omega, rfl, true, false, v.toNat, by omega, rfl⟩
  | dbWr j v =>
    have hj : j < 4 := of_decide_eq_true hw
    cases h; exact ⟨by omega, by omega, rfl, true, false, v.toNat, by omega, rfl⟩
  | dbRd j v =>
    have hj : j < 4 := of_decide_eq_true hw
    cases h; exact ⟨by omega, by omega, rfl, false, false, v.toNat, by omega, rfl⟩
  | dhWr g v =>
    have hg : g < 2 := of_decide_eq_true hw
    cases h; exact ⟨by omega, by omega, rfl, true, true, v.toNat, v.isLt, rfl⟩
  | dhRd g v =>
    have hg : g < 2 := of_decide_eq_true hw
    cases h; exact ⟨by omega, by omega, rfl, false, true, v.toNat, v.isLt, rfl⟩
  | _ => cases h

/-- The fields of an event of the window, and its port as a number. -/
theorem window_port (s : State) {i : Instr} {off : Nat} (hw : i.WellFormed) (h : windowOffset i = some off) :
    2 ≤ off ∧ off ≤ 7 ∧ field (encodeWord i) 29 28 = 0 ∧ field (encodeWord i) 18 16 = off ∧
      s.eventPort i = some (BitVec.ofNat 16 (s.emiBase.toNat + off)) := by
  obtain ⟨hlo, hhi, hport, d, w, v, hv, he⟩ := window_descriptor s hw h
  obtain ⟨-, -, htarget, -, hoff, -⟩ := descriptor_fields d w (t := 0) (by omega) (Nat.lt_succ_of_le hhi) hv
  refine ⟨hlo, hhi, he ▸ htarget, he ▸ hoff, ?_⟩
  rw [hport, BitVec.ofNat_add, BitVec.ofNat_toNat, BitVec.setWidth_eq]

/-- The target of an event of the command or data port (30_encoding.md R141). -/
theorem port_target (d : Bool) {t : Nat} (v : Byte) (ht : t < 4) :
    field (descriptor d false t 0 v.toNat) 29 28 = t := by
  obtain ⟨-, -, h, -⟩ := descriptor_fields d false ht (off := 0) (by omega) (v := v.toNat) (by omega)
  exact h

section Issued

variable {s : State} {ans : Answer} {i : Instr}

/-- An operation of a transfer issues an event of the window. -/
theorem opEvent_windowOffset {x : XferCtx} {op : BusOp} (h : s.opEvent x op ans = some i)
    (hop : (∀ j k p, op = .byte j k p → j < 4) ∧ (∀ g k p, op = .half g k p → g < 2)) :
    i.WellFormed ∧ i.isCommand = false ∧ ∃ off, windowOffset i = some off := by
  obtain ⟨dir, ec, n, buf, ops, pos, sum, ret⟩ := x
  cases op with
  | selLo v ph => cases h; exact ⟨rfl, rfl, _, rfl⟩
  | selHi v ph => cases h; exact ⟨rfl, rfl, _, rfl⟩
  | byte j idx ph =>
    have hj : decide (j < 4) = true := decide_eq_true (hop.1 j idx ph rfl)
    cases dir <;> obtain ⟨_, -, rfl⟩ := Option.map_eq_some_iff.1 h <;> exact ⟨hj, rfl, _, rfl⟩
  | half g idx ph =>
    have hg : decide (g < 2) = true := decide_eq_true (hop.2 g idx ph rfl)
    cases dir with
    | wr =>
      simp only [State.opEvent] at h
      split at h
      · cases h; exact ⟨hg, rfl, _, rfl⟩
      · cases h
    | rd => obtain ⟨_, -, rfl⟩ := Option.map_eq_some_iff.1 h; exact ⟨hg, rfl, _, rfl⟩

/-- The step of a mailbox command that issues an event issues the strobe, a status read or the flag read, and is past
the lock step. -/
theorem mboxEvent_cases {m : MboxCtx} (h : s.mboxEvent m ans = some i) :
    m.step ≠ .lock ∧ (i = .strobe s.params.startCmd ∨ (∃ v, i = .statRd v) ∨ ∃ v, i = .flagRd v) := by
  unfold State.mboxEvent at h
  split at h
  · next e => cases h; exact ⟨by rw [e]; nofun, .inl rfl⟩
  · next e =>
    split at h
    · cases h; exact ⟨by rw [e]; nofun, .inr (.inl ⟨_, rfl⟩)⟩
    · cases h
  · next e => cases h; exact ⟨by rw [e]; nofun, .inr (.inr ⟨_, rfl⟩)⟩
  all_goals cases h

/-- Where the selected channel's next step issues an event: the event is well formed and no command, and it is an event
of the window by the holder of XLOCK or a mailbox event by the holder of MLOCK, which has a command in flight. -/
theorem nextEvent_issued (hinv : s.Inv) (h : s.nextEvent ans = some i) :
    i.WellFormed ∧ i.isCommand = false ∧ (s.chan s.sel).busy = true ∧
      ((s.holdsXlock s.sel ∧ ∃ off, windowOffset i = some off) ∨
       (s.mlock = .held s.sel ∧ (i = .strobe s.params.startCmd ∨ (∃ v, i = .statRd v) ∨ ∃ v, i = .flagRd v))) := by
  have hc := hinv.chan s.sel
  obtain ⟨x, op, hcur, ho⟩ | ⟨m, -, hx, hm, he⟩ := nextEvent_cases h
  · obtain ⟨hheld, hx, hop⟩ := currentOp_eq_some.1 hcur
    obtain ⟨hw, hi, hoff⟩ := opEvent_windowOffset ho (op_wf hinv hx hop)
    exact ⟨hw, hi, hc.busy_of_xc hx, .inl ⟨hheld, hoff⟩⟩
  · obtain ⟨hlock, hi⟩ := mboxEvent_cases he
    have hheld := hc.mlock.2 ⟨m, hm, hlock⟩
    refine ⟨?_, ?_, hc.busy_of_mc hm, .inr ⟨hheld, hi⟩⟩ <;> obtain rfl | ⟨v, rfl⟩ | ⟨v, rfl⟩ := hi <;> rfl

end Issued

/-! ### The step of the machine -/

section Machine

variable {s t : State}

/-- A channel's step is silent, or it issues its next event and is silent after that. -/
theorem channelStep_silent {c : ChanId} {ans : Answer} (h : s.Inv) (he : s.channelStep c ans = .next t) :
    SilentStep s t ∨ ∃ i, (s.select c).nextEvent ans = some i ∧ SilentStep ((s.select c).issueEvent c i) t := by
  obtain ⟨-, e⟩ | ⟨-, i, u, hi, hu, e⟩ | ⟨-, -, e⟩ := channelStep_cases s c ans <;> cases e.symm.trans he
  · exact .inl (.stays (.refl s) rfl)
  · obtain ⟨-, hev, -⟩ := nextEvent_issued (h.select c) hi
    exact .inr ⟨i, hi, silent_after_event hev hu⟩
  · exact .inl ((silent_internalStep (s.select c)).of_same ⟨rfl, rfl⟩ ⟨rfl, rfl⟩)

/-- What an agent's step does to the event history and to MLOCK: at most one event is added, which is the next event of a
channel, and MLOCK moves as it may. -/
theorem perform_trace_mlock {a : Input} (h : s.Inv) (he : s.perform a = .next t) :
    (t.trace = s.trace ∨ ∃ c ans i, (s.select c).nextEvent ans = some i ∧
      t.trace = ((s.select c).issueEvent c i).trace) ∧ MlockMove s t := by
  cases a with
  | client k =>
    have hs := silent_clientStep he
    exact ⟨.inl hs.bus.trace, hs.mlock⟩
  | channel c ans =>
    obtain hs | ⟨i, hi, hs⟩ := channelStep_silent h he
    · exact ⟨.inl hs.bus.trace, hs.mlock⟩
    · exact ⟨.inr ⟨c, ans, i, hi, hs.bus.trace⟩, hs.mlock.of_same ⟨rfl, rfl⟩⟩
  | ec m => cases he; exact ⟨.inl rfl, .stays rfl⟩
  | clock d => cases he; exact ⟨.inl rfl, .stays rfl⟩
  | reset =>
    cases he
    refine ⟨.inl rfl, ?_⟩
    cases hm : s.mlock with
    | free => exact .stays hm.symm
    | held d => exact .freed d hm rfl (by rw [resetBlock_chan]; rfl)

/-- Taking a move from the schedule changes the schedule alone. -/
theorem nextInput_eq (s : State) : ∃ sch n, s.nextInput.2 = (s.setSched sch).setDrawn n := by
  unfold State.nextInput
  split
  · next i rest _ => exact ⟨rest, s.drawn, rfl⟩
  · exact ⟨s.sched, _, rfl⟩

/-- What a step of the machine does to MLOCK. -/
theorem step_mlock (h : s.Inv) (he : step s = .next t) : MlockMove s t := by
  obtain ⟨sch, n, hu⟩ := nextInput_eq s
  refine (perform_trace_mlock h.nextInput he).2.of_same ?_
  rw [hu]
  exact ⟨rfl, rfl⟩

end Machine

/-- Settles O54: the history grows by the next event of a channel at most, and the invariant says which lock that channel
holds. -/
theorem onlyListedPortEventsAreIssued : Obligations.OnlyListedPortEventsAreIssued := by
  intro s t h he
  have hinv := h.nextInput
  obtain ⟨htr, -⟩ := perform_trace_mlock hinv he
  obtain ⟨sch, n, hu⟩ := nextInput_eq s
  rw [hu] at htr hinv
  refine htr.imp_right ?_
  rintro ⟨c, ans, i, hi, htr⟩
  obtain ⟨hw, hev, hbusy, hlock⟩ := nextEvent_issued (hinv.select c) hi
  have hc := h.chan c
  have hp : c.val < s.params.nch := of_decide_eq_true (hc.present hbusy)
  obtain ⟨hcfg, -⟩ := hc.inFlight hbusy
  obtain ⟨hbase, hend⟩ : s.emiBase ≠ 0 ∧ s.emiEnd ≠ 0 := by simpa [State.configured] using hcfg
  have hdec := decodeWord_encodeWord hw
  have hadd : ∀ port, s.eventPort i = some port → t.trace = s.trace ++ [⟨c, encodeWord i, port⟩] := by
    intro port hport
    refine htr.trans (congrArg (s.trace ++ ·) ?_)
    exact congrArg (fun p => p.toList.map fun p => PortEvent.mk c (encodeWord i) p) hport
  obtain ⟨hx, off, hoff⟩ | ⟨hm, hkind⟩ := hlock
  · obtain ⟨hlo, hhi, htarget, hfield, hport⟩ := window_port s hw hoff
    exact ⟨_, i, hadd _ hport, hev, hdec, hbase, hend, hp, .inl ⟨hx, off, hlo, hhi, htarget, hfield, rfl⟩⟩
  · obtain rfl | ⟨v, rfl⟩ | ⟨v, rfl⟩ := hkind
    · exact ⟨_, _, hadd _ rfl, hev, hdec, hbase, hend, hp,
        .inr (.inl ⟨hm, port_target true _ (by omega), rfl⟩)⟩
    · exact ⟨_, _, hadd _ rfl, hev, hdec, hbase, hend, hp,
        .inr (.inl ⟨hm, port_target false v (by omega), rfl⟩)⟩
    · exact ⟨_, _, hadd _ rfl, hev, hdec, hbase, hend, hp,
        .inr (.inr ⟨hm, port_target false v (by omega), rfl⟩)⟩

/-- Settles O56: MLOCK leaves its holder only where the holder's command ends, or in a reset. -/
theorem mailboxLockHeldUntilCompletion : Obligations.MailboxLockHeldUntilCompletion := by
  intro s t c h hheld he
  have hidle := ((everyStepKeepsInvariant s t h he).chan c).not_holds
  cases step_mlock h he with
  | stays hsame => exact ⟨fun _ => hsame.trans hheld, fun hb => absurd (hsame.trans hheld) (hidle hb).2⟩
  | taken d hfree => rw [hheld] at hfree; cases hfree
  | freed d hd hfree hended =>
    cases hheld.symm.trans hd
    exact ⟨fun hb => absurd (hb.symm.trans hended) nofun, fun _ => hfree⟩

/-- A channel that holds XLOCK holds it for a mailbox sub-transfer exactly where it holds MLOCK (20_memory.md R104). -/
theorem ChanInv.via_iff {s : State} {c : ChanId} {via : Bool} (h : ChanInv s c) (hx : s.xlock = .held c via) :
    via = true ↔ s.mlock = .held c := by
  obtain ⟨x, hxc, rfl⟩ := h.xlock via hx
  rw [h.mlock]
  constructor
  · intro hvia
    cases hmc : (s.chan c).mc with
    | none =>
      obtain ⟨hd, -⟩ := h.direct x hxc hmc
      rw [XferCtx.viaMbx, hd.buf] at hvia
      cases hvia
    | some m =>
      refine ⟨m, rfl, fun hlock => ?_⟩
      have hsub := h.sub x m hxc hmc
      rw [SubOk, hlock] at hsub
      exact hsub
  · rintro ⟨m, hmc, -⟩
    exact (h.sub x m hxc hmc).viaMbx

/-- Settles O55: the invariant relates the two locks after the step, and a step that takes one of them leaves the other. -/
theorem mailboxLockComesBeforeTransferLock : Obligations.MailboxLockComesBeforeTransferLock := by
  intro s t c h he
  have hc := (everyStepKeepsInvariant s t h he).chan c
  have hmove := step_mlock h he
  constructor
  · intro via hfree hx
    rw [hc.via_iff hx]
    cases hmove with
    | stays hm => rw [hm]
    | taken d _ _ hxl => rw [hxl, hfree] at hx; cases hx
    | freed d hd hm hended =>
      have hdc : d ≠ c := by
        rintro rfl
        exact (hc.not_holds hended).1 via hx
      simp [hd, hm, hdc]
  · rintro ⟨via, hx⟩ hne hheld
    cases hmove with
    | stays hm => exact hne (hm.symm.trans hheld)
    | taken d _ hd hxl hidle =>
      cases hheld.symm.trans hd
      exact hc.xlock_ne hidle via (hxl.trans hx)
    | freed d _ hm => rw [hm] at hheld; cases hheld

/-- Settles O45: an event is the reference window's, and nothing else in an instruction touches the EC side. -/
theorem ecSideFrameOfEveryInstruction : Obligations.EcSideFrameOfEveryInstruction := by
  intro i s t he
  have hevent : i.isCommand = false → t.ec = s.ec.afterEvent i := fun hi => (silent_after_event hi he).bus.ec
  have hcommand : i.isCommand = true → t.ec = s.ec := fun hi => (silent_command hi he).bus.ec
  cases i with
  | configure => exact hcommand rfl
  | xferWr => exact hcommand rfl
  | xferRd => exact hcommand rfl
  | mboxExec n => exact hcommand rfl
  | dbWr j v => exact (hevent rfl).trans (by rw [EcSide.afterEvent, Nat.add_comm])
  | dhRd g v => exact (hevent rfl).trans (by simp [EcSide.afterEvent, EcSide.afterSlot])
  | _ => exact hevent rfl

/-- Settles O6: the head of the schedule is the move. -/
theorem stepIsTheNextAgentsStep : Obligations.StepIsTheNextAgentsStep := by
  intro s i sch h
  simp only [step, State.runNext, State.nextInput, h]
  cases i <;> rfl

/-- Settles O8: an event that is issued is well formed, so its bytes decode to it. -/
theorem channelStepRunsItsEvent : Obligations.ChannelStepRunsItsEvent := by
  intro s c ans i sch hs hc hi h
  have hp : (s.setSched sch).present c = true := decide_eq_true hc
  have hinv : (s.setSched sch).Inv :=
    h.of_same rfl ⟨id, id⟩ ⟨id, id⟩ ⟨rfl, rfl, rfl, rfl, rfl⟩ (Nat.le_refl _) (fun _ => rfl) ⟨rfl, rfl⟩
  obtain ⟨hw, hev, -⟩ := nextEvent_issued (hinv.select c) hi
  refine ⟨?_, hev, by simpa using decode_encode_append hw []⟩
  rw [step_channel hs, State.channelStep, hp, hi]
  rfl

/-! ### Where an event runs -/

section Runs

variable {s : State} {i : Instr}

/-- The selected channel's operation issues what its transfer issues. -/
theorem nextEvent_of_currentOp {x : XferCtx} {op : BusOp} (h : s.currentOp = some (x, op)) (ans : Answer) :
    s.nextEvent ans = s.opEvent x op ans := by
  rw [State.nextEvent, h]

/-- Outside a transfer the selected channel issues what its mailbox step issues. -/
theorem nextEvent_of_mboxAt {st : MboxStep} {m : MboxCtx} (h : s.mboxAt st = some m) (ans : Answer) :
    s.nextEvent ans = s.mboxEvent m ans ∧ m.step = st := by
  obtain ⟨hx, hm, hst⟩ := mboxAt_eq_some.1 h
  have hcur : s.currentOp = none := by
    rw [Option.eq_none_iff_forall_ne_some]
    rintro ⟨x, op⟩ hop
    obtain ⟨-, hx', -⟩ := currentOp_eq_some.1 hop
    rw [hx] at hx'
    cases hx'
  refine ⟨?_, hst⟩
  rw [State.nextEvent, hcur]
  dsimp only
  rw [hx, hm]

/-- An 8-bit read can be answered with any byte (20_memory.md R82). -/
theorem byte_draw (v own : Byte) : (Answer.draw (v.setWidth 16)).byte own = v := by
  apply BitVec.eq_of_toNat_eq
  have := v.isLt
  simp only [Answer.byte, loByte, BitVec.toNat_setWidth, BitVec.toNat_ofNat]
  omega

/-- An event that runs is what the selected channel's next step issues, where the EC answers a read with the event's
value. -/
theorem nextEvent_of_exec {t : State} (hi : i.isCommand = false) (he : exec i s = .next t) :
    ∃ ans, s.nextEvent ans = some i := by
  cases i with
  | selLo v =>
    obtain ⟨x, ph, hop, -⟩ := execSelLo_eq_next.1 he
    exact ⟨.fromEc, nextEvent_of_currentOp hop _⟩
  | selHi v =>
    obtain ⟨x, ph, hop, -⟩ := execSelHi_eq_next.1 he
    exact ⟨.fromEc, nextEvent_of_currentOp hop _⟩
  | dbWr j v =>
    obtain ⟨x, idx, ph, hop, hd, hb, -⟩ := execDbWr_eq_next.1 he
    exact ⟨.fromEc, by simp [nextEvent_of_currentOp hop, State.opEvent, hd, hb]⟩
  | dbRd j v =>
    obtain ⟨x, idx, ph, s', hop, hd, hs, -⟩ := execDbRd_eq_next.1 he
    refine ⟨.draw (v.setWidth 16), ?_⟩
    simp only [nextEvent_of_currentOp hop, State.opEvent, hd, byte_draw, hs, Option.map_some]
  | dhWr g v =>
    obtain ⟨x, idx, ph, b0, b1, hop, hd, h0, h1, rfl, -⟩ := execDhWr_eq_next.1 he
    exact ⟨.fromEc, by simp [nextEvent_of_currentOp hop, State.opEvent, hd, h0, h1]⟩
  | dhRd g v =>
    obtain ⟨x, idx, ph, s', hop, hd, hs, -⟩ := execDhRd_eq_next.1 he
    exact ⟨.draw v, by simp [nextEvent_of_currentOp hop, State.opEvent, hd, Answer.half, hs]⟩
  | strobe v =>
    obtain ⟨m, hm, rfl, -⟩ := execStrobe_eq_next.1 he
    obtain ⟨hne, hst⟩ := nextEvent_of_mboxAt hm .fromEc
    exact ⟨_, hne.trans (by rw [State.mboxEvent, hst])⟩
  | statRd v =>
    obtain ⟨m, hm, ht, -⟩ := execStatRd_eq_next.1 he
    obtain ⟨hne, hst⟩ := nextEvent_of_mboxAt hm (.draw (v.setWidth 16))
    exact ⟨_, hne.trans (by simp only [State.mboxEvent, hst, ht, if_true, byte_draw])⟩
  | flagRd v =>
    obtain ⟨m, hm, -⟩ := execFlagRd_eq_next.1 he
    obtain ⟨hne, hst⟩ := nextEvent_of_mboxAt hm (.draw (v.setWidth 16))
    exact ⟨_, hne.trans (by simp only [State.mboxEvent, hst, byte_draw])⟩
  | _ => cases hi

/-- A port event has a next state or stops with one of the two faults. -/
theorem exec_event_outcome (hi : i.isCommand = false) : (∃ t, exec i s = .next t) ∨
    exec i s = .fault .eventNotIssued ∨ exec i s = .fault .hostAccessNotAdmitted := by
  cases i with
  | selLo v =>
    simp only [exec, execSelLo]
    split
    · split <;> simp
    · simp
  | selHi v =>
    simp only [exec, execSelHi]
    split
    · split <;> simp
    · simp
  | dbWr j v =>
    simp only [exec, execDbWr]
    split
    · split
      · split
        · split <;> simp
        · simp
      · simp
    · simp
  | dbRd j v =>
    simp only [exec, execDbRd]
    split
    · split
      · split <;> simp
      · simp
    · simp
  | dhWr g v =>
    simp only [exec, execDhWr]
    split
    · split
      · split
        · split <;> simp
        · simp
      · simp
    · simp
  | dhRd g v =>
    simp only [exec, execDhRd]
    split
    · split
      · split <;> simp
      · simp
    · simp
  | strobe v =>
    simp only [exec, execStrobe]
    split
    · split <;> simp
    · simp
  | statRd v =>
    simp only [exec, execStatRd]
    split
    · split <;> simp
    · simp
  | flagRd v =>
    simp only [exec, execFlagRd]
    split <;> simp
  | _ => cases hi

end Runs

/-- Settles O9: an event's meaning asks for what its channel's next step issues, and otherwise it stops. -/
theorem eventRunsExactlyWhereIssued : Obligations.EventRunsExactlyWhereIssued := by
  intro s i hi
  have hiff : (∃ t, exec i s = .next t) ↔ ∃ ans, s.nextEvent ans = some i :=
    ⟨fun ⟨_, he⟩ => nextEvent_of_exec hi he, fun ⟨_, h⟩ => nextEvent_runs h⟩
  refine ⟨hiff, fun hnone => (exec_event_outcome hi).resolve_left fun hrun => ?_⟩
  obtain ⟨ans, h⟩ := hiff.1 hrun
  exact hnone ans h

end Sys2Proof.Machine

/-! SUPPORT. The accesses of the reference window, in numbers (20_memory.md R116 to R119). -/

namespace Sys2Proof.Machine

/-! ### The two low bits of an address -/

/-- Masking the two low bits off. -/
theorem land_four_mul {x k : Nat} (h : x < 4 * 2 ^ k) : x &&& 4 * (2 ^ k - 1) = x - x % 4 := by
  have hdiv : (x &&& 4 * (2 ^ k - 1)) / 2 ^ 2 = x / 4 := by
    rw [Nat.and_div_two_pow, Nat.mul_div_cancel_left _ (by decide), Nat.and_two_pow_sub_one_eq_mod]
    exact Nat.mod_eq_of_lt (by omega)
  have hmod : (x &&& 4 * (2 ^ k - 1)) % 2 ^ 2 = 0 := by
    rw [Nat.and_mod_two_pow, Nat.mul_mod_right, Nat.and_zero]
  omega

/-- Setting the two low bits of a multiple of 4. -/
theorem lor_of_mod_four {x m : Nat} (hx : x % 4 = 0) (hm : m < 4) : x ||| m = x + m := by
  have hx' : x = 2 ^ 2 * (x / 4) := by omega
  rw [hx', ← Nat.two_pow_add_eq_or_of_lt (i := 2) hm]

section Window

variable (e : EcSide)

/-- The unit base is the address less its two low bits (R116). -/
theorem unitBase_eq : e.unitBase = e.addr.toNat - e.addr.toNat % 4 := by
  rw [EcSide.unitBase, BitVec.toNat_and]
  exact land_four_mul (k := 14) e.addr.isLt

theorem slotAddr_eq (j : Nat) : e.slotAddr j = e.addr.toNat - e.addr.toNat % 4 + j := by
  rw [EcSide.slotAddr, unitBase_eq]

/-- The mode is long autoincrement where both low bits are set (30_encoding.md R143). -/
theorem autoIncrement_iff : e.addr &&& 3 = 3 ↔ e.addr.toNat % 4 = 3 := by
  rw [← BitVec.toNat_inj, BitVec.toNat_and]
  exact iff_of_eq (congrArg (· = 3) (Nat.and_two_pow_sub_one_eq_mod _ 2))

/-- Autoincrement moves the address to the next unit, in the same mode (R119). -/
theorem autoIncrement_addr : e.autoIncrement.addr.toNat =
    if e.addr.toNat % 4 = 3 then (e.addr.toNat - e.addr.toNat % 4 + 4) % 2 ^ 16 + 3 else e.addr.toNat := by
  unfold EcSide.autoIncrement
  rw [if_congr (autoIncrement_iff e) rfl rfl]
  split
  · have hunit : (e.addr &&& 0xFFFC).toNat = e.addr.toNat - e.addr.toNat % 4 := unitBase_eq e
    have hnext : ((e.addr &&& 0xFFFC) + 4).toNat = (e.addr.toNat - e.addr.toNat % 4 + 4) % 2 ^ 16 := by
      rw [BitVec.toNat_add, hunit]; rfl
    show (((e.addr &&& 0xFFFC) + 4) ||| 3).toNat = _
    rw [BitVec.toNat_or, hnext]
    exact lor_of_mod_four (by omega) (by decide)
  · rfl

theorem afterSlot_addr (j : Nat) : (e.afterSlot j).addr.toNat =
    if j = 3 ∧ e.addr.toNat % 4 = 3 then (e.addr.toNat - e.addr.toNat % 4 + 4) % 2 ^ 16 + 3 else e.addr.toNat := by
  unfold EcSide.afterSlot
  by_cases hj : j = 3
  · simp only [hj, if_true, true_and]
    exact autoIncrement_addr e
  · simp only [hj, if_false, false_and]

theorem le16_toNat (b0 b1 : Byte) : (le16 b0 b1).toNat = b0.toNat + 256 * b1.toNat := by
  have := b0.isLt
  have := b1.isLt
  simp only [le16, BitVec.toNat_ofNat]
  omega

theorem loByte_eq (w : Half) : loByte w = BitVec.ofNat 8 w.toNat := by
  apply BitVec.eq_of_toNat_eq
  simp [loByte]

theorem loByte_toNat (w : Half) : (loByte w).toNat = w.toNat % 256 := by
  rw [loByte_eq]; rfl

theorem hiByte_toNat (w : Half) : (hiByte w).toNat = w.toNat / 256 := by
  have := w.isLt
  simp only [hiByte, BitVec.toNat_ofNat]
  omega

/-- An 8-bit write of a slot (R117, R119). -/
theorem write8_slot (j : Nat) (v : Byte) : e.write8 (4 + j) v = (e.setSlot j v).afterSlot j := by
  rw [Nat.add_comm]; rfl

/-- The memory after a write of a half (R118). -/
theorem writeHalf_mem (h : Nat) (v : Half) : (e.writeHalf h v).mem =
    (e.mem.write (e.slotAddr (2 * h)) (loByte v)).write (e.slotAddr (2 * h + 1)) (hiByte v) := afterSlot_mem _ _

end Window

/-- Settles O44: an access reads or writes at its slots, and moves the address only past slot 3. -/
theorem referenceWindowAccesses : Obligations.ReferenceWindowAccesses := by
  intro e v w j hwf hj unit next
  have hslot : ∀ k, e.slotAddr k = unit + k := slotAddr_eq e
  have hbyte : (e.write8 (4 + j) v).mem = e.mem.write (unit + j) v := by
    rw [write8_slot, afterSlot_mem, ← hslot]; rfl
  refine ⟨?_, ?_, ?_, ?_, ?_, ?_, fun hj => ⟨?_, ?_, ?_, ?_, ?_⟩⟩
  · show (le16 v (hiByte e.addr)).toNat = _
    rw [le16_toNat, hiByte_toNat]; omega
  · show (le16 (loByte e.addr) v).toNat = _
    rw [le16_toNat, loByte_toNat]
  · rw [hbyte, Memory.read_write_self _ _ hwf]
  · intro b hb
    rw [hbyte, Memory.read_write_ne _ _ _ _ hb]
  · rw [write8_slot]; exact afterSlot_addr _ _
  · rw [← hslot, Nat.add_comm]; rfl
  · rw [EcSide.halfValue, le16_toNat, Nat.add_assoc, ← hslot, ← hslot]; rfl
  · rw [writeHalf_mem, hslot, hslot, Memory.read_write_ne _ _ _ _ (by omega), Memory.read_write_self _ _ hwf, loByte_eq]
  · rw [writeHalf_mem, hslot, hslot, Nat.add_assoc, Memory.read_write_self _ _ (Memory.wf_write _ _ hwf)]; rfl
  · intro b hb hb'
    rw [writeHalf_mem, hslot, hslot, Memory.read_write_ne _ _ _ _ (by omega), Memory.read_write_ne _ _ _ _ hb]
  · have hlast : (2 * j + 1 = 3) ↔ j = 1 := by omega
    refine (afterSlot_addr _ _).trans ?_
    rw [if_congr (and_congr_left' hlast) rfl rfl]; rfl

end Sys2Proof.Machine

/-! SUPPORT. What the operations of a transfer do to the reference window and to host memory (41_transfer.md R205 to R211):
they move the bytes of the buffer one after another, each through the slot of its EC address. -/

namespace Sys2Proof.Machine

/-! ### The effect of an operation -/

/-- What a transfer on the reference window works on: the EC side, host memory and the running sum. -/
structure XferData where
  ec : EcSide
  host : Memory
  sum : Byte

/-- What an operation of a transfer between the reference window and the host buffer at `base` does
(41_transfer.md R201, R206 to R208). -/
def XferData.run (dir : Dir) (base : Word) (w : XferData) : BusOp → XferData
  | .selLo v _ => { w with ec := w.ec.write8 2 v }
  | .selHi v _ => { w with ec := w.ec.write8 3 v }
  | .byte j idx _ =>
    match dir with
    | .wr =>
      let b := w.host.read (hostIndex base idx).toNat
      { w with ec := w.ec.write8 (j + 4) b, sum := w.sum + b }
    | .rd =>
      let b := w.ec.slotByte j
      { ec := w.ec.afterSlot j, host := w.host.write (hostIndex base idx).toNat b, sum := w.sum + b }
  | .half h idx _ =>
    match dir with
    | .wr =>
      let b0 := w.host.read (hostIndex base idx).toNat
      let b1 := w.host.read (hostIndex base (idx + 1)).toNat
      { w with ec := w.ec.writeHalf h (le16 b0 b1), sum := w.sum + b0 + b1 }
    | .rd =>
      let b0 := w.ec.slotByte (2 * h)
      let b1 := w.ec.slotByte (2 * h + 1)
      { ec := w.ec.afterSlot (2 * h + 1)
        host := (w.host.write (hostIndex base idx).toNat b0).write (hostIndex base (idx + 1)).toNat b1
        sum := w.sum + b0 + b1 }

/-- What a list of operations does, in order. -/
def XferData.runAll (dir : Dir) (base : Word) (w : XferData) (ops : List BusOp) : XferData :=
  ops.foldl (fun w op => w.run dir base op) w

section Run

variable (dir : Dir) (base : Word) (w : XferData)

theorem runAll_cons (op : BusOp) (ops : List BusOp) :
    w.runAll dir base (op :: ops) = (w.run dir base op).runAll dir base ops := rfl

theorem runAll_append (ops ops' : List BusOp) :
    w.runAll dir base (ops ++ ops') = (w.runAll dir base ops).runAll dir base ops' := List.foldl_append

/-- A byte operation moves the window's address as its slot says (20_memory.md R119). -/
theorem run_byte_addr (j idx : Nat) (ph : Phase) :
    (w.run dir base (.byte j idx ph)).ec.addr.toNat = (w.ec.afterSlot j).addr.toNat := by
  cases dir with
  | wr => exact (afterSlot_addr _ _).trans (afterSlot_addr w.ec j).symm
  | rd => rfl

/-- A half operation moves the window's address as its second slot says (20_memory.md R119). -/
theorem run_half_addr (h idx : Nat) (ph : Phase) :
    (w.run dir base (.half h idx ph)).ec.addr.toNat = (w.ec.afterSlot (2 * h + 1)).addr.toNat := by
  cases dir with
  | wr => exact (afterSlot_addr _ _).trans (afterSlot_addr w.ec _).symm
  | rd => rfl

/-- A select sets the window's address and nothing else (41_transfer.md R201). -/
theorem runAll_select (a : Half) (m : AccessMode) (ph : Phase) :
    w.runAll dir base (select a m ph) =
      { w with ec := { w.ec with addr := le16 (selectLo a m) (hiByte a) } } := by
  show { w with ec := { w.ec with addr := le16 (loByte (le16 (selectLo a m) _)) (hiByte a) } } = _
  rw [loByte_le16]

end Run

/-- The address a select sets has the unit of `a` and the mode's code in its low bits (30_encoding.md R143, R144). -/
theorem select_addr (a : Half) (m : AccessMode) :
    (le16 (selectLo a m) (hiByte a)).toNat = a.toNat - a.toNat % 4 + m.code.toNat := by
  have hm := m.code.isLt
  have hlo : (selectLo a m).toNat = a.toNat % 256 - a.toNat % 4 + m.code.toNat := by
    have hcode : (m.code.setWidth 8).toNat = m.code.toNat := by
      rw [BitVec.toNat_setWidth]; exact Nat.mod_eq_of_lt (by omega)
    have hmask : (loByte a &&& 0xFC).toNat = a.toNat % 256 - a.toNat % 4 := by
      rw [BitVec.toNat_and, loByte_toNat]
      have := land_four_mul (x := a.toNat % 256) (k := 6) (by omega)
      rwa [show a.toNat % 256 % 4 = a.toNat % 4 by omega] at this
    rw [selectLo, BitVec.toNat_or, hmask, hcode, lor_of_mod_four (by omega) hm]
  rw [le16_toNat, hiByte_toNat, hlo]
  omega

/-- The EC address `k` bytes on, within EC memory. -/
theorem ecPlus_toNat {a : Half} {k : Nat} (h : a.toNat + k < 2 ^ 16) : (ecPlus a k).toNat = a.toNat + k := by
  rw [ecPlus, BitVec.toNat_add, BitVec.toNat_ofNat]
  omega

/-! ### A whole transfer -/

/-- `P k` says that the first `k` bytes of a transfer have been moved: it does not depend on the window's address, and a
data operation at index `k` that reaches EC address `a + k` moves it on. -/
structure Carries (dir : Dir) (base : Word) (a : Half) (n : Nat) (P : Nat → XferData → Prop) : Prop where
  select : ∀ {k w} v, P k w → P k { w with ec := { w.ec with addr := v } }
  byte : ∀ {k w j} ph, P k w → w.ec.slotAddr j = a.toNat + k → k + 1 ≤ n → P (k + 1) (w.run dir base (.byte j k ph))
  half : ∀ {k w h} ph, P k w → w.ec.slotAddr (2 * h) = a.toNat + k → k + 2 ≤ n →
    P (k + 2) (w.run dir base (.half h k ph))

/-- Past the head the EC address is aligned, or the transfer is over (R203). -/
theorem aligned_after_head (a : Half) (n : Nat) : (a.toNat + headSize a n) % 4 = 0 ∨ headSize a n = n := by
  unfold headSize
  split <;> omega

section Carries

variable {dir : Dir} {base : Word} {a : Half} {n : Nat} {P : Nat → XferData → Prop} (hP : Carries dir base a n P)
include hP

/-- A run of bytes in byte mode goes through consecutive slots of one unit (41_transfer.md R210). -/
theorem carries_byteOps (ph : Phase) {slot idx count : Nat} {w : XferData} (h : P idx w)
    (hmode : w.ec.addr.toNat % 4 = 0) (hslot : w.ec.addr.toNat + slot = a.toNat + idx) (hn : idx + count ≤ n) :
    P (idx + count) (w.runAll dir base (byteOps ph slot idx count)) := by
  induction count generalizing slot idx w with
  | zero => exact h
  | succ count ih =>
    have haddr : (w.run dir base (.byte slot idx ph)).ec.addr.toNat = w.ec.addr.toNat := by
      rw [run_byte_addr, afterSlot_addr, if_neg (by omega)]
    have hat : w.ec.slotAddr slot = a.toNat + idx := by rw [slotAddr_eq]; omega
    have hnext := hP.byte ph h hat (by omega)
    rw [byteOps, runAll_cons, show idx + (count + 1) = idx + 1 + count by omega]
    exact ih hnext (by rw [haddr, hmode]) (by omega) (by omega)

/-- A run of units in long-autoincrement mode goes through consecutive units (41_transfer.md R209). -/
theorem carries_unitOps {idx units : Nat} {w : XferData} (h : P idx w) (halign : (a.toNat + idx) % 4 = 0)
    (haddr : w.ec.addr.toNat = (a.toNat + idx) % 2 ^ 16 + 3) (hec : a.toNat + idx + 4 * units ≤ 2 ^ 16)
    (hn : idx + 4 * units ≤ n) : P (idx + 4 * units) (w.runAll dir base (unitOps idx units)) := by
  induction units generalizing idx w with
  | zero => exact h
  | succ units ih =>
    have haddr0 : (w.run dir base (.half 0 idx .bulk)).ec.addr.toNat = w.ec.addr.toNat := by
      rw [run_half_addr, afterSlot_addr, if_neg (by omega)]
    have hat0 : w.ec.slotAddr (2 * 0) = a.toNat + idx := by rw [slotAddr_eq]; omega
    have hfirst := hP.half .bulk h hat0 (by omega)
    have haddr1 : ((w.run dir base (.half 0 idx .bulk)).run dir base (.half 1 (idx + 2) .bulk)).ec.addr.toNat =
        (a.toNat + (idx + 4)) % 2 ^ 16 + 3 := by
      rw [run_half_addr, afterSlot_addr, if_pos (by omega)]; omega
    have hat1 : (w.run dir base (.half 0 idx .bulk)).ec.slotAddr (2 * 1) = a.toNat + (idx + 2) := by
      rw [slotAddr_eq]; omega
    have hsecond := hP.half .bulk hfirst hat1 (by omega)
    rw [unitOps, runAll_cons, runAll_cons, show idx + 4 * (units + 1) = idx + 4 + 4 * units by omega]
    exact ih hsecond (by omega) haddr1 (by omega) (by omega)

/-- The address after a select, and what has been moved before it. -/
theorem carries_select {k : Nat} {w : XferData} (h : P k w) (b : Half) (m : AccessMode) (ph : Phase) :
    P k (w.runAll dir base (select b m ph)) ∧
      (w.runAll dir base (select b m ph)).ec.addr.toNat = b.toNat - b.toNat % 4 + m.code.toNat := by
  rw [runAll_select]
  exact ⟨hP.select _ h, select_addr b m⟩

/-- Phase 1 moves the bytes before the first aligned EC address (R205). -/
theorem carries_headOps {w : XferData} (h : P 0 w) : P (headSize a n) (w.runAll dir base (headOps a n)) := by
  unfold headOps
  split
  · next ha => rwa [headSize, if_pos ha]
  · obtain ⟨hsel, haddr⟩ := carries_select hP h a .byte .head
    have hcode : AccessMode.byte.code.toNat = 0 := rfl
    have hk := parts_add a n
    rw [runAll_append]
    simpa using carries_byteOps hP .head (slot := a.toNat % 4) (count := headSize a n) hsel (by omega) (by omega)
      (by omega)

variable (hec : a.toNat + n ≤ 2 ^ 16)
include hec

/-- Phase 2 moves whole units (R205). -/
theorem carries_bulkOps {w : XferData} (h : P (headSize a n) w) :
    P (headSize a n + 4 * bulkUnits a n) (w.runAll dir base (bulkOps a n)) := by
  have hparts := parts_add a n
  have halign := aligned_after_head a n
  unfold bulkOps
  split
  · next hb => rwa [hb]
  · obtain ⟨hsel, haddr⟩ := carries_select hP h (ecPlus a (headSize a n)) .longAutoincrement .bulk
    have hcode : AccessMode.longAutoincrement.code.toNat = 3 := rfl
    have hplus : (ecPlus a (headSize a n)).toNat = a.toNat + headSize a n := ecPlus_toNat (by omega)
    rw [runAll_append]
    exact carries_unitOps hP hsel (by omega) (by omega) (by omega) (by omega)

/-- Phase 3 moves the bytes after the last whole unit (R205). -/
theorem carries_tailOps {w : XferData} (h : P (headSize a n + 4 * bulkUnits a n) w) :
    P n (w.runAll dir base (tailOps a n)) := by
  have hparts := parts_add a n
  have halign := aligned_after_head a n
  unfold tailOps
  split
  · next ht =>
    rw [ht, Nat.add_zero] at hparts
    rwa [hparts] at h
  · obtain ⟨hsel, haddr⟩ := carries_select hP h (ecPlus a (headSize a n + 4 * bulkUnits a n)) .byte .tail
    have hcode : AccessMode.byte.code.toNat = 0 := rfl
    have hplus : (ecPlus a (headSize a n + 4 * bulkUnits a n)).toNat = a.toNat + (headSize a n + 4 * bulkUnits a n) :=
      ecPlus_toNat (by omega)
    have := carries_byteOps hP .tail (slot := 0) (count := tailSize a n) hsel (by omega) (by omega) (by omega)
    rwa [hparts, ← runAll_append] at this

/-- A whole transfer moves its bytes (R211). -/
theorem carries_xferOps {w : XferData} (h : P 0 w) : P n (w.runAll dir base (xferOps a n)) := by
  rw [xferOps, runAll_append, runAll_append]
  exact carries_tailOps hP hec (carries_bulkOps hP hec (carries_headOps hP h))

end Carries

/-! ### Copies -/

/-- `dst` is `dst0` with the `k` bytes of `src` at `p`, `p + 1`, … copied to `q`, `q + 1`, …, and `sum` is their byte-sum. -/
structure Copied (src dst0 : Memory) (p q k : Nat) (dst : Memory) (sum : Byte) : Prop where
  wf : dst.wf = true
  copied : ∀ i, i < k → dst.read (q + i) = src.read (p + i)
  kept : ∀ b, b < q ∨ q + k ≤ b → dst.read b = dst0.read b
  sum : sum = sum8 ((List.range k).map fun i => src.read (p + i))

theorem Copied.zero {src dst0 : Memory} (p q : Nat) (h : dst0.wf = true) : Copied src dst0 p q 0 dst0 0 where
  wf := h
  copied := nofun
  kept _ _ := rfl
  sum := rfl

/-- One more byte. -/
theorem Copied.succ {src dst0 dst : Memory} {p q k : Nat} {sum : Byte} (h : Copied src dst0 p q k dst sum) :
    Copied src dst0 p q (k + 1) (dst.write (q + k) (src.read (p + k))) (sum + src.read (p + k)) where
  wf := Memory.wf_write _ _ h.wf
  copied i hi := by
    by_cases hik : i = k
    · rw [hik, Memory.read_write_self _ _ h.wf]
    · rw [Memory.read_write_ne _ _ _ _ (by omega)]
      exact h.copied i (by omega)
  kept b hb := by
    rw [Memory.read_write_ne _ _ _ _ (by omega)]
    exact h.kept b (by omega)
  sum := by
    rw [List.range_succ, List.map_append, sum8_append, ← h.sum]
    simp

section Copies

variable {base : Word} {a : Half} {n : Nat} (hhost : base.toNat + n ≤ 2 ^ 32) (w : XferData)
include hhost

/-- A transfer to the EC copies the buffer to EC memory. -/
theorem carries_wr : Carries .wr base a n fun k v => v.host = w.host ∧
    Copied w.host w.ec.mem base.toNat a.toNat k v.ec.mem v.sum where
  select _ h := h
  byte {k v j} ph h hat hk := by
    obtain ⟨hsame, hc⟩ := h
    refine ⟨hsame, ?_⟩
    have hmem : ∀ b, (v.ec.write8 (j + 4) b).mem = v.ec.mem.write (a.toNat + k) b := by
      intro b
      rw [Nat.add_comm, write8_slot, afterSlot_mem, ← hat]; rfl
    show Copied _ _ _ _ _ (v.ec.write8 (j + 4) (v.host.read (hostIndex base k).toNat)).mem
      (v.sum + v.host.read (hostIndex base k).toNat)
    rw [hmem, hsame, hostIndex_toNat (by omega)]
    exact hc.succ
  half {k v h} ph hk hat hkn := by
    obtain ⟨hsame, hc⟩ := hk
    refine ⟨hsame, ?_⟩
    have hat' : v.ec.slotAddr (2 * h + 1) = a.toNat + (k + 1) := by
      rw [slotAddr_eq] at hat ⊢; omega
    show Copied _ _ _ _ _ (v.ec.writeHalf h (le16 (v.host.read (hostIndex base k).toNat)
        (v.host.read (hostIndex base (k + 1)).toNat))).mem
      (v.sum + v.host.read (hostIndex base k).toNat + v.host.read (hostIndex base (k + 1)).toNat)
    rw [writeHalf_mem, loByte_le16, hiByte_le16, hat, hat', hsame, hostIndex_toNat (by omega),
      hostIndex_toNat (by omega)]
    exact hc.succ.succ

/-- A transfer from the EC copies EC memory to the buffer. -/
theorem carries_rd : Carries .rd base a n fun k v => v.ec.mem = w.ec.mem ∧
    Copied w.ec.mem w.host a.toNat base.toNat k v.host v.sum where
  select _ h := h
  byte {k v j} ph h hat hk := by
    obtain ⟨hsame, hc⟩ := h
    refine ⟨(afterSlot_mem _ _).trans hsame, ?_⟩
    have hslot : v.ec.slotByte j = w.ec.mem.read (a.toNat + k) := by rw [EcSide.slotByte, hat, hsame]
    show Copied _ _ _ _ _ (v.host.write (hostIndex base k).toNat (v.ec.slotByte j)) (v.sum + v.ec.slotByte j)
    rw [hslot, hostIndex_toNat (by omega)]
    exact hc.succ
  half {k v h} ph hk hat hkn := by
    obtain ⟨hsame, hc⟩ := hk
    refine ⟨(afterSlot_mem _ _).trans hsame, ?_⟩
    have hat' : v.ec.slotAddr (2 * h + 1) = a.toNat + (k + 1) := by
      rw [slotAddr_eq] at hat ⊢; omega
    have hslot : v.ec.slotByte (2 * h) = w.ec.mem.read (a.toNat + k) := by rw [EcSide.slotByte, hat, hsame]
    have hslot' : v.ec.slotByte (2 * h + 1) = w.ec.mem.read (a.toNat + (k + 1)) := by
      rw [EcSide.slotByte, hat', hsame]
    show Copied _ _ _ _ _ ((v.host.write (hostIndex base k).toNat (v.ec.slotByte (2 * h))).write
        (hostIndex base (k + 1)).toNat (v.ec.slotByte (2 * h + 1)))
      (v.sum + v.ec.slotByte (2 * h) + v.ec.slotByte (2 * h + 1))
    rw [hslot, hslot', hostIndex_toNat (by omega), hostIndex_toNat (by omega)]
    exact hc.succ.succ

end Copies

end Sys2Proof.Machine

/-! SUPPORT. A direct transfer on the reference window, run by its channel alone (41_transfer.md R214, R217): each step has
the effect of its operation, and the last one completes the command. -/

namespace Sys2Proof.Machine

/-- What a transfer with the running sum `sum` works on in the state `s`. -/
def State.xferData (s : State) (sum : Byte) : XferData := ⟨s.ec, s.hostMem, sum⟩

/-- The platform admits every host access (20_memory.md R83). -/
def AdmitsAll (p : Params) : Prop := ∀ b, admitsRead p b = true ∧ admitsWrite p b = true

/-- Channel `c` is in the direct transfer `x` of the host buffer at `base`, holds XLOCK, and the platform admits every host
access. -/
structure Moving (s : State) (c : ChanId) (x : XferCtx) (base : Word) : Prop where
  present : s.present c = true
  admitted : AdmitsAll s.params
  holds : s.holdsXlock c
  xc : (s.chan c).xc = some x
  buf : x.buf = .host base
  ret : x.ret = .complete

/-- A step that keeps the parameters and XLOCK, and goes on in a transfer of the same buffer, keeps the channel moving. -/
theorem Moving.goesOn {s t : State} {c : ChanId} {x y : XferCtx} {base : Word} (h : Moving s c x base)
    (hp : t.params = s.params) (hl : t.xlock = s.xlock) (hx : (t.chan c).xc = some y) (hbuf : y.buf = x.buf)
    (hret : y.ret = x.ret) : Moving t c y base where
  present := by rw [State.present, hp]; exact h.present
  admitted := by rw [hp]; exact h.admitted
  holds := by rw [State.holdsXlock, hl]; exact h.holds
  xc := hx
  buf := hbuf.trans h.buf
  ret := hret.trans h.ret

section Step

variable {s : State} {c : ChanId} {x : XferCtx} {base : Word} {op : BusOp}

theorem src_host (h : AdmitsAll s.params) (i : Nat) :
    s.src (.host base) i = some (s.hostMem.read (hostIndex base i).toNat) := if_pos (h _).1

theorem dst_host (h : AdmitsAll s.params) (i : Nat) (v : Byte) :
    s.dst (.host base) i v = some (s.setHostMem (s.hostMem.write (hostIndex base i).toNat v)) := if_pos (h _).2

theorem dst2_host (h : AdmitsAll s.params) (i : Nat) (v0 v1 : Byte) :
    s.dst2 (.host base) i v0 v1 = some (s.setHostMem
      ((s.hostMem.write (hostIndex base i).toNat v0).write (hostIndex base (i + 1)).toNat v1)) := by
  simp only [State.dst2, dst_host h]
  exact dst_host (s := s.setHostMem (s.hostMem.write (hostIndex base i).toNat v0)) h (i + 1) v1

/-- The event of an operation, where the reference window answers, and the effect of its step (41_transfer.md R201, R206 to
R208). -/
theorem Moving.event (h : Moving s c x base) (hop : x.ops[x.pos]? = some op) :
    ∃ i, (s.select c).nextEvent .fromEc = some i ∧
      s.ec.afterEvent i = ((s.xferData x.sum).run x.dir base op).ec ∧
      exec i (s.select c) =
        .next (((s.select c).setHostMem ((s.xferData x.sum).run x.dir base op).host).opStep i
          { x with sum := ((s.xferData x.sum).run x.dir base op).sum }) := by
  have hcur : (s.select c).currentOp = some (x, op) := currentOp_eq_some.2 ⟨h.holds, h.xc, hop⟩
  have hbuf := h.buf
  have hadm : AdmitsAll (s.select c).params := h.admitted
  simp only [nextEvent_of_currentOp hcur]
  obtain ⟨dir, ec, n, buf, ops, pos, sum, ret⟩ := x
  cases hbuf
  cases op with
  | selLo v ph => exact ⟨_, rfl, rfl, execSelLo_eq_next.2 ⟨_, ph, hcur, rfl⟩⟩
  | selHi v ph => exact ⟨_, rfl, rfl, execSelHi_eq_next.2 ⟨_, ph, hcur, rfl⟩⟩
  | byte j idx ph =>
    cases dir with
    | wr =>
      refine ⟨.dbWr j _, ?_, rfl, execDbWr_eq_next.2 ⟨_, idx, ph, hcur, rfl, src_host hadm idx, rfl⟩⟩
      simp only [State.opEvent, src_host hadm, Option.map_some]
      rfl
    | rd =>
      refine ⟨.dbRd j _, ?_, rfl, execDbRd_eq_next.2 ⟨_, idx, ph, _, hcur, rfl, dst_host hadm idx _, rfl⟩⟩
      simp only [State.opEvent, dst_host hadm, Option.map_some]
      rfl
  | half g idx ph =>
    cases dir with
    | wr =>
      refine ⟨.dhWr g _, ?_, rfl,
        execDhWr_eq_next.2 ⟨_, idx, ph, _, _, hcur, rfl, src_host hadm idx, src_host hadm (idx + 1), rfl, rfl⟩⟩
      simp only [State.opEvent, src_host hadm]
      rfl
    | rd =>
      refine ⟨.dhRd g (s.ec.halfValue g), ?_, rfl,
        execDhRd_eq_next.2 ⟨_, idx, ph, _, hcur, rfl, dst2_host hadm idx _ _, ?_⟩⟩
      · simp only [State.opEvent, dst2_host hadm, Option.map_some]
        rfl
      · simp only [EcSide.halfValue, loByte_le16, hiByte_le16]
        rfl

/-- A step of a moving channel: it has the effect of its operation, and the channel moves on to the next operation or has
completed (41_transfer.md R214). -/
theorem Moving.step (h : Moving s c x base) (hop : x.ops[x.pos]? = some op) :
    ∃ t, s.channelStep c .fromEc = .next t ∧
      t.ec = ((s.xferData x.sum).run x.dir base op).ec ∧ t.hostMem = ((s.xferData x.sum).run x.dir base op).host ∧
      (x.ops[x.pos + 1]? = none → Completed (t.chan c) .ok 0 .done ((s.xferData x.sum).run x.dir base op).sum false) ∧
      ∀ op', x.ops[x.pos + 1]? = some op' →
        Moving t c { x with pos := x.pos + 1, sum := ((s.xferData x.sum).run x.dir base op).sum } base := by
  obtain ⟨i, hi, hec, he⟩ := h.event hop
  refine ⟨_, by rw [State.channelStep, h.present, hi]; exact he, ?_⟩
  generalize (s.xferData x.sum).run x.dir base op = w at *
  have hbus : ((s.select c).setHostMem w.host).ec.afterEvent i = w.ec := hec
  unfold State.opStep
  cases hnext : x.ops[x.pos + 1]? with
  | none =>
    rw [advance_last _ _ { x with sum := w.sum } hnext,
      endTransfer_complete _ _ { x with pos := x.pos + 1, sum := w.sum } h.ret]
    refine ⟨hbus, rfl, fun _ => ?_, nofun⟩
    simp only [select_sel, setHostMem_sel, complete_chan_self, setXlock_chan, issueEvent_chan_self]
    exact ⟨rfl, rfl, rfl, rfl, rfl, rfl, rfl, rfl, rfl⟩
  | some op' =>
    rw [advance_more (op := op') _ _ { x with sum := w.sum } hnext]
    refine ⟨hbus, rfl, nofun, fun _ _ => h.goesOn rfl rfl ?_ rfl rfl⟩
    simp only [select_sel, setHostMem_sel, chan_modChan_self]

theorem windowRun_succ {t : State} (n : Nat) (h : s.channelStep c .fromEc = .next t) :
    s.windowRun c (n + 1) = t.windowRun c n := by
  simp only [State.windowRun, List.replicate_succ, State.channelRun, h]

/-- The operation at a position of a list, the next one, and what is left after it. -/
theorem op_of_drop {ops rest : List BusOp} {p : Nat} (h : ops.drop p = op :: rest) :
    ops[p]? = some op ∧ ops[p + 1]? = rest.head? ∧ ops.drop (p + 1) = rest := by
  have hrest : ops.drop (p + 1) = rest := by rw [← List.tail_drop, h]; rfl
  exact ⟨by rw [← List.head?_drop, h]; rfl, by rw [← List.head?_drop, hrest], hrest⟩

/-- The rest of a transfer, run to its end. -/
theorem Moving.run {rest : List BusOp} (h : Moving s c x base) (hops : x.ops.drop x.pos = op :: rest) :
    ∃ t, s.windowRun c (rest.length + 1) = some t ∧
      t.ec = ((s.xferData x.sum).runAll x.dir base (op :: rest)).ec ∧
      t.hostMem = ((s.xferData x.sum).runAll x.dir base (op :: rest)).host ∧
      Completed (t.chan c) .ok 0 .done ((s.xferData x.sum).runAll x.dir base (op :: rest)).sum false := by
  induction rest generalizing s x op with
  | nil =>
    obtain ⟨hop, hnext, -⟩ := op_of_drop hops
    obtain ⟨t, hstep, hec, hhost, hlast, -⟩ := h.step hop
    exact ⟨t, windowRun_succ 0 hstep, hec, hhost, hlast hnext⟩
  | cons op' rest ih =>
    obtain ⟨hop, hnext, hrest⟩ := op_of_drop hops
    obtain ⟨t, hstep, hec, hhost, -, hmore⟩ := h.step hop
    have hdata : t.xferData ((s.xferData x.sum).run x.dir base op).sum = (s.xferData x.sum).run x.dir base op := by
      rw [State.xferData, hec, hhost]
    rw [windowRun_succ _ hstep, runAll_cons, ← hdata]
    exact ih (hmore op' hnext) hrest

end Step

section Ready

variable {s : State} {c : ChanId} {dir : Dir} {a : Half} {base : Word} {n : Nat} (h : TransferReady s c dir a base n)
include h

/-- The buffer and the EC range of a transfer lie within their memories (41_transfer.md R197, R199). -/
theorem TransferReady.fits : 1 ≤ n ∧ a.toNat + n ≤ 2 ^ 16 ∧ base.toNat + n ≤ 2 ^ 32 := by
  obtain ⟨hok, -⟩ := (h.inv.chan c).xfer _ h.xfer
  obtain ⟨hdirect, -⟩ := (h.inv.chan c).direct _ h.xfer h.direct
  have hbase := Buf.host.inj hdirect.buf
  exact ⟨hok.nonempty, hok.inEc, hbase ▸ hdirect.inHost⟩

/-- The first step of a transfer acquires XLOCK (41_transfer.md R213). -/
theorem TransferReady.acquire : ∃ t, s.channelStep c .fromEc = .next t ∧ t.ec = s.ec ∧ t.hostMem = s.hostMem ∧
    Moving t c { dir := dir, ec := a, n := n, buf := .host base, ops := xferOps a n, pos := 0, sum := 0,
                 ret := .complete } base := by
  have hp : s.present c = true := decide_eq_true h.present
  have hwaits : s.waitsFor c .xlock :=
    ⟨h.present, (h.inv.chan c).busy_of_xc h.xfer, by rw [h.xfer]; rfl, fun ⟨via, e⟩ => by rw [h.free] at e; cases e⟩
  obtain ⟨hnone, -⟩ := own_step hwaits .fromEc
  refine ⟨(s.select c).internalStep, by rw [State.channelStep, hp, hnone]; rfl, ?_⟩
  have hx : ((s.select c).chan (s.select c).sel).xc = _ := h.xfer
  have hfree : (s.select c).xlock = .free := h.free
  simp only [State.internalStep, hx, hfree, if_true]
  refine ⟨rfl, rfl, hp, h.admitted, ⟨_, rfl⟩, ?_, rfl, rfl⟩
  rw [State.acquireXlock, setXlock_chan, select_sel, chan_modChan_self]

/-- A transfer run alone on the reference window: it completes, with the effect of its operations. -/
theorem TransferReady.run : ∃ t, s.windowRun c (1 + (xferOps a n).length) = some t ∧
    t.ec = ((s.xferData 0).runAll dir base (xferOps a n)).ec ∧
    t.hostMem = ((s.xferData 0).runAll dir base (xferOps a n)).host ∧
    Completed (t.chan c) .ok 0 .done ((s.xferData 0).runAll dir base (xferOps a n)).sum false := by
  obtain ⟨t, hstep, hec, hhost, hm⟩ := h.acquire
  obtain ⟨op, rest, hops⟩ := List.exists_cons_of_ne_nil (xferOps_ne_nil (a := a) h.fits.1)
  have hrun := hm.run hops
  have hdata : t.xferData 0 = s.xferData 0 := by rw [State.xferData, hec, hhost]; rfl
  rw [Nat.add_comm, windowRun_succ _ hstep, hops, ← hdata]
  exact hrun

/-- The bytes an accepted XFER_WR moves on the reference window (20_memory.md R122). -/
theorem TransferReady.wr_copies (hdir : dir = .wr) : ∃ t, s.windowRun c (1 + (xferOps a n).length) = some t ∧
    t.hostMem = s.hostMem ∧ ∃ sum, Completed (t.chan c) .ok 0 .done sum false ∧
      Copied s.hostMem s.ec.mem base.toNat a.toNat n t.ec.mem sum := by
  subst hdir
  obtain ⟨-, hec, hhost⟩ := h.fits
  obtain ⟨t, ht, ht_ec, ht_host, hdone⟩ := h.run
  obtain ⟨hsame, hcopied⟩ := carries_xferOps (carries_wr hhost (s.xferData 0)) hec
    (w := s.xferData 0) ⟨rfl, .zero _ _ h.inv.ecMem.1⟩
  exact ⟨t, ht, ht_host.trans hsame, _, hdone, ht_ec ▸ hcopied⟩

/-- The bytes an accepted XFER_RD moves on the reference window (20_memory.md R122). -/
theorem TransferReady.rd_copies (hdir : dir = .rd) : ∃ t, s.windowRun c (1 + (xferOps a n).length) = some t ∧
    t.ec.mem = s.ec.mem ∧ ∃ sum, Completed (t.chan c) .ok 0 .done sum false ∧
      Copied s.ec.mem s.hostMem a.toNat base.toNat n t.hostMem sum := by
  subst hdir
  obtain ⟨-, hec, hhost⟩ := h.fits
  obtain ⟨t, ht, ht_ec, ht_host, hdone⟩ := h.run
  obtain ⟨hsame, hcopied⟩ := carries_xferOps (carries_rd hhost (s.xferData 0)) hec
    (w := s.xferData 0) ⟨rfl, .zero _ _ h.inv.hostMem.1⟩
  exact ⟨t, ht, (congrArg EcSide.mem ht_ec).trans hsame, _, hdone, ht_host ▸ hcopied⟩

end Ready

/-- Settles O43: a transfer copies its bytes from one memory to the other, and the read copies what the write copied. -/
theorem writeThenReadRoundTrip : Obligations.WriteThenReadRoundTrip := by
  intro s c a base n steps hostSum ecSum
  refine ⟨fun h => ?_, fun h => ?_, fun h t u d base' ht hec hu => ?_⟩
  · obtain ⟨t, ht, hhost, sum, hdone, hc⟩ := h.wr_copies rfl
    have hsum : sum = hostSum := hc.sum
    exact ⟨t, ht, hsum ▸ hdone, fun b => by rw [hhost], hc.copied, hc.kept⟩
  · obtain ⟨t, ht, hmem, sum, hdone, hc⟩ := h.rd_copies rfl
    have hsum : sum = ecSum := hc.sum
    exact ⟨t, ht, hsum ▸ hdone, fun b => by rw [hmem], hc.copied, hc.kept⟩
  · obtain ⟨t', ht', -, _, -, hwritten⟩ := h.wr_copies rfl
    cases ht.symm.trans ht'
    obtain ⟨v, hv, -, sum, hdone, hread⟩ := hu.rd_copies rfl
    rw [hec] at hread
    have hsum : sum = hostSum := hread.sum.trans
      (congrArg sum8 (List.map_congr_left fun i hi => hwritten.copied i (List.mem_range.1 hi)))
    exact ⟨v, hv, hsum ▸ hdone, fun i hi => (hread.copied i hi).trans (hwritten.copied i hi)⟩

end Sys2Proof.Machine

/-! SUPPORT. The other direction of the encodings (30_encoding.md R130 to R132, R141, R142): a word that decodes is the
word of the well-formed instruction it decodes to. -/

namespace Sys2Proof.Machine

/-- Settles O10: the bytes make up the instruction's word again, and that word decodes to it. -/
theorem decodeOfEncodeIsTheInstruction : Obligations.DecodeOfEncodeIsTheInstruction :=
  fun _ rest h => decode_encode_append h rest

/-- A one-bit field is the number of its own test (30_encoding.md R130, R141). -/
theorem toNat_decide_field (w : Word) (k : Nat) : (decide (field w k k = 1)).toNat = field w k k := by
  have hlt : field w k k < 2 := by
    rw [field, Nat.sub_self]
    exact Nat.mod_lt _ (by decide)
  rcases (by omega : field w k k = 0 ∨ field w k k = 1) with h | h <;> rw [h] <;> rfl

/-! ### Command words -/

/-- A word with bits 7:4 and 31:9 clear is its opcode and its `N` bit (30_encoding.md R130). -/
theorem toNat_of_reserved_clear {w : Word} (h4 : field w 7 4 = 0) (h9 : field w 31 9 = 0) :
    w.toNat = field w 3 0 + 2 ^ 8 * (decide (field w 8 8 = 1)).toNat := by
  have := w.isLt
  rw [toNat_decide_field]
  simp only [field] at *
  omega

/-- A word that decodes as a command is that command's word (30_encoding.md R131). -/
theorem encodeWord_of_decodeCommand {w : Word} {i : Instr} (h : decodeCommand w = .ok i) : encodeWord i = w := by
  unfold decodeCommand at h
  split at h
  · cases h
  next hres =>
  obtain ⟨h4, h9⟩ := not_or.1 hres
  have hw := toNat_of_reserved_clear (not_not.1 h4) (not_not.1 h9)
  generalize decide (field w 8 8 = 1) = n at h hw
  dsimp only at h
  refine BitVec.eq_of_toNat_eq ?_
  split at h
  iterate 3
    · next hop =>
      rw [hw, hop]
      cases n with
      | true => cases h
      | false => cases h; rfl
  · next hop =>
    rw [hw, hop]
    cases h
    cases n <;> rfl
  · cases h

/-- A word decodes as a command exactly where it is that command's word (30_encoding.md R131). -/
theorem decodeCommand_eq_ok_iff {w : Word} {i : Instr} :
    decodeCommand w = .ok i ↔ i.isCommand = true ∧ encodeWord i = w := by
  refine ⟨fun h => ⟨decodeCommand_isCommand h, encodeWord_of_decodeCommand h⟩, ?_⟩
  rintro ⟨hi, rfl⟩
  cases i with
  | mboxExec n => cases n <;> rfl
  | configure | xferWr | xferRd => rfl
  | _ => cases hi

/-- The words that decode as a command (30_encoding.md R131). -/
theorem exists_decodeCommand_eq_ok_iff {w : Word} : (∃ i, decodeCommand w = .ok i) ↔
    w.toNat = 1 ∨ w.toNat = 2 ∨ w.toNat = 3 ∨ w.toNat = 4 ∨ w.toNat = 0x104 := by
  simp only [decodeCommand_eq_ok_iff]
  constructor
  · rintro ⟨i, hi, rfl⟩
    cases i with
    | mboxExec n => cases n <;> decide
    | configure | xferWr | xferRd => decide
    | _ => cases hi
  · rintro (h | h | h | h | h)
    · exact ⟨.configure, rfl, BitVec.eq_of_toNat_eq h.symm⟩
    · exact ⟨.xferWr, rfl, BitVec.eq_of_toNat_eq h.symm⟩
    · exact ⟨.xferRd, rfl, BitVec.eq_of_toNat_eq h.symm⟩
    · exact ⟨.mboxExec false, rfl, BitVec.eq_of_toNat_eq h.symm⟩
    · exact ⟨.mboxExec true, rfl, BitVec.eq_of_toNat_eq h.symm⟩

/-- Settles O13: the five words of R131 are exactly those of which no condition of R132 holds. -/
theorem illegalCommandWordsAreRefused : Obligations.IllegalCommandWordsAreRefused := by
  intro w
  rw [← not_exists, exists_decodeCommand_eq_ok_iff]
  omega

/-! ### Event descriptors -/

section Events

variable {d : Bool} {off : Nat} {i : Instr}

/-- A word with bits 27:19 clear is the descriptor of its own fields (30_encoding.md R141). -/
theorem descriptor_of_fields {w : Word} (h : field w 27 19 = 0) :
    descriptor (decide (field w 31 31 = 1)) (decide (field w 30 30 = 1)) (field w 29 28) (field w 18 16)
      (field w 15 0) = w := by
  apply BitVec.eq_of_toNat_eq
  have := w.isLt
  simp only [descriptor, BitVec.toNat_ofNat, toNat_decide_field]
  simp only [field] at h ⊢
  omega

/-- A byte event decoded at a window offset has the descriptor of that offset (30_encoding.md R142). -/
theorem encodeWord_of_decodeWindowByte {v : Byte} (hoff : off < 8) (h : decodeWindowByte d off v = .ok i) :
    i.WellFormed ∧ encodeWord i = descriptor d false 0 off v.toNat := by
  unfold decodeWindowByte at h
  split at h
  · next hlo =>
    have hslot : off - 4 < 4 := by omega
    have hword : descriptor d false 0 (4 + (off - 4)) v.toNat = descriptor d false 0 off v.toNat := by
      rw [Nat.add_sub_of_le hlo]
    cases d <;> cases h <;> exact ⟨decide_eq_true hslot, hword⟩
  split at h
  · next hsel => obtain ⟨rfl, rfl⟩ := hsel; cases h; exact ⟨rfl, rfl⟩
  split at h
  · next hsel => obtain ⟨rfl, rfl⟩ := hsel; cases h; exact ⟨rfl, rfl⟩
  · cases h

/-- A half event decoded at a window offset has the descriptor of that offset (30_encoding.md R142). -/
theorem encodeWord_of_decodeWindowHalf {v : Half} (h : decodeWindowHalf d off v = .ok i) :
    i.WellFormed ∧ encodeWord i = descriptor d true 0 off v.toNat := by
  unfold decodeWindowHalf at h
  split at h
  · next hlow => subst hlow; cases d <;> cases h <;> exact ⟨rfl, rfl⟩
  split at h
  · next hhigh => subst hhigh; cases d <;> cases h <;> exact ⟨rfl, rfl⟩
  · cases h

/-- The 16-bit value of a descriptor (30_encoding.md R141). -/
theorem toNat_value16 (w : Word) : (BitVec.ofNat 16 (field w 15 0)).toNat = field w 15 0 := by
  rw [BitVec.toNat_ofNat, field]
  omega

/-- An 8-bit value is the whole value field, since bits 15:8 are clear (30_encoding.md R141). -/
theorem toNat_value8 {w : Word} (h : field w 15 8 = 0) : (BitVec.ofNat 8 (field w 7 0)).toNat = field w 15 0 := by
  simp only [field, BitVec.toNat_ofNat] at h ⊢
  omega

/-- A word that decodes as an event is that event's descriptor, and a slot or half it names exists (30_encoding.md
R141, R142). -/
theorem encodeWord_of_decodeEvent {w : Word} (h : decodeEvent w = .ok i) : i.WellFormed ∧ encodeWord i = w := by
  unfold decodeEvent at h
  dsimp only at h
  split at h
  · cases h
  next hres =>
  obtain ⟨hzero, hval⟩ := not_or.1 hres
  have hw := descriptor_of_fields (not_not.1 hzero)
  have hoff : field w 18 16 < 8 := Nat.mod_lt _ (by decide)
  have h16 := toNat_value16 w
  have h8 : decide (field w 30 30 = 1) = false → (BitVec.ofNat 8 (field w 7 0)).toNat = field w 15 0 :=
    fun hnarrow => toNat_value8 (not_not.1 fun h15 => hval ⟨by rw [hnarrow]; decide, h15⟩)
  generalize decide (field w 31 31 = 1) = out at h hw
  generalize decide (field w 30 30 = 1) = wide at h hw h8
  split at h
  · next ht =>
    rw [ht] at hw
    cases wide with
    | true => rw [← hw, ← h16]; exact encodeWord_of_decodeWindowHalf h
    | false => rw [← hw, ← h8 rfl]; exact encodeWord_of_decodeWindowByte hoff h
  · next ht =>
    split at h
    · cases h
    next hport =>
    obtain ⟨hnarrow, hbase⟩ := not_or.1 hport
    cases Bool.eq_false_of_not_eq_true hnarrow
    rw [ht, not_not.1 hbase, ← h8 rfl] at hw
    cases out <;> cases h <;> exact ⟨rfl, hw⟩
  · next ht =>
    split at h
    · cases h
    next hport =>
    obtain ⟨hnarrow, hbase, hread⟩ := (not_or.1 hport).imp id not_or.1
    cases Bool.eq_false_of_not_eq_true hnarrow
    cases Bool.eq_false_of_not_eq_true hread
    rw [ht, not_not.1 hbase, ← h8 rfl] at hw
    cases h
    exact ⟨rfl, hw⟩
  · cases h

end Events

/-- A command has no field that its encoding could not hold (30_encoding.md R130). -/
theorem wellFormed_of_isCommand {i : Instr} (h : i.isCommand = true) : i.WellFormed := by
  cases i with
  | configure | xferWr | xferRd | mboxExec => rfl
  | _ => cases h

/-- Settles O11: a word is decoded in one of two formats, and in each it is the word of what it decodes to. -/
theorem decodedWordIsTheEncoding : Obligations.DecodedWordIsTheEncoding := by
  intro w i h
  unfold decodeWord at h
  split at h
  · obtain ⟨hi, hw⟩ := decodeCommand_eq_ok_iff.1 h
    exact ⟨wellFormed_of_isCommand hi, hw⟩
  · exact encodeWord_of_decodeEvent h

/-- Settles O12: each word of the two tables is decoded. -/
theorem wordsOfTheTableDecode : Obligations.WordsOfTheTableDecode := by
  unfold Obligations.WordsOfTheTableDecode
  decide

end Sys2Proof.Machine

/-! SUPPORT. The registers of a present channel (10_state.md R42 to R48, 30_encoding.md R136 to R138), and a client's
wait for one (R149). -/

namespace Sys2Proof.Machine

/-! ### Channel registers -/

/-- A read within a present channel (10_state.md R42). -/
theorem csrRead_reg {s : State} {c : ChanId} {r : Nat} (hc : c.val < s.params.nch) (hr : r < 0x40) :
    s.csrRead (0x100 + 0x40 * c.val + r) = (s.chan c).read r := by
  rw [State.csrRead, if_neg (by omega), chanOfOffset_reg hc hr]

/-- `CH_STATUS` (30_encoding.md R136). -/
theorem statusWord_toNat (ch : Channel) : ch.statusWord.toNat =
    ch.busy.toNat + 2 ^ 1 * ch.done.toNat + 2 ^ 2 * ch.wdrop.toNat + 2 ^ 3 * ch.noop.toNat +
      2 ^ 8 * ch.state.toCode.toNat := by
  have hbusy := Bool.toNat_lt ch.busy
  have hdone := Bool.toNat_lt ch.done
  have hwdrop := Bool.toNat_lt ch.wdrop
  have hnoop := Bool.toNat_lt ch.noop
  have h0 : (bitAt ch.busy 0).toNat = ch.busy.toNat := (bitAt_toNat ch.busy (by decide)).trans (Nat.one_mul _)
  have h1 := toNat_or_field h0 hbusy (bitAt_toNat ch.done (k := 1) (by decide))
  have h2 := toNat_or_field h1 (by omega) (bitAt_toNat ch.wdrop (k := 2) (by decide))
  have h3 := toNat_or_field h2 (by omega) (bitAt_toNat ch.noop (k := 3) (by decide))
  exact toNat_or_field h3 (by omega) (byteAt_toNat ch.state.toCode (k := 8) (by decide))

/-- Bit 0 of `CH_STATUS` is `BUSY` (30_encoding.md R136). -/
theorem statusWord_getLsbD_zero (ch : Channel) : ch.statusWord.getLsbD 0 = ch.busy := by
  have hmod : ch.statusWord.toNat % 2 = ch.busy.toNat := by
    have := Bool.toNat_lt ch.busy
    have := statusWord_toNat ch
    omega
  rw [BitVec.getLsbD, Nat.testBit_zero, hmod]
  cases ch.busy <;> rfl

/-- `CH_RESULT` (30_encoding.md R136). -/
theorem resultWord_toNat (ch : Channel) :
    ch.resultWord.toNat = ch.kind.toCode.toNat + 2 ^ 16 * ch.code.toNat := by
  have hkind : (ch.kind.toCode.setWidth 32 : Word).toNat = ch.kind.toCode.toNat :=
    BitVec.toNat_setWidth_of_le (by decide)
  have hcode : (halfWord ch.code <<< 16).toNat = 2 ^ 16 * ch.code.toNat := by
    have := ch.code.isLt
    rw [toNat_field_at (by rw [halfWord_toNat]; omega), halfWord_toNat]
  have := ch.kind.toCode.isLt
  exact toNat_or_field hkind (by omega) hcode

/-- No register is at an offset from 0x24 within a channel (10_state.md R42). -/
theorem channel_read_reserved {ch : Channel} {r : Nat} (h : 0x24 ≤ r) : ch.read r = 0 := by
  unfold Channel.read
  split
  iterate 8
    · omega
  · rfl

/-- Settles O15: each offset reads its register, whose word is the sum of its fields. -/
theorem channelRegistersRead : Obligations.ChannelRegistersRead := by
  intro s c hc o ch
  have hread : ∀ r, r < 0x40 → s.csrRead (o + r) = ch.read r := fun _ hr => csrRead_reg hc hr
  refine ⟨hread 0 (by decide), ?_, ?_, hread 0x0C (by decide), hread 0x10 (by decide), hread 0x14 (by decide),
    hread 0x18 (by decide), hread 0x1C (by decide), ?_, ?_⟩
  · rw [hread 0x04 (by decide)]
    exact (statusWord_toNat ch).trans (by simp [Bool.toNat, Bool.cond_eq_ite])
  · rw [hread 0x08 (by decide)]
    exact resultWord_toNat ch
  · rw [hread 0x20 (by decide)]
    exact BitVec.toNat_setWidth_of_le (by decide)
  · rintro r ⟨hlo, hhi⟩
    rw [hread r hhi, channel_read_reserved hlo]

/-- Settles O16: both code tables, entry by entry. -/
theorem statusAndKindCodes : Obligations.StatusAndKindCodes := ⟨rfl, rfl⟩

/-! ### The wait line -/

/-- A wait for a present channel reads its `CH_STATUS`, and the line stays while `BUSY` is set (30_encoding.md R149). -/
theorem clientWait_present {s : State} {k c : ChanId} {rest : List ClientOp} (hc : c.val < s.params.nch) :
    s.clientWait k c.val rest = s.clientReads k (s.chan c).statusWord
      (if (s.chan c).busy = true then .wait c.val :: rest else rest) := by
  have hread : s.csrRead (chanOffset c.val + 0x04) = (s.chan c).statusWord := csrRead_reg hc (by decide)
  rw [State.clientWait, hread, statusWord_getLsbD_zero]

/-- Settles O23: the step sets what the client has read and has left to run, and nothing else. -/
theorem waitLineStaysUntilIdle : Obligations.WaitLineStaysUntilIdle := by
  intro s k c rest sch hs hk hc hprog
  have hp : (s.setSched sch).present k = true := decide_eq_true hk
  have hl : ((s.setSched sch).client k).prog = .wait c.val :: rest := hprog
  have hstep : step s = .next ((s.setSched sch).clientReads k (s.chan c).statusWord
      (if (s.chan c).busy = true then .wait c.val :: rest else rest)) := by
    rw [step_client hs, State.clientStep, hp, hl]
    exact congrArg Host.Outcome.next (clientWait_present hc)
  refine ⟨_, hstep, ?_, ?_, fun j hj => client_setClient_ne _ k j _ hj, fun _ => rfl, ⟨rfl, rfl, rfl, rfl, rfl⟩,
    ⟨rfl, rfl⟩, ⟨rfl, rfl⟩, ⟨rfl, rfl⟩, fun _ => rfl, rfl, rfl, rfl, rfl⟩
  · simp [State.clientReads]
  · simp [State.clientReads]

end Sys2Proof.Machine

/-! SUPPORT. A client's access of a control register (40_control.md R170 to R182): its step, and what the write does to
the channel it names. -/

namespace Sys2Proof.Machine

/-! ### The client's step -/

section Line

variable (s : State) (k : ChanId) (rest : List ClientOp) (sch : List Input)

@[simp] theorem lineDone_chan (c : ChanId) : (s.lineDone k rest sch).chan c = s.chan c := rfl
@[simp] theorem lineDone_params : (s.lineDone k rest sch).params = s.params := rfl

/-- What a control register reads as does not depend on the schedule (10_state.md R33). -/
@[simp] theorem csrRead_setSched (off : Nat) : (s.setSched sch).csrRead off = s.csrRead off := rfl

end Line

section Access

variable {s : State} {k c : ChanId} {off r : Nat} {v : Word} {rest : List ClientOp} {sch : List Input}

/-- A step that reads a control register (40_control.md R170, R171). -/
theorem step_csrRead (hw : s.params.wf = true) (hs : s.sched = .client k :: sch) (hk : k.val < s.params.nch)
    (hprog : (s.client k).prog = .read (csrAddr s.params off) .w32 :: rest) (ho : off < 0x500) (h4 : off % 4 = 0) :
    step s = .next ((s.setSched sch).clientReads k (s.csrRead off) rest) := by
  have hp : (s.setSched sch).present k = true := decide_eq_true hk
  have hl : ((s.setSched sch).client k).prog = .read (csrAddr s.params off) .w32 :: rest := hprog
  rw [step_client hs, State.clientStep, hp, hl]
  simp only [Bool.not_true, Bool.false_eq_true, if_false, State.clientRead, setSched_params,
    csrAdmitted_csrAddr hw ho h4, csrOffset_csrAddr hw ho, if_true, csrRead_setSched]

/-- A step that writes a register of a present channel, but for `CH_CMD` (40_control.md R172, R178). -/
theorem step_channelWrite (hw : s.params.wf = true) (hc : c.val < s.params.nch) (hr : r < 0x40) (h4 : r % 4 = 0)
    (h0 : r ≠ 0) (h : Writes s k (0x100 + 0x40 * c.val + r) v rest sch) :
    step s = .next ((s.lineDone k rest sch).modChan c fun ch => ch.write r v) := by
  rw [step_csrWrite hw (by omega) (by omega) h, csrWrite_reg (s := s.lineDone k rest sch) hc hr, if_neg h0]

/-- A step that writes `CH_CMD` of a present channel (40_control.md R174). -/
theorem step_writeCommand (hw : s.params.wf = true) (hc : c.val < s.params.nch)
    (h : Writes s k (0x100 + 0x40 * c.val) v rest sch) : step s = (s.lineDone k rest sch).writeCommand c v := by
  rw [step_csrWrite hw (by omega) (by omega) h]
  exact csrWrite_reg hc (r := 0) (by decide)

end Access

/-- Settles O17: the step sets what the client has read and has left to run, and nothing else. -/
theorem controlRegisterReadHasNoSideEffect : Obligations.ControlRegisterReadHasNoSideEffect := by
  intro s k off rest sch hw hs hk hprog ho h4
  exact ⟨_, step_csrRead hw hs hk hprog ho h4, client_setClient_self _ k _,
    fun j hj => client_setClient_ne _ k j _ hj, ⟨rfl, rfl, rfl, rfl, rfl⟩, ⟨rfl, rfl⟩, ⟨rfl, rfl⟩, ⟨rfl, rfl⟩,
    fun _ => rfl, fun _ => rfl, rfl, rfl, rfl, rfl⟩

/-! ### Writes within a channel -/

/-- A selection and a change of one channel leave all else. -/
theorem onlyChan_select_modChan (s : State) (d c : ChanId) (f : Channel → Channel) :
    OnlyChan s ((s.select d).modChan c f) c :=
  ⟨⟨rfl, rfl, rfl, rfl, rfl⟩, ⟨rfl, rfl⟩, ⟨rfl, rfl⟩, ⟨rfl, rfl, rfl, rfl, rfl⟩, ⟨rfl, rfl⟩, fun _ => rfl,
    fun e he => chan_modChan_ne (s.select d) c e f he⟩

/-- A change of one channel leaves all else. -/
theorem onlyChan_modChan (s : State) (c : ChanId) (f : Channel → Channel) : OnlyChan s (s.modChan c f) c :=
  onlyChan_select_modChan s s.sel c f

/-- A change that leaves the channel as it is changes nothing. -/
theorem modChan_eq_self {s : State} {c : ChanId} {f : Channel → Channel} (h : f (s.chan c) = s.chan c) :
    s.modChan c f = s := by
  rw [State.modChan, h, setChan_chan_self]

/-- The offsets of the argument registers (10_state.md R42). -/
theorem argOfOffset_arg (j : Fin 5) : argOfOffset (0x0C + 4 * j.val) = some j := by
  revert j; decide

/-- A write at the offset of an argument register (40_control.md R172, R173). -/
theorem channel_write_arg (ch : Channel) (j : Fin 5) (v : Word) : ch.write (0x0C + 4 * j.val) v = ch.writeArg j v := by
  rw [Channel.write, if_neg (by omega), argOfOffset_arg]

/-- A write to `CH_RESULT`, to `CH_SUM` or at a reserved offset has no effect (40_control.md R179). -/
theorem channel_write_readOnly (ch : Channel) {r : Nat} (v : Word) (h : r = 0x08 ∨ 0x20 ≤ r) : ch.write r v = ch := by
  have harg : argOfOffset r = none := by
    unfold argOfOffset
    split
    iterate 5
      · omega
    · rfl
  rw [Channel.write, if_neg (by omega), harg]

/-- The argument registers after a store to one of them (40_control.md R172). -/
theorem setArg_arg (ch : Channel) (i j : Fin 5) (v : Word) :
    (ch.setArg j v).arg i = if i = j then v else ch.arg i := by
  fin_cases j <;> fin_cases i <;> rfl

/-- Storing an argument changes neither the latch nor the record of a channel (40_control.md R172). -/
theorem setArg_latch_record (ch : Channel) (j : Fin 5) (v : Word) :
    ((ch.setArg j v).op = ch.op ∧ (ch.setArg j v).noresp = ch.noresp ∧ (ch.setArg j v).wdrop = ch.wdrop) ∧
      (ch.setArg j v).done = ch.done ∧ (ch.setArg j v).noop = ch.noop ∧ (ch.setArg j v).kind = ch.kind ∧
      (ch.setArg j v).code = ch.code ∧ (ch.setArg j v).sum = ch.sum := by
  unfold Channel.setArg
  split <;> exact ⟨⟨rfl, rfl, rfl⟩, rfl, rfl, rfl, rfl, rfl⟩

/-- A step that writes an argument register of a present channel (40_control.md R172, R173). -/
theorem step_writeArg {s : State} {k c : ChanId} {v : Word} {rest : List ClientOp} {sch : List Input}
    (hw : s.params.wf = true) (hc : c.val < s.params.nch) (j : Fin 5)
    (h : Writes s k (0x10C + 0x40 * c.val + 4 * j.val) v rest sch) :
    step s = .next ((s.lineDone k rest sch).modChan c fun ch => ch.writeArg j v) := by
  have hoff : 0x10C + 0x40 * c.val + 4 * j.val = 0x100 + 0x40 * c.val + (0x0C + 4 * j.val) := by omega
  rw [hoff] at h
  rw [step_channelWrite hw hc (by omega) (by omega) (by omega) h]
  simp only [channel_write_arg]

/-- Settles O19: an idle channel stores the word in the register at the offset. -/
theorem argumentWriteIsStored : Obligations.ArgumentWriteIsStored := by
  intro s k c v rest sch j hw hc h hb
  have hchan : ((s.lineDone k rest sch).modChan c fun ch => ch.writeArg j v).chan c = (s.chan c).setArg j v := by
    rw [chan_modChan_self, lineDone_chan, Channel.writeArg, hb]
    rfl
  obtain ⟨hbusy, hxc, hmc, hstate⟩ := setArg_frame (s.chan c) j v
  obtain ⟨⟨hop, hnoresp, hwdrop⟩, hdone, hnoop, hkind, hcode, hsum⟩ := setArg_latch_record (s.chan c) j v
  refine ⟨_, step_writeArg hw hc j h, onlyChan_modChan _ c _, ?_, ?_, ⟨?_, ?_, ?_⟩, ⟨?_, ?_, ?_, ?_, ?_, ?_⟩, ?_, ?_,
    ?_⟩
  · rw [hchan, setArg_arg, if_pos rfl]
  · intro i hi
    rw [hchan, setArg_arg, if_neg hi]
  all_goals rw [hchan]; assumption

/-- A one-bit field is that bit of the word (00_scope.md R11). -/
theorem field_bit (w : Word) (k : Nat) : field w k k = (w.getLsbD k).toNat := by
  rw [field, Nat.sub_self, BitVec.getLsbD, Nat.testBit_eq_decide_div_mod_eq]
  rcases Nat.mod_two_eq_zero_or_one (w.toNat / 2 ^ k) with h | h <;> simp [h]

/-- A flag is cleared where its bit of the word is set (40_control.md R178). -/
theorem and_field_bit_zero (b : Bool) (w : Word) (k : Nat) :
    (b && decide (field w k k = 0)) = if w.getLsbD k = true then false else b := by
  rw [field_bit]
  cases w.getLsbD k <;> cases b <;> rfl

/-- Settles O21: the write clears the two flags by their bits. -/
theorem statusWriteClearsDoneAndDropped : Obligations.StatusWriteClearsDoneAndDropped := by
  intro s k c v rest sch hw hc h
  have hoff : 0x104 + 0x40 * c.val = 0x100 + 0x40 * c.val + 0x04 := by omega
  rw [hoff] at h
  refine ⟨_, step_channelWrite hw hc (by decide) (by decide) (by decide) h, onlyChan_modChan _ c _, ?_⟩
  rw [chan_modChan_self, lineDone_chan, Channel.write, if_pos rfl, Channel.clearStatus, and_field_bit_zero,
    and_field_bit_zero]

/-- A write to a read-only register, to a reserved offset or to an absent channel has no effect (40_control.md R179,
R182). -/
theorem csrWrite_readOnly {s : State} {off : Nat} (v : Word) (ho : off < 0x500)
    (h : off < 0x100 ∨ 0x100 + 0x40 * s.params.nch ≤ off ∨ (off - 0x100) % 0x40 = 0x08 ∨
      0x20 ≤ (off - 0x100) % 0x40) : s.csrWrite off v = .next s := by
  by_cases hnone : off < 0x100 ∨ 0x100 + 0x40 * s.params.nch ≤ off
  · rw [State.csrWrite, chanOfOffset_none hnone]
  · obtain ⟨c, r, hc, hr, rfl⟩ : ∃ (c : ChanId) (r : Nat), c.val < s.params.nch ∧ r < 0x40 ∧
        off = 0x100 + 0x40 * c.val + r :=
      ⟨⟨(off - 0x100) / 0x40, by omega⟩, (off - 0x100) % 0x40, by dsimp only; omega, by omega, by dsimp only; omega⟩
    have hro : r = 0x08 ∨ 0x20 ≤ r := by omega
    rw [csrWrite_reg hc hr, if_neg (by omega), modChan_eq_self (channel_write_readOnly _ v hro)]

/-- Settles O22: the step takes the line and does no more. -/
theorem readOnlyWritesHaveNoEffect : Obligations.ReadOnlyWritesHaveNoEffect := by
  intro s k off v rest sch hw ho h4 h hoff
  have hstep : step s = .next (s.lineDone k rest sch) := by
    rw [step_csrWrite hw ho h4 h]
    exact csrWrite_readOnly v ho hoff
  exact ⟨_, hstep, fun _ => rfl, ⟨rfl, rfl, rfl, rfl, rfl⟩, ⟨rfl, rfl⟩, ⟨rfl, rfl⟩, ⟨rfl, rfl⟩, fun _ => rfl,
    rfl, rfl, rfl, rfl, rfl⟩

/-! ### Command words -/

/-- Each command is the acceptance step of its word (40_control.md R174). -/
theorem exec_command {i : Instr} (hi : i.isCommand = true) (s : State) :
    ∃ body, exec i s = .next (s.issueCommand (encodeWord i) body) := by
  cases i with
  | configure | xferWr | xferRd | mboxExec => exact ⟨_, rfl⟩
  | _ => cases hi

/-- Each word written to `CH_CMD` is its own acceptance step, legal or not (40_control.md R174). -/
theorem writeCommand_eq_issueCommand (s : State) (c : ChanId) (w : Word) :
    ∃ body, s.writeCommand c w = .next ((s.select c).issueCommand w body) := by
  unfold State.writeCommand
  split
  · next i hi =>
    obtain ⟨hcommand, rfl⟩ := decodeCommand_eq_ok_iff.1 hi
    exact exec_command hcommand _
  · exact ⟨_, rfl⟩

/-- A busy channel drops a command word (40_control.md R173). -/
theorem writeCommand_busy {s : State} {c : ChanId} (w : Word) (hc : c.val < s.params.nch)
    (hb : (s.chan c).busy = true) : s.writeCommand c w = .next ((s.select c).modChan c Channel.dropWrite) := by
  obtain ⟨body, e⟩ := writeCommand_eq_issueCommand s c w
  rw [e, issueCommand_dropped w body (decide_eq_true hc) hb, select_sel]

/-- Settles O20: a command word and an argument are dropped alike. -/
theorem busyWritesAreDropped : Obligations.BusyWritesAreDropped := by
  intro s k c v off rest sch hw hc hoff h hb
  obtain rfl | ⟨j, rfl⟩ := hoff
  · refine ⟨_, (step_writeCommand hw hc h).trans (writeCommand_busy v hc hb), onlyChan_select_modChan _ c c _, ?_⟩
    rw [chan_modChan_self]; rfl
  · refine ⟨_, step_writeArg hw hc j h, onlyChan_modChan _ c _, ?_⟩
    rw [chan_modChan_self, lineDone_chan, Channel.writeArg, if_pos hb, Channel.dropWrite]

/-- Settles O25: acceptance looks at the channel before the command. -/
theorem commandOnBusyOrAbsentChannel : Obligations.CommandOnBusyOrAbsentChannel := by
  intro s i hi
  obtain ⟨body, e⟩ := exec_command hi s
  constructor
  · intro hp hb
    rw [issueCommand_dropped _ body (decide_eq_true hp) hb] at e
    exact ⟨_, e, onlyChan_modChan s s.sel _, chan_modChan_self ..⟩
  · intro hp
    rw [e, issueCommand_absent _ body (decide_eq_false (Nat.not_lt.2 hp))]

/-- The command whose bytes are those of a word is the command the word decodes to (30_encoding.md R130). -/
theorem decodeCommand_of_decode {w : Word} {i : Instr} (hi : i.isCommand = true)
    (h : decode (bytesOfWord w) = .ok (i, [])) : decodeCommand w = .ok i := by
  simp only [bytesOfWord, decode, wordOfBytes_bytesOfWord] at h
  split at h
  · next j hj =>
    cases h
    exact decodeCommand_eq_ok_iff.2 ⟨hi, (decodedWordIsTheEncoding w i hj).2⟩
  · cases h

/-- Settles O7: a command has one word, so the word decodes to it in the format of command words too. -/
theorem commandWriteRunsDecodedCommand : Obligations.CommandWriteRunsDecodedCommand := by
  intro s k c w i rest sch hw h hc hdec hi
  rw [step_writeCommand hw hc h, State.writeCommand, decodeCommand_of_decode hi hdec]

end Sys2Proof.Machine

/-! SUPPORT. The acceptance of a command (40_control.md R174 to R177) and what a command that ends in its acceptance
step leaves (60_exceptions.md R300); CONFIGURE (R184, R185). -/

namespace Sys2Proof.Machine

/-! ### Acceptance and completion -/

/-- The opcode of a command word (30_encoding.md R130). -/
theorem field_opcode (w : Word) : BitVec.ofNat 4 (field w 3 0) = w.setWidth 4 := by
  apply BitVec.eq_of_toNat_eq
  simp [field]

/-- The latch changes nothing but its channel's latch, status and result (40_control.md R174). -/
theorem acceptFrame_latch (s : State) (w : Word) :
    AcceptFrame s (s.modChan s.sel fun ch => ch.latch w) (w.setWidth 4) (w.getLsbD 8) := by
  refine ⟨⟨rfl, rfl, rfl, rfl, rfl⟩, ⟨rfl, rfl⟩, fun _ => rfl, ⟨rfl, rfl⟩, rfl, fun d hd => chan_modChan_ne _ _ _ _ hd,
    ?_, ?_, ?_, ?_⟩
  · constructor <;> rw [chan_modChan_self] <;> rfl
  · rw [chan_modChan_self, latch_op, field_opcode]
  · rw [chan_modChan_self, latch_noresp, field_bit]
    cases w.getLsbD 8 <;> rfl
  · rw [chan_modChan_self, latch_wdrop]

/-- The record that completion leaves (60_exceptions.md R300, R301). -/
theorem completed_completed (ch : Channel) (kind : Kind) (code : Half) (st : SeqState) (sum : Byte) :
    Completed (ch.completed kind code st sum) kind code st sum (noopAtCompletion kind ch.evented) :=
  ⟨rfl, rfl, rfl, rfl, rfl, rfl, rfl, rfl, rfl⟩

/-- Completion frees MLOCK where its channel holds it (60_exceptions.md R300). -/
theorem mlockAfter_releasedBy {s t : State} {c : ChanId} (h : t.mlock = s.mlock.releasedBy c) : MlockAfter s t c := by
  constructor
  · intro hheld
    rw [h, hheld, releasedBy_self]
  · intro hheld
    rw [h, releasedBy_ne hheld]

section Completion

variable {s u : State} {op : BitVec 4} {n : Bool}

/-- The window registers are outside the frame of an acceptance step. -/
theorem AcceptFrame.setWindow (h : AcceptFrame s u op n) (base end_ cmd data : Half) :
    AcceptFrame s (u.setWindow base end_ cmd data) op n := by
  obtain ⟨⟨hp, hnow, hcl, hsched, hdrawn⟩, ⟨hec, htrace⟩, hhost, ⟨htx, hrx⟩, hxlock, hothers, ⟨h0, h1, h2, h3, h4⟩, hop,
    hn, hw⟩ := h
  exact ⟨⟨hp, hnow, hcl, hsched, hdrawn⟩, ⟨hec, htrace⟩, hhost, ⟨htx, hrx⟩, hxlock, hothers, ⟨h0, h1, h2, h3, h4⟩, hop,
    hn, hw⟩

/-- Completion of the accepted command keeps the frame of its acceptance step (60_exceptions.md R300). -/
theorem AcceptFrame.complete (h : AcceptFrame s u op n) (kind : Kind) (code : Half) (st : SeqState) (sum : Byte) :
    AcceptFrame s (u.complete s.sel kind code st sum) op n := by
  have hchan : (u.complete s.sel kind code st sum).chan s.sel = (u.chan s.sel).completed kind code st sum :=
    complete_chan_self ..
  obtain ⟨⟨hp, hnow, hcl, hsched, hdrawn⟩, ⟨hec, htrace⟩, hhost, ⟨htx, hrx⟩, hxlock, hothers, hargs, hop, hn, hw⟩ := h
  refine ⟨⟨hp, hnow, hcl, hsched, hdrawn⟩, ⟨hec, htrace⟩, hhost, ⟨htx, hrx⟩, hxlock,
    fun d hd => (complete_chan_ne _ _ _ _ _ _ _ hd).trans (hothers d hd), ?_, ?_, ?_, ?_⟩
  · exact ⟨hchan ▸ hargs.arg0, hchan ▸ hargs.arg1, hchan ▸ hargs.arg2, hchan ▸ hargs.arg3, hchan ▸ hargs.arg4⟩
  · rw [hchan]; exact hop
  · rw [hchan]; exact hn
  · rw [hchan]; exact hw

/-- A command that raises an error in its acceptance step is rejected (40_control.md R177). -/
theorem rejection_raise (s : State) (w : Word) {kind : Kind} (hk : kind ≠ .ok) (code : Half) :
    Rejection s ((s.modChan s.sel fun ch => ch.latch w).raise s.sel kind code) (w.setWidth 4) (w.getLsbD 8) kind
      code where
  frame := (acceptFrame_latch s w).complete _ _ _ _
  window := ⟨rfl, rfl, rfl, rfl, rfl⟩
  mlock := mlockAfter_releasedBy rfl
  completed := by
    have hnoop : ∀ ev, noopAtCompletion kind ev = false := fun ev => by simp [noopAtCompletion, hk]
    rw [State.raise, complete_chan_self]
    exact hnoop _ ▸ completed_completed _ kind code .rejected 0

end Completion

/-- Settles O24: the word is latched like any other, and its body raises BAD_COMMAND. -/
theorem illegalCommandEndsWithBadCommand : Obligations.IllegalCommandEndsWithBadCommand := by
  intro s k c w rest sch hw hc hb h hillegal
  have hstep : step s = .next (((s.lineDone k rest sch).select c).rejectCommand w) := by
    rw [step_writeCommand hw hc h, State.writeCommand]
    split
    · next i hi => exact absurd hi (hillegal i)
    · rfl
  refine ⟨_, hstep, ?_⟩
  rw [State.rejectCommand, issueCommand_accepted w _ (decide_eq_true hc) hb]
  exact rejection_raise _ w (kind := .badCommand) (by decide) 0

/-! ### CONFIGURE -/

/-- The upper half of an argument register is clear (30_encoding.md R133). -/
theorem upperClear_eq (w : Word) : upperClear w = decide (w.toNat < 0x10000) := by
  have := w.isLt
  exact decide_eq_decide.2 (by rw [field]; omega)

/-- A register with a clear upper half holds the number that its lower half holds (30_encoding.md R133). -/
theorem lowHalf_toNat {w : Word} (h : w.toNat < 0x10000) : (lowHalf w).toNat = w.toNat := by
  simp only [lowHalf, field, BitVec.toNat_ofNat]
  omega

/-- CONFIGURE's argument checks as conditions on the numbers in the argument registers (40_control.md R184, R185). -/
theorem configureBadArg_eq (ch : Channel) (odd : Bool) : ch.configureBadArg odd =
    if 0x10000 ≤ ch.arg0.toNat then some 0
    else if 0x10000 ≤ ch.arg1.toNat then some 1
    else if 0x10000 ≤ ch.arg2.toNat then some 2
    else if 0x10000 ≤ ch.arg3.toNat then some 3
    else if odd = false ∧ ch.arg0.toNat % 2 = 1 then some 0
    else none := by
  have hupper : ∀ w : Word, (!upperClear w) = true ↔ 0x10000 ≤ w.toNat := fun w => by simp [upperClear_eq]
  simp only [Channel.configureBadArg, hupper]
  by_cases h0 : 0x10000 ≤ ch.arg0.toNat
  · rw [if_pos h0, if_pos h0]
  · have hlow := lowHalf_toNat (Nat.not_le.1 h0)
    have hodd : (!odd && decide (lowHalf ch.arg0 ≠ 0) && decide ((lowHalf ch.arg0).toNat % 2 = 1)) = true ↔
        odd = false ∧ ch.arg0.toNat % 2 = 1 := by
      have hne : (lowHalf ch.arg0).toNat % 2 = 1 → lowHalf ch.arg0 ≠ 0 := by
        intro h1 hz
        rw [hz] at h1
        cases h1
      rw [← hlow]
      simp only [Bool.and_eq_true, Bool.not_eq_true', decide_eq_true_eq]
      exact ⟨fun h => ⟨h.1.1, h.2⟩, fun h => ⟨⟨h.1, hne h.2⟩, h.2⟩⟩
    simp only [hodd]

/-- The latch leaves the arguments that CONFIGURE checks (40_control.md R174). -/
theorem configureBadArg_latch (ch : Channel) (w : Word) (odd : Bool) :
    (ch.latch w).configureBadArg odd = ch.configureBadArg odd := rfl

section Configure

variable {s : State}

/-- CONFIGURE's body on a locked configuration (40_control.md R184). -/
theorem configureWindow_locked (hl : s.cfgLocked = true) :
    s.configureWindow = s.raise s.sel .alreadyConfigured 0 := if_pos hl

/-- CONFIGURE's body where a check on the arguments fails (40_control.md R185). -/
theorem configureWindow_badArg {k : Half} (hl : s.cfgLocked = false)
    (hbad : (s.chan s.sel).configureBadArg s.params.port16OddOk = some k) :
    s.configureWindow = s.raise s.sel .badArgument k := by
  simp [State.configureWindow, hl, hbad]

/-- CONFIGURE's body where every check passes (40_control.md R184). -/
theorem configureWindow_good (hl : s.cfgLocked = false)
    (hgood : (s.chan s.sel).configureBadArg s.params.port16OddOk = none) :
    s.configureWindow =
      (s.setWindow (lowHalf (s.chan s.sel).arg0) (lowHalf (s.chan s.sel).arg1) (lowHalf (s.chan s.sel).arg2)
        (lowHalf (s.chan s.sel).arg3)).complete s.sel .ok 0 .done 0 := by
  simp [State.configureWindow, hl, hgood]

variable (h : Accepts s)
include h

/-- CONFIGURE, accepted: its word is latched and its body runs (40_control.md R174). -/
theorem exec_configure_accepted :
    exec .configure s = .next (s.modChan s.sel fun ch => ch.latch (encodeWord .configure)).configureWindow :=
  congrArg Host.Outcome.next (issueCommand_accepted _ _ (decide_eq_true h.present) h.idle)

/-- CONFIGURE is rejected where its body raises an error. -/
theorem configure_rejected {kind : Kind} {code : Half} (hk : kind ≠ .ok)
    (e : (s.modChan s.sel fun ch => ch.latch (encodeWord .configure)).configureWindow =
      (s.modChan s.sel fun ch => ch.latch (encodeWord .configure)).raise s.sel kind code) :
    ∃ t, exec .configure s = .next t ∧ Rejection s t 1 false kind code :=
  ⟨_, (exec_configure_accepted h).trans (congrArg _ e), rejection_raise s (encodeWord .configure) hk code⟩

end Configure

/-- Settles O27: the checks stand in the order of the clauses, before anything is written. -/
theorem configureRejections : Obligations.ConfigureRejections := by
  intro s kind code h a hcase
  obtain ⟨hl, rfl, rfl⟩ | ⟨hl, rfl, hbad⟩ := hcase
  · exact configure_rejected h (by decide) (configureWindow_locked hl)
  · refine configure_rejected h (by decide) (configureWindow_badArg hl ?_)
    rw [modChan_sel, modChan_params, chan_modChan_self, configureBadArg_latch, configureBadArg_eq]
    simp only [a, Channel.arg] at hbad
    obtain ⟨h0, rfl⟩ | ⟨h0, h1, rfl⟩ | ⟨h0, h1, h2, rfl⟩ | ⟨h0, h1, h2, h3, rfl⟩ |
      ⟨h0, h1, h2, h3, ho, hodd, rfl⟩ := hbad
    · rw [if_pos h0]
    · rw [if_neg (Nat.not_le.2 h0), if_pos h1]
    · rw [if_neg (Nat.not_le.2 h0), if_neg (Nat.not_le.2 h1), if_pos h2]
    · rw [if_neg (Nat.not_le.2 h0), if_neg (Nat.not_le.2 h1), if_neg (Nat.not_le.2 h2), if_pos h3]
    · rw [if_neg (Nat.not_le.2 h0), if_neg (Nat.not_le.2 h1), if_neg (Nat.not_le.2 h2), if_neg (Nat.not_le.2 h3),
        if_pos ⟨ho, hodd⟩]

/-- Settles O26: with every check passed the window takes the arguments, and completion follows with no event issued. -/
theorem configureWritesTheWindow : Obligations.ConfigureWritesTheWindow := by
  intro s h hl h0 h1 h2 h3 hodd
  have hgood : (s.chan s.sel).configureBadArg s.params.port16OddOk = none := by
    have hok : ¬ (s.params.port16OddOk = false ∧ (s.chan s.sel).arg0.toNat % 2 = 1) := by
      rintro ⟨hno, hbit⟩
      obtain hyes | heven := hodd
      · cases hno.symm.trans hyes
      · omega
    rw [configureBadArg_eq, if_neg (Nat.not_le.2 h0), if_neg (Nat.not_le.2 h1), if_neg (Nat.not_le.2 h2),
      if_neg (Nat.not_le.2 h3), if_neg hok]
  have hchan := chan_modChan_self s s.sel fun ch => ch.latch (encodeWord .configure)
  refine ⟨_, (exec_configure_accepted h).trans (congrArg _ (configureWindow_good hl ?_)), ?_⟩
  · rw [modChan_sel, hchan, configureBadArg_latch]; exact hgood
  · rw [modChan_sel, hchan]
    refine ⟨lowHalf_toNat h0, lowHalf_toNat h1, lowHalf_toNat h2, lowHalf_toNat h3, rfl, ?_,
      ((acceptFrame_latch s (encodeWord .configure)).setWindow _ _ _ _).complete _ _ _ _, mlockAfter_releasedBy rfl⟩
    rw [complete_chan_self, setWindow_chan, hchan]
    exact completed_completed _ _ _ _ _

end Sys2Proof.Machine

/-! SUPPORT. The window configuration (10_state.md R37): only an accepted CONFIGURE and reset write it, and a locked
configuration refuses a CONFIGURE (40_control.md R184, R188). -/

namespace Sys2Proof.Machine

/-- The window configuration: the four window registers and `CFG_LOCKED` (10_state.md R37). -/
def State.window (s : State) : Half × Half × Half × Half × Bool :=
  (s.emiBase, s.emiEnd, s.cmdPort, s.dataPort, s.cfgLocked)

theorem sameWindow_iff {s t : State} : SameWindow s t ↔ t.window = s.window := by
  simp only [State.window, Prod.mk.injEq]
  exact ⟨fun ⟨hbase, hend, hcmd, hdata, hlock⟩ => ⟨hbase, hend, hcmd, hdata, hlock⟩,
    fun ⟨hbase, hend, hcmd, hdata, hlock⟩ => ⟨hbase, hend, hcmd, hdata, hlock⟩⟩

/-! ### The operations of a step leave the window -/

section Operations

variable (s : State) (c : ChanId)

theorem window_framerSendPayload : (s.framerSendPayload c).window = s.window := by
  unfold State.framerSendPayload
  dsimp only
  split <;> rfl

theorem window_endTransfer (x : XferCtx) : (s.endTransfer c x).window = s.window := by
  unfold State.endTransfer
  dsimp only
  split
  · rfl
  · exact window_framerSendPayload (s.setXlock .free) c
  · rfl
  · rfl

/-- An operation of a transfer leaves the window (41_transfer.md R214). -/
theorem window_opStep (i : Instr) (x : XferCtx) : (s.opStep i x).window = s.window := by
  unfold State.opStep State.advance
  dsimp only
  split
  · exact window_endTransfer (s.issueEvent s.sel i) s.sel _
  · rfl

theorem window_mboxStrobe : (s.mboxStrobe c).window = s.window := by
  unfold State.mboxStrobe
  dsimp only
  split <;> rfl

theorem window_mboxPoll (m : MboxCtx) (v : Byte) : (s.mboxPoll c m v).window = s.window := by
  unfold State.mboxPoll
  split
  · rfl
  split <;> rfl

theorem window_mboxFlag (v : Byte) : (s.mboxFlag c v).window = s.window := by
  unfold State.mboxFlag
  split <;> rfl

theorem window_mboxBuild (m : MboxCtx) : (s.mboxBuild c m).window = s.window := by
  unfold State.mboxBuild
  dsimp only
  split
  · rfl
  next payload _ =>
  generalize overlay (requestBytes s.params (s.chan c).mailboxId m.len payload) s.txbuf = tx
  rfl

theorem window_hostWrites {s t : State} {a : Word} {bs : List Byte} (h : s.hostWrites a bs = some t) :
    t.window = s.window := by
  obtain ⟨m, rfl, -⟩ := hostWrites_eq_some h
  rfl

theorem window_mboxValidate : (s.mboxValidate c).window = s.window := by
  obtain ⟨_, _, _, -, -, e⟩ | ⟨u, hu, -, -, -, e⟩ | e := mboxValidate_cases s c <;> rw [e]
  · rfl
  · exact (window_hostWrites hu :)

/-- A step without an event leaves the window. -/
theorem window_internalStep : s.internalStep.window = s.window := by
  obtain e | ⟨x, -, -, e⟩ | ⟨m, -, -, ⟨-, -, e⟩ | ⟨-, e⟩ | ⟨-, e⟩⟩ := internalStep_cases s <;> rw [e]
  · rfl
  · rfl
  · exact window_mboxBuild s s.sel m
  · exact window_mboxValidate s s.sel

theorem window_xferStart (dir : Dir) : (s.xferStart dir).window = s.window := by
  unfold State.xferStart
  dsimp only
  split
  · rfl
  split <;> rfl

theorem window_mboxStart (n : Bool) : (s.mboxStart n).window = s.window := by
  unfold State.mboxStart
  dsimp only
  split
  · rfl
  split <;> rfl

/-- A command word leaves the window where its body does. -/
theorem window_issueCommand {s : State} (w : Word) {body : State → State}
    (hbody : ∀ u, u.window = s.window → (body u).window = s.window) : (s.issueCommand w body).window = s.window := by
  obtain ⟨-, -, e⟩ | ⟨-, -, e⟩ | ⟨-, e⟩ := issueCommand_cases (s := s) w body <;> rw [e]
  · exact hbody _ rfl
  · rfl

end Operations

/-! ### The steps of the machine leave a locked window -/

section Steps

variable {s t : State}

/-- CONFIGURE leaves a locked window (40_control.md R184, R188). -/
theorem window_configure (hl : s.cfgLocked = true) :
    (s.issueCommand (encodeWord .configure) State.configureWindow).window = s.window := by
  refine window_issueCommand _ fun u hu => ?_
  have hlu : u.cfgLocked = true := (sameWindow_iff.2 hu).cfgLocked.trans hl
  rw [configureWindow_locked hlu]
  exact hu

/-- Every instruction leaves a locked window. -/
theorem window_exec {i : Instr} (hl : s.cfgLocked = true) (he : exec i s = .next t) : t.window = s.window := by
  cases i with
  | configure => cases he; exact window_configure hl
  | xferWr => cases he; exact window_issueCommand _ fun u hu => (window_xferStart u .wr).trans hu
  | xferRd => cases he; exact window_issueCommand _ fun u hu => (window_xferStart u .rd).trans hu
  | mboxExec n => cases he; exact window_issueCommand _ fun u hu => (window_mboxStart u n).trans hu
  | selLo v => obtain ⟨x, -, -, rfl⟩ := execSelLo_eq_next.1 he; exact window_opStep s _ _
  | selHi v => obtain ⟨x, -, -, rfl⟩ := execSelHi_eq_next.1 he; exact window_opStep s _ _
  | dbWr j v => obtain ⟨x, -, -, -, -, -, rfl⟩ := execDbWr_eq_next.1 he; exact window_opStep s _ _
  | dhWr g v => obtain ⟨x, -, -, b0, b1, -, -, -, -, -, rfl⟩ := execDhWr_eq_next.1 he; exact window_opStep s _ _
  | dbRd j v =>
    obtain ⟨x, _, _, s', -, -, hs, rfl⟩ := execDbRd_eq_next.1 he
    obtain ⟨m, tx, rx, rfl, -, -⟩ := dst_frame hs
    exact window_opStep _ _ _
  | dhRd g v =>
    obtain ⟨x, _, _, s', -, -, hs, rfl⟩ := execDhRd_eq_next.1 he
    obtain ⟨m, tx, rx, rfl, -, -⟩ := dst2_frame hs
    exact window_opStep _ _ _
  | strobe v => obtain ⟨-, -, -, rfl⟩ := execStrobe_eq_next.1 he; exact window_mboxStrobe _ s.sel
  | statRd v => obtain ⟨m, -, -, rfl⟩ := execStatRd_eq_next.1 he; exact window_mboxPoll _ s.sel m v
  | flagRd v => obtain ⟨-, -, rfl⟩ := execFlagRd_eq_next.1 he; exact window_mboxFlag _ s.sel v

/-- A control-register write leaves a locked window (40_control.md R182, R188). -/
theorem window_csrWrite {off : Nat} {v : Word} (hl : s.cfgLocked = true) (he : s.csrWrite off v = .next t) :
    t.window = s.window := by
  unfold State.csrWrite at he
  split at he
  · next c r _ =>
    split at he
    · unfold State.writeCommand at he
      split at he
      · exact window_exec (s := s.select c) hl he
      · cases he
        exact window_issueCommand (s := s.select c) v fun u hu => hu
    · cases he; rfl
  · cases he; rfl

theorem window_clientWrite {k : ChanId} {a : Word} {w : Width} {v : Word} {rest : List ClientOp}
    (hl : s.cfgLocked = true) (he : s.clientWrite k a w v rest = .next t) : t.window = s.window := by
  unfold State.clientWrite at he
  split at he
  · exact window_csrWrite (s := s.clientGoesOn k rest) hl he
  split at he
  · cases he; rfl
  split at he
  · next hs => cases he; exact (window_hostWrites hs :)
  · cases he; rfl

theorem window_clientRead (k : ChanId) (a : Word) (w : Width) (rest : List ClientOp) :
    (s.clientRead k a w rest).window = s.window := by
  unfold State.clientRead
  split
  · rfl
  split
  · rfl
  split <;> rfl

theorem window_clientStep {k : ChanId} (hl : s.cfgLocked = true) (he : s.clientStep k = .next t) :
    t.window = s.window := by
  unfold State.clientStep at he
  split at he
  · cases he; rfl
  split at he
  · cases he; rfl
  · exact window_clientWrite hl he
  · cases he; exact window_clientRead k _ _ _
  · cases he; rfl

theorem window_channelStep {c : ChanId} {ans : Answer} (hl : s.cfgLocked = true)
    (he : s.channelStep c ans = .next t) : t.window = s.window := by
  obtain ⟨-, e⟩ | ⟨-, i, u, -, hi, e⟩ | ⟨-, -, e⟩ := channelStep_cases s c ans <;> cases e.symm.trans he
  · rfl
  · exact window_exec (s := s.select c) hl hi
  · exact window_internalStep (s.select c)

/-- Every agent's step but reset leaves a locked window (40_control.md R188). -/
theorem window_perform {i : Input} (hl : s.cfgLocked = true) (hr : i ≠ .reset) (he : s.perform i = .next t) :
    t.window = s.window := by
  cases i with
  | client k => exact window_clientStep hl he
  | channel c ans => exact window_channelStep hl he
  | ec m => cases he; rfl
  | clock d => cases he; rfl
  | reset => exact absurd rfl hr

end Steps

/-- Settles O28: no operation but CONFIGURE's own write touches the window, and a locked configuration bars that one. -/
theorem configuredWindowNeverChanges : Obligations.ConfiguredWindowNeverChanges := by
  intro s t hl hr he
  have hnext : s.nextInput.2.window = s.window := by
    obtain ⟨sch, n, e⟩ := nextInput_eq s
    rw [e]; rfl
  have hlu : s.nextInput.2.cfgLocked = true := (sameWindow_iff.2 hnext).cfgLocked.trans hl
  exact sameWindow_iff.2 ((window_perform hlu hr he).trans hnext)

end Sys2Proof.Machine

/-! SUPPORT. The acceptance of XFER_WR and XFER_RD (41_transfer.md R195 to R200), and the step in which a transfer
acquires XLOCK (R213, 20_memory.md R100). -/

namespace Sys2Proof.Machine

/-! ### The commands -/

/-- The command that moves data in a direction (41_transfer.md R195, R196). -/
def Dir.command : Dir → Instr
  | .wr => .xferWr
  | .rd => .xferRd

/-- The latch fields of a transfer's command word (30_encoding.md R130, R131). -/
theorem transfer_word (dir : Dir) :
    (encodeWord dir.command).setWidth 4 = dir.opcode ∧ (encodeWord dir.command).getLsbD 8 = false := by
  cases dir <;> decide

/-- The argument checks of a transfer as conditions on the numbers in the argument registers (41_transfer.md R198). -/
theorem xferBadArg_eq (ch : Channel) : ch.xferBadArg =
    if 0x10000 ≤ ch.arg0.toNat then some 0
    else if 2 ^ 32 < ch.arg1.toNat + ch.arg2.toNat then some 1
    else if 0x10000 < ch.arg0.toNat + ch.arg2.toNat then some 2
    else none := by
  have hupper : (!upperClear ch.arg0) = true ↔ 0x10000 ≤ ch.arg0.toNat := by simp [upperClear_eq]
  simp only [Channel.xferBadArg, hupper]
  by_cases h0 : 0x10000 ≤ ch.arg0.toNat
  · rw [if_pos h0, if_pos h0]
  · simp only [Channel.hostAddr, Channel.len, Channel.ecAddr, lowHalf_toNat (Nat.not_le.1 h0), gt_iff_lt]

/-- A transfer passes its checks (41_transfer.md R198). -/
theorem xferBadArg_eq_none {ch : Channel} (h0 : ch.arg0.toNat < 0x10000)
    (hhost : ch.arg1.toNat + ch.arg2.toNat ≤ 2 ^ 32) (hec : ch.arg0.toNat + ch.arg2.toNat ≤ 0x10000) :
    ch.xferBadArg = none := by
  rw [xferBadArg_eq, if_neg (Nat.not_le.2 h0), if_neg (Nat.not_lt.2 hhost), if_neg (Nat.not_lt.2 hec)]

/-- The latch leaves the arguments that a transfer checks (40_control.md R174). -/
theorem xferBadArg_latch (ch : Channel) (w : Word) : (ch.latch w).xferBadArg = ch.xferBadArg := rfl

section Body

variable {s : State} (dir : Dir)

/-- A transfer's body where a check on the arguments fails (41_transfer.md R198). -/
theorem xferStart_badArg {k : Half} (h : (s.chan s.sel).xferBadArg = some k) :
    s.xferStart dir = s.raise s.sel .badArgument k := by
  simp [State.xferStart, h]

/-- A transfer's body where there is nothing to do (41_transfer.md R197). -/
theorem xferStart_noop (h : (s.chan s.sel).xferBadArg = none)
    (hnoop : s.emiBase = 0 ∨ s.emiEnd = 0 ∨ (s.chan s.sel).arg2 = 0) :
    s.xferStart dir = s.complete s.sel .ok 0 .done 0 := by
  have hnothing : (!s.configured || decide ((s.chan s.sel).len = 0)) = true := by
    obtain hz | hz | hz := hnoop <;> simp [State.configured, Channel.len, hz]
  simp [State.xferStart, h, hnothing]

/-- A transfer's body where there are bytes to move on a configured window (41_transfer.md R197). -/
theorem xferStart_binds (h : (s.chan s.sel).xferBadArg = none) (hbase : s.emiBase ≠ 0) (hend : s.emiEnd ≠ 0)
    (hlen : (s.chan s.sel).arg2 ≠ 0) :
    s.xferStart dir = s.startTransfer s.sel dir (s.chan s.sel).ecAddr (s.chan s.sel).len
      (.host (s.chan s.sel).hostAddr) .complete := by
  have hlen' : (s.chan s.sel).len ≠ 0 := fun e => hlen (BitVec.eq_of_toNat_eq e)
  have hwork : (!s.configured || decide ((s.chan s.sel).len = 0)) = false := by
    rw [State.configured, decide_eq_true hbase, decide_eq_true hend, decide_eq_false hlen']
    rfl
  simp [State.xferStart, h, hwork]

end Body

/-- The start of the accepted command's transfer keeps the frame of its acceptance step (41_transfer.md R200). -/
theorem AcceptFrame.startTransfer {s u : State} {op : BitVec 4} {n : Bool} (h : AcceptFrame s u op n) (dir : Dir)
    (a : Half) (len : Nat) (buf : Buf) (ret : Ret) :
    AcceptFrame s (u.startTransfer s.sel dir a len buf ret) op n := by
  have hchan : (u.startTransfer s.sel dir a len buf ret).chan s.sel = (u.chan s.sel).bindXfer dir a len buf ret :=
    startTransfer_chan_self ..
  obtain ⟨⟨hp, hnow, hcl, hsched, hdrawn⟩, ⟨hec, htrace⟩, hhost, ⟨htx, hrx⟩, hxlock, hothers, hargs, hop, hn, hw⟩ := h
  refine ⟨⟨hp, hnow, hcl, hsched, hdrawn⟩, ⟨hec, htrace⟩, hhost, ⟨htx, hrx⟩, hxlock,
    fun d hd => (startTransfer_chan_ne _ _ _ _ _ _ _ _ hd).trans (hothers d hd), ?_, ?_, ?_, ?_⟩
  · exact ⟨hchan ▸ hargs.arg0, hchan ▸ hargs.arg1, hchan ▸ hargs.arg2, hchan ▸ hargs.arg3, hchan ▸ hargs.arg4⟩
  · rw [hchan]; exact hop
  · rw [hchan]; exact hn
  · rw [hchan]; exact hw

section Accepted

variable {s : State} (h : Accepts s) (dir : Dir)

/-- `s` once its selected channel has latched the word of a transfer's command (40_control.md R174). -/
def State.latched (s : State) (dir : Dir) : State := s.modChan s.sel fun ch => ch.latch (encodeWord dir.command)

theorem latched_sel : (s.latched dir).sel = s.sel := rfl

theorem latched_chan : (s.latched dir).chan s.sel = (s.chan s.sel).latch (encodeWord dir.command) :=
  chan_modChan_self ..

theorem latched_frame : AcceptFrame s (s.latched dir) dir.opcode false := by
  obtain ⟨hop, hn⟩ := transfer_word dir
  have hframe := acceptFrame_latch s (encodeWord dir.command)
  rwa [hop, hn] at hframe

/-- The checks see the arguments as they were before the latch. -/
theorem latched_xferBadArg :
    ((s.latched dir).chan (s.latched dir).sel).xferBadArg = (s.chan s.sel).xferBadArg := by
  rw [latched_sel, latched_chan, xferBadArg_latch]

include h

/-- A transfer's command, accepted: its word is latched and its body runs (40_control.md R174). -/
theorem exec_transfer_accepted : exec dir.command s = .next ((s.latched dir).xferStart dir) := by
  cases dir <;> exact congrArg Host.Outcome.next (issueCommand_accepted _ _ (decide_eq_true h.present) h.idle)

end Accepted

/-- Settles O31: the checks stand in the order of the clauses, before the window is looked at. -/
theorem transferRejections : Obligations.TransferRejections := by
  intro s dir code h a hst n hcase
  have hbad : (s.chan s.sel).xferBadArg = some code := by
    rw [xferBadArg_eq]
    obtain ⟨h0, rfl⟩ | ⟨h0, h1, rfl⟩ | ⟨h0, h1, h2, rfl⟩ := hcase
    · rw [if_pos h0]
    · rw [if_neg (Nat.not_le.2 h0), if_pos h1]
    · rw [if_neg (Nat.not_le.2 h0), if_neg (Nat.not_lt.2 h1), if_pos h2]
  have hbody := xferStart_badArg dir ((latched_xferBadArg dir).trans hbad)
  obtain ⟨hop, hn⟩ := transfer_word dir
  have hrej := rejection_raise s (encodeWord dir.command) (kind := .badArgument) (by decide) code
  rw [hop, hn] at hrej
  exact ⟨_, (exec_transfer_accepted h dir).trans (congrArg _ hbody), hrej⟩

/-- Settles O30: with every check passed and nothing to move, completion follows with no event issued. -/
theorem transferNoop : Obligations.TransferNoop := by
  intro s dir h h0 hhost hec hnoop
  have hgood := (latched_xferBadArg dir).trans (xferBadArg_eq_none h0 hhost hec)
  have hbody := xferStart_noop dir hgood (by rw [latched_sel, latched_chan]; exact hnoop)
  refine ⟨_, (exec_transfer_accepted h dir).trans (congrArg _ hbody), ?_, (latched_frame dir).complete _ _ _ _,
    ⟨rfl, rfl, rfl, rfl, rfl⟩, mlockAfter_releasedBy rfl⟩
  rw [latched_sel, complete_chan_self, latched_chan]
  exact completed_completed _ _ _ _ _

/-- Settles O29: with every check passed and bytes to move, the context is bound in the latched channel. -/
theorem transferStartsAndWaits : Obligations.TransferStartsAndWaits := by
  intro s dir h h0 hhost hec hbase hend hlen
  have hgood := (latched_xferBadArg dir).trans (xferBadArg_eq_none h0 hhost hec)
  have hbody := xferStart_binds dir hgood hbase hend (by rw [latched_sel, latched_chan]; exact hlen)
  rw [latched_sel, latched_chan] at hbody
  have hchan := startTransfer_chan_self (s.latched dir) s.sel dir ((s.chan s.sel).latch (encodeWord dir.command)).ecAddr
    (s.chan s.sel).len (.host (s.chan s.sel).hostAddr) .complete
  rw [latched_chan] at hchan
  refine ⟨_, _, (exec_transfer_accepted h dir).trans (congrArg _ hbody), congrArg Channel.xc hchan, rfl,
    lowHalf_toNat h0, rfl, rfl, rfl, rfl, rfl, rfl, ?_, (congrArg Channel.mc hchan :),
    (latched_frame dir).startTransfer _ _ _ _ _, ⟨rfl, rfl, rfl, rfl, rfl⟩, rfl⟩
  exact hchan.symm ▸ ⟨rfl, rfl, rfl, rfl, rfl, rfl, rfl⟩

/-! ### The acquire step -/

section Acquire

variable {s : State} {c : ChanId} {x : XferCtx} (hp : c.val < s.params.nch) (hx : (s.chan c).xc = some x)
  (hn : ¬ s.holdsXlock c) (ans : Answer)

include hx hn in
/-- A channel with a transfer that does not hold XLOCK issues no event (41_transfer.md R213, R214). -/
theorem nextEvent_waiting : (s.select c).nextEvent ans = none := by
  have hx' : ((s.select c).chan (s.select c).sel).xc = some x := hx
  have hcur : (s.select c).currentOp = none := by
    rw [Option.eq_none_iff_forall_ne_some]
    exact fun _ h => hn (currentOp_eq_some.1 h).1
  simp only [State.nextEvent, hcur, hx']

include hp hx hn

/-- Its step acquires XLOCK where it is free, and else holds (20_memory.md R100, 00_scope.md R18). -/
theorem channelStep_waiting : s.channelStep c ans =
    .next (if s.xlock = .free then (s.select c).acquireXlock c x else s.select c) := by
  have hx' : ((s.select c).chan (s.select c).sel).xc = some x := hx
  have hpres : s.present c = true := decide_eq_true hp
  simp only [State.channelStep, hpres, nextEvent_waiting hx hn, State.internalStep, hx']
  rfl

end Acquire

/-- What the acquire step leaves in its channel (41_transfer.md R213). -/
theorem acquireXlock_chan (s : State) (c : ChanId) (x : XferCtx) : (s.acquireXlock c x).chan c =
    { s.chan c with xc := some { x with pos := 0 }, state := x.stateAt x.ops.head? (s.chan c).state } := by
  rw [State.acquireXlock, setXlock_chan, chan_modChan_self]

theorem acquireXlock_others (s : State) (c : ChanId) (x : XferCtx) : SameOthers s (s.acquireXlock c x) c :=
  fun d hd => by rw [State.acquireXlock, setXlock_chan, chan_modChan_ne _ _ _ _ hd]

/-- Settles O34: the acquire step sets XLOCK, the position and the state, and without it the channel holds. -/
theorem transferLockIsAcquired : Obligations.TransferLockIsAcquired := by
  intro s c ans x hp hx
  refine ⟨fun hfree => ?_, fun d via hd hheld => ?_⟩
  · have hn : ¬ s.holdsXlock c := fun ⟨via, e⟩ => by cases hfree.symm.trans e
    have hstep := channelStep_waiting hp hx hn ans
    rw [if_pos hfree] at hstep
    refine ⟨_, hstep, rfl, rfl, ?_⟩
    rw [acquireXlock_chan]
    refine ⟨rfl, rfl, fun hvia => if_pos hvia, fun op hvia hop => ?_, ⟨rfl, rfl, rfl, rfl, rfl⟩, ⟨rfl, rfl⟩,
      ⟨rfl, rfl, rfl, rfl, rfl⟩, ⟨rfl, rfl⟩, fun _ => rfl, acquireXlock_others (s.select c) c x, ?_, ?_, ?_⟩
    · rw [XferCtx.stateAt, hvia, List.head?_eq_getElem?, hop]; rfl
    all_goals constructor <;> rw [acquireXlock_chan] <;> rfl
  · have hn : ¬ s.holdsXlock c := fun ⟨via', e⟩ => hd (XLock.held.inj (hheld.symm.trans e)).1
    rw [channelStep_waiting hp hx hn ans, if_neg (by rw [hheld]; nofun)]

end Sys2Proof.Machine

/-! SUPPORT. The operation list of a transfer in closed form (41_transfer.md R201 to R205), and the buffer indices and
slots it goes through (R211, R212). -/

namespace Sys2Proof.Machine

/-! ### Indices and slots -/

/-- The operations move the `m` buffer indices from `i` on, in order, and index `k` goes through the slot of EC address
`a + k` (41_transfer.md R211). -/
structure Covers (a i m : Nat) (ops : List BusOp) : Prop where
  indices : ops.flatMap BusOp.indices = List.range' i m
  slots : ops.flatMap BusOp.slots = (List.range' i m).map fun k => (a + k) % 4

section Covers

variable {a i m m' : Nat} {ops ops' : List BusOp}

theorem Covers.nil : Covers a i 0 [] := ⟨rfl, rfl⟩

theorem Covers.append (h : Covers a i m ops) (h' : Covers a (i + m) m' ops') : Covers a i (m + m') (ops ++ ops') where
  indices := by rw [List.flatMap_append, h.indices, h'.indices, List.range'_append_1]
  slots := by rw [List.flatMap_append, h.slots, h'.slots, ← List.map_append, List.range'_append_1]

/-- A select moves no byte. -/
theorem Covers.select (h : Covers a i m ops) (b : Half) (mode : AccessMode) (ph : Phase) :
    Covers a i m (select b mode ph ++ ops) := ⟨h.indices, h.slots⟩

theorem covers_byte {slot : Nat} (ph : Phase) (h : (a + i) % 4 = slot) : Covers a i 1 [.byte slot i ph] :=
  ⟨rfl, congrArg (fun k => [k]) h.symm⟩

theorem covers_half {g : Nat} (ph : Phase) (h : (a + i) % 4 = 2 * g) : Covers a i 2 [.half g i ph] := by
  have hnext : (a + (i + 1)) % 4 = 2 * g + 1 := by omega
  exact ⟨rfl, by simp [BusOp.slots, List.range'_succ, h, hnext]⟩

/-- A run of bytes within one unit of EC memory (41_transfer.md R210). -/
theorem covers_byteOps (ph : Phase) {slot count : Nat} (h : (a + i) % 4 = slot) (hunit : slot + count ≤ 4) :
    Covers a i count (byteOps ph slot i count) := by
  induction count generalizing i slot with
  | zero => exact .nil
  | succ count ih =>
    by_cases hlast : count = 0
    · rw [hlast]; exact covers_byte ph h
    · have hrun := (covers_byte ph h).append (ih (slot := slot + 1) (by omega) (by omega))
      rwa [Nat.add_comm 1] at hrun

/-- A run of whole units of EC memory (41_transfer.md R209). -/
theorem covers_unitOps {units : Nat} (h : (a + i) % 4 = 0) : Covers a i (4 * units) (unitOps i units) := by
  induction units generalizing i with
  | zero => exact .nil
  | succ units ih =>
    rw [Nat.mul_succ, Nat.add_comm]
    exact ((covers_half .bulk h).append (covers_half (g := 1) .bulk (by omega))).append (ih (by omega))

end Covers

section Parts

variable (a : Half) (n : Nat)

/-- The head does not go past its unit of EC memory (41_transfer.md R203). -/
theorem head_within_unit : a.toNat % 4 + headSize a n ≤ 4 := by
  unfold headSize
  split <;> omega

theorem covers_headOps : Covers a.toNat 0 (headSize a n) (headOps a n) := by
  unfold headOps
  split
  · next ha => rw [headSize, if_pos ha]; exact .nil
  · exact (covers_byteOps .head rfl (head_within_unit a n)).select _ _ _

theorem covers_bulkOps : Covers a.toNat (headSize a n) (4 * bulkUnits a n) (bulkOps a n) := by
  unfold bulkOps
  split
  · next hb => rw [hb]; exact .nil
  · have halign := aligned_after_head a n
    have hparts := parts_add a n
    exact (covers_unitOps (by omega)).select _ _ _

theorem covers_tailOps : Covers a.toNat (headSize a n + 4 * bulkUnits a n) (tailSize a n) (tailOps a n) := by
  unfold tailOps
  split
  · next ht => rw [ht]; exact .nil
  · have halign := aligned_after_head a n
    have hparts := parts_add a n
    have htail : tailSize a n < 4 := Nat.mod_lt _ (by decide)
    exact (covers_byteOps .tail (by omega) (by omega)).select _ _ _

/-- A transfer covers its buffer (41_transfer.md R211). -/
theorem covers_xferOps : Covers a.toNat 0 n (xferOps a n) := by
  have h := ((covers_headOps a n).append (by rw [Nat.zero_add]; exact covers_bulkOps a n)).append
    (by rw [Nat.zero_add]; exact covers_tailOps a n)
  rwa [parts_add] at h

/-- How many operations each phase has (41_transfer.md R212). -/
theorem headOps_length : (headOps a n).length = if a.toNat % 4 ≠ 0 then 2 + headSize a n else 0 := by
  by_cases ha : a.toNat % 4 = 0
  · rw [headOps, if_pos ha, if_neg (not_not.2 ha)]; rfl
  · rw [headOps, if_neg ha, if_pos ha, List.length_append, byteOps_length]; rfl

theorem bulkOps_length : (bulkOps a n).length = if 1 ≤ bulkUnits a n then 2 + 2 * bulkUnits a n else 0 := by
  unfold bulkOps
  split
  · next hb => rw [hb]; rfl
  · next hb => rw [if_pos (by omega), List.length_append, unitOps_length]; rfl

theorem tailOps_length : (tailOps a n).length = if 1 ≤ tailSize a n then 2 + tailSize a n else 0 := by
  unfold tailOps
  split
  · next ht => rw [ht]; rfl
  · next ht => rw [if_pos (by omega), List.length_append, byteOps_length]; rfl

end Parts

/-- Settles O40: each phase covers its part of the buffer, and its operations are counted one phase at a time. -/
theorem operationsCoverTheBuffer : Obligations.OperationsCoverTheBuffer := by
  intro a n _ _ h k b t
  have hcovers := covers_xferOps a n
  refine ⟨hcovers.indices.trans List.range_eq_range'.symm, by rw [hcovers.slots, List.range_eq_range'], ?_⟩
  rw [xferOps, List.length_append, List.length_append, headOps_length, bulkOps_length, tailOps_length]
  rfl

/-! ### Closed forms -/

/-- A run of bytes, in closed form (41_transfer.md R205). -/
theorem byteOps_eq (ph : Phase) (slot idx count : Nat) :
    byteOps ph slot idx count = (List.range count).map fun i => .byte (slot + i) (idx + i) ph := by
  induction count generalizing slot idx with
  | zero => rfl
  | succ count ih =>
    rw [byteOps, ih, List.range_succ_eq_map, List.map_cons, List.map_map]
    simp [Function.comp_def, Nat.add_assoc, Nat.add_comm 1]

/-- A run of units, in closed form (41_transfer.md R205, R209). -/
theorem unitOps_eq (idx units : Nat) : unitOps idx units =
    (List.range units).flatMap fun u => [.half 0 (idx + 4 * u) .bulk, .half 1 (idx + 4 * u + 2) .bulk] := by
  induction units generalizing idx with
  | zero => rfl
  | succ units ih =>
    rw [unitOps, ih, List.range_succ_eq_map, List.flatMap_cons, List.flatMap_map]
    simp [Nat.mul_succ, Nat.add_assoc, Nat.add_comm 4]

/-- The select of an EC address, as the bytes of the number it puts into the address register (41_transfer.md R202;
30_encoding.md R143, R144). -/
theorem select_eq (a : Half) (m : AccessMode) (ph : Phase) : select a m ph =
    [.selLo (BitVec.ofNat 8 (a.toNat - a.toNat % 4 + m.code.toNat)) ph,
      .selHi (BitVec.ofNat 8 (a.toNat / 256)) ph] := by
  have hlo : selectLo a m = BitVec.ofNat 8 (a.toNat - a.toNat % 4 + m.code.toNat) := by
    rw [← select_addr, ← loByte_eq, loByte_le16]
  have hhi : hiByte a = BitVec.ofNat 8 (a.toNat / 256) := by
    apply BitVec.eq_of_toNat_eq
    have := a.isLt
    rw [hiByte_toNat, BitVec.toNat_ofNat]
    omega
  rw [select, hlo, hhi]

/-- The select of an aligned EC address within a transfer. -/
theorem select_ecPlus {a : Half} {i : Nat} (hfit : a.toNat + i < 2 ^ 16) (halign : (a.toNat + i) % 4 = 0)
    (m : AccessMode) (ph : Phase) : select (ecPlus a i) m ph =
    [.selLo (BitVec.ofNat 8 (a.toNat + i + m.code.toNat)) ph, .selHi (BitVec.ofNat 8 ((a.toNat + i) / 256)) ph] := by
  rw [select_eq, ecPlus_toNat hfit, halign, Nat.sub_zero]

/-- Settles O41: each phase is empty, or its select and its run in closed form. -/
theorem phasesUseTheirAccessMode : Obligations.PhasesUseTheirAccessMode := by
  intro a n hn hfit
  have halign := aligned_after_head a n
  have hparts := parts_add a n
  refine ⟨headOps a n, bulkOps a n, tailOps a n, rfl, ?_, ?_, ?_⟩
  · unfold headOps
    split
    · exact .inl rfl
    · next ha =>
      have hk : 1 ≤ headSize a n := by rw [headSize, if_neg ha]; omega
      refine .inr ⟨headSize a n, hk, by omega, ?_⟩
      have hunit : a.toNat - a.toNat % 4 + AccessMode.byte.code.toNat = 4 * (a.toNat / 4) := by
        show a.toNat - a.toNat % 4 + 0 = _
        omega
      rw [select_eq, byteOps_eq, hunit]
      simp
  · unfold bulkOps
    split
    · exact .inl rfl
    · next hb =>
      refine .inr ⟨headSize a n, bulkUnits a n, by omega, by omega, by omega, ?_⟩
      rw [select_ecPlus (by omega) (by omega), unitOps_eq]
      rfl
  · unfold tailOps
    split
    · exact .inl rfl
    · next ht =>
      have hlt : tailSize a n < 4 := Nat.mod_lt _ (by decide)
      refine .inr ⟨headSize a n + 4 * bulkUnits a n, tailSize a n, by omega, hlt, hparts, by omega, ?_⟩
      dsimp only
      rw [select_ecPlus (by omega) (by omega), byteOps_eq]
      simp [AccessMode.code]

end Sys2Proof.Machine

/-! SUPPORT. The step of a window event (41_transfer.md R206 to R208, R214): the bytes it moves between a buffer and the
port, what it leaves of the machine, and where the transfer stands after it. -/

namespace Sys2Proof.Machine

/-! ### The bytes of a buffer -/

/-- From `s` to `u` at most host memory and the framer buffers changed. -/
def DataMove (s u : State) : Prop :=
  ∃ (m : Memory) (tx rx : Vector Byte 40), u = ((s.setHostMem m).setTxbuf tx).setRxbuf rx

theorem DataMove.refl (s : State) : DataMove s s := ⟨s.hostMem, s.txbuf, s.rxbuf, rfl⟩

/-- The values `vs` are what `new` holds at the places `addr 0`, `addr 1`, …, and elsewhere it holds what `old` did;
`val` says how a place holds a byte. -/
def Patched {α : Type} (val : Byte → α) (addr : Nat → Nat) (old new : Nat → α) (vs : List Byte) : Prop :=
  (∀ k v, vs[k]? = some v → new (addr k) = val v) ∧ ∀ a, (∀ k, k < vs.length → a ≠ addr k) → new a = old a

section Patched

variable {α : Type} {val : Byte → α} {addr : Nat → Nat} {old mid new : Nat → α} {v v0 v1 : Byte}

theorem patched_singleton (hat : new (addr 0) = val v) (hne : ∀ a, a ≠ addr 0 → new a = old a) :
    Patched val addr old new [v] := by
  refine ⟨fun k w hk => ?_, fun a ha => hne a (ha 0 Nat.one_pos)⟩
  obtain ⟨rfl, rfl⟩ : k = 0 ∧ v = w := by
    cases k with
    | zero => exact ⟨rfl, Option.some.inj hk⟩
    | succ k => cases hk
  exact hat

/-- One byte stored in a framer buffer. -/
theorem patched_setIfInBounds (b : Vector Byte 40) {j : Nat} (hj : j < 40) (v : Byte) :
    Patched some (fun k => j + k) (fun i => b[i]?) (fun i => (b.setIfInBounds j v)[i]?) [v] :=
  patched_singleton (Vector.getElem?_setIfInBounds_self_of_lt hj) fun _ hne =>
    Vector.getElem?_setIfInBounds_ne (Ne.symm hne)

/-- One byte stored after another, at the next place. -/
theorem Patched.pair {addr' : Nat → Nat} (h : Patched val addr old mid [v0]) (h' : Patched val addr' mid new [v1])
    (hnext : addr' 0 = addr 1) (hne : addr 0 ≠ addr 1) : Patched val addr old new [v0, v1] := by
  have hother : ∀ a, a ≠ addr 1 → new a = mid a := fun a ha => h'.2 a fun k hk => by
    rw [Nat.lt_one_iff.1 hk, hnext]; exact ha
  refine ⟨fun k v hk => ?_, fun a ha => ?_⟩
  · match k, hk with
    | 0, hk => rw [hother _ hne]; exact h.1 0 v hk
    | 1, hk => rw [← hnext]; exact h'.1 0 v hk
  · rw [hother a (ha 1 Nat.one_lt_two)]
    exact h.2 a fun k hk => ha k (Nat.lt_trans hk Nat.one_lt_two)

end Patched

/-- Two neighbouring buffer indices have two host addresses (41_transfer.md R208). -/
theorem hostIndex_succ_ne (base : Word) (i : Nat) : (hostIndex base i).toNat ≠ (hostIndex base (i + 1)).toNat := by
  simp only [hostIndex, BitVec.toNat_add, BitVec.toNat_ofNat]
  omega

section Buffers

variable {s u t : State} {b : Buf} {i : Nat} {v v0 v1 : Byte}

/-- A byte that the buffer holds is what is read at its index (41_transfer.md R206). -/
theorem src_of_holds (h : Holds s b i v) : s.src b i = some v := by
  cases b with
  | host base =>
    obtain ⟨hadm, hread⟩ := h
    rw [State.src, State.hostRead, if_pos hadm, hread]
  | txbuf off => exact congrArg (fun o => some (o.getD 0)) h
  | rxbuf off => exact congrArg (fun o => some (o.getD 0)) h

/-- A byte is stored at a writable index, and nothing else is (41_transfer.md R207). -/
theorem dst_of_writable (hwf : s.hostMem.wf = true) (h : Writable s b i) (v : Byte) :
    ∃ u, s.dst b i v = some u ∧ Stored s u b i [v] := by
  cases b with
  | host base =>
    exact ⟨_, if_pos h, ⟨rfl, rfl⟩, patched_singleton (val := id) (addr := fun k => (hostIndex base (i + k)).toNat)
      (Memory.read_write_self _ _ hwf) fun a ha => Memory.read_write_ne _ _ _ _ ha⟩
  | txbuf off => exact ⟨_, rfl, fun _ => rfl, rfl, patched_setIfInBounds s.txbuf h v⟩
  | rxbuf off => exact ⟨_, rfl, fun _ => rfl, rfl, patched_setIfInBounds s.rxbuf h v⟩

/-- One byte stored after another, at the next index (41_transfer.md R208). -/
theorem Stored.pair (h : Stored s u b i [v0]) (h' : Stored u t b (i + 1) [v1]) : Stored s t b i [v0, v1] := by
  cases b with
  | host base =>
    obtain ⟨⟨htx, hrx⟩, hp⟩ := h
    obtain ⟨⟨htx', hrx'⟩, hp'⟩ := h'
    exact ⟨⟨htx'.trans htx, hrx'.trans hrx⟩, Patched.pair (val := id) hp hp' rfl (hostIndex_succ_ne base i)⟩
  | txbuf off =>
    obtain ⟨hhost, hrx, hp⟩ := h
    obtain ⟨hhost', hrx', hp'⟩ := h'
    exact ⟨fun a => (hhost' a).trans (hhost a), hrx'.trans hrx, Patched.pair (val := some) hp hp' rfl (by simp)⟩
  | rxbuf off =>
    obtain ⟨hhost, htx, hp⟩ := h
    obtain ⟨hhost', htx', hp'⟩ := h'
    exact ⟨fun a => (hhost' a).trans (hhost a), htx'.trans htx, Patched.pair (val := some) hp hp' rfl (by simp)⟩

/-- Two bytes are stored at two writable indices, and nothing else is (41_transfer.md R208). -/
theorem dst2_of_writable (hwf : s.hostMem.wf = true) (h : Writable s b i) (h' : Writable s b (i + 1)) (v0 v1 : Byte) :
    ∃ u, s.dst2 b i v0 v1 = some u ∧ Stored s u b i [v0, v1] := by
  obtain ⟨u, hu, hstored⟩ := dst_of_writable hwf h v0
  obtain ⟨m, tx, rx, rfl, hm, -⟩ := dst_frame hu
  obtain ⟨t, ht, hstored'⟩ := dst_of_writable (s := ((s.setHostMem m).setTxbuf tx).setRxbuf rx) (hm hwf)
    (b := b) (i := i + 1) (by cases b <;> exact h') v1
  exact ⟨t, by rw [State.dst2, hu]; exact ht, hstored.pair hstored'⟩

theorem dataMove_dst (h : s.dst b i v = some u) : DataMove s u :=
  let ⟨m, tx, rx, hmove, _⟩ := dst_frame h
  ⟨m, tx, rx, hmove⟩

theorem dataMove_dst2 (h : s.dst2 b i v0 v1 = some u) : DataMove s u :=
  let ⟨m, tx, rx, hmove, _⟩ := dst2_frame h
  ⟨m, tx, rx, hmove⟩

/-- What has been stored depends on host memory and the framer buffers alone. -/
theorem Stored.congr {vs : List Byte} (h : Stored s u b i vs) (hhost : t.hostMem = u.hostMem)
    (htx : t.txbuf = u.txbuf) (hrx : t.rxbuf = u.rxbuf) : Stored s t b i vs := by
  cases b with
  | host base =>
    obtain ⟨⟨htx', hrx'⟩, hp⟩ := h
    exact ⟨⟨htx.trans htx', hrx.trans hrx'⟩, hhost ▸ hp⟩
  | txbuf off =>
    obtain ⟨hhost', hrx', hp⟩ := h
    exact ⟨fun a => hhost ▸ hhost' a, hrx.trans hrx', htx ▸ hp⟩
  | rxbuf off =>
    obtain ⟨hhost', htx', hp⟩ := h
    exact ⟨fun a => hhost ▸ hhost' a, htx.trans htx', hrx ▸ hp⟩

end Buffers

/-! ### What an operation leaves -/

/-- The machine less its channels and locks: what no step of a transfer changes after its event. -/
def State.besideChannels (s : State) : State :=
  { s with chans := Vector.replicate 16 Channel.reset, xlock := .free, mlock := .free }

section Frame

variable (s : State) (c : ChanId) (x : XferCtx)

theorem endTransfer_besideChannels : (s.endTransfer c x).besideChannels = s.besideChannels := by
  unfold State.endTransfer
  dsimp only
  split
  · rfl
  · unfold State.framerSendPayload
    dsimp only
    split <;> rfl
  · rfl
  · rfl

theorem endTransfer_wdrop : ((s.endTransfer c x).chan c).wdrop = (s.chan c).wdrop := by
  unfold State.endTransfer
  dsimp only
  split
  · rw [complete_chan_self]; rfl
  · unfold State.framerSendPayload
    dsimp only
    split
    · rw [State.framerSent, chan_modChan_self, chan_modChan_self]; rfl
    · rw [startTransfer_chan_self, chan_modChan_self]; rfl
  · rw [State.framerSent, chan_modChan_self]; rfl
  · rw [State.framerResponseRead, chan_modChan_self]; rfl

theorem endTransfer_xlock : (s.endTransfer c x).xlock = .free := by
  unfold State.endTransfer
  dsimp only
  split
  · rfl
  · unfold State.framerSendPayload
    dsimp only
    split <;> rfl
  · rfl
  · rfl

variable (i : Instr)

/-- After its event an operation changes channels and locks alone (41_transfer.md R214). -/
theorem opStep_besideChannels : (s.opStep i x).besideChannels = (s.issueEvent s.sel i).besideChannels := by
  unfold State.opStep State.advance
  dsimp only
  split
  · exact endTransfer_besideChannels (s.issueEvent s.sel i) s.sel _
  · rfl

/-- Outside its channel and the locks an operation adds its event to the history and moves the EC side alone. -/
theorem opStep_frame : SameWindow s (s.opStep i x) ∧ SameAgents s (s.opStep i x) ∧ SameBuffers s (s.opStep i x) ∧
    (s.opStep i x).hostMem = s.hostMem ∧ (s.opStep i x).trace = (s.issueEvent s.sel i).trace := by
  have hbeside := opStep_besideChannels s x i
  simp only [State.besideChannels, State.mk.injEq] at hbeside
  obtain ⟨hp, hbase, hend, hcmd, hdata, hlock, -, -, -, htx, hrx, hnow, hhost, -, hcl, htrace, hsched, hdrawn, -⟩ :=
    hbeside
  exact ⟨⟨hbase, hend, hcmd, hdata, hlock⟩, ⟨hp, hnow, hcl, hsched, hdrawn⟩, ⟨htx, hrx⟩, hhost, htrace⟩

/-- An operation keeps the command latch and `WDROP` of its channel. -/
theorem opStep_sameLatch : SameLatch s (s.opStep i x) s.sel := by
  have hcommand : SameCommand s (s.opStep i x) s.sel := (SameCommand.refl s s.sel).opStep i x
  simp only [SameCommand, Channel.command, Prod.mk.injEq] at hcommand
  obtain ⟨hop, hnoresp, -⟩ := hcommand
  refine ⟨hop, hnoresp, ?_⟩
  unfold State.opStep State.advance
  dsimp only
  split
  · rw [endTransfer_wdrop, issueEvent_chan_self]
  · rw [chan_modChan_self, issueEvent_chan_self]

theorem opStep_sameArgs : SameArgs s (s.opStep i x) s.sel := by
  have hcommand : SameCommand s (s.opStep i x) s.sel := (SameCommand.refl s s.sel).opStep i x
  simp only [SameCommand, Channel.command, Prod.mk.injEq] at hcommand
  obtain ⟨-, -, h0, h1, h2, h3, h4⟩ := hcommand
  exact ⟨h0, h1, h2, h3, h4⟩

theorem opStep_sameOthers : SameOthers s (s.opStep i x) s.sel := fun _ hd => (Spared.rfl.opStep hd i x).chan

end Frame

/-- The port of an event of the window as a number (20_memory.md R84). -/
theorem eventPort_of_windowOffset (s : State) {i : Instr} {off : Nat} (h : windowOffset i = some off) :
    s.eventPort i = some (BitVec.ofNat 16 (s.emiBase.toNat + off)) := by
  rw [BitVec.ofNat_add, BitVec.ofNat_toNat, BitVec.setWidth_eq]
  cases i <;> cases h <;> rfl

section AfterEvent

variable {s : State} {x : XferCtx} (i : Instr)

/-- An operation that is not the last moves its transfer on (41_transfer.md R214). -/
theorem opStep_more {op : BusOp} (hop : x.ops[x.pos + 1]? = some op) : SameLocks s (s.opStep i x) ∧
    (s.opStep i x).chan s.sel =
      { s.chan s.sel with
        evented := true
        xc := some { x with pos := x.pos + 1 }
        state := if x.viaMbx then (s.chan s.sel).state else op.phase.seqState } := by
  rw [State.opStep, advance_more _ _ _ hop]
  refine ⟨⟨rfl, rfl⟩, ?_⟩
  rw [chan_modChan_self, issueEvent_chan_self]

/-- The event and the release of XLOCK leave the mailbox context. -/
theorem issued_mc : (((s.issueEvent s.sel i).setXlock .free).chan s.sel).mc = (s.chan s.sel).mc := by
  rw [setXlock_chan, issueEvent_chan_self]

variable (hlast : x.pos + 1 = x.ops.length)
include hlast

/-- The last operation ends its transfer (41_transfer.md R214). -/
theorem opStep_last : s.opStep i x = (s.issueEvent s.sel i).endTransfer s.sel { x with pos := x.pos + 1 } :=
  advance_last _ _ _ (List.getElem?_eq_none (Nat.le_of_eq hlast.symm))

/-- The last operation of a direct transfer completes the command. -/
theorem opStep_complete (hret : x.ret = .complete) : (s.opStep i x).mlock = s.mlock.releasedBy s.sel ∧
    Completed ((s.opStep i x).chan s.sel) .ok 0 .done x.sum false := by
  rw [opStep_last i hlast, endTransfer_complete _ _ { x with pos := x.pos + 1 } hret]
  refine ⟨rfl, ?_⟩
  rw [complete_chan_self, setXlock_chan, issueEvent_chan_self]
  exact completed_completed _ _ _ _ _

variable {m : MboxCtx} (hm : (s.chan s.sel).mc = some m)
include hm

/-- After the request header comes the payload, or the strobe where there is none (42_mailbox.md R252). -/
theorem opStep_sendPayload (hret : x.ret = .sendPayload) : (s.opStep i x).mlock = s.mlock ∧
    (s.opStep i x).chan s.sel =
      if m.len = 0 then
        { s.chan s.sel with
          evented := true
          xc := none
          mc := some { m with step := .strobe }
          state := .transmitted }
      else
        { s.chan s.sel with
          evented := true
          xc := some { dir := .wr, ec := 8, n := m.len, buf := .txbuf 8, ops := xferOps 8 m.len, pos := 0, sum := 0,
                       ret := .sent }
          mc := some { m with step := .sendPayload } } := by
  have hm' := (issued_mc i).trans hm
  rw [opStep_last i hlast, endTransfer_sendPayload _ _ { x with pos := x.pos + 1 } hret]
  split
  · next h0 =>
    rw [framerSendPayload_chan_zero _ _ hm' h0, framerSendPayload_zero _ _ hm' h0, setXlock_chan, issueEvent_chan_self]
    exact ⟨rfl, rfl⟩
  · next h0 =>
    rw [framerSendPayload_chan_more _ _ hm' h0, framerSendPayload_more _ _ hm' h0, setXlock_chan, issueEvent_chan_self]
    exact ⟨rfl, rfl⟩

/-- After the payload comes the strobe (42_mailbox.md R253). -/
theorem opStep_sent (hret : x.ret = .sent) : (s.opStep i x).mlock = s.mlock ∧
    (s.opStep i x).chan s.sel =
      { s.chan s.sel with
        evented := true
        xc := none
        mc := some { m with step := .strobe }
        state := .transmitted } := by
  have hm' := (issued_mc i).trans hm
  rw [opStep_last i hlast, endTransfer_sent _ _ { x with pos := x.pos + 1 } hret, framerSent_chan _ _ hm', setXlock_chan,
    issueEvent_chan_self]
  exact ⟨rfl, rfl⟩

/-- After the response comes its validation (42_mailbox.md R268). -/
theorem opStep_validate (hret : x.ret = .validate) : (s.opStep i x).mlock = s.mlock ∧
    (s.opStep i x).chan s.sel =
      { s.chan s.sel with
        evented := true
        xc := none
        mc := some { m with step := .validate }
        state := .responseRead } := by
  have hm' := (issued_mc i).trans hm
  rw [opStep_last i hlast, endTransfer_validate _ _ { x with pos := x.pos + 1 } hret, framerResponseRead_chan _ _ hm',
    setXlock_chan, issueEvent_chan_self]
  exact ⟨rfl, rfl⟩

end AfterEvent

/-- A channel whose contexts, state and event mark alone changed keeps its record (60_exceptions.md R301). -/
theorem sameRecord_of_chan {s t : State} {c : ChanId} {ev : Bool} {xc : Option XferCtx} {mc : Option MboxCtx}
    {st : SeqState} (h : t.chan c = { s.chan c with evented := ev, xc := xc, mc := mc, state := st }) :
    SameRecord s t c := by
  constructor <;> rw [h]

section Operation

variable {s u : State} (h : DataMove s u) (i : Instr) (x : XferCtx)
include h

/-- An operation step after its data has moved: the frame of its event (41_transfer.md R214, 20_memory.md R95). -/
theorem eventFrame_opStep {off : Nat} (hoff : windowOffset i = some off) :
    EventFrame s (u.opStep i x) i (BitVec.ofNat 16 (s.emiBase.toNat + off)) := by
  obtain ⟨⟨hbase, hend, hcmd, hdata, hlock⟩, ⟨hp, hnow, hcl, hsched, hdrawn⟩, -, -, htrace⟩ := opStep_frame u x i
  obtain ⟨hop, hn, hw⟩ := opStep_sameLatch u x i
  obtain ⟨h0, h1, h2, h3, h4⟩ := opStep_sameArgs u x i
  have hothers := opStep_sameOthers u x i
  rw [issueEvent_trace, eventPort_of_windowOffset u hoff] at htrace
  generalize u.opStep i x = t at *
  obtain ⟨m, tx, rx, rfl⟩ := h
  exact ⟨⟨hbase, hend, hcmd, hdata, hlock⟩, ⟨hp, hnow, hcl, hsched, hdrawn⟩, hothers, ⟨h0, h1, h2, h3, h4⟩,
    ⟨hop, hn, hw⟩, htrace⟩

/-- An operation step after its data has moved: where the transfer stands (41_transfer.md R214). -/
theorem opDone_opStep (sum : Byte) : OpDone s (u.opStep i { x with sum := sum }) x sum := by
  obtain ⟨hsel, hchan0, hxl0, hml0⟩ : u.sel = s.sel ∧ u.chan s.sel = s.chan s.sel ∧ u.xlock = s.xlock ∧
      u.mlock = s.mlock := by
    obtain ⟨m, tx, rx, rfl⟩ := h
    exact ⟨rfl, rfl, rfl, rfl⟩
  have hmc : (u.chan u.sel).mc = (s.chan s.sel).mc := by rw [hsel, hchan0]
  constructor
  case more =>
    intro op hop
    obtain ⟨⟨hxl, hml⟩, hchan⟩ := opStep_more (s := u) (x := { x with sum := sum }) i hop
    rw [hsel, hchan0] at hchan
    exact ⟨⟨hxl.trans hxl0, hml.trans hml0⟩, sameRecord_of_chan hchan, by rw [hchan], by rw [hchan],
      by rw [hchan]; rfl⟩
  case unlock =>
    intro hlast
    rw [opStep_last (x := { x with sum := sum }) i hlast, endTransfer_xlock]
  case complete =>
    intro hlast hret
    obtain ⟨hml, hdone⟩ := opStep_complete (s := u) (x := { x with sum := sum }) i hlast hret
    rw [hsel, hml0] at hml
    rw [hsel] at hdone
    exact ⟨mlockAfter_releasedBy hml, hdone⟩
  case sendPayload =>
    intro hlast hret m hm
    obtain ⟨hml, hchan⟩ := opStep_sendPayload (x := { x with sum := sum }) i hlast (hmc.trans hm) hret
    rw [hsel, hchan0] at hchan
    by_cases h0 : m.len = 0
    · rw [if_pos h0] at hchan
      exact ⟨hml.trans hml0, sameRecord_of_chan hchan, fun hne => absurd h0 hne,
        fun _ => ⟨by rw [hchan], by rw [hchan], by rw [hchan]⟩⟩
    · rw [if_neg h0] at hchan
      exact ⟨hml.trans hml0, sameRecord_of_chan hchan, fun _ => ⟨by rw [hchan], by rw [hchan], by rw [hchan]⟩,
        fun he => absurd he h0⟩
  case sent =>
    intro hlast hret m hm
    obtain ⟨hml, hchan⟩ := opStep_sent (x := { x with sum := sum }) i hlast (hmc.trans hm) hret
    rw [hsel, hchan0] at hchan
    exact ⟨hml.trans hml0, sameRecord_of_chan hchan, by rw [hchan], by rw [hchan], by rw [hchan]⟩
  case validate =>
    intro hlast hret m hm
    obtain ⟨hml, hchan⟩ := opStep_validate (x := { x with sum := sum }) i hlast (hmc.trans hm) hret
    rw [hsel, hchan0] at hchan
    exact ⟨hml.trans hml0, sameRecord_of_chan hchan, by rw [hchan], by rw [hchan], by rw [hchan]⟩

end Operation

/-! ### The six window events -/

theorem AtOp.currentOp {s : State} {x : XferCtx} {op : BusOp} (h : AtOp s x op) : s.currentOp = some (x, op) :=
  currentOp_eq_some.2 ⟨h.holds, h.xc, h.op⟩

/-- An event that moves no data into a buffer (41_transfer.md R201, R206, R208). -/
theorem opStep_stores_nothing (s : State) (x : XferCtx) {i : Instr} {off : Nat} (hoff : windowOffset i = some off)
    (sum : Byte) :
    EventFrame s (s.opStep i { x with sum := sum }) i (BitVec.ofNat 16 (s.emiBase.toNat + off)) ∧
      SameHost s (s.opStep i { x with sum := sum }) ∧ SameBuffers s (s.opStep i { x with sum := sum }) ∧
      OpDone s (s.opStep i { x with sum := sum }) x sum := by
  obtain ⟨-, -, ⟨htx, hrx⟩, hhost, -⟩ := opStep_frame s { x with sum := sum } i
  exact ⟨eventFrame_opStep (.refl s) _ _ hoff, fun a => by rw [hhost], ⟨htx, hrx⟩, opDone_opStep (.refl s) _ _ _⟩

/-- An event that moves data into a buffer (41_transfer.md R207, R208). -/
theorem opStep_stores {s u : State} (h : DataMove s u) (x : XferCtx) {i : Instr} {off : Nat}
    (hoff : windowOffset i = some off) {b : Buf} {idx : Nat} {vs : List Byte} (hstored : Stored s u b idx vs)
    (sum : Byte) :
    EventFrame s (u.opStep i { x with sum := sum }) i (BitVec.ofNat 16 (s.emiBase.toNat + off)) ∧
      Stored s (u.opStep i { x with sum := sum }) b idx vs ∧ OpDone s (u.opStep i { x with sum := sum }) x sum := by
  obtain ⟨-, -, ⟨htx, hrx⟩, hhost, -⟩ := opStep_frame u { x with sum := sum } i
  exact ⟨eventFrame_opStep h _ _ hoff, hstored.congr hhost htx hrx, opDone_opStep h _ _ _⟩

/-- Settles O35: a select carries the value of its operation and moves no data. -/
theorem selectEventsComplete : Obligations.SelectEventsComplete := fun s x _ ph =>
  ⟨fun h => ⟨_, execSelLo_eq_next.2 ⟨x, ph, h.currentOp, rfl⟩, opStep_stores_nothing s x rfl x.sum⟩,
    fun h => ⟨_, execSelHi_eq_next.2 ⟨x, ph, h.currentOp, rfl⟩, opStep_stores_nothing s x rfl x.sum⟩⟩

/-- Settles O36: the byte that the buffer holds is the event's value. -/
theorem byteWriteEventCompletes : Obligations.ByteWriteEventCompletes := by
  intro s x j idx ph v h hdir hholds
  rw [Nat.add_assoc]
  exact ⟨_, execDbWr_eq_next.2 ⟨x, idx, ph, h.currentOp, hdir, src_of_holds hholds, rfl⟩,
    opStep_stores_nothing s x rfl _⟩

/-- Settles O37: the event's value is stored at the operation's index, and then the transfer advances. -/
theorem byteReadEventCompletes : Obligations.ByteReadEventCompletes := by
  intro s x j idx ph v hwf h hdir hw
  obtain ⟨u, hu, hstored⟩ := dst_of_writable hwf hw v
  rw [Nat.add_assoc]
  exact ⟨_, execDbRd_eq_next.2 ⟨x, idx, ph, u, h.currentOp, hdir, hu, rfl⟩,
    opStep_stores (dataMove_dst hu) x rfl hstored _⟩

/-- The half of two bytes, as its number (00_scope.md R13). -/
theorem eq_le16 {v : Half} {b0 b1 : Byte} (h : v.toNat = b0.toNat + 256 * b1.toNat) : v = le16 b0 b1 :=
  BitVec.eq_of_toNat_eq (h.trans (le16_toNat b0 b1).symm)

/-- Settles O38: the half of the two bytes that the buffer holds is the event's value. -/
theorem halfWriteEventCompletes : Obligations.HalfWriteEventCompletes := by
  intro s x g idx ph b0 b1 v h hdir h0 h1 hv
  rw [Nat.add_assoc]
  exact ⟨_, execDhWr_eq_next.2 ⟨x, idx, ph, b0, b1, h.currentOp, hdir, src_of_holds h0, src_of_holds h1,
      eq_le16 hv, rfl⟩,
    opStep_stores_nothing s x rfl _⟩

/-- Settles O39: the two bytes of the event's value are stored one after the other, and then the transfer advances. -/
theorem halfReadEventCompletes : Obligations.HalfReadEventCompletes := by
  intro s x g idx ph b0 b1 v hwf h hdir hw hw' hv
  obtain rfl := eq_le16 hv
  obtain ⟨u, hu, hstored⟩ := dst2_of_writable hwf hw hw' b0 b1
  have hexec := execDhRd_eq_next.2 ⟨x, idx, ph, u, h.currentOp, hdir, by rw [loByte_le16, hiByte_le16]; exact hu, rfl⟩
  rw [loByte_le16, hiByte_le16] at hexec
  rw [Nat.add_assoc]
  exact ⟨_, hexec, opStep_stores (dataMove_dst2 hu) x rfl hstored _⟩

end Sys2Proof.Machine

/-! SUPPORT. A transfer run alone by its channel (41_transfer.md R212, R213, R217): one step acquires XLOCK, each further
step issues the event of one operation, whatever the EC answers, and the last one frees XLOCK (20_memory.md R101). -/

namespace Sys2Proof.Machine

/-! ### The step of an operation -/

section Admitted

variable {s : State} (h : AdmitsAll s.params) (b : Buf) (i : Nat)
include h

theorem src_admitted : ∃ v, s.src b i = some v := by
  cases b with
  | host base => exact ⟨_, src_host h i⟩
  | txbuf off => exact ⟨_, rfl⟩
  | rxbuf off => exact ⟨_, rfl⟩

theorem dst_admitted (v : Byte) : ∃ u, s.dst b i v = some u := by
  cases b with
  | host base => exact ⟨_, dst_host h i v⟩
  | txbuf off => exact ⟨_, rfl⟩
  | rxbuf off => exact ⟨_, rfl⟩

theorem dst2_admitted (v0 v1 : Byte) : ∃ u, s.dst2 b i v0 v1 = some u := by
  cases b with
  | host base => exact ⟨_, dst2_host h i v0 v1⟩
  | txbuf off => exact ⟨_, rfl⟩
  | rxbuf off => exact ⟨_, rfl⟩

/-- Where the platform admits every host access, the channel's operation issues an event of the window, whatever the EC
answers, and its step moves data and then advances (41_transfer.md R206 to R208, R214). -/
theorem opEvent_admitted {x : XferCtx} {op : BusOp} (hcur : s.currentOp = some (x, op)) (ans : Answer) :
    ∃ i off u sum, s.opEvent x op ans = some i ∧ windowOffset i = some off ∧ DataMove s u ∧
      exec i s = .next (u.opStep i { x with sum := sum }) := by
  obtain ⟨dir, ec, n, buf, ops, pos, sum, ret⟩ := x
  cases op with
  | selLo v ph => exact ⟨_, 2, s, sum, rfl, rfl, .refl s, execSelLo_eq_next.2 ⟨_, ph, hcur, rfl⟩⟩
  | selHi v ph => exact ⟨_, 3, s, sum, rfl, rfl, .refl s, execSelHi_eq_next.2 ⟨_, ph, hcur, rfl⟩⟩
  | byte j idx ph =>
    cases dir with
    | wr =>
      obtain ⟨v, hv⟩ := src_admitted h buf idx
      exact ⟨.dbWr j v, _, s, _, by simp only [State.opEvent, hv, Option.map_some], rfl, .refl s,
        execDbWr_eq_next.2 ⟨_, idx, ph, hcur, rfl, hv, rfl⟩⟩
    | rd =>
      obtain ⟨u, hu⟩ := dst_admitted h buf idx (ans.byte (s.ec.slotByte j))
      exact ⟨.dbRd j _, _, u, _, by simp only [State.opEvent, hu, Option.map_some], rfl, dataMove_dst hu,
        execDbRd_eq_next.2 ⟨_, idx, ph, u, hcur, rfl, hu, rfl⟩⟩
  | half g idx ph =>
    cases dir with
    | wr =>
      obtain ⟨b0, h0⟩ := src_admitted h buf idx
      obtain ⟨b1, h1⟩ := src_admitted h buf (idx + 1)
      exact ⟨.dhWr g _, _, s, _, by simp only [State.opEvent, h0, h1], rfl, .refl s,
        execDhWr_eq_next.2 ⟨_, idx, ph, b0, b1, hcur, rfl, h0, h1, rfl, rfl⟩⟩
    | rd =>
      obtain ⟨u, hu⟩ := dst2_admitted h buf idx (loByte (ans.half (s.ec.halfValue g)))
        (hiByte (ans.half (s.ec.halfValue g)))
      exact ⟨.dhRd g _, _, u, _, by simp only [State.opEvent, hu, Option.map_some], rfl, dataMove_dst2 hu,
        execDhRd_eq_next.2 ⟨_, idx, ph, u, hcur, rfl, hu, rfl⟩⟩

end Admitted

/-- Channel `c` holds XLOCK for its transfer `x`, direct or the framer's, and the platform admits every host access. -/
structure InTransfer (s : State) (c : ChanId) (x : XferCtx) : Prop where
  present : c.val < s.params.nch
  admitted : AdmitsAll s.params
  xlock : s.xlock = .held c x.viaMbx
  xc : (s.chan c).xc = some x

/-- A step of the channel issues the event of its operation; XLOCK stays until the last operation, which frees it
(41_transfer.md R214, 20_memory.md R101). -/
theorem InTransfer.step {s : State} {c : ChanId} {x : XferCtx} {op : BusOp} (h : InTransfer s c x)
    (hop : x.ops[x.pos]? = some op) (ans : Answer) :
    ∃ t, s.channelStep c ans = .next t ∧ t.trace.length = s.trace.length + 1 ∧
      (x.pos + 1 = x.ops.length → t.xlock = .free) ∧
      (x.pos + 1 < x.ops.length → ∃ sum, InTransfer t c { x with pos := x.pos + 1, sum := sum }) := by
  have hcur : (s.select c).currentOp = some (x, op) := currentOp_eq_some.2 ⟨⟨_, h.xlock⟩, h.xc, hop⟩
  have hpres : s.present c = true := decide_eq_true h.present
  obtain ⟨i, off, u, sum, hi, hoff, hmove, hexec⟩ := opEvent_admitted (s := s.select c) h.admitted hcur ans
  have hstep : s.channelStep c ans = .next (u.opStep i { x with sum := sum }) := by
    simp only [State.channelStep, hpres, nextEvent_of_currentOp hcur, hi, hexec]
    rfl
  have hframe := eventFrame_opStep hmove i { x with sum := sum } hoff
  have hdone := opDone_opStep hmove i x sum
  refine ⟨_, hstep, by rw [hframe.trace, List.length_append]; rfl, hdone.unlock, fun hmore => ?_⟩
  obtain ⟨⟨hxl, -⟩, -, -, hxc, -⟩ := hdone.more _ (List.getElem?_eq_getElem hmore)
  have hp := hframe.agents.params
  exact ⟨sum, hp ▸ h.present, hp ▸ h.admitted, hxl.trans h.xlock, hxc⟩

/-! ### The run -/

/-- One more step of a run. -/
theorem channelRun_take_succ {s t u : State} {c : ChanId} {answers : List Answer} {k : Nat} (hk : k < answers.length)
    (h : s.channelRun c (answers.take k) = some t) (hstep : t.channelStep c answers[k] = .next u) :
    s.channelRun c (answers.take (k + 1)) = some u := by
  induction k generalizing s answers with
  | zero =>
    obtain ⟨a, as, rfl⟩ := List.exists_cons_of_length_pos hk
    cases h
    simp only [List.take_succ_cons, List.take_zero, State.channelRun]
    rw [show t.channelStep c a = .next u from hstep]
  | succ k ih =>
    obtain ⟨a, as, rfl⟩ := List.exists_cons_of_length_pos (Nat.lt_of_le_of_lt (Nat.zero_le _) hk)
    rw [List.take_succ_cons, State.channelRun] at h ⊢
    split at h
    · exact ih (Nat.lt_of_succ_lt_succ hk) h hstep
    · cases h
    · cases h

section Run

variable {s : State} {c : ChanId} {x : XferCtx} {answers : List Answer} (hp : c.val < s.params.nch)
  (hfree : s.xlock = .free) (hx : (s.chan c).xc = some x) (hadm : AdmitsAll s.params)
  (hlen : answers.length = 1 + x.ops.length)
include hp hfree hx hadm hlen

/-- After `1 + p` steps the transfer is at its operation `p`, and has issued `p` events. -/
theorem transfer_at {p : Nat} (hlt : p < x.ops.length) :
    ∃ t sum, s.channelRun c (answers.take (1 + p)) = some t ∧ t.trace.length = s.trace.length + p ∧
      InTransfer t c { x with pos := p, sum := sum } := by
  induction p with
  | zero =>
    obtain ⟨hacquire, -⟩ := transferLockIsAcquired s c answers[0] x hp hx
    obtain ⟨t, hstep, hxl, -, hxc, -, -, -, -, -, ⟨hparams, -, -, -, -⟩, ⟨-, htrace⟩, -⟩ := hacquire hfree
    exact ⟨t, x.sum, channelRun_take_succ (k := 0) (by omega) rfl hstep, by rw [htrace]; rfl,
      hparams ▸ hp, hparams ▸ hadm, hxl, hxc⟩
  | succ p ih =>
    have hp' : p < x.ops.length := Nat.lt_of_succ_lt hlt
    obtain ⟨t, sum, hrun, htrace, ht⟩ := ih hp'
    obtain ⟨u, hstep, hevent, -, hmore⟩ := ht.step (List.getElem?_eq_getElem hp') answers[1 + p]
    obtain ⟨sum', hu⟩ := hmore hlt
    exact ⟨u, sum', channelRun_take_succ (k := 1 + p) (by omega) hrun hstep, by omega, hu⟩

/-- After all its steps the transfer has freed XLOCK, and has issued one event for each operation. -/
theorem transfer_ends (hne : x.ops ≠ []) :
    ∃ t, s.channelRun c answers = some t ∧ t.xlock = .free ∧ t.trace.length = s.trace.length + x.ops.length := by
  obtain ⟨p, hp'⟩ := Nat.exists_eq_succ_of_ne_zero (mt List.length_eq_zero_iff.1 hne)
  have hlt : p < x.ops.length := by omega
  obtain ⟨t, sum, hrun, htrace, ht⟩ := transfer_at hp hfree hx hadm hlen hlt
  obtain ⟨u, hstep, hevent, hlast, -⟩ := ht.step (List.getElem?_eq_getElem hlt) answers[1 + p]
  have hall := channelRun_take_succ (k := 1 + p) (by omega) hrun hstep
  rw [List.take_of_length_le (by omega)] at hall
  exact ⟨u, hall, hlast hp'.symm, by omega⟩

end Run

/-- Settles O42: the run is followed one operation at a time. -/
theorem transferTakesOneStepPerOperation : Obligations.TransferTakesOneStepPerOperation := by
  intro s c x answers hp hfree hx hne hadm hlen
  refine ⟨fun p hlt => ?_, transfer_ends hp hfree hx hadm hlen hne⟩
  obtain ⟨t, sum, hrun, htrace, ht⟩ := transfer_at hp hfree hx hadm hlen hlt
  exact ⟨t, hrun, ht.xlock, by rw [ht.xc]; rfl, htrace⟩

end Sys2Proof.Machine

/-! SUPPORT. The acceptance of MBOX_EXEC (42_mailbox.md R240): its checks in order, and the context it binds. -/

namespace Sys2Proof.Machine

/-- The latch fields of MBOX_EXEC's word (30_encoding.md R130, R131). -/
theorem mboxExec_word (n : Bool) :
    (encodeWord (.mboxExec n)).setWidth 4 = (4 : BitVec 4) ∧ (encodeWord (.mboxExec n)).getLsbD 8 = n := by
  cases n <;> decide

/-- MBOX_EXEC's argument checks as conditions on the numbers in the argument registers (42_mailbox.md R240). -/
theorem mboxBadArg_eq (ch : Channel) (n : Bool) : ch.mboxBadArg n =
    if 0x10000 ≤ ch.arg0.toNat then some 0
    else if 32 < ch.arg2.toNat then some 2
    else if 2 ^ 32 < ch.arg1.toNat + ch.arg2.toNat then some 1
    else if ¬ (n = true ∨ ch.arg3.toNat + min ch.arg4.toNat 32 ≤ 2 ^ 32) then some 3
    else none := by
  have hupper : (!upperClear ch.arg0) = true ↔ 0x10000 ≤ ch.arg0.toNat := by simp [upperClear_eq]
  have hresp : (!n && decide (ch.respAddr.toNat + min ch.respLen 32 > 2 ^ 32)) = true ↔
      ¬ (n = true ∨ ch.arg3.toNat + min ch.arg4.toNat 32 ≤ 2 ^ 32) := by
    simp [Channel.respAddr, Channel.respLen]
  simp only [Channel.mboxBadArg, hupper, hresp]
  rfl

/-- The latch leaves the arguments that MBOX_EXEC checks (40_control.md R174). -/
theorem mboxBadArg_latch (ch : Channel) (w : Word) (n : Bool) : (ch.latch w).mboxBadArg n = ch.mboxBadArg n := rfl

/-- MBOX_EXEC passes its argument checks (42_mailbox.md R240). -/
theorem mboxBadArg_eq_none {ch : Channel} {n : Bool} (h0 : ch.arg0.toNat < 0x10000) (h2 : ch.arg2.toNat ≤ 32)
    (h1 : ch.arg1.toNat + ch.arg2.toNat ≤ 2 ^ 32)
    (hresp : n = true ∨ ch.arg3.toNat + min ch.arg4.toNat 32 ≤ 2 ^ 32) : ch.mboxBadArg n = none := by
  rw [mboxBadArg_eq, if_neg (Nat.not_le.2 h0), if_neg (Nat.not_lt.2 h2), if_neg (Nat.not_lt.2 h1),
    if_neg (not_not.2 hresp)]

section Body

variable {s : State} {n : Bool}

/-- MBOX_EXEC's body where a check on the arguments fails. -/
theorem mboxStart_badArg {k : Half} (h : (s.chan s.sel).mboxBadArg n = some k) :
    s.mboxStart n = s.raise s.sel .badArgument k := by
  simp [State.mboxStart, h]

/-- MBOX_EXEC's body on a window that is not configured. -/
theorem mboxStart_unconfigured (h : (s.chan s.sel).mboxBadArg n = none) (hcfg : s.configured = false) :
    s.mboxStart n = s.raise s.sel .unconfigured 0 := by
  simp [State.mboxStart, h, hcfg]

/-- MBOX_EXEC's body where every check passes: the channel waits for MLOCK. -/
theorem mboxStart_waits (h : (s.chan s.sel).mboxBadArg n = none) (hcfg : s.configured = true) :
    s.mboxStart n = s.modChan s.sel fun ch =>
      { ch with mc := some { step := .lock, t0 := 0, tnext := 0, len := ch.reqLen }, state := .mWait } := by
  simp [State.mboxStart, h, hcfg]

end Body

/-- A change of the accepted channel that keeps its command and `WDROP` keeps the frame of the acceptance step. -/
theorem AcceptFrame.modChan {s u : State} {op : BitVec 4} {n : Bool} (h : AcceptFrame s u op n) {f : Channel → Channel}
    (hf : ∀ ch, (f ch).command = ch.command ∧ (f ch).wdrop = ch.wdrop) :
    AcceptFrame s (u.modChan s.sel f) op n := by
  have hchan : (u.modChan s.sel f).chan s.sel = f (u.chan s.sel) := chan_modChan_self ..
  obtain ⟨hcommand, hwdrop⟩ := hf (u.chan s.sel)
  simp only [Channel.command, Prod.mk.injEq, ← hchan] at hcommand
  obtain ⟨hop, hn, h0, h1, h2, h3, h4⟩ := hcommand
  rw [← hchan] at hwdrop
  obtain ⟨⟨hp, hnow, hcl, hsched, hdrawn⟩, ⟨hec, htrace⟩, hhost, ⟨htx, hrx⟩, hxlock, hothers, ⟨a0, a1, a2, a3, a4⟩,
    hop', hn', hw⟩ := h
  exact ⟨⟨hp, hnow, hcl, hsched, hdrawn⟩, ⟨hec, htrace⟩, hhost, ⟨htx, hrx⟩, hxlock,
    fun d hd => (chan_modChan_ne _ _ _ _ hd).trans (hothers d hd),
    ⟨h0.trans a0, h1.trans a1, h2.trans a2, h3.trans a3, h4.trans a4⟩, hop.trans hop', hn.trans hn', hwdrop.trans hw⟩

section Accepted

variable {s : State} (n : Bool)

/-- `s` once its selected channel has latched MBOX_EXEC's word (40_control.md R174). -/
def State.mboxLatched (s : State) (n : Bool) : State := s.modChan s.sel fun ch => ch.latch (encodeWord (.mboxExec n))

theorem mboxLatched_chan : (s.mboxLatched n).chan s.sel = (s.chan s.sel).latch (encodeWord (.mboxExec n)) :=
  chan_modChan_self ..

/-- The checks see the arguments as they were before the latch. -/
theorem mboxLatched_badArg :
    ((s.mboxLatched n).chan (s.mboxLatched n).sel).mboxBadArg n = (s.chan s.sel).mboxBadArg n := by
  rw [show (s.mboxLatched n).sel = s.sel from rfl, mboxLatched_chan, mboxBadArg_latch]

/-- MBOX_EXEC, accepted: its word is latched and its body runs (40_control.md R174). -/
theorem exec_mbox_accepted (h : Accepts s) : exec (.mboxExec n) s = .next ((s.mboxLatched n).mboxStart n) :=
  congrArg Host.Outcome.next (issueCommand_accepted _ _ (decide_eq_true h.present) h.idle)

/-- MBOX_EXEC is rejected where its body raises an error (40_control.md R177). -/
theorem mbox_rejected (h : Accepts s) {kind : Kind} {code : Half} (hk : kind ≠ .ok)
    (e : (s.mboxLatched n).mboxStart n = (s.mboxLatched n).raise s.sel kind code) :
    ∃ t, exec (.mboxExec n) s = .next t ∧ Rejection s t 4 n kind code := by
  obtain ⟨hop, hn⟩ := mboxExec_word n
  have hrej := rejection_raise s (encodeWord (.mboxExec n)) hk code
  rw [hop, hn] at hrej
  exact ⟨_, (exec_mbox_accepted n h).trans (congrArg _ e), hrej⟩

end Accepted

/-- Settles O33: the argument checks stand in the order of the clauses, and the window is looked at after them. -/
theorem mailboxRejections : Obligations.MailboxRejections := by
  intro s n kind code h a respFits hcase
  simp only [a, respFits, Channel.arg] at hcase
  obtain ⟨rfl, hbad⟩ | ⟨rfl, rfl, h0, h2, h1, hresp, hcfg⟩ := hcase
  · refine mbox_rejected n h (by decide) (mboxStart_badArg ((mboxLatched_badArg n).trans ?_))
    rw [mboxBadArg_eq]
    obtain ⟨h0, rfl⟩ | ⟨h0, h2, rfl⟩ | ⟨h0, h2, h1, rfl⟩ | ⟨h0, h2, h1, hresp, rfl⟩ := hbad
    · rw [if_pos h0]
    · rw [if_neg (Nat.not_le.2 h0), if_pos h2]
    · rw [if_neg (Nat.not_le.2 h0), if_neg (Nat.not_lt.2 h2), if_pos h1]
    · rw [if_neg (Nat.not_le.2 h0), if_neg (Nat.not_lt.2 h2), if_neg (Nat.not_lt.2 h1), if_pos hresp]
  · have hgood := (mboxLatched_badArg n).trans (mboxBadArg_eq_none h0 h2 h1 hresp)
    have hcfg' : (s.mboxLatched n).configured = false := by
      show s.configured = false
      obtain hz | hz := hcfg <;> simp [State.configured, hz]
    exact mbox_rejected n h (by decide) (mboxStart_unconfigured hgood hcfg')

/-- Settles O32: with every check passed on a configured window, the context is bound in the latched channel. -/
theorem mailboxStartsAndWaits : Obligations.MailboxStartsAndWaits := by
  intro s n h h0 h2 h1 hresp hbase hend
  have hresp' : n = true ∨ (s.chan s.sel).arg3.toNat + min (s.chan s.sel).arg4.toNat 32 ≤ 2 ^ 32 := by
    cases n with
    | true => exact .inl rfl
    | false => exact .inr (hresp rfl)
  have hgood := (mboxLatched_badArg n).trans (mboxBadArg_eq_none h0 h2 h1 hresp')
  have hcfg : (s.mboxLatched n).configured = true := by
    show s.configured = true
    rw [State.configured, decide_eq_true hbase, decide_eq_true hend]
    rfl
  obtain ⟨hop, hn⟩ := mboxExec_word n
  have hframe := acceptFrame_latch s (encodeWord (.mboxExec n))
  rw [hop, hn] at hframe
  refine ⟨_, (exec_mbox_accepted n h).trans (congrArg _ (mboxStart_waits hgood hcfg)), ?_⟩
  rw [show (s.mboxLatched n).sel = s.sel from rfl, chan_modChan_self, mboxLatched_chan]
  refine ⟨rfl, ⟨rfl, rfl, rfl, rfl, rfl, rfl, rfl⟩, rfl, hframe.modChan ?_, ⟨rfl, rfl, rfl, rfl, rfl⟩, rfl⟩
  exact fun _ => ⟨rfl, rfl⟩

end Sys2Proof.Machine

/-! SUPPORT. What a mailbox step leaves outside its channel (42_mailbox.md R257, R261, R266), and the three mailbox
events. -/

namespace Sys2Proof.Machine

/-! ### Steps of one channel -/

/-- From `u` to `t` at most channel `c`, MLOCK and the selection changed, and the channel kept its command and `WDROP`:
what a mailbox step does once its event is issued and its bytes are stored. -/
structure OwnStep (u t : State) (c : ChanId) : Prop where
  beside : (t.select 0).besideChannels = (u.select 0).besideChannels
  xlock : t.xlock = u.xlock
  others : SameOthers u t c
  command : SameCommand u t c
  wdrop : (t.chan c).wdrop = (u.chan c).wdrop

theorem OwnStep.refl (u : State) (c : ChanId) : OwnStep u u c := ⟨rfl, rfl, fun _ _ => rfl, rfl, rfl⟩

section OwnStep

variable {u t : State} {c : ChanId} (h : OwnStep u t c)
include h

theorem OwnStep.modChan {f : Channel → Channel} (hf : ∀ ch, (f ch).command = ch.command ∧ (f ch).wdrop = ch.wdrop) :
    OwnStep u (t.modChan c f) c where
  beside := h.beside
  xlock := h.xlock
  others d hd := (chan_modChan_ne _ _ _ _ hd).trans (h.others d hd)
  command := h.command.modChan c fun ch => (hf ch).1
  wdrop := by rw [chan_modChan_self, (hf _).2, h.wdrop]

theorem OwnStep.setMlock (l : MLock) : OwnStep u (t.setMlock l) c :=
  ⟨h.beside, h.xlock, h.others, h.command, h.wdrop⟩

theorem OwnStep.select (d : ChanId) : OwnStep u (t.select d) c := ⟨h.beside, h.xlock, h.others, h.command, h.wdrop⟩

theorem OwnStep.complete (kind : Kind) (code : Half) (st : SeqState) (sum : Byte) :
    OwnStep u (t.complete c kind code st sum) c :=
  (h.modChan (f := fun ch => ch.completed kind code st sum) fun _ => ⟨rfl, rfl⟩).setMlock _

theorem OwnStep.startTransfer (dir : Dir) (a : Half) (n : Nat) (buf : Buf) (ret : Ret) :
    OwnStep u (t.startTransfer c dir a n buf ret) c :=
  h.modChan (f := fun ch => ch.bindXfer dir a n buf ret) fun _ => ⟨rfl, rfl⟩

/-- Beside the channels and the locks nothing changed. -/
theorem OwnStep.frame :
    SameWindow u t ∧ SameAgents u t ∧ SameBuffers u t ∧ SameBus u t ∧ t.hostMem = u.hostMem := by
  have hbeside := h.beside
  simp only [State.besideChannels, State.select, State.mk.injEq] at hbeside
  obtain ⟨hp, hbase, hend, hcmd, hdata, hlock, -, -, -, htx, hrx, hnow, hhost, hec, hcl, htrace, hsched, hdrawn, -⟩ :=
    hbeside
  exact ⟨⟨hbase, hend, hcmd, hdata, hlock⟩, ⟨hp, hnow, hcl, hsched, hdrawn⟩, ⟨htx, hrx⟩, ⟨hec, htrace⟩, hhost⟩

/-- The channel keeps its arguments, its latch and `WDROP`. -/
theorem OwnStep.channel : SameArgs u t c ∧ SameLatch u t c := by
  have hcommand := h.command
  simp only [SameCommand, Channel.command, Prod.mk.injEq] at hcommand
  obtain ⟨hop, hnoresp, h0, h1, h2, h3, h4⟩ := hcommand
  exact ⟨⟨h0, h1, h2, h3, h4⟩, ⟨hop, hnoresp, h.wdrop⟩⟩

end OwnStep

/-- What a mailbox event leaves besides its channel and MLOCK: the event in the history, and no byte moved
(20_memory.md R96). -/
theorem eventFrame_ownStep {s t : State} {i : Instr} {port : Half} (hport : s.eventPort i = some port)
    (h : OwnStep (s.issueEvent s.sel i) t s.sel) :
    EventFrame s t i port ∧ SameHost s t ∧ SameBuffers s t ∧ t.xlock = s.xlock := by
  have hchan := issueEvent_chan_self s s.sel i
  obtain ⟨⟨hbase, hend, hcmd, hdata, hlock⟩, ⟨hp, hnow, hcl, hsched, hdrawn⟩, ⟨htx, hrx⟩, ⟨-, htrace⟩, hhost⟩ := h.frame
  obtain ⟨⟨h0, h1, h2, h3, h4⟩, ⟨hop, hn, hw⟩⟩ := h.channel
  rw [hchan] at h0 h1 h2 h3 h4 hop hn hw
  rw [issueEvent_trace, hport] at htrace
  exact ⟨⟨⟨hbase, hend, hcmd, hdata, hlock⟩, ⟨hp, hnow, hcl, hsched, hdrawn⟩,
    fun d hd => (h.others d hd).trans (issueEvent_chan_ne _ _ _ _ hd), ⟨h0, h1, h2, h3, h4⟩, ⟨hop, hn, hw⟩, htrace⟩,
    fun a => congrArg (Memory.read · a) hhost, ⟨htx, hrx⟩, h.xlock⟩

/-- A command that has issued its event ends with its record; a completion frees MLOCK where the channel holds it
(60_exceptions.md R300). -/
theorem completed_after_event (s : State) (i : Instr) (kind : Kind) (code : Half) (st : SeqState) (sum : Byte) :
    Completed (((s.issueEvent s.sel i).complete s.sel kind code st sum).chan s.sel) kind code st sum false ∧
      MlockAfter s ((s.issueEvent s.sel i).complete s.sel kind code st sum) s.sel := by
  have hnoop : noopAtCompletion kind true = false := Bool.and_false _
  refine ⟨?_, mlockAfter_releasedBy rfl⟩
  rw [complete_chan_self, issueEvent_chan_self]
  exact hnoop ▸ completed_completed _ kind code st sum

theorem AtStep.mboxAt {s : State} {m : MboxCtx} {st : MboxStep} (h : AtStep s m st) : s.mboxAt st = some m :=
  mboxAt_eq_some.2 ⟨h.xc, h.mc, h.step⟩

theorem atStep_of_mboxAt {s : State} {m : MboxCtx} {st : MboxStep} (h : s.mboxAt st = some m) : AtStep s m st :=
  let ⟨hxc, hmc, hst⟩ := mboxAt_eq_some.1 h
  ⟨hxc, hmc, hst⟩

/-! ### The strobe -/

section Strobe

variable {s : State} {c : ChanId}

/-- The strobe step where no response is expected ends the command (42_mailbox.md R257). -/
theorem mboxStrobe_ends (h : (s.chan c).noresp = true) :
    s.mboxStrobe c =
      ((s.modChan c fun ch =>
        { ch with mc := ch.mc.map fun m => { m with t0 := s.now, tnext := s.now }, state := .commandStarted }).modChan c
          fun ch => { ch with state := .noResponseExpected }).complete c .ok 0 .done 0 := by
  simp only [State.mboxStrobe, chan_modChan_self, h, if_true]

/-- The strobe step where a response is expected begins the wait at the present time (42_mailbox.md R257). -/
theorem mboxStrobe_waits (h : (s.chan c).noresp = false) :
    s.mboxStrobe c =
      (s.modChan c fun ch =>
        { ch with mc := ch.mc.map fun m => { m with t0 := s.now, tnext := s.now }, state := .commandStarted }).modChan c
          fun ch => { ch.setMboxStep .poll with state := .awaitingResponse } := by
  simp only [State.mboxStrobe, chan_modChan_self, h, Bool.false_eq_true, if_false]

theorem ownStep_mboxStrobe (s : State) (c : ChanId) : OwnStep s (s.mboxStrobe c) c := by
  cases h : (s.chan c).noresp with
  | true =>
    rw [mboxStrobe_ends h]
    refine .complete (.modChan (.modChan (.refl s c) ?_) ?_) _ _ _ _ <;> exact fun _ => ⟨rfl, rfl⟩
  | false =>
    rw [mboxStrobe_waits h]
    refine .modChan (.modChan (.refl s c) ?_) ?_ <;> exact fun _ => ⟨rfl, rfl⟩

end Strobe

/-- Settles O48: the strobe step issues its event, and the `N` bit decides whether it ends the command. -/
theorem strobeEventCompletes : Obligations.StrobeEventCompletes := by
  intro s m h
  have hchan := issueEvent_chan_self s s.sel (.strobe s.params.startCmd)
  obtain ⟨hframe, hhost, hbuf, hxl⟩ := eventFrame_ownStep (i := .strobe s.params.startCmd) rfl (ownStep_mboxStrobe _ _)
  refine ⟨_, execStrobe_eq_next.2 ⟨m, h.mboxAt, rfl, rfl⟩, hframe, hhost, hbuf, hxl, fun hn => ?_, fun hn => ?_⟩
  · rw [mboxStrobe_ends (by rw [hchan]; exact hn)]
    refine ⟨?_, mlockAfter_releasedBy rfl⟩
    rw [complete_chan_self, chan_modChan_self, chan_modChan_self, hchan]
    exact completed_completed _ _ _ _ _
  · rw [mboxStrobe_waits (by rw [hchan]; exact hn), chan_modChan_self, chan_modChan_self, hchan]
    refine ⟨?_, rfl, h.xc, ?_, rfl⟩
    · simp only [setMboxStep_mc, h.mc, Option.map_some]
      rfl
    · constructor <;> rw [chan_modChan_self, chan_modChan_self, hchan] <;> rfl

/-! ### The status read -/

/-- The EC is busy where bit 1 or bit 2 of the command-status byte is set (30_encoding.md R145). -/
theorem ecBusy_iff (v : Byte) : ecBusy v = true ↔ v.getLsbD 1 = true ∨ v.getLsbD 2 = true := by
  revert v; decide

theorem ownStep_mboxPoll (s : State) (c : ChanId) (m : MboxCtx) (v : Byte) : OwnStep s (s.mboxPoll c m v) c := by
  have h := OwnStep.refl s c
  unfold State.mboxPoll
  split
  · exact h.modChan fun _ => ⟨rfl, rfl⟩
  split
  · exact h.complete _ _ _ _
  · exact h.modChan fun _ => ⟨rfl, rfl⟩

/-- Settles O49: the busy test is made before the deadline is looked at. -/
theorem statusReadEventCompletes : Obligations.StatusReadEventCompletes := by
  intro s m v h hnow
  have hchan := issueEvent_chan_self s s.sel (.statRd v)
  obtain ⟨hframe, hhost, hbuf, hxl⟩ := eventFrame_ownStep (i := .statRd v) rfl (ownStep_mboxPoll _ _ m v)
  refine ⟨_, execStatRd_eq_next.2 ⟨m, h.mboxAt, hnow, rfl⟩, hframe, hhost, hbuf, hxl, fun ⟨h1, h2⟩ => ?_,
    fun hbusy hlate => ?_, fun hbusy hearly => ?_⟩
  · have hready : ecBusy v = false := by
      rw [← Bool.not_eq_true, ecBusy_iff, h1, h2]; decide
    rw [mboxPoll_ready _ _ _ _ hready, chan_modChan_self, hchan]
    refine ⟨?_, rfl, h.xc, ?_, rfl⟩
    · rw [setMboxStep_mc, h.mc, Option.map_some]
    · constructor <;> rw [chan_modChan_self, hchan] <;> rfl
  · rw [mboxPoll_timeout (s.issueEvent s.sel (.statRd v)) _ _ _ ((ecBusy_iff v).2 hbusy) hlate]
    exact completed_after_event s _ _ _ _ _
  · rw [mboxPoll_again (s.issueEvent s.sel (.statRd v)) _ _ _ ((ecBusy_iff v).2 hbusy) hearly, chan_modChan_self, hchan]
    refine ⟨congrArg (Option.map _) h.mc, rfl, h.xc, ?_, rfl⟩
    constructor <;> rw [chan_modChan_self, hchan]

/-! ### The flag read -/

theorem ownStep_mboxFlag (s : State) (c : ChanId) (v : Byte) : OwnStep s (s.mboxFlag c v) c := by
  unfold State.mboxFlag
  split
  · exact (OwnStep.refl s c).complete _ _ _ _
  · refine .startTransfer (.modChan (.refl s c) ?_) _ _ _ _ _
    exact fun _ => ⟨rfl, rfl⟩

/-- Settles O50: a non-zero flag ends the command; else the sub-transfer of the response is bound. -/
theorem flagReadEventCompletes : Obligations.FlagReadEventCompletes := by
  intro s m v h
  have hchan := issueEvent_chan_self s s.sel (.flagRd v)
  obtain ⟨hframe, hhost, hbuf, hxl⟩ := eventFrame_ownStep (i := .flagRd v) rfl (ownStep_mboxFlag _ _ v)
  refine ⟨_, execFlagRd_eq_next.2 ⟨m, h.mboxAt, rfl⟩, hframe, hhost, hbuf, hxl, fun hv => ?_, ?_⟩
  · rw [mboxFlag_bad _ _ _ hv]
    exact completed_after_event s _ _ _ _ _
  · rintro rfl
    rw [mboxFlag_good, startTransfer_chan_self, chan_modChan_self, hchan]
    refine ⟨congrArg (Option.map _) h.mc, rfl, rfl, ?_, rfl⟩
    constructor <;> rw [startTransfer_chan_self, chan_modChan_self, hchan] <;> rfl

end Sys2Proof.Machine

/-! SUPPORT. The steps of a mailbox command without a port event: the lock step (42_mailbox.md R243), the build step and
the request it frames (R246 to R249). -/

namespace Sys2Proof.Machine

/-! ### The step of a channel at a mailbox step -/

section AtStep

variable {s : State} {c : ChanId} {m : MboxCtx} {st : MboxStep}

/-- Where the mailbox step issues no event, the channel's step is the one without an event. -/
theorem channelStep_quiet (hp : c.val < s.params.nch) (h : AtStep (s.select c) m st) {ans : Answer}
    (hquiet : (s.select c).mboxEvent m ans = none) : s.channelStep c ans = .next (s.select c).internalStep := by
  have hpres : s.present c = true := decide_eq_true hp
  obtain ⟨hevent, -⟩ := nextEvent_of_mboxAt h.mboxAt ans
  simp only [State.channelStep, hpres, hevent, hquiet, Bool.not_true, Bool.false_eq_true, if_false]

/-- Where the mailbox step issues an event, the channel's step is that event's meaning. -/
theorem channelStep_event (hp : c.val < s.params.nch) (h : AtStep (s.select c) m st) {ans : Answer} {i : Instr}
    (hi : (s.select c).mboxEvent m ans = some i) : s.channelStep c ans = exec i (s.select c) := by
  have hpres : s.present c = true := decide_eq_true hp
  obtain ⟨hevent, -⟩ := nextEvent_of_mboxAt h.mboxAt ans
  simp only [State.channelStep, hpres, hevent, hi, Bool.not_true, Bool.false_eq_true, if_false]

/-- The lock step is enabled where MLOCK is free (42_mailbox.md R243). -/
theorem channelStep_lock (hp : c.val < s.params.nch) (h : AtStep (s.select c) m .lock) (ans : Answer) :
    s.channelStep c ans = .next (if s.mlock = .free then (s.select c).acquireMlock c else s.select c) := by
  rw [channelStep_quiet hp h (by simp [State.mboxEvent, h.step])]
  simp only [State.internalStep, h.xc, h.mc, h.step]
  rfl

theorem channelStep_build (hp : c.val < s.params.nch) (h : AtStep (s.select c) m .build) (ans : Answer) :
    s.channelStep c ans = .next ((s.select c).mboxBuild c m) := by
  rw [channelStep_quiet hp h (by simp [State.mboxEvent, h.step])]
  simp only [State.internalStep, h.xc, h.mc, h.step]
  rfl

theorem channelStep_validate (hp : c.val < s.params.nch) (h : AtStep (s.select c) m .validate) (ans : Answer) :
    s.channelStep c ans = .next ((s.select c).mboxValidate c) := by
  rw [channelStep_quiet hp h (by simp [State.mboxEvent, h.step])]
  simp only [State.internalStep, h.xc, h.mc, h.step]
  rfl

end AtStep

/-! ### The lock step -/

/-- What the lock step leaves in its channel (42_mailbox.md R243). -/
theorem acquireMlock_chan {s : State} {c : ChanId} {m : MboxCtx} (hm : (s.chan c).mc = some m) :
    (s.acquireMlock c).chan c = { s.chan c with mc := some { m with step := .build } } := by
  rw [State.acquireMlock, setMlock_chan, chan_modChan_self, Channel.setMboxStep, hm, Option.map_some]

/-- Settles O46: the lock step sets MLOCK and the mailbox step, and is not enabled where MLOCK is held. -/
theorem mailboxLockIsAcquired : Obligations.MailboxLockIsAcquired := by
  intro s c ans m hp h
  rw [channelStep_lock hp h ans]
  refine ⟨fun hfree => ?_, fun d hheld => ?_⟩
  · rw [if_pos hfree]
    refine ⟨_, rfl, rfl, rfl, acquireMlock_chan (s := s.select c) h.mc, fun d hd => ?_, ⟨rfl, rfl, rfl, rfl, rfl⟩,
      ⟨rfl, rfl⟩, ⟨rfl, rfl, rfl, rfl, rfl⟩, ⟨rfl, rfl⟩, fun _ => rfl⟩
    rw [State.acquireMlock, setMlock_chan, chan_modChan_ne _ _ _ _ hd, select_chan]
  · rw [if_neg (by rw [hheld]; nofun)]

/-! ### The bytes of a request -/

/-- The number a byte-sum gives (00_scope.md R12). -/
theorem sum8_toNat (bs : List Byte) : (sum8 bs).toNat = (bs.map BitVec.toNat).sum % 256 := by
  induction bs with
  | nil => rfl
  | cons b bs ih =>
    rw [sum8_cons, BitVec.toNat_add, ih, List.map_cons, List.sum_cons]
    omega

/-- The number a negated byte gives (00_scope.md R12). -/
theorem neg8_toNat (x : Byte) : (neg8 x).toNat = (256 - x.toNat) % 256 := by
  rw [neg8, BitVec.toNat_sub]
  rfl

/-- The low half of a register as a number. -/
theorem lowHalf_toNat_mod (w : Word) : (lowHalf w).toNat = w.toNat % 0x10000 := by
  simp [lowHalf, field]

section Request

variable (p : Params) (id : Half) (len : Nat) (payload : List Byte)

theorem requestBytes_length : (requestBytes p id len payload).length = 8 + payload.length := by
  rw [requestBytes, List.length_append]
  rfl

/-- The checksum byte stands in the header as one summand (30_encoding.md R146). -/
theorem sum8_requestHeader (csum : Byte) :
    sum8 (requestHeader p id len csum) = csum + sum8 (requestHeader p id len 0) := by
  simp only [requestHeader, sum8_cons, sum8_nil]
  ring

/-- The bytes transmitted sum to 0 (42_mailbox.md R249). -/
theorem sum8_requestBytes : sum8 (requestBytes p id len payload) = 0 := by
  rw [requestBytes, sum8_append, sum8_requestHeader, requestChecksum, neg8]
  ring

/-- The request checksum as a number (42_mailbox.md R247). -/
theorem requestChecksum_toNat (hlen : len < 256) : (requestChecksum p id len payload).toNat =
    (256 - (p.protoVersion.toNat + id.toNat % 256 + id.toNat / 256 + p.mbxVersion.toNat + len +
      (payload.map BitVec.toNat).sum) % 256) % 256 := by
  have hsum : (sum8 (requestHeader p id len 0) + sum8 payload).toNat =
      (p.protoVersion.toNat + id.toNat % 256 + id.toNat / 256 + p.mbxVersion.toNat + len +
        (payload.map BitVec.toNat).sum) % 256 := by
    rw [← sum8_append, sum8_toNat, List.map_append, List.sum_append]
    simp only [requestHeader, List.map_cons, List.map_nil, List.sum_cons, List.sum_nil, loByte_toNat, hiByte_toNat,
      BitVec.toNat_ofNat, Nat.mod_eq_of_lt hlen, show (0 : Byte).toNat = 0 from rfl]
    congr 1
    omega
  rw [requestChecksum, neg8_toNat, hsum]

end Request

/-! ### A buffer with a new front -/

section Overlay

variable {front : List Byte} (old : Vector Byte 40) {i : Nat}

theorem overlay_getElem (hi : i < 40) (h : i < front.length) : (overlay front old)[i] = front[i] := by
  simp [overlay, h]

theorem overlay_getElem?_front (hfit : front.length ≤ 40) (h : i < front.length) :
    (overlay front old)[i]? = front[i]? := by
  rw [Vector.getElem?_eq_getElem (Nat.lt_of_lt_of_le h hfit), overlay_getElem old _ h, List.getElem?_eq_getElem h]

theorem overlay_getElem?_rest (h : front.length ≤ i) : (overlay front old)[i]? = old[i]? := by
  by_cases hi : i < 40
  · rw [Vector.getElem?_eq_getElem hi, Vector.getElem?_eq_getElem hi]
    simp [overlay, Nat.not_lt.2 h]
  · rw [Vector.getElem?_eq_none (Nat.not_lt.1 hi), Vector.getElem?_eq_none (Nat.not_lt.1 hi)]

/-- The front of the buffer is what was put there. -/
theorem overlay_take (hfit : front.length ≤ 40) : (overlay front old).toList.take front.length = front := by
  apply List.ext_getElem
  · simp [hfit]
  · intro i _ h
    rw [List.getElem_take, Vector.getElem_toList, overlay_getElem old _ h]

end Overlay

/-! ### The build step -/

/-- Host addresses of a buffer that begins one byte later. -/
theorem hostIndex_succ (a : Word) (i : Nat) : hostIndex (a + 1) i = hostIndex a (i + 1) := by
  apply BitVec.eq_of_toNat_eq
  simp [hostIndex]
  omega

theorem hostIndex_zero (a : Word) : hostIndex a 0 = a := by simp [hostIndex]

/-- The bytes that a host buffer holds are what is read there (42_mailbox.md R246). -/
theorem hostReads_of_holds {s : State} {a : Word} {bs : List Byte}
    (h : ∀ i, i < bs.length → Holds s (.host a) i (bs.getD i 0)) : s.hostReads a bs.length = some bs := by
  induction bs generalizing a with
  | nil => rfl
  | cons b bs ih =>
    have hfirst : s.hostRead a = some b := by
      have hb := src_of_holds (h 0 (Nat.succ_pos _))
      rwa [State.src, hostIndex_zero] at hb
    have hrest : s.hostReads (a + 1) bs.length = some bs := ih fun i hi => by
      have hb := h (i + 1) (Nat.succ_lt_succ hi)
      rwa [Holds, ← hostIndex_succ] at hb
    simp only [List.length_cons, State.hostReads, hfirst, hrest]

/-- The transfer of the request header begins (42_mailbox.md R246). -/
def State.sendHeader (s : State) (c : ChanId) : State :=
  State.startTransfer (s.modChan c fun ch => { ch.setMboxStep .sendHdr with state := .headerBuilt }) c .wr 0 hdrSize
    (.txbuf 0) .sendPayload

/-- The build step where the payload can be read. -/
theorem mboxBuild_framed {s : State} {c : ChanId} {m : MboxCtx} {payload : List Byte}
    (h : s.hostReads (s.chan c).reqAddr m.len = some payload) : s.mboxBuild c m =
      (s.setTxbuf (overlay (requestBytes s.params (s.chan c).mailboxId m.len payload) s.txbuf)).sendHeader c := by
  simp only [State.mboxBuild, h, State.sendHeader]

section SendHeader

variable {s u : State} {c : ChanId} {m : MboxCtx}

theorem OwnStep.sendHeader (h : OwnStep s u c) : OwnStep s (u.sendHeader c) c := by
  refine .startTransfer (.modChan h ?_) _ _ _ _ _
  exact fun _ => ⟨rfl, rfl⟩

/-- What the start of the header transfer leaves in its channel. -/
theorem sendHeader_chan (hm : (s.chan c).mc = some m) : (s.sendHeader c).chan c =
    { s.chan c with
      evented := (s.chan c).evented
      xc := some { dir := .wr, ec := 0, n := 8, buf := .txbuf 0, ops := xferOps 0 8, pos := 0, sum := 0,
                   ret := .sendPayload }
      mc := some { m with step := .sendHdr }
      state := .headerBuilt } := by
  rw [State.sendHeader, startTransfer_chan_self, chan_modChan_self]
  simp only [Channel.bindXfer, Channel.setMboxStep, hm, Option.map_some]
  rfl

end SendHeader

/-- The request in the buffer (42_mailbox.md R246, R247, R249): header, checksum and payload at its front, and the bytes
after them as they were. -/
theorem overlay_requestBytes {p : Params} {arg0 : Word} {len : Nat} {payload : List Byte} {old tx : Vector Byte 40}
    (htx : overlay (requestBytes p (lowHalf arg0) len payload) old = tx) (hlen : payload.length = len)
    (hshort : len ≤ 32) :
    tx[0] = p.protoVersion ∧
      tx[1].toNat = (256 - (p.protoVersion.toNat + arg0.toNat % 256 + arg0.toNat / 256 % 256 + p.mbxVersion.toNat +
        len + (payload.map BitVec.toNat).sum) % 256) % 256 ∧
      tx[2] = BitVec.ofNat 8 arg0.toNat ∧ tx[3] = BitVec.ofNat 8 (arg0.toNat / 256) ∧ tx[4] = p.mbxVersion ∧
      tx[5] = 0 ∧ tx[6].toNat = len ∧ tx[7] = 0 ∧ (∀ i, i < len → tx[8 + i]? = payload[i]?) ∧
      (∀ i, 8 + len ≤ i → tx[i]? = old[i]?) ∧ sum8 (tx.toList.take (8 + len)) = 0 := by
  have hid : (lowHalf arg0).toNat = arg0.toNat % 0x10000 := lowHalf_toNat_mod _
  have hcsum := requestChecksum_toNat p (lowHalf arg0) len payload (by omega)
  have hlength := requestBytes_length p (lowHalf arg0) len payload
  have hsum := sum8_requestBytes p (lowHalf arg0) len payload
  have hpayload : ∀ i, (requestBytes p (lowHalf arg0) len payload)[8 + i]? = payload[i]? := fun i =>
    List.getElem?_append_right (Nat.le_add_right 8 i) |>.trans (congrArg (payload[·]?) (Nat.add_sub_cancel_left 8 i))
  have hhead : ∀ i, (hi : i < 8) → tx[i] =
      (requestHeader p (lowHalf arg0) len (requestChecksum p (lowHalf arg0) len payload))[i] := by
    intro i hi
    subst htx
    rw [overlay_getElem old (by omega) (by omega)]
    exact List.getElem_append_left _
  refine ⟨hhead 0 (by decide), ?_, ?_, ?_, hhead 4 (by decide), hhead 5 (by decide), ?_,
    hhead 7 (by decide), fun i hi => ?_, fun i hi => ?_, ?_⟩
  · rw [hhead 1 (by decide)]
    show (requestChecksum p (lowHalf arg0) len payload).toNat = _
    rw [hcsum, hid]
    congr 4
    omega
  · rw [hhead 2 (by decide)]
    apply BitVec.eq_of_toNat_eq
    show (loByte (lowHalf arg0)).toNat = _
    rw [loByte_toNat, hid, BitVec.toNat_ofNat]
    omega
  · rw [hhead 3 (by decide)]
    apply BitVec.eq_of_toNat_eq
    show (hiByte (lowHalf arg0)).toNat = _
    rw [hiByte_toNat, hid, BitVec.toNat_ofNat]
    omega
  · rw [hhead 6 (by decide)]
    exact Nat.mod_eq_of_lt (by omega)
  · rw [← htx, overlay_getElem?_front old (by omega) (by omega), hpayload]
  · rw [← htx, overlay_getElem?_rest old (by omega)]
  · rw [← htx, show 8 + len = (requestBytes p (lowHalf arg0) len payload).length by omega,
      overlay_take old (by omega), hsum]

/-- Settles O47: the payload is read as the host buffer holds it, and the request is laid over the front of `TXBUF`. -/
theorem buildStepFramesTheRequest : Obligations.BuildStepFramesTheRequest := by
  intro s c ans m payload hp h hshort hlen hholds
  have hread : (s.select c).hostReads ((s.select c).chan c).reqAddr m.len = some payload := by
    rw [← hlen]
    exact hostReads_of_holds fun i hi => hholds i (hlen ▸ hi)
  have hstep := channelStep_build hp h ans
  rw [mboxBuild_framed hread] at hstep
  replace hstep : s.channelStep c ans = .next (((s.select c).setTxbuf
      (overlay (requestBytes s.params (lowHalf (s.chan c).arg0) m.len payload) s.txbuf)).sendHeader c) := hstep
  generalize hoverlay : overlay (requestBytes s.params (lowHalf (s.chan c).arg0) m.len payload) s.txbuf = tx at hstep
  obtain ⟨t0, t1, t2, t3, t4, t5, t6, t7, hpayload, hrest, hsum⟩ := overlay_requestBytes hoverlay hlen hshort
  have hchan := sendHeader_chan (s := (s.select c).setTxbuf tx) h.mc
  have hown := (OwnStep.refl ((s.select c).setTxbuf tx) c).sendHeader
  obtain ⟨⟨hbase, hend, hcmd, hdata, hlock⟩, ⟨hparams, hnow, hcl, hsched, hdrawn⟩, ⟨htx, hrx⟩, ⟨hec, htrace⟩, hhost⟩ :=
    hown.frame
  obtain ⟨⟨h0, h1, h2, h3, h4⟩, hop, hn, hw⟩ := hown.channel
  refine ⟨_, hstep, ?_⟩
  rw [htx]
  exact ⟨t0, t1, t2, t3, t4, t5, t6, t7, hpayload, hrest, hsum, congrArg Channel.state hchan, congrArg Channel.mc hchan,
    congrArg Channel.xc hchan, ⟨hbase, hend, hcmd, hdata, hlock⟩, ⟨hown.xlock, rfl⟩, hrx,
    ⟨hparams, hnow, hcl, hsched, hdrawn⟩, ⟨hec, htrace⟩, fun a => congrArg (Memory.read · a) hhost, hown.others,
    ⟨h0, h1, h2, h3, h4⟩, ⟨hop, hn, hw⟩, sameRecord_of_chan hchan⟩

end Sys2Proof.Machine

/-! SUPPORT. The validate step (42_mailbox.md R269 to R276): the fields of the response, the checks in their order, and
the copy-out. -/

namespace Sys2Proof.Machine

/-! ### The fields of the response -/

theorem bufByte_eq (b : Vector Byte 40) {i : Nat} (hi : i < 40) : bufByte b i = b[i] := by
  rw [bufByte, Vector.getElem?_eq_getElem hi, Option.getD_some]

/-- The result code as a number (30_encoding.md R147). -/
theorem responseResult_toNat (s : State) :
    s.responseResult.toNat = s.rxbuf[2].toNat + 256 * s.rxbuf[3].toNat := by
  rw [State.responseResult, le16_toNat, bufByte_eq _ (by decide), bufByte_eq _ (by decide)]

/-- The declared payload length as a number (30_encoding.md R147). -/
theorem responseDeclaredLen_toNat (s : State) :
    s.responseDeclaredLen.toNat = s.rxbuf[4].toNat + 256 * s.rxbuf[5].toNat := by
  rw [State.responseDeclaredLen, le16_toNat, bufByte_eq _ (by decide), bufByte_eq _ (by decide)]

theorem responsePayload_length {s : State} {n : Nat} (hn : n ≤ 32) : (s.responsePayload n).length = n := by
  rw [State.responsePayload, List.length_take, List.length_drop, Vector.length_toList]
  exact Nat.min_eq_left hn

/-- The payload begins after the header (42_mailbox.md R275). -/
theorem responsePayload_getElem? {s : State} {n i : Nat} (hi : i < n) :
    (s.responsePayload n)[i]? = s.rxbuf[8 + i]? := by
  rw [State.responsePayload, List.getElem?_take_of_lt hi, List.getElem?_drop, Vector.getElem?_toList]
  rfl

/-! ### The checks, in their order -/

section Checks

variable {s : State} {c : ChanId}

/-- A wrong byte-sum ends the command where the parameter asks for the check (42_mailbox.md R271). -/
theorem mboxValidate_badChecksum (hsum : s.params.validateRespCsum = true ∧ s.responseSum ≠ 0) :
    s.mboxValidate c = s.complete c .badChecksum (s.responseSum.setWidth 16) .checksumBad s.responseSum := if_pos hsum

variable (hsum : ¬ (s.params.validateRespCsum = true ∧ s.responseSum ≠ 0))
include hsum

/-- A declared length other than 32 ends the command (42_mailbox.md R272). -/
theorem mboxValidate_sizeMismatch (hdl : s.responseDeclaredLen ≠ 32) : s.mboxValidate c =
    s.complete c .sizeMismatch s.responseDeclaredLen .sizeMismatch s.responseSum :=
  (if_neg hsum).trans (if_pos hdl)

variable (hdl : s.responseDeclaredLen = 32)
include hdl

/-- A request for more than the declared length ends the command (42_mailbox.md R273). -/
theorem mboxValidate_insufficientData (hlen : 32 < (s.chan c).respLen) : s.mboxValidate c =
    s.complete c .insufficientData (BitVec.ofNat 16 (min (s.chan c).respLen 0xFFFF)) .insufficientData s.responseSum :=
  (if_neg hsum).trans <| (if_neg (not_not.2 hdl)).trans <| if_pos (by rw [hdl]; exact hlen)

variable (hlen : (s.chan c).respLen ≤ 32)
include hlen

/-- A non-zero result code ends the command (42_mailbox.md R274). -/
theorem mboxValidate_deviceResult (hrc : s.responseResult ≠ 0) : s.mboxValidate c =
    s.complete c .deviceResult s.responseResult .resultCodeBad s.responseSum :=
  (if_neg hsum).trans <| (if_neg (not_not.2 hdl)).trans <|
    (if_neg (by rw [hdl]; exact Nat.not_lt.2 hlen)).trans <| if_pos hrc

/-- A response that passes every check is copied out and ends the command with OK (42_mailbox.md R275). -/
theorem mboxValidate_good (hrc : s.responseResult = 0) {u : State}
    (hu : s.hostWrites (s.chan c).respAddr (s.responsePayload (s.chan c).respLen) = some u) :
    s.mboxValidate c = u.complete c .ok 0 .done s.responseSum := by
  refine (if_neg hsum).trans <| (if_neg (not_not.2 hdl)).trans <|
    (if_neg (by rw [hdl]; exact Nat.not_lt.2 hlen)).trans <| (if_neg (not_not.2 hrc)).trans ?_
  rw [hu]

end Checks

/-- Settles O51: the check that fails ends the command, with nothing written before it. -/
theorem validationFailures : Obligations.ValidationFailures := by
  intro s c ans m kind code st hp h sum rc dl respLen sumFails hcase
  have hdl : (s.select c).responseDeclaredLen.toNat = dl := responseDeclaredLen_toNat (s.select c)
  have hrc : (s.select c).responseResult.toNat = rc := responseResult_toNat (s.select c)
  have hdecl : dl = 32 → (s.select c).responseDeclaredLen = 32 := fun h32 => BitVec.eq_of_toNat_eq (hdl.trans h32)
  have hfails : kind ≠ .ok ∧ (s.select c).mboxValidate c = (s.select c).complete c kind code st sum := by
    obtain ⟨hsum, rfl, rfl, rfl⟩ | ⟨hsum, hne, rfl, rfl, hcode⟩ | ⟨hsum, h32, hlen, rfl, rfl, hcode⟩ |
      ⟨hsum, h32, hlen, hne, rfl, rfl, hcode⟩ := hcase
    · exact ⟨by decide, mboxValidate_badChecksum (s := s.select c) hsum⟩
    · obtain rfl : code = (s.select c).responseDeclaredLen := BitVec.eq_of_toNat_eq (hcode.trans hdl.symm)
      exact ⟨by decide, mboxValidate_sizeMismatch (s := s.select c) hsum fun e => hne (by rw [← hdl, e]; rfl)⟩
    · obtain rfl : code = BitVec.ofNat 16 (min respLen 0xFFFF) := by
        apply BitVec.eq_of_toNat_eq
        rw [hcode, BitVec.toNat_ofNat]
        omega
      exact ⟨by decide, mboxValidate_insufficientData (s := s.select c) hsum (hdecl h32) hlen⟩
    · obtain rfl : code = (s.select c).responseResult := BitVec.eq_of_toNat_eq (hcode.trans hrc.symm)
      exact ⟨by decide,
        mboxValidate_deviceResult (s := s.select c) hsum (hdecl h32) hlen fun e => hne (by rw [← hrc, e]; rfl)⟩
  obtain ⟨hkind, hfails⟩ := hfails
  have hown := ((OwnStep.refl s c).select c).complete kind code st sum
  obtain ⟨hwindow, hagents, hbuffers, hbus, hhost⟩ := hown.frame
  obtain ⟨hargs, hlatch⟩ := hown.channel
  refine ⟨_, (channelStep_validate hp h ans).trans (congrArg _ hfails), ?_, mlockAfter_releasedBy rfl, hown.xlock,
    hwindow, hbuffers, hagents, hbus, fun a => congrArg (Memory.read · a) hhost, hown.others, hargs, hlatch⟩
  have hnoop : ∀ ev, noopAtCompletion kind ev = false := fun ev => by simp [noopAtCompletion, hkind]
  rw [complete_chan_self]
  exact hnoop _ ▸ completed_completed _ kind code st sum

/-! ### The copy-out -/

/-- A byte sequence is written where the platform admits the write of each of its bytes (20_memory.md R83). -/
theorem hostWrites_of_writable {s : State} {a : Word} {bs : List Byte}
    (h : ∀ i, i < bs.length → Writable s (.host a) i) : ∃ u, s.hostWrites a bs = some u := by
  induction bs generalizing s a with
  | nil => exact ⟨s, rfl⟩
  | cons b bs ih =>
    have hfirst : s.hostWrite a b = some (s.setHostMem (s.hostMem.write a.toNat b)) := by
      have hadm : admitsWrite s.params (hostIndex a 0) = true := h 0 (Nat.succ_pos _)
      rw [hostIndex_zero] at hadm
      rw [State.hostWrite, if_pos hadm]
    have hrest : ∃ u, (s.setHostMem (s.hostMem.write a.toNat b)).hostWrites (a + 1) bs = some u := ih fun i hi => by
      have hadm : admitsWrite s.params (hostIndex a (i + 1)) = true := h (i + 1) (Nat.succ_lt_succ hi)
      rwa [← hostIndex_succ] at hadm
    obtain ⟨u, hu⟩ := hrest
    exact ⟨u, by simp only [State.hostWrites, hfirst, hu]⟩

/-- Settles O52: the checks pass, and the bytes asked for are written within host memory. -/
theorem validationCopiesOut : Obligations.ValidationCopiesOut := by
  intro s c ans m hinv hp h hsum hdl hlen hrc hw
  obtain ⟨-, -, -, -, -, hresp, hexpects, hevented, -, -⟩ := (hinv.chan c).mbox m h.mc
  have hafter : m.step.afterStrobe = true := by rw [h.step]; rfl
  have hlength : ((s.select c).responsePayload (s.chan c).arg4.toNat).length = (s.chan c).arg4.toNat :=
    responsePayload_length hlen
  have hfit : (s.chan c).arg3.toNat + (s.chan c).arg4.toNat ≤ 2 ^ 32 := by
    have hmin := hresp (hexpects hafter)
    rwa [show min (s.chan c).respLen 32 = (s.chan c).arg4.toNat from Nat.min_eq_left hlen] at hmin
  obtain ⟨u, hu⟩ := hostWrites_of_writable (s := s.select c) (a := (s.chan c).arg3)
    (bs := (s.select c).responsePayload (s.chan c).arg4.toNat) fun i hi => hw i (hlength ▸ hi)
  have hgood : (s.select c).mboxValidate c = u.complete c .ok 0 .done (sum8 s.rxbuf.toList) := by
    refine mboxValidate_good (s := s.select c) (fun ⟨hcheck, hne⟩ => hne (hsum hcheck)) ?_ hlen ?_ hu
    · exact BitVec.eq_of_toNat_eq ((responseDeclaredLen_toNat (s.select c)).trans hdl)
    · exact BitVec.eq_of_toNat_eq ((responseResult_toNat (s.select c)).trans hrc)
  have hread := hostWrites_read hu hinv.hostMem.1 (by rw [hlength]; exact hfit)
  obtain ⟨mem, rfl, hother, -⟩ := hostWrites_eq_some hu
  have hown := (OwnStep.refl ((s.select c).setHostMem mem) c).complete .ok 0 .done (sum8 s.rxbuf.toList)
  obtain ⟨⟨h0, h1, h2, h3, h4⟩, hop', hn, hwd⟩ := hown.channel
  refine ⟨_, (channelStep_validate hp h ans).trans (congrArg _ hgood), ?_, fun i hi => ?_, fun a ha => ?_,
    mlockAfter_releasedBy rfl, rfl, ⟨rfl, rfl, rfl, rfl, rfl⟩, ⟨rfl, rfl⟩, ⟨rfl, rfl, rfl, rfl, rfl⟩, ⟨rfl, rfl⟩,
    hown.others, ⟨h0, h1, h2, h3, h4⟩, ⟨hop', hn, hwd⟩⟩
  · have hnoop : noopAtCompletion .ok (s.chan c).evented = false := by rw [hevented hafter]; rfl
    rw [complete_chan_self]
    exact hnoop ▸ completed_completed _ _ _ _ _
  · rw [complete_hostMem, hread i (by rw [hlength]; exact hi), ← List.getElem?_eq_getElem]
    exact responsePayload_getElem? hi
  · refine hother a fun i hi => ?_
    rw [hlength] at hi
    rw [hostIndex_toNat (by omega)]
    omega

end Sys2Proof.Machine

/-! SUPPORT. The wait for the EC (42_mailbox.md R261, R262): a run of polls that all find the EC busy. -/

namespace Sys2Proof.Machine

/-- A channel with no context has no step (00_scope.md R18). -/
theorem channelStep_idle {s : State} {c : ChanId} (hp : c.val < s.params.nch) (hx : (s.chan c).xc = none)
    (hm : (s.chan c).mc = none) (ans : Answer) : s.channelStep c ans = .next (s.select c) := by
  have hpres : s.present c = true := decide_eq_true hp
  have hx' : ((s.select c).chan (s.select c).sel).xc = none := hx
  have hm' : ((s.select c).chan (s.select c).sel).mc = none := hm
  have hcur : (s.select c).currentOp = none := by
    rw [Option.eq_none_iff_forall_ne_some]
    rintro ⟨x, op⟩ hop
    obtain ⟨-, hsome, -⟩ := currentOp_eq_some.1 hop
    cases hx'.symm.trans hsome
  simp only [State.channelStep, hpres, State.nextEvent, hcur, State.internalStep, hx', hm', Bool.not_true,
    Bool.false_eq_true, if_false]

/-- Before `tnext` the channel holds at its poll step (42_mailbox.md R261). -/
theorem channelStep_poll_early {s : State} {c : ChanId} {m : MboxCtx} (hp : c.val < s.params.nch)
    (h : AtStep (s.select c) m .poll) (hearly : s.now < m.tnext) (ans : Answer) :
    s.channelStep c ans = .next (s.select c) := by
  have hquiet : (s.select c).mboxEvent m ans = none := by
    simp only [State.mboxEvent, h.step]
    exact if_neg (Nat.not_le.2 hearly)
  rw [channelStep_quiet hp h hquiet]
  simp only [State.internalStep, h.xc, h.mc, h.step]

/-- From `tnext` on the channel polls, and the EC answers `v` (42_mailbox.md R261). -/
theorem channelStep_poll {s : State} {c : ChanId} {m : MboxCtx} (hp : c.val < s.params.nch)
    (h : AtStep (s.select c) m .poll) (htime : m.tnext ≤ s.now) (v : Byte) :
    s.channelStep c (.draw (v.setWidth 16)) = exec (.statRd v) (s.select c) := by
  refine channelStep_event hp h ?_
  simp only [State.mboxEvent, h.step, byte_draw]
  exact if_pos htime

/-- `k` polls after the wait began in `s`, channel `c` waits in `u`: its next poll is `k` delays after the beginning or
later, and no later than one delay after the last poll before the deadline. -/
structure Polling (s u : State) (c : ChanId) (k : Nat) : Prop where
  params : u.params = s.params
  busy : (u.chan c).busy = true
  began : s.now ≤ u.now
  trace : u.trace.length = s.trace.length + k
  ctx : ∃ m, AtStep (u.select c) m .poll ∧ m.t0 = s.now ∧ s.now + k * s.params.pollDelayTicks.toNat ≤ m.tnext ∧
    m.tnext ≤ s.now + (s.params.timeoutTicks.toNat + s.params.pollDelayTicks.toNat - 1)

/-- The wait that began in `s` has ended with TIMEOUT in `u`, at the first poll past the deadline. -/
structure PollEnded (s u : State) (c : ChanId) : Prop where
  params : u.params = s.params
  completed : Completed (u.chan c) .timeout 0 .timedOut 0 false
  late : s.now + s.params.timeoutTicks.toNat ≤ u.now
  trace : ∃ k, u.trace.length = s.trace.length + k + 1 ∧
    k * s.params.pollDelayTicks.toNat ≤ s.params.timeoutTicks.toNat + s.params.pollDelayTicks.toNat - 1

/-- The wait that began in `s` goes on in `u`, which is less than one poll delay past the deadline. -/
def WaitGoesOn (s u : State) (c : ChanId) : Prop :=
  (∃ k, Polling s u c k) ∧
    u.now < s.now + s.params.timeoutTicks.toNat + s.params.pollDelayTicks.toNat

section Wait

variable {s u t : State} {c : ChanId} (hp : c.val < s.params.nch)
include hp

/-- After some ticks the channel has its turn, and the EC answers busy: the wait goes on or ends (R261). -/
theorem Polling.step {k : Nat} (h : Polling s u c k) (d : Nat) {v : Byte}
    (hv : v.getLsbD 1 = true ∨ v.getLsbD 2 = true)
    (hstep : (u.setNow (u.now + d)).channelStep c (.draw (v.setWidth 16)) = .next t) :
    WaitGoesOn s t c ∨ PollEnded s t c := by
  obtain ⟨hparams, hbusy, hbegan, htrace, m, hat, ht0, hsoonest, hlatest⟩ := h
  have hp' : c.val < (u.setNow (u.now + d)).params.nch := by rw [setNow_params, hparams]; exact hp
  have hat' : AtStep ((u.setNow (u.now + d)).select c) m .poll := ⟨hat.xc, hat.mc, hat.step⟩
  by_cases hearly : u.now + d < m.tnext
  · rw [channelStep_poll_early hp' hat' hearly] at hstep
    cases hstep
    exact .inl ⟨⟨k, hparams, hbusy, Nat.le_add_right_of_le hbegan, htrace, m, hat', ht0, hsoonest, hlatest⟩,
      show u.now + d < _ by omega⟩
  · have htime : m.tnext ≤ u.now + d := Nat.not_lt.1 hearly
    rw [channelStep_poll hp' hat' htime] at hstep
    obtain ⟨t', hexec, hframe, -, -, -, -, htimeout, hagain⟩ := statusReadEventCompletes _ m v hat' htime
    cases hexec.symm.trans hstep
    have hnow : t.now = u.now + d := hframe.agents.now
    have hparams' : t.params = s.params := hframe.agents.params.trans hparams
    have htrace' : t.trace.length = s.trace.length + k + 1 := by
      rw [hframe.trace, List.length_append]
      exact congrArg (· + 1) htrace
    by_cases hlate : s.params.timeoutTicks.toNat ≤ u.now + d - m.t0
    · obtain ⟨hdone, -⟩ := htimeout hv (by rw [select_params, setNow_params, hparams]; exact hlate)
      exact .inr ⟨hparams', hdone, by omega, k, htrace', by omega⟩
    · obtain ⟨hmc, -, hxc, hrecord, -⟩ :=
        hagain hv (by rw [select_params, setNow_params, hparams]; exact Nat.not_le.1 hlate)
      rw [select_params, setNow_params, hparams] at hmc
      refine .inl ⟨⟨k + 1, hparams', hrecord.busy.trans hbusy, by omega, htrace', _, ⟨hxc, hmc, hat.step⟩, ht0, ?_, ?_⟩,
        by omega⟩
      · show _ ≤ u.now + d + s.params.pollDelayTicks.toNat
        rw [Nat.succ_mul]
        omega
      · show u.now + d + s.params.pollDelayTicks.toNat ≤ _
        omega

/-- Once the wait has ended the channel has no step. -/
theorem PollEnded.step (h : PollEnded s u c) (d : Nat) {ans : Answer}
    (hstep : (u.setNow (u.now + d)).channelStep c ans = .next t) : PollEnded s t c := by
  obtain ⟨hparams, hdone, hlate, htrace⟩ := h
  have hp' : c.val < (u.setNow (u.now + d)).params.nch := by rw [setNow_params, hparams]; exact hp
  rw [channelStep_idle hp' hdone.xc hdone.mc] at hstep
  cases hstep
  exact ⟨hparams, hdone, Nat.le_add_right_of_le hlate, htrace⟩

theorem PollEnded.pollRun {ws : List (Nat × Byte)} (h : PollEnded s u c) (hrun : u.pollRun c ws = some t) :
    PollEnded s t c := by
  induction ws generalizing u with
  | nil => cases hrun; exact h
  | cons w ws ih =>
    rw [State.pollRun] at hrun
    split at hrun
    · next hstep => exact ih (h.step hp w.1 hstep) hrun
    · cases hrun
    · cases hrun

/-- After a run of polls that all find the EC busy the wait goes on or has ended. -/
theorem Polling.pollRun {k : Nat} {ws : List (Nat × Byte)} (h : Polling s u c k)
    (hbusy : ∀ w ∈ ws, w.2.getLsbD 1 = true ∨ w.2.getLsbD 2 = true) (hne : ws ≠ [])
    (hrun : u.pollRun c ws = some t) : WaitGoesOn s t c ∨ PollEnded s t c := by
  induction ws generalizing u k with
  | nil => exact absurd rfl hne
  | cons w ws ih =>
    rw [State.pollRun] at hrun
    split at hrun
    · next hstep =>
      obtain hgoes | hended := h.step hp w.1 (hbusy w List.mem_cons_self) hstep
      · cases ws with
        | nil => cases hrun; exact .inl hgoes
        | cons w' ws' =>
          obtain ⟨⟨k', hk'⟩, -⟩ := hgoes
          exact ih hk' (fun w hw => hbusy w (List.mem_cons_of_mem _ hw)) (List.cons_ne_nil _ _) hrun
      · exact .inr (hended.pollRun hp hrun)
    · cases hrun
    · cases hrun

end Wait

/-- Settles O53: polls before the deadline are a delay apart, so they are few; the first past it ends the wait. -/
theorem timeoutBoundsTheWait : Obligations.TimeoutBoundsTheWait := by
  intro s t c m ws hp h hb ht0 htnext hbusy hrun limit delay
  have hstart : Polling s s c 0 := ⟨rfl, hb, Nat.le_refl _, rfl, m, h, ht0, by omega, by omega⟩
  have hpolls : ∀ k, 1 ≤ delay → k * delay ≤ limit + delay - 1 → k ≤ (limit + delay - 1) / delay :=
    fun k hd hk => (Nat.le_div_iff_mul_le hd).2 hk
  have hcases : WaitGoesOn s t c ∨ PollEnded s t c ∨ ws = [] := by
    by_cases hne : ws = []
    · exact .inr (.inr hne)
    · exact (hstart.pollRun hp hbusy hne hrun).imp_right .inl
  obtain ⟨⟨k, hk⟩, hnow⟩ | ⟨-, hdone, hlate, k, htrace, hk⟩ | rfl := hcases
  · obtain ⟨_, -, -, hsoonest, hlatest⟩ := hk.ctx
    refine ⟨fun _ => hk.busy, fun _ hlate => absurd hlate (by omega), fun hd => ?_⟩
    have := hpolls k hd (Nat.le_of_add_le_add_left (hsoonest.trans hlatest))
    rw [hk.trace]
    omega
  · refine ⟨fun hearly => absurd hlate (by omega), fun _ _ => hdone, fun hd => ?_⟩
    have := hpolls k hd hk
    omega
  · cases hrun
    exact ⟨fun _ => hb, fun hne => absurd rfl hne, fun _ => Nat.le_add_right_of_le (Nat.le_add_right _ _)⟩

end Sys2Proof.Machine

/-! SUPPORT. The steps of a mailbox command go forward (42_mailbox.md R279): no step of another agent touches the
mailbox context of a command in flight, and each step of its own channel goes on from where it stands. -/

namespace Sys2Proof.Machine

/-- Where a mailbox step stands in the course of a command (42_mailbox.md R279). -/
def MboxStep.rank (st : MboxStep) : Nat :=
  [MboxStep.lock, .build, .sendHdr, .sendPayload, .strobe, .poll, .flag, .read, .validate].idxOf st

/-- From `s` to `t` the mailbox command of channel `c` did not go back, and its length stayed. -/
def MboxForward (s t : State) (c : ChanId) : Prop :=
  ∀ m m', (s.chan c).mc = some m → (t.chan c).mc = some m' → m.step.rank ≤ m'.step.rank ∧ m'.len = m.len

section MboxForward

variable {s t : State} {c : ChanId}

theorem MboxForward.of_same (h : (t.chan c).mc = (s.chan c).mc) : MboxForward s t c := by
  intro m m' hm hm'
  cases hm.symm.trans (h.symm.trans hm')
  exact ⟨Nat.le_refl _, rfl⟩

theorem MboxForward.of_none (h : (s.chan c).mc = none) : MboxForward s t c := by
  intro m m' hm
  cases h.symm.trans hm

theorem MboxForward.of_ended (h : (t.chan c).mc = none) : MboxForward s t c := by
  intro m m' _ hm'
  cases h.symm.trans hm'

theorem MboxForward.goes_on {m : MboxCtx} {st st' : MboxStep} {t0 tnext : Nat} (hm : (s.chan c).mc = some m)
    (hst : m.step = st) (ht : (t.chan c).mc = some { step := st', t0 := t0, tnext := tnext, len := m.len })
    (hrank : st.rank ≤ st'.rank) : MboxForward s t c := by
  intro n n' hn hn'
  cases hm.symm.trans hn
  cases ht.symm.trans hn'
  exact ⟨by rw [hst]; exact hrank, rfl⟩

end MboxForward

/-! ### Steps of the clients -/

section Clients

variable {s t : State} {c : ChanId} (hb : (s.chan c).busy = true)
include hb

/-- A command word leaves the mailbox context of a busy channel: it is dropped there, and accepted elsewhere
(40_control.md R173). -/
theorem mc_issueCommand (w : Word) {body : State → State} (hbody : ∀ u, c ≠ u.sel → Spared u (body u) c) :
    ((s.issueCommand w body).chan c).mc = (s.chan c).mc := by
  obtain ⟨-, hidle, e⟩ | ⟨-, -, e⟩ | ⟨-, e⟩ := issueCommand_cases (s := s) w body <;> rw [e]
  · have hd : c ≠ s.sel := by
      rintro rfl
      cases hb.symm.trans hidle
    rw [(hbody (s.modChan s.sel fun ch => ch.latch w) hd).chan, chan_modChan_ne _ _ _ _ hd]
  · rw [chan_modChan]
    split
    · next e => rw [e, dropWrite_mc]
    · rfl

theorem mc_command {i : Instr} (hi : i.isCommand = true) (he : exec i s = .next t) :
    (t.chan c).mc = (s.chan c).mc := by
  cases i with
  | configure => cases he; exact mc_issueCommand hb _ spared_configureWindow
  | xferWr => cases he; exact mc_issueCommand hb _ (spared_xferStart .wr)
  | xferRd => cases he; exact mc_issueCommand hb _ (spared_xferStart .rd)
  | mboxExec n => cases he; exact mc_issueCommand hb _ (spared_mboxStart n)
  | _ => cases hi

/-- A write within a channel leaves its mailbox context (40_control.md R172, R173, R178). -/
theorem mc_channelWrite (d : ChanId) (r : Nat) (v : Word) :
    ((s.modChan d fun ch => ch.write r v).chan c).mc = (s.chan c).mc := by
  rw [chan_modChan]
  split
  · next e =>
    obtain ⟨w, dn, -, hw⟩ | ⟨hidle, -⟩ := channel_write_cases (s.chan d) r v
    · rw [hw, e]
    · rw [e] at hb; cases hb.symm.trans hidle
  · rfl

theorem mc_csrWrite {off : Nat} {v : Word} (he : s.csrWrite off v = .next t) : (t.chan c).mc = (s.chan c).mc := by
  unfold State.csrWrite at he
  split at he
  · next d r _ =>
    split at he
    · unfold State.writeCommand at he
      split at he
      · next i hi => exact mc_command (s := s.select d) hb (decodeCommand_isCommand hi) he
      · cases he
        exact mc_issueCommand (s := s.select d) hb v fun u hd => Spared.rfl.complete hd _ _ _ _
    · cases he; exact mc_channelWrite hb d r v
  · cases he; rfl

/-- A client's step leaves the mailbox context of a busy channel. -/
theorem mc_clientStep {k : ChanId} (he : s.clientStep k = .next t) : (t.chan c).mc = (s.chan c).mc := by
  unfold State.clientStep at he
  split at he
  · cases he; rfl
  split at he
  · cases he; rfl
  · unfold State.clientWrite at he
    split at he
    · exact mc_csrWrite (s := s.clientGoesOn k _) hb he
    split at he
    · cases he; rfl
    split at he
    · next hs =>
      cases he
      obtain ⟨m, rfl, -⟩ := hostWrites_eq_some hs
      rfl
    · cases he; rfl
  · cases he
    unfold State.clientRead
    split
    · rfl
    split
    · rfl
    split <;> rfl
  · cases he; rfl

end Clients

/-! ### Steps of the channel -/

/-- The mailbox steps that have a sub-transfer, and where each goes on (42_mailbox.md R246, R252, R266). -/
theorem SubOk.step_ret {m : MboxCtx} {x : XferCtx} (h : SubOk m x) :
    (m.step = .sendHdr ∧ x.ret = .sendPayload) ∨ (m.step = .sendPayload ∧ x.ret = .sent) ∨
      (m.step = .read ∧ x.ret = .validate) := by
  unfold SubOk at h
  split at h
  · next hst => obtain ⟨-, -, -, -, hret⟩ := h; exact .inl ⟨hst, hret⟩
  · next hst => obtain ⟨-, -, -, -, hret⟩ := h; exact .inr (.inl ⟨hst, hret⟩)
  · next hst => obtain ⟨-, -, -, -, hret⟩ := h; exact .inr (.inr ⟨hst, hret⟩)
  all_goals exact h.elim

/-- What an event of the window does: the selected channel's operation moves data and advances its transfer
(41_transfer.md R206 to R208, R214). -/
theorem exec_window {s t : State} {i : Instr} {off : Nat} (hoff : windowOffset i = some off)
    (he : exec i s = .next t) :
    ∃ x op u sum, s.currentOp = some (x, op) ∧ DataMove s u ∧ t = u.opStep i { x with sum := sum } := by
  cases i with
  | selLo v => obtain ⟨x, ph, hop, rfl⟩ := execSelLo_eq_next.1 he; exact ⟨x, _, s, x.sum, hop, .refl s, rfl⟩
  | selHi v => obtain ⟨x, ph, hop, rfl⟩ := execSelHi_eq_next.1 he; exact ⟨x, _, s, x.sum, hop, .refl s, rfl⟩
  | dbWr j v =>
    obtain ⟨x, idx, ph, hop, -, -, rfl⟩ := execDbWr_eq_next.1 he
    exact ⟨x, _, s, _, hop, .refl s, rfl⟩
  | dbRd j v =>
    obtain ⟨x, idx, ph, u, hop, -, hu, rfl⟩ := execDbRd_eq_next.1 he
    exact ⟨x, _, u, _, hop, dataMove_dst hu, rfl⟩
  | dhWr g v =>
    obtain ⟨x, idx, ph, b0, b1, hop, -, -, -, -, rfl⟩ := execDhWr_eq_next.1 he
    exact ⟨x, _, s, _, hop, .refl s, rfl⟩
  | dhRd g v =>
    obtain ⟨x, idx, ph, u, hop, -, hu, rfl⟩ := execDhRd_eq_next.1 he
    exact ⟨x, _, u, _, hop, dataMove_dst2 hu, rfl⟩
  | _ => cases hoff

section Own

variable {s t : State}

/-- An operation of a sub-transfer leaves the mailbox step, and the last one goes on to the next (41_transfer.md R214,
42_mailbox.md R252, R253, R268). -/
theorem forward_window (h : s.Inv) {i : Instr} {off : Nat} (hoff : windowOffset i = some off)
    (he : exec i s = .next t) : MboxForward s t s.sel := by
  obtain ⟨x, op, u, sum, hcur, hmove, rfl⟩ := exec_window hoff he
  obtain ⟨-, hx, -⟩ := currentOp_eq_some.1 hcur
  have hdone := opDone_opStep hmove i x sum
  obtain ⟨hok, -⟩ := (h.chan s.sel).xfer x hx
  by_cases hlast : x.pos + 1 = x.ops.length
  · cases hm : (s.chan s.sel).mc with
    | none => exact .of_none hm
    | some m =>
      obtain ⟨hst, hret⟩ | ⟨hst, hret⟩ | ⟨hst, hret⟩ := ((h.chan s.sel).sub x m hx hm).step_ret
      · obtain ⟨-, -, hmore, hzero⟩ := hdone.sendPayload hlast hret m hm
        by_cases h0 : m.len = 0
        · exact .goes_on hm hst (hzero h0).1 (by decide)
        · exact .goes_on hm hst (hmore h0).1 (by decide)
      · obtain ⟨-, -, hmc, -⟩ := hdone.sent hlast hret m hm
        exact .goes_on hm hst hmc (by decide)
      · obtain ⟨-, -, hmc, -⟩ := hdone.validate hlast hret m hm
        exact .goes_on hm hst hmc (by decide)
  · have hmore : x.pos + 1 < x.ops.length := Nat.lt_of_le_of_ne hok.pos hlast
    obtain ⟨-, -, hmc, -⟩ := hdone.more _ (List.getElem?_eq_getElem hmore)
    exact .of_same hmc

/-- The strobe goes on to the wait or ends the command (42_mailbox.md R257). -/
theorem forward_strobe {v : Byte} (he : exec (.strobe v) s = .next t) : MboxForward s t s.sel := by
  obtain ⟨m, hm, rfl, -⟩ := execStrobe_eq_next.1 he
  have hat := atStep_of_mboxAt hm
  obtain ⟨t', he', -, -, -, -, hends, hwaits⟩ := strobeEventCompletes s m hat
  cases he.symm.trans he'
  cases hn : (s.chan s.sel).noresp with
  | true => exact .of_ended (hends hn).1.mc
  | false => exact .goes_on hat.mc hat.step (hwaits hn).1 (by decide)

/-- A status read goes on to the flag read, ends the command or sets the next poll (42_mailbox.md R261). -/
theorem forward_statRd {v : Byte} (he : exec (.statRd v) s = .next t) : MboxForward s t s.sel := by
  obtain ⟨m, hm, htime, -⟩ := execStatRd_eq_next.1 he
  have hat := atStep_of_mboxAt hm
  obtain ⟨t', he', -, -, -, -, hready, htimeout, hagain⟩ := statusReadEventCompletes s m v hat htime
  cases he.symm.trans he'
  by_cases hbusy : v.getLsbD 1 = true ∨ v.getLsbD 2 = true
  · by_cases hlate : s.params.timeoutTicks.toNat ≤ s.now - m.t0
    · exact .of_ended (htimeout hbusy hlate).1.mc
    · exact .goes_on hat.mc rfl (hagain hbusy (Nat.not_le.1 hlate)).1 (Nat.le_refl _)
  · simp only [not_or, Bool.not_eq_true] at hbusy
    exact .goes_on hat.mc hat.step (hready hbusy).1 (by decide)

/-- The flag read goes on to the response or ends the command (42_mailbox.md R266). -/
theorem forward_flagRd {v : Byte} (he : exec (.flagRd v) s = .next t) : MboxForward s t s.sel := by
  obtain ⟨m, hm, -⟩ := execFlagRd_eq_next.1 he
  have hat := atStep_of_mboxAt hm
  obtain ⟨t', he', -, -, -, -, hbad, hgood⟩ := flagReadEventCompletes s m v hat
  cases he.symm.trans he'
  by_cases hv : v = 0
  · exact .goes_on hat.mc hat.step (hgood hv).1 (by decide)
  · exact .of_ended (hbad hv).1.mc

/-- The lock step, the build step and the validate step go forward (42_mailbox.md R243, R246, R269). -/
theorem forward_internalStep : MboxForward s s.internalStep s.sel := by
  obtain e | ⟨x, -, -, e⟩ | ⟨m, hx, hm, ⟨hst, -, e⟩ | ⟨hst, e⟩ | ⟨-, e⟩⟩ := internalStep_cases s <;> rw [e]
  · exact .of_same rfl
  · exact .of_same (by rw [acquireXlock_chan])
  · exact .goes_on hm hst (congrArg Channel.mc (acquireMlock_chan hm)) (by decide)
  · cases hread : s.hostReads (s.chan s.sel).reqAddr m.len with
    | none => exact .of_same (by simp only [State.mboxBuild, hread])
    | some payload =>
      rw [mboxBuild_framed hread]
      generalize overlay (requestBytes s.params (s.chan s.sel).mailboxId m.len payload) s.txbuf = tx
      exact .goes_on hm hst (congrArg Channel.mc (sendHeader_chan (s := s.setTxbuf tx) hm)) (by decide)
  · obtain ⟨_, _, _, -, -, e⟩ | ⟨u, -, -, -, -, e⟩ | e := mboxValidate_cases s s.sel <;> rw [e]
    · exact .of_ended (by rw [complete_chan_self, completed_mc])
    · exact .of_ended (by rw [complete_chan_self, completed_mc])
    · exact .of_same rfl

/-- A port event of the channel goes forward. -/
theorem forward_event (h : s.Inv) {i : Instr} (hi : i.isCommand = false) (he : exec i s = .next t) :
    MboxForward s t s.sel := by
  cases i with
  | strobe v => exact forward_strobe he
  | statRd v => exact forward_statRd he
  | flagRd v => exact forward_flagRd he
  | configure | xferWr | xferRd | mboxExec n => cases hi
  | _ => exact forward_window h rfl he

end Own

/-! ### The step of the machine -/

section Steps

variable {s t : State} {c : ChanId} (h : s.Inv)
include h

/-- A channel's step takes its own mailbox command forward and leaves the others. -/
theorem forward_channelStep {d : ChanId} {ans : Answer} (he : s.channelStep d ans = .next t) : MboxForward s t c := by
  obtain ⟨-, e⟩ | ⟨-, i, u, hi, hu, e⟩ | ⟨-, -, e⟩ := channelStep_cases s d ans <;> cases e.symm.trans he
  · exact .of_same rfl
  · obtain ⟨-, hev, -⟩ := nextEvent_issued (h.select d) hi
    by_cases hd : c = d
    · subst hd
      exact forward_event (h.select c) hev hu
    · exact .of_same (congrArg Channel.mc (spared_event (s := s.select d) hev hu hd).chan)
  · by_cases hd : c = d
    · subst hd
      exact forward_internalStep (s := s.select c)
    · exact .of_same (congrArg Channel.mc (spared_internalStep (s := s.select d) hd).chan)

theorem forward_perform {i : Input} (he : s.perform i = .next t) : MboxForward s t c := by
  cases i with
  | client k =>
    cases hm : (s.chan c).mc with
    | none => exact .of_none hm
    | some m => exact .of_same (mc_clientStep ((h.chan c).busy_of_mc hm) he)
  | channel d ans => exact forward_channelStep h he
  | ec m => cases he; exact .of_same rfl
  | clock d => cases he; exact .of_same rfl
  | reset => cases he; exact .of_ended (by rw [resetBlock_chan]; rfl)

end Steps

/-- Settles O57: each agent's step takes a mailbox command forward, and taking its move from the schedule leaves it. -/
theorem mailboxStepsGoForward : Obligations.MailboxStepsGoForward := by
  intro s t c m m' h he hm hm'
  rw [← nextInput_chan s c] at hm
  exact forward_perform h.nextInput he m m' hm hm'

end Sys2Proof.Machine

/-! SUPPORT. Every agent's step answers a next state (60_exceptions.md R290): the outcomes of a control-register write and
of a client's step. -/

namespace Sys2Proof.Machine

/-- What a control-register write does: nothing, the command word of a channel, or a write within a channel
(40_control.md R172 to R179). -/
theorem csrWrite_cases (s : State) (off : Nat) (v : Word) :
    s.csrWrite off v = .next s ∨
    (∃ c, s.chanOfOffset off = some (c, 0) ∧ s.csrWrite off v = s.writeCommand c v) ∨
    (∃ c r, s.csrWrite off v = .next (s.modChan c fun ch => ch.write r v)) := by
  cases hoff : s.chanOfOffset off with
  | none => exact .inl (by rw [State.csrWrite, hoff])
  | some cr =>
    obtain ⟨c, r⟩ := cr
    by_cases hr : r = 0
    · subst hr
      exact .inr (.inl ⟨c, rfl, by simp only [State.csrWrite, hoff, if_true]⟩)
    · exact .inr (.inr ⟨c, r, by simp only [State.csrWrite, hoff, hr, if_false]⟩)

/-- What a client's step does: it holds, it goes on with host memory written at most, or its line is an admitted write
to a control register (40_control.md R170, R171; 70_reset_and_hazards.md R337). -/
theorem clientStep_cases (s : State) (k : ChanId) :
    s.clientStep k = .next s ∨
    (∃ m cl, s.clientStep k = .next ((s.setHostMem m).setClient k cl)) ∨
    (∃ a w v rest, (s.client k).prog = .write a w v :: rest ∧ csrAdmitted s.params a w = true ∧
      s.clientStep k = (s.clientGoesOn k rest).csrWrite (csrOffset s.params a) v) := by
  unfold State.clientStep
  split
  · exact .inl rfl
  split
  · exact .inl rfl
  · next a w v rest hprog =>
    unfold State.clientWrite
    split
    · next hcsr => exact .inr (.inr ⟨a, w, v, rest, hprog, hcsr, rfl⟩)
    split
    · exact .inl rfl
    split
    · next hs =>
      obtain ⟨m, rfl, -⟩ := hostWrites_eq_some hs
      exact .inr (.inl ⟨m, _, rfl⟩)
    · exact .inl rfl
  · unfold State.clientRead
    split
    · exact .inr (.inl ⟨s.hostMem, _, rfl⟩)
    split
    · exact .inl rfl
    split
    · exact .inr (.inl ⟨s.hostMem, _, rfl⟩)
    · exact .inl rfl
  · exact .inr (.inl ⟨s.hostMem, _, rfl⟩)

/-- A control-register write answers a next state: its command word is accepted, dropped or ignored
(40_control.md R173, R174, R182). -/
theorem csrWrite_next (s : State) (off : Nat) (v : Word) : ∃ t, s.csrWrite off v = .next t := by
  obtain e | ⟨c, -, e⟩ | ⟨c, r, e⟩ := csrWrite_cases s off v
  · exact ⟨_, e⟩
  · obtain ⟨body, hcommand⟩ := writeCommand_eq_issueCommand s c v
    exact ⟨_, e.trans hcommand⟩
  · exact ⟨_, e⟩

/-- A client's step answers a next state, also where its line is no admitted access (10_state.md R33). -/
theorem clientStep_next (s : State) (k : ChanId) : ∃ t, s.clientStep k = .next t := by
  obtain e | ⟨m, cl, e⟩ | ⟨a, w, v, rest, -, -, e⟩ := clientStep_cases s k
  · exact ⟨_, e⟩
  · exact ⟨_, e⟩
  · rw [e]; exact csrWrite_next _ _ _

/-- A channel's step answers a next state: it never runs an event but the one it issues (20_memory.md R94). -/
theorem channelStep_next (s : State) (c : ChanId) (ans : Answer) : ∃ t, s.channelStep c ans = .next t := by
  obtain ⟨-, e⟩ | ⟨-, i, t, -, -, e⟩ | ⟨-, -, e⟩ := channelStep_cases s c ans <;> exact ⟨_, e⟩

theorem perform_next (s : State) (i : Input) : ∃ t, s.perform i = .next t := by
  cases i with
  | client k => exact clientStep_next s k
  | channel c ans => exact channelStep_next s c ans
  | ec m => exact ⟨_, rfl⟩
  | clock d => exact ⟨_, rfl⟩
  | reset => exact ⟨_, rfl⟩

/-- Settles O5: each agent's step answers a next state, whichever agent moves. -/
theorem everyStepAnswersNext : Obligations.EveryStepAnswersNext :=
  fun s => perform_next s.nextInput.2 s.nextInput.1

end Sys2Proof.Machine

/-! SUPPORT. The frame of a command word (40_control.md R174): its acceptance changes neither another channel nor an
agent. -/

namespace Sys2Proof.Machine

/-- What acceptance runs (40_control.md R175) leaves the agents and every channel but the selected one. -/
structure CommandBody (body : State → State) : Prop where
  agents : ∀ u, SameAgents u (body u)
  others : ∀ u, SameOthers u (body u) u.sel

theorem SameAgents.trans {s u t : State} (h : SameAgents s u) (k : SameAgents u t) : SameAgents s t :=
  ⟨k.params.trans h.params, k.now.trans h.now, k.clients.trans h.clients, k.sched.trans h.sched,
    k.drawn.trans h.drawn⟩

theorem SameAgents.refl (s : State) : SameAgents s s := ⟨rfl, rfl, rfl, rfl, rfl⟩

/-! ### The bodies of the commands -/

theorem commandBody_configureWindow : CommandBody State.configureWindow where
  agents u := by
    unfold State.configureWindow
    dsimp only
    split
    · exact ⟨rfl, rfl, rfl, rfl, rfl⟩
    split <;> exact ⟨rfl, rfl, rfl, rfl, rfl⟩
  others u _ hd := (spared_configureWindow u hd).chan

theorem commandBody_xferStart (dir : Dir) : CommandBody fun u => u.xferStart dir where
  agents u := by
    unfold State.xferStart
    dsimp only
    split
    · exact ⟨rfl, rfl, rfl, rfl, rfl⟩
    split <;> exact ⟨rfl, rfl, rfl, rfl, rfl⟩
  others u _ hd := (spared_xferStart dir u hd).chan

theorem commandBody_mboxStart (n : Bool) : CommandBody fun u => u.mboxStart n where
  agents u := by
    unfold State.mboxStart
    dsimp only
    split
    · exact ⟨rfl, rfl, rfl, rfl, rfl⟩
    split <;> exact ⟨rfl, rfl, rfl, rfl, rfl⟩
  others u _ hd := (spared_mboxStart n u hd).chan

theorem commandBody_raise (kind : Kind) (code : Half) : CommandBody fun u => u.raise u.sel kind code where
  agents _ := ⟨rfl, rfl, rfl, rfl, rfl⟩
  others _ _ hd := complete_chan_ne _ _ _ _ _ _ _ hd

section Acceptance

variable {body : State → State} (h : CommandBody body) (s : State) (w : Word)
include h

theorem CommandBody.sameAgents : SameAgents s (s.issueCommand w body) := by
  obtain ⟨-, -, e⟩ | ⟨-, -, e⟩ | ⟨-, e⟩ := issueCommand_cases (s := s) w body <;> rw [e]
  · have hlatch : SameAgents s (s.modChan s.sel fun ch => ch.latch w) := ⟨rfl, rfl, rfl, rfl, rfl⟩
    exact hlatch.trans (h.agents _)
  · exact ⟨rfl, rfl, rfl, rfl, rfl⟩
  · exact .refl s

theorem CommandBody.sameOthers : SameOthers s (s.issueCommand w body) s.sel := by
  intro d hd
  obtain ⟨-, -, e⟩ | ⟨-, -, e⟩ | ⟨-, e⟩ := issueCommand_cases (s := s) w body <;> rw [e]
  · exact (h.others (s.modChan s.sel _) d hd).trans (chan_modChan_ne _ _ _ _ hd)
  · exact chan_modChan_ne _ _ _ _ hd

end Acceptance

/-- Each command is the acceptance step of its word, and keeps to its channel (40_control.md R174, R175). -/
theorem exec_commandBody {i : Instr} (hi : i.isCommand = true) (s : State) :
    ∃ body, exec i s = .next (s.issueCommand (encodeWord i) body) ∧ CommandBody body := by
  cases i with
  | configure => exact ⟨_, rfl, commandBody_configureWindow⟩
  | xferWr => exact ⟨_, rfl, commandBody_xferStart .wr⟩
  | xferRd => exact ⟨_, rfl, commandBody_xferStart .rd⟩
  | mboxExec n => exact ⟨_, rfl, commandBody_mboxStart n⟩
  | _ => cases hi

/-- A word written to `CH_CMD(c)`, legal or not, changes neither another channel nor an agent (40_control.md R174,
R176). -/
theorem writeCommand_frame {s t : State} {c : ChanId} {w : Word} (he : s.writeCommand c w = .next t) :
    SameAgents s t ∧ SameOthers s t c := by
  have hselect : SameAgents s (s.select c) := ⟨rfl, rfl, rfl, rfl, rfl⟩
  have hbody : ∃ v body, s.writeCommand c w = .next ((s.select c).issueCommand v body) ∧ CommandBody body := by
    unfold State.writeCommand
    split
    · next hi => exact ⟨_, exec_commandBody (decodeCommand_isCommand hi) _⟩
    · exact ⟨w, _, rfl, commandBody_raise .badCommand 0⟩
  obtain ⟨v, body, e, h⟩ := hbody
  cases e.symm.trans he
  exact ⟨hselect.trans (h.sameAgents (s.select c) v), h.sameOthers (s.select c) v⟩

end Sys2Proof.Machine

/-! SUPPORT. The time input and the parameters (60_exceptions.md R314; 10_state.md R39, R40): no instruction and no step
without an event writes them, and the clock goes forward. -/

namespace Sys2Proof.Machine

section Steps

variable {s t : State}

theorem OwnStep.sameAgents {c : ChanId} (h : OwnStep s t c) : SameAgents s t := by
  obtain ⟨-, hagents, -⟩ := h.frame
  exact hagents

theorem DataMove.sameAgents (h : DataMove s t) : SameAgents s t := by
  obtain ⟨m, tx, rx, rfl⟩ := h
  exact ⟨rfl, rfl, rfl, rfl, rfl⟩

theorem opStep_sameAgents (s : State) (i : Instr) (x : XferCtx) : SameAgents s (s.opStep i x) := by
  obtain ⟨-, hagents, -⟩ := opStep_frame s x i
  exact hagents

/-- No event of the window changes an agent: its operation moves data and its channel alone (41_transfer.md R214). -/
theorem sameAgents_window {i : Instr} {off : Nat} (hoff : windowOffset i = some off) (he : exec i s = .next t) :
    SameAgents s t := by
  obtain ⟨x, op, u, sum, -, hmove, rfl⟩ := exec_window hoff he
  exact hmove.sameAgents.trans (opStep_sameAgents u i _)

/-- No port event changes an agent. -/
theorem sameAgents_event {i : Instr} (hi : i.isCommand = false) (he : exec i s = .next t) : SameAgents s t := by
  have hevent : SameAgents s (s.issueEvent s.sel i) := ⟨rfl, rfl, rfl, rfl, rfl⟩
  cases i with
  | strobe v =>
    obtain ⟨-, -, -, rfl⟩ := execStrobe_eq_next.1 he
    exact hevent.trans (ownStep_mboxStrobe _ s.sel).sameAgents
  | statRd v =>
    obtain ⟨m, -, -, rfl⟩ := execStatRd_eq_next.1 he
    exact hevent.trans (ownStep_mboxPoll _ s.sel m v).sameAgents
  | flagRd v =>
    obtain ⟨-, -, rfl⟩ := execFlagRd_eq_next.1 he
    exact hevent.trans (ownStep_mboxFlag _ s.sel v).sameAgents
  | configure | xferWr | xferRd | mboxExec n => cases hi
  | _ => exact sameAgents_window rfl he

/-- No instruction changes an agent. -/
theorem sameAgents_exec {i : Instr} (he : exec i s = .next t) : SameAgents s t := by
  cases hi : i.isCommand with
  | false => exact sameAgents_event hi he
  | true =>
    obtain ⟨body, e, h⟩ := exec_commandBody hi s
    cases e.symm.trans he
    exact h.sameAgents s _

/-- No step without an event changes an agent. -/
theorem sameAgents_internalStep (s : State) : SameAgents s s.internalStep := by
  obtain e | ⟨x, -, -, e⟩ | ⟨m, -, -, ⟨-, -, e⟩ | ⟨-, e⟩ | ⟨-, e⟩⟩ := internalStep_cases s <;> rw [e]
  · exact .refl s
  · exact ⟨rfl, rfl, rfl, rfl, rfl⟩
  · exact ⟨rfl, rfl, rfl, rfl, rfl⟩
  · cases hread : s.hostReads (s.chan s.sel).reqAddr m.len with
    | none => simp only [State.mboxBuild, hread]; exact .refl s
    | some payload =>
      rw [mboxBuild_framed hread]
      generalize overlay (requestBytes s.params (s.chan s.sel).mailboxId m.len payload) s.txbuf = tx
      exact ⟨rfl, rfl, rfl, rfl, rfl⟩
  · obtain ⟨_, _, _, -, -, e⟩ | ⟨u, hu, -, -, -, e⟩ | e := mboxValidate_cases s s.sel <;> rw [e]
    · exact ⟨rfl, rfl, rfl, rfl, rfl⟩
    · obtain ⟨mem, rfl, -⟩ := hostWrites_eq_some hu
      exact ⟨rfl, rfl, rfl, rfl, rfl⟩
    · exact .refl s

theorem sameAgents_channelStep {c : ChanId} {ans : Answer} (he : s.channelStep c ans = .next t) : SameAgents s t := by
  have hselect : SameAgents s (s.select c) := ⟨rfl, rfl, rfl, rfl, rfl⟩
  obtain ⟨-, e⟩ | ⟨-, i, u, -, hi, e⟩ | ⟨-, -, e⟩ := channelStep_cases s c ans <;> cases e.symm.trans he
  · exact .refl s
  · exact hselect.trans (sameAgents_exec hi)
  · exact hselect.trans (sameAgents_internalStep _)

theorem sameAgents_csrWrite {off : Nat} {v : Word} (he : s.csrWrite off v = .next t) : SameAgents s t := by
  obtain e | ⟨c, -, e⟩ | ⟨c, r, e⟩ := csrWrite_cases s off v
  · cases e.symm.trans he; exact .refl s
  · obtain ⟨hagents, -⟩ := writeCommand_frame (e.symm.trans he)
    exact hagents
  · cases e.symm.trans he; exact ⟨rfl, rfl, rfl, rfl, rfl⟩

/-- A client's step leaves the time input and the parameters. -/
theorem time_clientStep {k : ChanId} (he : s.clientStep k = .next t) : t.now = s.now ∧ t.params = s.params := by
  obtain e | ⟨m, cl, e⟩ | ⟨a, w, v, rest, -, -, e⟩ := clientStep_cases s k
  · cases e.symm.trans he; exact ⟨rfl, rfl⟩
  · cases e.symm.trans he; exact ⟨rfl, rfl⟩
  · have hagents := sameAgents_csrWrite (e.symm.trans he)
    exact ⟨hagents.now, hagents.params⟩

/-- Every agent's step but the clock's leaves the time input, and none writes the parameters. -/
theorem time_perform {i : Input} (he : s.perform i = .next t) : s.now ≤ t.now ∧ t.params = s.params := by
  cases i with
  | client k =>
    obtain ⟨hnow, hparams⟩ := time_clientStep he
    exact ⟨hnow.ge, hparams⟩
  | channel c ans =>
    have hagents := sameAgents_channelStep he
    exact ⟨hagents.now.ge, hagents.params⟩
  | ec m => cases he; exact ⟨Nat.le_refl _, rfl⟩
  | clock d => cases he; exact ⟨Nat.le_add_right _ _, rfl⟩
  | reset => cases he; exact ⟨Nat.le_refl _, rfl⟩

end Steps

/-- Settles O60: each agent's step moves the time forward at most, and taking its move from the schedule leaves it. -/
theorem timeNeverDecreasesAndParametersStay : Obligations.TimeNeverDecreasesAndParametersStay := by
  intro s t he
  obtain ⟨sch, n, hnext⟩ := nextInput_eq s
  unfold step State.runNext at he
  rw [hnext] at he
  exact time_perform (s := (s.setSched sch).setDrawn n) he

end Sys2Proof.Machine

/-! SUPPORT. The record of a command (60_exceptions.md R301): a channel with no command in flight has no step of its own,
and of the writes to it the command word alone changes the record. -/

namespace Sys2Proof.Machine

/-- The record of a channel's last command, with `STATE` and `BUSY` (60_exceptions.md R301; 10_state.md R45). -/
def Channel.record (ch : Channel) : Kind × Half × SeqState × Byte × Bool × Bool :=
  (ch.kind, ch.code, ch.state, ch.sum, ch.noop, ch.busy)

/-- A write within a channel, but for `CH_CMD`, leaves the record (40_control.md R172, R173, R178). -/
theorem record_write (ch : Channel) (r : Nat) (v : Word) : (ch.write r v).record = ch.record := by
  obtain ⟨w, d, -, e⟩ | ⟨-, j, e⟩ := channel_write_cases ch r v <;> rw [e]
  · rfl
  · unfold Channel.setArg
    split <;> rfl

/-- An admitted control-register address is that of its offset (10_state.md R33). -/
theorem csrAddr_csrOffset {p : Params} {a : Word} {w : Width} (h : csrAdmitted p a w = true) :
    csrAddr p (csrOffset p a) = a := by
  simp only [csrAdmitted, inCsr, Bool.and_eq_true, decide_eq_true_eq] at h
  obtain ⟨⟨⟨hlo, -⟩, -⟩, -⟩ := h
  apply BitVec.eq_of_toNat_eq
  have ha := a.isLt
  simp only [csrAddr, csrOffset, BitVec.toNat_add, BitVec.toNat_ofNat]
  omega

/-- The offset of `CH_CMD(c)` (10_state.md R42). -/
theorem offset_of_chanOfOffset_zero {s : State} {off : Nat} {c : ChanId} (h : s.chanOfOffset off = some (c, 0)) :
    off = 0x100 + 0x40 * c.val := by
  unfold State.chanOfOffset at h
  dsimp only at h
  split at h
  · split at h
    · cases h
    split at h
    · simp only [Option.some.injEq, Prod.mk.injEq] at h
      obtain ⟨rfl, hreg⟩ := h
      dsimp only
      omega
    · cases h
  · cases h

section Steps

variable {s t : State} {c : ChanId}

/-- A control-register write elsewhere than at `CH_CMD(c)` leaves the record of channel `c`. -/
theorem record_csrWrite {off : Nat} {v : Word} (hoff : off ≠ 0x100 + 0x40 * c.val) (he : s.csrWrite off v = .next t) :
    (t.chan c).record = (s.chan c).record := by
  obtain e | ⟨d, hd, e⟩ | ⟨d, r, e⟩ := csrWrite_cases s off v
  · cases e.symm.trans he; rfl
  · have hne : c ≠ d := by
      rintro rfl
      exact hoff (offset_of_chanOfOffset_zero hd)
    obtain ⟨-, hothers⟩ := writeCommand_frame (e.symm.trans he)
    rw [hothers c hne]
  · cases e.symm.trans he
    rw [chan_modChan]
    split
    · next hcd => rw [record_write, hcd]
    · rfl

/-- A client's line that does not write `CH_CMD(c)` leaves the record of channel `c`. -/
theorem record_clientStep {k : ChanId}
    (hline : ∀ a w v rest, (s.client k).prog = .write a w v :: rest → a ≠ csrAddr s.params (0x100 + 0x40 * c.val))
    (he : s.clientStep k = .next t) : (t.chan c).record = (s.chan c).record := by
  obtain e | ⟨m, cl, e⟩ | ⟨a, w, v, rest, hprog, hcsr, e⟩ := clientStep_cases s k
  · cases e.symm.trans he; rfl
  · cases e.symm.trans he; rfl
  · refine record_csrWrite (s := s.clientGoesOn k rest) (fun hoff => ?_) (e.symm.trans he)
    exact hline a w v rest hprog (by rw [← hoff, csrAddr_csrOffset hcsr])

/-- A channel's step leaves every other channel. -/
theorem chan_channelStep_ne {d : ChanId} {ans : Answer} (h : s.Inv) (hd : c ≠ d) (he : s.channelStep d ans = .next t) :
    t.chan c = s.chan c := by
  obtain ⟨-, e⟩ | ⟨-, i, u, hi, hu, e⟩ | ⟨-, -, e⟩ := channelStep_cases s d ans <;> cases e.symm.trans he
  · rfl
  · obtain ⟨-, hev, -⟩ := nextEvent_issued (h.select d) hi
    exact (spared_event (s := s.select d) hev hu hd).chan
  · exact (spared_internalStep (s := s.select d) hd).chan

/-- The step of a channel with no command in flight leaves it (10_state.md R53, R57; 00_scope.md R18). -/
theorem chan_channelStep_idle {ans : Answer} (h : ChanInv s c) (hb : (s.chan c).busy = false)
    (he : s.channelStep c ans = .next t) : t.chan c = s.chan c := by
  obtain ⟨hx, hm, -⟩ := h.atRest hb
  by_cases hp : c.val < s.params.nch
  · cases (channelStep_idle hp hx hm ans).symm.trans he; rfl
  · have hpres : s.present c = false := decide_eq_false hp
    simp only [State.channelStep, hpres, Bool.not_false, if_true] at he
    cases he; rfl

/-- Every agent's step but reset and a write of `CH_CMD(c)` leaves the record of a channel with no command in flight. -/
theorem record_perform {i : Input} (h : s.Inv) (hb : (s.chan c).busy = false) (hr : i ≠ .reset)
    (hline : ∀ k a w v rest, i = .client k → (s.client k).prog = .write a w v :: rest →
      a ≠ csrAddr s.params (0x100 + 0x40 * c.val))
    (he : s.perform i = .next t) : (t.chan c).record = (s.chan c).record := by
  cases i with
  | client k => exact record_clientStep (fun a w v rest => hline k a w v rest rfl) he
  | channel d ans =>
    by_cases hd : c = d
    · subst hd
      rw [chan_channelStep_idle (h.chan c) hb he]
    · rw [chan_channelStep_ne h hd he]
  | ec m => cases he; rfl
  | clock d => cases he; rfl
  | reset => exact absurd rfl hr

end Steps

/-- Settles O58: the record of a channel at rest moves by its next command word or reset alone. -/
theorem commandRecordStays : Obligations.CommandRecordStays := by
  intro s t c h he hb hr hline
  have hinv := h.nextInput
  obtain ⟨sch, n, hnext⟩ := nextInput_eq s
  unfold step State.runNext at he
  rw [hnext] at he hinv
  have hrecord : (t.chan c).record = (s.chan c).record :=
    record_perform (s := (s.setSched sch).setDrawn n) hinv hb hr hline he
  simp only [Channel.record, Prod.mk.injEq] at hrecord
  obtain ⟨hkind, hcode, hstate, hsum, hnoop, hbusy⟩ := hrecord
  exact ⟨hkind, hcode, hstate, hsum, hnoop, hbusy.trans hb⟩

end Sys2Proof.Machine
